-- ==== Sys2Proof/Word.lean ====
section
/-! DEFINITION. The word types of the machine: bytes, 16-bit words and 24-bit addresses
(00_scope.md R4: a byte is 8 bits, a word 16 bits, a long 24 bits). -/

namespace Sys2Proof

/-- A byte, the addressable unit (20_memory.md R70). -/
abbrev Byte := BitVec 8

/-- A 16-bit word: registers, offsets within a bank, 16-bit data. -/
abbrev Word := BitVec 16

/-- A 24-bit linear address `bank:offset`, or a 24-bit operand (20_memory.md R70). -/
abbrev Long := BitVec 24

end Sys2Proof
end

