-- ==== Sys2Proof/Forms.lean ====
section
/-! DEFINITION. The operand forms of the instructions: the format tags of 30_encoding.md R100 that carry
operand bytes, with those bytes in them. -/

namespace Sys2Proof

/-- A width-dependent immediate, `immM` or `immX`: one byte or two (30_encoding.md R102). -/
inductive Imm where
  | byte (v : Byte)
  | word (v : Word)
  deriving DecidableEq, Repr

/-- The data memory formats of 30_encoding.md R100, named by their tags. -/
inductive Mem where
  | dp   (off : Byte)
  | dpx  (off : Byte)
  | dpy  (off : Byte)
  | abs  (addr : Word)
  | abx  (addr : Word)
  | aby  (addr : Word)
  | izx  (off : Byte)
  | izy  (off : Byte)
  | izp  (off : Byte)
  | idl  (off : Byte)
  | idly (off : Byte)
  | abl  (addr : Long)
  | alx  (addr : Long)
  | sr   (off : Byte)
  | sry  (off : Byte)
  deriving DecidableEq, Repr

/-- What an instruction that reads a datum reads it from. -/
inductive Operand where
  | imm (v : Imm)
  | mem (m : Mem)
  deriving DecidableEq, Repr

/-- What a read-modify-write instruction works on: the accumulator (`acc`, the null address of
40_addressing.md R132) or memory. -/
inductive Target where
  | acc
  | mem (m : Mem)
  deriving DecidableEq, Repr

/-- The formats of JMP (44_control.md R293). -/
inductive JmpForm where
  | abj (addr : Word)
  | ind (ptr : Word)
  | iax (base : Word)
  deriving DecidableEq, Repr

/-- The formats of JML (44_control.md R294). -/
inductive JmlForm where
  | abl (addr : Long)
  | ial (ptr : Word)
  deriving DecidableEq, Repr

/-- The formats of JSR (44_control.md R295). -/
inductive JsrForm where
  | abj (addr : Word)
  | iax (base : Word)
  deriving DecidableEq, Repr

end Sys2Proof
end

