-- ==== Sys2Proof/Machine/Bits.lean ====
section
/-! DEFINITION. Byte order, bit fields and sign extension (00_scope.md R4, R5; 20_memory.md R72). -/

namespace Sys2Proof.Machine

/-- `v[7:0]`. -/
def loByte (v : Word) : Byte := v.setWidth 8

/-- `v[15:8]`. -/
def hiByte (v : Word) : Byte := (v >>> 8).setWidth 8

/-- `hi:lo`, `(hi << 8) | lo`: the little-endian assembly of two bytes (20_memory.md R72, 00_scope.md R4). -/
def mkWord (hi lo : Byte) : Word := (hi.setWidth 16 <<< 8) ||| lo.setWidth 16

/-- `bank:offset`, the linear address `(bank << 16) | offset` (20_memory.md R70). -/
def mkLong (bank : Byte) (off : Word) : Long := (bank.setWidth 24 <<< 16) ||| off.setWidth 24

/-- `v[15:0]` of a 24-bit value. -/
def offOf (v : Long) : Word := v.setWidth 16

/-- `v[23:16]` of a 24-bit value. -/
def bankOf (v : Long) : Byte := (v >>> 16).setWidth 8

/-- `zext_16` of a byte (00_scope.md R5). -/
def zext (v : Byte) : Word := v.setWidth 16

/-- `sext_8` of a byte, as a 16-bit displacement (00_scope.md R5, 30_encoding.md R101). -/
def sext (v : Byte) : Word := v.signExtend 16

/-- `p` with bit `n` replaced by `b` (10_state.md R34: `pSET`, `pCLR` of a one-bit mask). -/
def putBit (p : Byte) (n : Nat) (b : Bool) : Byte :=
  if b then p ||| (1#8 <<< n) else p &&& ~~~(1#8 <<< n)

end Sys2Proof.Machine
end

