-- ==== Sys2Proof/Config.lean ====
section
/-! DEFINITION. The construction parameters of 00_scope.md R3 and the one free value of the model, the
reply of a memory observer (20_memory.md R77). -/

namespace Sys2Proof

/-- The processor variant, selected once at construction (00_scope.md R1). -/
inductive Variant where
  | v6502
  | v65C02
  | v65816
  deriving DecidableEq, Repr

/-- `BASE_CYCLES` and `EXTRA_FLAG` (70_reset_and_hazards.md R470): the informative tables R471 and R472,
or tables the platform gives, indexed by the opcode (an opcode past the end of a given list counts 0 and
false). No rule of instruction semantics reads either (log 6). -/
inductive CycleTable where
  | informative
  | given (base : List Nat) (extra : List Bool)
  deriving DecidableEq, Repr

/-- The parameters of 00_scope.md R3 (but `INIT_MEM`, an argument of construction, and `STEP_BUDGET`, an
argument of the engine's tick). The open boolean parameters are the fields below. -/
structure Config where
  /-- `VARIANT` -/
  variant : Variant
  /-- `START_PC` -/
  startPc : Word
  /-- `MEM_SIZE` of the 65816 is `2^(16 + memExtra)`: a power of two from 2^16 to 2^24 -/
  memExtra : Fin 9
  /-- `RESET_D` -/
  resetD : Bool
  /-- `INT_CLEARS_D` -/
  intClearsD : Bool
  /-- `C02_BRK_CLEARS_D` -/
  c02BrkClearsD : Bool
  /-- `C02_BITOPS` -/
  c02Bitops : Bool
  /-- `IO_READ` -/
  ioRead : List Nat
  /-- `IO_WRITE` -/
  ioWrite : List Nat
  /-- `BASE_CYCLES` and `EXTRA_FLAG` -/
  cycles : CycleTable
  deriving DecidableEq, Repr

/-- The defaults of 00_scope.md R3 for a variant, with `START_PC` 0 (log 2). -/
def Config.default (v : Variant) : Config where
  variant := v
  startPc := 0
  memExtra := 2
  resetD := true
  intClearsD := false
  c02BrkClearsD := false
  c02Bitops := true
  ioRead := []
  ioWrite := []
  cycles := .informative

/-- `MEM_SIZE` (00_scope.md R3): 65536 for the 8-bit variants. -/
def Config.memSize (c : Config) : Nat :=
  match c.variant with
  | .v65816 => 2 ^ (16 + c.memExtra.val)
  | _ => 65536

/-- The whole address space is memory: the 8-bit variants, or a 65816 with `MEM_SIZE` 2^24 (20_memory.md R87). -/
def Config.covers (c : Config) : Bool := c.variant != .v65816 || c.memExtra == 8

/-- An access to an observed address (20_memory.md R77): the callback of a write receives the byte. -/
inductive IoEvent where
  | read (addr : Nat)
  | write (addr : Nat) (v : Byte)
  deriving DecidableEq, Repr

/-- What an observer does when it is called: the value a read receives, the level it leaves on the
interrupt line (none: untouched), and the bytes of memory it changes (20_memory.md R77, 60_exceptions.md
R423). -/
structure ObserverReply where
  value  : Byte
  irq    : Option Bool
  stores : List Host.Cell
  deriving DecidableEq, Repr, Inhabited

/-- FREE VALUE (log 5): the reply to the `n`-th observed access of a run. Nothing constrains it. -/
opaque Config.observerReply (n : Nat) (e : IoEvent) : ObserverReply

/-- What the decoder reads besides the bytes: the variant, `C02_BITOPS`, and the width predicates `M8`
and `X8` of the state the instruction is fetched in (30_encoding.md R102, R104, R106). -/
structure DecodeCtx where
  variant : Variant
  bitops  : Bool
  m8      : Bool
  x8      : Bool
  deriving DecidableEq, Repr

end Sys2Proof
end

