-- ==== Sys2Proof/Machine/State.lean ====
section
/-! DEFINITION. The state of the machine as plain data (10_state.md R19; 20_memory.md R71), the reasons a step can
stop, and the state after reset (R41). -/

namespace Sys2Proof.Machine

/-- The 65816's mode flag (10_state.md R27): 1 is emulation, 0 is native. -/
inductive CpuMode where
  | native
  | emulation
  deriving DecidableEq, Repr

/-- Memory in canonical form: addresses strictly rising, no byte equal to what an unlisted address reads as
(log 3). -/
abbrev Memory := List Host.Cell

/-- One observed access and the observer's reply (20_memory.md R77). -/
structure IoRecord where
  event : IoEvent
  reply : ObserverReply
  deriving DecidableEq, Repr

/-- The state of one processor instance. -/
structure State where
  /-- program counter, the offset in bank `pbr` (R20) -/
  pc : Word
  /-- accumulator; 8 significant bits when `M8` holds (R21) -/
  a : Word
  /-- hidden high byte of the accumulator (R22) -/
  b : Byte
  /-- index register X (R23) -/
  x : Word
  /-- index register Y (R23) -/
  y : Word
  /-- stack pointer (R24) -/
  sp : Word
  /-- status register N V M X D I Z C (R25, R26) -/
  p : Byte
  /-- emulation or native (R27) -/
  mode : CpuMode
  /-- data bank (R28) -/
  dbr : Byte
  /-- program bank (R28) -/
  pbr : Byte
  /-- direct-page register (R28) -/
  dpr : Word
  /-- extra cycles earned by the current step (R36) -/
  excycles : Nat
  /-- the conditional-extra-cycle flag of the current opcode (R36) -/
  addcycles : Bool
  /-- the running total of cycles (R36, 60_exceptions.md R422) -/
  processorCycles : Nat
  /-- the wait state of WAI and STP (R37, 60_exceptions.md R434) -/
  waiting : Bool
  /-- the interrupt request line, true while asserted (R38) -/
  irq : Bool
  /-- memory (20_memory.md R71) -/
  mem : Memory
  /-- the model's own: the observed accesses so far, newest first (20_memory.md R77, log 5) -/
  ioTrace : List IoRecord
  /-- the construction parameters, which no step writes (00_scope.md R3, log 1) -/
  cfg : Config
  deriving DecidableEq, Repr

/-- Why a step stops with a fault reported to the host (60_exceptions.md R410). -/
inductive Fault where
  /-- Raised by the not-implemented fallback with the opcode byte, its address `pbr:pc`, and the state the
  step leaves, from which the host may step again (48_system.md R397, 60_exceptions.md R416). Safe: the
  machine stops with exactly this outcome. -/
  | illegalOpcode (op : Byte) (addr : Long) (after : State)
  /-- Raised by a memory primitive given an address at or above `MEM_SIZE` (20_memory.md R87,
  60_exceptions.md R437). Safe: the spec gives no state after it. -/
  | addressOutOfBounds (addr : Nat)
  deriving DecidableEq, Repr

/-- Why a step is declined. -/
inductive Refusal where
  /-- Raised by `exec`'s arm of an instruction that has no meaning yet; no arm does. Safe: nothing is claimed
  of such an instruction. -/
  | notModelled (mnemonic : String)
  deriving DecidableEq, Repr

/-- The state after construction with the given parameters and memory (10_state.md R41, 60_exceptions.md R436;
the values R41 grounds in D11 are named in log 4). -/
def State.construct (cfg : Config) (image : Memory) : State where
  pc := cfg.startPc
  a := 0
  b := 0
  x := 0
  y := 0
  sp := if cfg.variant = .v65816 then 0x01FF else 0x00FF
  p := if cfg.resetD then 0x3C else 0x34
  mode := .emulation
  dbr := 0
  pbr := 0
  dpr := 0
  excycles := 0
  addcycles := false
  processorCycles := 0
  waiting := false
  irq := false
  mem := image
  ioTrace := []
  cfg := cfg

/-- The machine right after reset: the 65816 with the default parameters and nothing in memory (logs 1, 2, 3). -/
def State.reset : State := State.construct (Config.default .v65816) []

end Sys2Proof.Machine
end

