-- ==== Sys2Proof/Machine/Flags.lean ====
section
/-! DEFINITION. Flags, operand widths, the register views, the status-register setter, and the arithmetic
that computes results with their carries (10_state.md R25 to R34; 42_arithmetic.md R220 to R224). -/

namespace Sys2Proof.Machine

/-- The bits of `p` (10_state.md R25); `M` is bit 5 (MS or UNUSED), `X` is bit 4 (IRS or BREAK). -/
inductive Flag where
  | N | V | M | X | D | I | Z | C
  deriving DecidableEq, Repr

/-- The bit position of a flag (10_state.md R25). -/
def Flag.bit : Flag → Nat
  | .N => 7 | .V => 6 | .M => 5 | .X => 4 | .D => 3 | .I => 2 | .Z => 1 | .C => 0

/-- `p.f` (10_state.md R34 `isSET`). -/
def State.flag (s : State) (f : Flag) : Bool := s.p.getLsbD f.bit

/-- `p.f <- v` (10_state.md R34 `pSET`, `pCLR`). -/
def State.setFlag (s : State) (f : Flag) (v : Bool) : State := { s with p := putBit s.p f.bit v }

/-- The variant is the 65816. -/
def State.is816 (s : State) : Bool := s.cfg.variant == .v65816

/-- The 65816 in native mode. -/
def State.native (s : State) : Bool := s.is816 && s.mode == .native

/-- `M8`: the accumulator and its memory operands are 8 bits wide (10_state.md R29). -/
def State.m8 (s : State) : Bool := !s.native || s.flag .M

/-- `X8`: the index registers are 8 bits wide (10_state.md R29). -/
def State.x8 (s : State) : Bool := !s.native || s.flag .X

/-- An operand width. -/
inductive Width where
  | w8 | w16
  deriving DecidableEq, Repr

/-- The width in bits. -/
def Width.bits : Width → Nat
  | .w8 => 8
  | .w16 => 16

/-- `mask(w)` (00_scope.md R4). -/
def Width.mask : Width → Word
  | .w8 => 0x00FF
  | .w16 => 0xFFFF

/-- `sign(w)` (00_scope.md R4). -/
def Width.sign : Width → Word
  | .w8 => 0x0080
  | .w16 => 0x8000

/-- The width a predicate selects. -/
def Width.of (eight : Bool) : Width := if eight then .w8 else .w16

/-- `wA` (10_state.md R29). -/
def State.wA (s : State) : Width := .of s.m8

/-- `wX` (10_state.md R29). -/
def State.wX (s : State) : Width := .of s.x8

/-- The decoder's context in a state (30_encoding.md R102). -/
def State.ctx (s : State) : DecodeCtx := ⟨s.cfg.variant, s.cfg.c02Bitops, s.m8, s.x8⟩

/-- `A`: the `wA` bits of the accumulator an instruction reads (10_state.md R21, R30). -/
def State.acc (s : State) : Word := s.a &&& s.wA.mask

/-- `C16`: the 16-bit accumulator (10_state.md R30). -/
def State.c16 (s : State) : Word := if s.m8 then mkWord s.b (loByte s.a) else s.a

/-- `SetA` (10_state.md R30). -/
def State.setA (s : State) (v : Word) : State := { s with a := v &&& s.wA.mask }

/-- `SetC16` (10_state.md R30). -/
def State.setC16 (s : State) (v : Word) : State :=
  if s.m8 then { s with a := zext (loByte v), b := hiByte v } else { s with a := v }

/-- `SetX` (10_state.md R31). -/
def State.setX (s : State) (v : Word) : State := { s with x := v &&& s.wX.mask }

/-- `SetY` (10_state.md R31). -/
def State.setY (s : State) (v : Word) : State := { s with y := v &&& s.wX.mask }

/-- A write of the stack pointer by a transfer: the high byte stays 0x01 in emulation mode, and only the low
byte exists in the 8-bit variants (41_load_store_transfer.md R192, R197). -/
def State.setSp (s : State) (v : Word) : State :=
  { s with sp := if s.is816 then (if s.mode = .emulation then mkWord 0x01 (loByte v) else v) else zext (loByte v) }

/-- Bit `w-1` of a value. -/
def signBit (v : Word) (w : Width) : Bool := (v &&& w.sign) != 0

/-- `SetNZ(v, w)` of a value already within the width (10_state.md R33). -/
def State.setNZ (s : State) (v : Word) (w : Width) : State :=
  (s.setFlag .Z (v == 0)).setFlag .N (signBit v w)

/-- The accumulator's part of a width transition by `SetP` (10_state.md R32). -/
def State.migrateA (s : State) (oldM newM : Bool) : State :=
  if oldM && !newM then { s with a := mkWord s.b (loByte s.a), b := 0 }
  else if !oldM && newM then { s with a := zext (loByte s.a), b := hiByte s.a }
  else s

/-- The index registers narrowed to 8 bits where the width bit is set (10_state.md R32). -/
def State.truncateIndex (s : State) (eight : Bool) : State :=
  if eight then { s with x := zext (loByte s.x), y := zext (loByte s.y) } else s

/-- `SetP(v)`, the status-register setter (10_state.md R32). -/
def State.setP (s : State) (v : Byte) : State :=
  if s.native then
    let oldM := s.flag .M
    let s := { s with p := v }
    (s.migrateA oldM (s.flag .M)).truncateIndex (s.flag .X)
  else { s with p := v ||| 0x30 }

/-- A result with its carry out. -/
structure Sum where
  value : Word
  carry : Bool
  deriving DecidableEq, Repr

/-- A carry bit as a number. -/
def bitOf (c : Bool) : Nat := if c then 1 else 0

/-- Binary addition at a width: exact sum, narrowed, and the carry past the width (42_arithmetic.md R220). -/
def binAdd (w : Width) (a m : Word) (c : Bool) : Sum :=
  let sum := a.toNat + m.toNat + bitOf c
  ⟨BitVec.ofNat 16 sum &&& w.mask, decide (w.mask.toNat < sum)⟩

/-- `bcdAdd8` on the low bytes of two values (42_arithmetic.md R222). -/
def bcdAdd8 (a m : Byte) (c : Bool) : Byte × Bool :=
  let lo := a.toNat % 16 + m.toNat % 16 + bitOf c
  let lo := if 9 < lo then lo + 6 else lo
  let hi := a.toNat / 16 + m.toNat / 16 + bitOf (decide (15 < lo))
  let hi := if 9 < hi then hi + 6 else hi
  (BitVec.ofNat 8 (hi % 16 * 16 + lo % 16), decide (15 < hi))

/-- `bcdSub8` (42_arithmetic.md R223); the carry out is 1 when there is no borrow. -/
def bcdSub8 (a m : Byte) (c : Bool) : Byte × Bool :=
  let lo : Int := (a.toNat % 16 : Int) - (m.toNat % 16 : Int) - (1 - bitOf c)
  let hb := decide (lo < 0)
  let lo := if lo < 0 then lo - 6 else lo
  let hi : Int := (a.toNat / 16 : Int) - (m.toNat / 16 : Int) - bitOf hb
  let bo := decide (hi < 0)
  let hi := if hi < 0 then hi - 6 else hi
  (BitVec.ofNat 8 ((hi % 16).toNat * 16 + (lo % 16).toNat), !bo)

/-- A byte-wise decimal operation at a width: the low byte, then at 16 bits the high byte with its carry
(42_arithmetic.md R220, R221). -/
def decimal (op : Byte → Byte → Bool → Byte × Bool) (w : Width) (a m : Word) (c : Bool) : Sum :=
  let lo := op (loByte a) (loByte m) c
  match w with
  | .w8 => ⟨zext lo.1, lo.2⟩
  | .w16 =>
    let hi := op (hiByte a) (hiByte m) lo.2
    ⟨mkWord hi.1 lo.1, hi.2⟩

/-- ADC's result and carry, binary or decimal by `D` (42_arithmetic.md R220). -/
def addSum (d : Bool) (w : Width) (a m : Word) (c : Bool) : Sum :=
  if d then decimal bcdAdd8 w a m c else binAdd w a m c

/-- SBC's result and carry, binary or decimal by `D` (42_arithmetic.md R221). -/
def subSum (d : Bool) (w : Width) (a m : Word) (c : Bool) : Sum :=
  if d then decimal bcdSub8 w a m c else binAdd w a (~~~m &&& w.mask) c

/-- ADC's overflow test on the (corrected) result (42_arithmetic.md R220). -/
def addOverflow (w : Width) (a m r : Word) : Bool := signBit (~~~(a ^^^ m) &&& (a ^^^ r)) w

/-- SBC's overflow test (42_arithmetic.md R221). -/
def subOverflow (w : Width) (a m r : Word) : Bool := signBit ((a ^^^ m) &&& (a ^^^ r)) w

/-- The flags of a compare of a register with an operand (42_arithmetic.md R224). -/
def State.compare (s : State) (w : Width) (r m : Word) : State :=
  ((s.setFlag .C (decide (m.toNat ≤ r.toNat))).setFlag .Z (r == m)).setFlag .N (signBit (r - m) w)

/-- `(V << 1) | c` within a width, with the bit shifted out (43_logic_shift.md R256, R258). -/
def shiftLeft (w : Width) (v : Word) (c : Bool) : Sum :=
  ⟨((v <<< 1) ||| BitVec.ofNat 16 (bitOf c)) &&& w.mask, signBit v w⟩

/-- `(V >> 1) | (c << (w-1))`, with the bit shifted out (43_logic_shift.md R257, R259). -/
def shiftRight (w : Width) (v : Word) (c : Bool) : Sum :=
  ⟨(v >>> 1) ||| (if c then w.sign else 0), v.getLsbD 0⟩

end Sys2Proof.Machine
end

