-- ==== Sys2Proof/Machine/Memory.lean ====
section
/-! DEFINITION. Memory as a sorted list of the bytes that differ from the unlisted byte (20_memory.md R71;
log 3). -/

namespace Sys2Proof.Machine

/-- What an address not listed reads as (DESIGN CHOICE, log 3). -/
def Memory.unlisted : Byte := 0

/-- The byte at an address. -/
def Memory.read : Memory → Nat → Byte
  | [], _ => Memory.unlisted
  | (k, v) :: t, a => if a = k then v else if a < k then Memory.unlisted else Memory.read t a

/-- Memory with one byte replaced: an entry equal to the unlisted byte is left out. -/
def Memory.write : Memory → Nat → Byte → Memory
  | [], a, v => if v = Memory.unlisted then [] else [(a, v)]
  | (k, w) :: t, a, v =>
    if a = k then (if v = Memory.unlisted then t else (a, v) :: t)
    else if a < k then (if v = Memory.unlisted then (k, w) :: t else (a, v) :: (k, w) :: t)
    else (k, w) :: Memory.write t a v

/-- Every address listed is above `lo`, rising, and no byte is the unlisted one. -/
def Memory.wfFrom : Option Nat → Memory → Bool
  | _, [] => true
  | lo, (k, v) :: t =>
    (match lo with | none => true | some l => decide (l < k)) && v != Memory.unlisted && Memory.wfFrom (some k) t

/-- The canonical form of memory. -/
def Memory.wf (m : Memory) : Bool := Memory.wfFrom none m

/-- Every listed address is below `size` (20_memory.md R71). -/
def Memory.below (size : Nat) (m : Memory) : Bool := m.all fun c => decide (c.1 < size)

/-- The bytes a device leaves in memory, those at or above `size` left out (20_memory.md R77). -/
def Memory.storeCells (size : Nat) : List Host.Cell → Memory → Memory
  | [], m => m
  | (a, v) :: t, m => Memory.storeCells size t (if a < size then m.write a v else m)

end Sys2Proof.Machine
end

