-- ==== Sys2Proof/Machine/Ops.lean ====
section
/-! DEFINITION. The named operations over memory and registers: byte accesses and observers (20_memory.md R74,
R77), wide accesses (R75), the stack (R79), taking an exception (60_exceptions.md R413, 48_system.md R390,
R391) and returning from one (R392). -/

namespace Sys2Proof.Machine

/-- What a meaning answers. -/
abbrev Result := Host.Outcome State Fault Refusal

/-- The outcome of an instruction whose effect is a sequence of operations. -/
def finish : Except Fault State → Result
  | .ok s => .next s
  | .error f => .fault f

/-- `ADDR_MASK` (00_scope.md R3). -/
def State.addrMask (s : State) : Long := if s.is816 then 0xFFFFFF else 0x00FFFF

/-- An observer's callback: the free reply of this access, its effect on the interrupt line and on memory, and
the record of the event (20_memory.md R77; log 5). -/
def observe (e : IoEvent) (s : State) : Byte × State :=
  let r := Config.observerReply s.ioTrace.length e
  (r.value,
    { s with
      irq := r.irq.getD s.irq
      mem := Memory.storeCells s.cfg.memSize r.stores s.mem
      ioTrace := ⟨e, r⟩ :: s.ioTrace })

/-- `MemRead1` (20_memory.md R74, R77, R87). -/
def memRead1 (addr : Long) (s : State) : Except Fault (Byte × State) :=
  if s.cfg.memSize ≤ addr.toNat then .error (.addressOutOfBounds addr.toNat)
  else if s.cfg.ioRead.contains addr.toNat then .ok (observe (.read addr.toNat) s)
  else .ok (s.mem.read addr.toNat, s)

/-- `MemWrite1` (20_memory.md R74, R77, R87): an observed write is not stored. -/
def memWrite1 (addr : Long) (v : Byte) (s : State) : Except Fault State :=
  if s.cfg.memSize ≤ addr.toNat then .error (.addressOutOfBounds addr.toNat)
  else if s.cfg.ioWrite.contains addr.toNat then .ok (observe (.write addr.toNat v) s).2
  else .ok { s with mem := s.mem.write addr.toNat v }

/-- The wrap class of an effective address (20_memory.md R75). -/
inductive WrapClass where
  | lin
  | bank
  deriving DecidableEq, Repr

/-- An effective address (20_memory.md R75). -/
structure Ea where
  addr : Long
  cls  : WrapClass
  deriving DecidableEq, Repr

/-- `Next(ea)`: the address of the following byte (20_memory.md R75). -/
def Ea.next (ea : Ea) (s : State) : Long :=
  match ea.cls with
  | .lin => (ea.addr + 1) &&& s.addrMask
  | .bank => mkLong (bankOf ea.addr) (offOf ea.addr + 1)

/-- `Rd(ea, w)`, low byte first (20_memory.md R75). -/
def rd (ea : Ea) (w : Width) (s : State) : Except Fault (Word × State) := do
  let (lo, s) ← memRead1 ea.addr s
  match w with
  | .w8 => return (zext lo, s)
  | .w16 =>
    let (hi, s) ← memRead1 (ea.next s) s
    return (mkWord hi lo, s)

/-- `Wr(ea, w, v)`, low byte first (20_memory.md R75). -/
def wr (ea : Ea) (w : Width) (v : Word) (s : State) : Except Fault State := do
  let s ← memWrite1 ea.addr (loByte v) s
  match w with
  | .w8 => return s
  | .w16 => memWrite1 (ea.next s) (hiByte v) s

/-- Two bytes of bank 0, the second at a given offset, little-endian. -/
def read16Bank0 (lo hi : Word) (s : State) : Except Fault (Word × State) := do
  let (l, s) ← memRead1 (mkLong 0 lo) s
  let (h, s) ← memRead1 (mkLong 0 hi) s
  return (mkWord h l, s)

/-- `pc` moved past one byte, inside the program bank (10_state.md R20). -/
def State.advancePc (s : State) (n : Word) : State := { s with pc := s.pc + n }

/-- The address `pbr:pc` (10_state.md R20). -/
def State.pcAddr (s : State) : Long := mkLong s.pbr s.pc &&& s.addrMask

/-- `Fetch8` (20_memory.md R86). -/
def fetch8 (s : State) : Except Fault (Byte × State) := do
  let (v, s) ← memRead1 s.pcAddr s
  return (v, s.advancePc 1)

/-- `StackAddr` (20_memory.md R79). -/
def State.stackAddr (s : State) : Long := mkLong 0 (if s.is816 then s.sp else 0x0100 + s.sp)

/-- A new stack pointer kept in the form of the variant and mode (20_memory.md R79 `Dec`, `Inc`). -/
def State.wrapSp (s : State) (v : Word) : Word :=
  if s.is816 then (if s.mode = .emulation then mkWord 0x01 (loByte v) else v) else zext (loByte v)

/-- `Push8` (20_memory.md R79). -/
def push8 (v : Byte) (s : State) : Except Fault State := do
  let s ← memWrite1 s.stackAddr v s
  return { s with sp := s.wrapSp (s.sp - 1) }

/-- `Pull8` (20_memory.md R79). -/
def pull8 (s : State) : Except Fault (Byte × State) :=
  let s := { s with sp := s.wrapSp (s.sp + 1) }
  memRead1 s.stackAddr s

/-- `Push16`, high byte first (20_memory.md R79). -/
def push16 (v : Word) (s : State) : Except Fault State := do
  let s ← push8 (hiByte v) s
  push8 (loByte v) s

/-- `Pull16`, low byte first (20_memory.md R79). -/
def pull16 (s : State) : Except Fault (Word × State) := do
  let (lo, s) ← pull8 s
  let (hi, s) ← pull8 s
  return (mkWord hi lo, s)

/-- A push of a register at its current width (45_stack.md). -/
def pushW (w : Width) (v : Word) (s : State) : Except Fault State :=
  match w with
  | .w8 => push8 (loByte v) s
  | .w16 => push16 v s

/-- A pull at a register's current width (45_stack.md). -/
def pullW (w : Width) (s : State) : Except Fault (Word × State) :=
  match w with
  | .w8 => do
    let (v, s) ← pull8 s
    return (zext v, s)
  | .w16 => pull16 s

/-- The events that go to a vector (60_exceptions.md R410). -/
inductive Exc where
  | irq | nmi | brk | cop
  deriving DecidableEq, Repr

/-- The vector of an event, by mode (20_memory.md R78, 60_exceptions.md R410, R411). -/
def Exc.vector : Exc → (native : Bool) → Word
  | .irq, true => 0xFFEE
  | .nmi, true => 0xFFEA
  | .brk, true => 0xFFE6
  | .cop, true => 0xFFE4
  | .irq, false => 0xFFFE
  | .nmi, false => 0xFFFA
  | .brk, false => 0xFFFE
  | .cop, false => 0xFFF4

/-- The status image an event pushes: `p` as it is in native mode; else UNUSED set, and BREAK set for BRK
alone (60_exceptions.md R413, 48_system.md R390, R391). -/
def Exc.image (e : Exc) (s : State) : Byte :=
  if s.native then s.p
  else match e with
    | .brk => s.p ||| 0x30
    | _ => (s.p &&& 0xEF) ||| 0x20

/-- Whether an event clears the decimal flag: BRK and COP on the 65816, BRK on the 65C02 and IRQ, NMI by
their parameters (48_system.md R390, R391; 60_exceptions.md R413). -/
def Exc.clearsD (e : Exc) (s : State) : Bool :=
  match e with
  | .irq | .nmi => s.cfg.intClearsD
  | .brk => s.is816 || (s.cfg.variant == .v65C02 && s.cfg.c02BrkClearsD)
  | .cop => true

/-- The program bank pushed first in native mode (60_exceptions.md R413, 48_system.md R390, R391). -/
def pushBank (s : State) : Except Fault State := if s.native then push8 s.pbr s else .ok s

/-- The registers an event's entry changes besides `sp` and `pc`: I set, D clear where the event clears it, the
program bank of the 65816 zero (60_exceptions.md R413). -/
def Exc.mask (e : Exc) (s : State) : State :=
  let s := s.setFlag .I true
  let s := if e.clearsD s then s.setFlag .D false else s
  if s.is816 then { s with pbr := 0 } else s

/-- TAKING AN EXCEPTION, shared by IRQ, NMI, BRK and COP: push the bank (native), the return address and the
status image, change the status and the program bank, and load `pc` from the event's vector (60_exceptions.md
R413, R415; 48_system.md R390, R391). -/
def takeException (e : Exc) (ret : Word) (s : State) : Except Fault State := do
  let s1 ← pushBank s
  let s2 ← push16 ret s1
  let s3 ← push8 (e.image s) s2
  let (target, s4) ← read16Bank0 (e.vector s.native) (e.vector s.native + 1) (e.mask s3)
  return { s4 with pc := target }

/-- The program bank pulled last in native mode (48_system.md R392). -/
def pullBank (s : State) : Except Fault State :=
  if s.native then do
    let (bank, s) ← pull8 s
    return { s with pbr := bank }
  else .ok s

/-- The return from an exception: `p` through `SetP`, `pc`, and the bank in native mode (48_system.md R392). -/
def returnFromException (s : State) : Except Fault State := do
  let (image, s) ← pull8 s
  let (ret, s) ← pull16 (s.setP image)
  pullBank { s with pc := ret }

end Sys2Proof.Machine
end

