-- ==== Sys2Proof/Machine/Operands.lean ====
section
/-! DEFINITION. The addressing modes (40_addressing.md R130 to R159): effective addresses, pointers, jump targets,
and reading or modifying the operand a form names. -/

namespace Sys2Proof.Machine

/-- `PageWrap` (40_addressing.md R156). -/
def State.pageWrap (s : State) : Bool := s.mode == .emulation && loByte s.dpr == 0

/-- `DP(off)` (40_addressing.md R156). -/
def State.dpAddr (s : State) (off : Byte) : Word := s.dpr + zext off

/-- `DPIndexed(off, r)` (40_addressing.md R156). -/
def State.dpIndexed (s : State) (off : Byte) (r : Word) : Word :=
  if s.pageWrap then mkWord (hiByte s.dpr) (loByte (zext off + r)) else s.dpr + zext off + r

/-- `PtrNext(q)` (40_addressing.md R156). -/
def State.ptrNext (s : State) (q : Word) : Word :=
  if s.pageWrap then mkWord (hiByte q) (loByte (q + 1)) else q + 1

/-- `Ptr16(q)`, the legacy indirect pointer (40_addressing.md R156). -/
def ptr16 (q : Word) (s : State) : Except Fault (Word × State) := read16Bank0 q (s.ptrNext q) s

/-- `Ptr16B0(q)` (40_addressing.md R156). -/
def ptr16B0 (q : Word) (s : State) : Except Fault (Word × State) := read16Bank0 q (q + 1) s

/-- `Ptr24B0(q)` (40_addressing.md R156). -/
def ptr24B0 (q : Word) (s : State) : Except Fault (Long × State) := do
  let (off, s) ← read16Bank0 q (q + 1) s
  let (bk, s) ← memRead1 (mkLong 0 (q + 2)) s
  return (mkLong bk off, s)

/-- Indexing from `base` by `r` crosses a boundary: a page in the 8-bit variants, a bank on the 65816
(40_addressing.md R157). -/
def State.crossed (s : State) (base r : Word) : Bool :=
  if s.is816 then decide (0xFFFF < base.toNat + r.toNat) else hiByte base != hiByte (base + r)

/-- The extra cycle of a boundary crossing (40_addressing.md R157). -/
def State.chargeCrossing (s : State) (base r : Word) : State :=
  if s.addcycles && s.crossed base r then { s with excycles := s.excycles + 1 } else s

/-- An address in the data bank indexed in 24-bit arithmetic, class `LIN` (40_addressing.md R138, R139, R141). -/
def State.dataEa (s : State) (off r : Word) : Ea :=
  ⟨(mkLong s.dbr off + r.setWidth 24) &&& s.addrMask, .lin⟩

/-- The effective address of a memory format; the operand bytes are in the format (40_addressing.md R134 to
R148). -/
def effAddr (m : Mem) (s : State) : Except Fault (Ea × State) :=
  match m with
  | .dp off => .ok (⟨mkLong 0 (s.dpAddr off), .bank⟩, s)
  | .dpx off => .ok (⟨mkLong 0 (s.dpIndexed off s.x), .bank⟩, s)
  | .dpy off => .ok (⟨mkLong 0 (s.dpIndexed off s.y), .bank⟩, s)
  | .abs a => .ok (s.dataEa a 0, s)
  | .abx a => .ok (s.dataEa a s.x, s.chargeCrossing a s.x)
  | .aby a => .ok (s.dataEa a s.y, s.chargeCrossing a s.y)
  | .abl a => .ok (⟨a &&& s.addrMask, .lin⟩, s)
  | .alx a => .ok (⟨(a + s.x.setWidth 24) &&& s.addrMask, .lin⟩, s)
  | .izx off => do
    let (ptr, s) ← ptr16 (s.dpIndexed off s.x) s
    return (s.dataEa ptr 0, s)
  | .izy off => do
    let (ptr, s) ← ptr16 (s.dpAddr off) s
    return (s.dataEa ptr s.y, s.chargeCrossing ptr s.y)
  | .izp off => do
    let (ptr, s) ← ptr16 (s.dpAddr off) s
    return (s.dataEa ptr 0, s)
  | .idl off => do
    let (ptr, s) ← ptr24B0 (s.dpAddr off) s
    return (⟨ptr &&& s.addrMask, .lin⟩, s)
  | .idly off => do
    let (ptr, s) ← ptr24B0 (s.dpAddr off) s
    return (⟨(ptr + s.y.setWidth 24) &&& s.addrMask, .lin⟩, s)
  | .sr off => .ok (⟨mkLong 0 (s.sp + zext off), .bank⟩, s)
  | .sry off => do
    let (ptr, s) ← ptr16B0 (s.sp + zext off) s
    return (s.dataEa ptr s.y, s)

/-- The value of an immediate, zero-extended (30_encoding.md R101, R102). -/
def immValue : Imm → Word
  | .byte v => zext v
  | .word v => v

/-- The `w`-bit operand of a reading instruction: the mode function, then `Rd` (40_addressing.md R130, R133). -/
def readOperand (w : Width) (o : Operand) (s : State) : Except Fault (Word × State) :=
  match o with
  | .imm v => .ok (immValue v &&& w.mask, s)
  | .mem m => do
    let (ea, s) ← effAddr m s
    rd ea w s

/-- A store of `v` through a memory format (40_addressing.md R130). -/
def storeThrough (w : Width) (m : Mem) (v : Word) (s : State) : Except Fault State := do
  let (ea, s) ← effAddr m s
  wr ea w v s

/-- A read-modify-write: one read and one write of the accumulator or of memory at width `wA`, where `f` gives
the new value and the new flags from the old value and the state at that point (43_logic_shift.md section 3,
42_arithmetic.md R227, 20_memory.md R76). -/
def modify (t : Target) (f : Word → State → Word × State) (s : State) : Except Fault State :=
  match t with
  | .acc =>
    let (v, s) := f s.acc s
    .ok (s.setA v)
  | .mem m => do
    let (ea, s) ← effAddr m s
    let (old, s) ← rd ea s.wA s
    let (v, s) := f old s
    wr ea s.wA v s

/-- The target of `($nnnn)`: the pointer is in bank 0 and the 6502 alone wraps it inside its page
(40_addressing.md R149). -/
def indTarget (q : Word) (s : State) : Except Fault (Word × State) :=
  read16Bank0 q (if s.cfg.variant = .v6502 then mkWord (hiByte q) (loByte (q + 1)) else q + 1) s

/-- The target of `($nnnn,X)`: the pointer is in the program bank and wraps inside it (40_addressing.md R150). -/
def iaxTarget (base : Word) (s : State) : Except Fault (Word × State) := do
  let q := base + s.x
  let (lo, s) ← memRead1 (mkLong s.pbr q &&& s.addrMask) s
  let (hi, s) ← memRead1 (mkLong s.pbr (q + 1) &&& s.addrMask) s
  return (mkWord hi lo, s)

/-- The target of a relative branch, from the address after the instruction (40_addressing.md R152, R155). -/
def State.relTarget (s : State) (disp : Byte) : Word := s.pc + sext disp

end Sys2Proof.Machine
end

