-- ==== Sys2Proof/Machine/Arithmetic.lean ====
section
/-! DEFINITION. Add, subtract, compare, increment and decrement (42_arithmetic.md R220 to R232). -/

namespace Sys2Proof.Machine

/-- The flags and the accumulator after ADC or SBC. -/
def State.setSum (s : State) (r : Sum) (v : Bool) : State :=
  (((s.setFlag .V v).setFlag .C r.carry).setA r.value).setNZ r.value s.wA

/-- ADC (R220). -/
def execAdc (o : Operand) (s : State) : Result :=
  finish do
    let (m, s) ← readOperand s.wA o s
    let r := addSum (s.flag .D) s.wA s.acc m (s.flag .C)
    return s.setSum r (addOverflow s.wA s.acc m r.value)

/-- SBC (R221). -/
def execSbc (o : Operand) (s : State) : Result :=
  finish do
    let (m, s) ← readOperand s.wA o s
    let r := subSum (s.flag .D) s.wA s.acc m (s.flag .C)
    return s.setSum r (subOverflow s.wA s.acc m r.value)

/-- CMP (R224). -/
def execCmp (o : Operand) (s : State) : Result :=
  finish do
    let (m, s) ← readOperand s.wA o s
    return s.compare s.wA s.acc m

/-- CPX (R225). -/
def execCpx (o : Operand) (s : State) : Result :=
  finish do
    let (m, s) ← readOperand s.wX o s
    return s.compare s.wX s.x m

/-- CPY (R226). -/
def execCpy (o : Operand) (s : State) : Result :=
  finish do
    let (m, s) ← readOperand s.wX o s
    return s.compare s.wX s.y m

/-- A value plus a step within width `wA`, with N and Z. -/
def stepValue (d : Word) (v : Word) (s : State) : Word × State :=
  let r := (v + d) &&& s.wA.mask
  (r, s.setNZ r s.wA)

/-- INC (R227). -/
def execInc (t : Target) (s : State) : Result := finish (modify t (stepValue 1) s)

/-- DEC (R228). -/
def execDec (t : Target) (s : State) : Result := finish (modify t (stepValue (-1)) s)

/-- INX (R229). -/
def execInx (s : State) : Result := .next ((s.setX (s.x + 1)).setNZ ((s.x + 1) &&& s.wX.mask) s.wX)

/-- INY (R230). -/
def execIny (s : State) : Result := .next ((s.setY (s.y + 1)).setNZ ((s.y + 1) &&& s.wX.mask) s.wX)

/-- DEX (R231). -/
def execDex (s : State) : Result := .next ((s.setX (s.x - 1)).setNZ ((s.x - 1) &&& s.wX.mask) s.wX)

/-- DEY (R232). -/
def execDey (s : State) : Result := .next ((s.setY (s.y - 1)).setNZ ((s.y - 1) &&& s.wX.mask) s.wX)

end Sys2Proof.Machine
end

