-- ==== Sys2Proof/Machine/BlockMove.lean ====
section
/-! DEFINITION. Block move, one byte a step (47_block_move.md R380 to R382). -/

namespace Sys2Proof.Machine

/-- The program counter goes back to the opcode until the counter has passed zero (R382). -/
def State.repeatUnlessDone (s : State) (count : Word) : State :=
  if count = 0xFFFF then s else { s with pc := s.pc - 3 }

/-- `BlockMove(dir)` with `pc` past both operand bytes (R382). -/
def blockMove (dir : Word) (dst src : Byte) (s : State) : Except Fault State := do
  let (v, s) ← memRead1 (mkLong src s.x &&& s.addrMask) s
  let s ← memWrite1 (mkLong dst s.y &&& s.addrMask) v s
  let s := (s.setX (s.x + dir)).setY (s.y + dir)
  let c := s.c16 - 1
  return { s.setC16 c with dbr := dst }.repeatUnlessDone c

/-- MVN, ascending (R380). -/
def execMvn (dst src : Byte) (s : State) : Result := finish (blockMove 1 dst src s)

/-- MVP, descending (R381). -/
def execMvp (dst src : Byte) (s : State) : Result := finish (blockMove (-1) dst src s)

end Sys2Proof.Machine
end

