-- ==== Sys2Proof/Machine/Control.lean ====
section
/-! DEFINITION. Branches, jumps and subroutines (44_control.md R280 to R298). On entry `pc` is the address of the
next instruction; no flag is changed. -/

namespace Sys2Proof.Machine

/-- The extra cycles of a taken branch (R280). -/
def State.branchCycles (s : State) (target : Word) : Nat :=
  1 + bitOf ((!s.is816 || s.mode == .emulation) && hiByte target != hiByte s.pc)

/-- `Branch(cond)` with `pc` already past the displacement byte; a branch not taken leaves it there (R280). -/
def branch (taken : Bool) (disp : Byte) (s : State) : Result :=
  .next <|
    if taken then
      let target := s.relTarget disp
      { s with pc := target, excycles := s.excycles + s.branchCycles target }
    else s

/-- BPL (R281). -/
def execBpl (disp : Byte) (s : State) : Result := branch (!s.flag .N) disp s

/-- BMI (R282). -/
def execBmi (disp : Byte) (s : State) : Result := branch (s.flag .N) disp s

/-- BVC (R283). -/
def execBvc (disp : Byte) (s : State) : Result := branch (!s.flag .V) disp s

/-- BVS (R284). -/
def execBvs (disp : Byte) (s : State) : Result := branch (s.flag .V) disp s

/-- BCC (R285). -/
def execBcc (disp : Byte) (s : State) : Result := branch (!s.flag .C) disp s

/-- BCS (R286). -/
def execBcs (disp : Byte) (s : State) : Result := branch (s.flag .C) disp s

/-- BNE (R287). -/
def execBne (disp : Byte) (s : State) : Result := branch (!s.flag .Z) disp s

/-- BEQ (R288). -/
def execBeq (disp : Byte) (s : State) : Result := branch (s.flag .Z) disp s

/-- BRA (R289). -/
def execBra (disp : Byte) (s : State) : Result := branch true disp s

/-- BRL (R290). -/
def execBrl (disp : Word) (s : State) : Result := .next { s with pc := s.pc + disp }

/-- The extra cycles of a taken BBRn or BBSn: those of a branch in the informative tables (70_reset_and_hazards.md
R471); 44_control.md R291 and R292 name none beside a given table (log 6). -/
def State.bitBranchCycles (s : State) (target : Word) : Nat :=
  match s.cfg.cycles with
  | .informative => s.branchCycles target
  | .given _ _ => 0

/-- BBRn and BBSn: branch if bit `n` of a zero-page byte is `want` (R291, R292; 40_addressing.md R155). -/
def branchOnBit (n : Nat) (want : Bool) (off disp : Byte) (s : State) : Result :=
  finish do
    let (m, s) ← memRead1 (mkLong 0 (zext off)) s
    let target := s.relTarget disp
    return if m.getLsbD n = want then
      { s with pc := target, excycles := s.excycles + s.bitBranchCycles target }
    else s

/-- BBR0 (R291). -/
def execBbr0 (off disp : Byte) (s : State) : Result := branchOnBit 0 false off disp s

/-- BBR1 (R291). -/
def execBbr1 (off disp : Byte) (s : State) : Result := branchOnBit 1 false off disp s

/-- BBR2 (R291). -/
def execBbr2 (off disp : Byte) (s : State) : Result := branchOnBit 2 false off disp s

/-- BBR3 (R291). -/
def execBbr3 (off disp : Byte) (s : State) : Result := branchOnBit 3 false off disp s

/-- BBR4 (R291). -/
def execBbr4 (off disp : Byte) (s : State) : Result := branchOnBit 4 false off disp s

/-- BBR5 (R291). -/
def execBbr5 (off disp : Byte) (s : State) : Result := branchOnBit 5 false off disp s

/-- BBR6 (R291). -/
def execBbr6 (off disp : Byte) (s : State) : Result := branchOnBit 6 false off disp s

/-- BBR7 (R291). -/
def execBbr7 (off disp : Byte) (s : State) : Result := branchOnBit 7 false off disp s

/-- BBS0 (R292). -/
def execBbs0 (off disp : Byte) (s : State) : Result := branchOnBit 0 true off disp s

/-- BBS1 (R292). -/
def execBbs1 (off disp : Byte) (s : State) : Result := branchOnBit 1 true off disp s

/-- BBS2 (R292). -/
def execBbs2 (off disp : Byte) (s : State) : Result := branchOnBit 2 true off disp s

/-- BBS3 (R292). -/
def execBbs3 (off disp : Byte) (s : State) : Result := branchOnBit 3 true off disp s

/-- BBS4 (R292). -/
def execBbs4 (off disp : Byte) (s : State) : Result := branchOnBit 4 true off disp s

/-- BBS5 (R292). -/
def execBbs5 (off disp : Byte) (s : State) : Result := branchOnBit 5 true off disp s

/-- BBS6 (R292). -/
def execBbs6 (off disp : Byte) (s : State) : Result := branchOnBit 6 true off disp s

/-- BBS7 (R292). -/
def execBbs7 (off disp : Byte) (s : State) : Result := branchOnBit 7 true off disp s

/-- JMP (R293). -/
def execJmp (f : JmpForm) (s : State) : Result :=
  match f with
  | .abj a => .next { s with pc := a }
  | .ind q => finish do
      let (t, s) ← indTarget q s
      return { s with pc := t }
  | .iax base => finish do
      let (t, s) ← iaxTarget base s
      return { s with pc := t }

/-- JML (R294; 40_addressing.md R151). -/
def execJml (f : JmlForm) (s : State) : Result :=
  match f with
  | .abl t => .next { s with pc := offOf t, pbr := bankOf t }
  | .ial q => finish do
      let (t, s) ← ptr24B0 q s
      return { s with pc := offOf t, pbr := bankOf t }

/-- JSR: the address of the call's last byte is pushed before the target is read (R295). -/
def execJsr (f : JsrForm) (s : State) : Result :=
  finish do
    let s ← push16 (s.pc - 1) s
    match f with
    | .abj a => return { s with pc := a }
    | .iax base => do
      let (t, s) ← iaxTarget base s
      return { s with pc := t }

/-- JSL (R296). -/
def execJsl (t : Long) (s : State) : Result :=
  finish do
    let ret := s.pc - 1
    let s ← push8 s.pbr s
    let s ← push16 ret s
    return { s with pc := offOf t, pbr := bankOf t }

/-- RTS (R297). -/
def execRts (s : State) : Result :=
  finish do
    let (r, s) ← pull16 s
    return { s with pc := r + 1 }

/-- RTL (R298). -/
def execRtl (s : State) : Result :=
  finish do
    let (r, s) ← pull16 s
    let (bank, s) ← pull8 s
    return { s with pc := r + 1, pbr := bank }

end Sys2Proof.Machine
end

