-- ==== Sys2Proof/Machine/Logic.lean ====
section
/-! DEFINITION. Logical operations, bit tests, shifts and rotates, and the 65C02's single-bit memory operations
(43_logic_shift.md R250 to R261). -/

namespace Sys2Proof.Machine

/-- A logical operation on the accumulator. -/
def logic (op : Word → Word → Word) (o : Operand) (s : State) : Result :=
  finish do
    let (m, s) ← readOperand s.wA o s
    let v := op s.acc m
    return (s.setA v).setNZ v s.wA

/-- AND (R250). -/
def execAnd (o : Operand) (s : State) : Result := logic (· &&& ·) o s

/-- ORA (R251). -/
def execOra (o : Operand) (s : State) : Result := logic (· ||| ·) o s

/-- EOR (R252). -/
def execEor (o : Operand) (s : State) : Result := logic (· ^^^ ·) o s

/-- Bit `w-2` of a value. -/
def secondBit (v : Word) (w : Width) : Bool := (v &&& (w.sign >>> 1)) != 0

/-- BIT: Z alone in the immediate form; N and V from the operand in the memory forms (R253). -/
def execBit (o : Operand) (s : State) : Result :=
  finish do
    let (m, s) ← readOperand s.wA o s
    let s := s.setFlag .Z (s.acc &&& m == 0)
    match o with
    | .imm _ => return s
    | .mem _ => return (s.setFlag .N (signBit m s.wA)).setFlag .V (secondBit m s.wA)

/-- Test the accumulator's bits in memory, then write what `f` makes of accumulator and memory. -/
def testAndModify (f : Word → Word → Word) (m : Mem) (s : State) : Result :=
  finish (modify (.mem m) (fun v s => (f s.acc v, s.setFlag .Z (s.acc &&& v == 0))) s)

/-- TSB (R254). -/
def execTsb (m : Mem) (s : State) : Result := testAndModify (fun a v => v ||| a) m s

/-- TRB (R255). -/
def execTrb (m : Mem) (s : State) : Result := testAndModify (fun a v => v &&& ~~~a) m s

/-- A shift or rotate of its target: the bit shifted out goes to C, N and Z come from the result. -/
def shift (f : Width → Word → Bool → Sum) (carryIn : State → Bool) (t : Target) (s : State) : Result :=
  finish (modify t (fun v s =>
    let r := f s.wA v (carryIn s)
    (r.value, (s.setFlag .C r.carry).setNZ r.value s.wA)) s)

/-- ASL (R256). -/
def execAsl (t : Target) (s : State) : Result := shift shiftLeft (fun _ => false) t s

/-- LSR (R257). -/
def execLsr (t : Target) (s : State) : Result := shift shiftRight (fun _ => false) t s

/-- ROL (R258). -/
def execRol (t : Target) (s : State) : Result := shift shiftLeft (fun s => s.flag .C) t s

/-- ROR (R259). -/
def execRor (t : Target) (s : State) : Result := shift shiftRight (fun s => s.flag .C) t s

/-- RMBn and SMBn: bit `n` of a direct-page byte becomes `v`; always 8 bits, no flags (R260, R261). -/
def setMemBit (n : Nat) (v : Bool) (off : Byte) (s : State) : Result :=
  finish do
    let addr := mkLong 0 (s.dpAddr off)
    let (m, s) ← memRead1 addr s
    memWrite1 addr (putBit m n v) s

/-- RMB0 (R260). -/
def execRmb0 (off : Byte) (s : State) : Result := setMemBit 0 false off s

/-- RMB1 (R260). -/
def execRmb1 (off : Byte) (s : State) : Result := setMemBit 1 false off s

/-- RMB2 (R260). -/
def execRmb2 (off : Byte) (s : State) : Result := setMemBit 2 false off s

/-- RMB3 (R260). -/
def execRmb3 (off : Byte) (s : State) : Result := setMemBit 3 false off s

/-- RMB4 (R260). -/
def execRmb4 (off : Byte) (s : State) : Result := setMemBit 4 false off s

/-- RMB5 (R260). -/
def execRmb5 (off : Byte) (s : State) : Result := setMemBit 5 false off s

/-- RMB6 (R260). -/
def execRmb6 (off : Byte) (s : State) : Result := setMemBit 6 false off s

/-- RMB7 (R260). -/
def execRmb7 (off : Byte) (s : State) : Result := setMemBit 7 false off s

/-- SMB0 (R261). -/
def execSmb0 (off : Byte) (s : State) : Result := setMemBit 0 true off s

/-- SMB1 (R261). -/
def execSmb1 (off : Byte) (s : State) : Result := setMemBit 1 true off s

/-- SMB2 (R261). -/
def execSmb2 (off : Byte) (s : State) : Result := setMemBit 2 true off s

/-- SMB3 (R261). -/
def execSmb3 (off : Byte) (s : State) : Result := setMemBit 3 true off s

/-- SMB4 (R261). -/
def execSmb4 (off : Byte) (s : State) : Result := setMemBit 4 true off s

/-- SMB5 (R261). -/
def execSmb5 (off : Byte) (s : State) : Result := setMemBit 5 true off s

/-- SMB6 (R261). -/
def execSmb6 (off : Byte) (s : State) : Result := setMemBit 6 true off s

/-- SMB7 (R261). -/
def execSmb7 (off : Byte) (s : State) : Result := setMemBit 7 true off s

end Sys2Proof.Machine
end

