-- ==== Sys2Proof/Machine/Stack.lean ====
section
/-! DEFINITION. Stack instructions (45_stack.md R320 to R335). -/

namespace Sys2Proof.Machine

/-- A pull of a register at a width, with N and Z. -/
def pullInto (w : Width) (set : State → Word → State) (s : State) : Result :=
  finish do
    let (v, s) ← pullW w s
    return (set s v).setNZ v w

/-- PHA (R320). -/
def execPha (s : State) : Result := finish (pushW s.wA s.a s)

/-- PLA (R321). -/
def execPla (s : State) : Result := pullInto s.wA State.setA s

/-- PHX (R322). -/
def execPhx (s : State) : Result := finish (pushW s.wX s.x s)

/-- PLX (R323). -/
def execPlx (s : State) : Result := pullInto s.wX State.setX s

/-- PHY (R324). -/
def execPhy (s : State) : Result := finish (pushW s.wX s.y s)

/-- PLY (R325). -/
def execPly (s : State) : Result := pullInto s.wX State.setY s

/-- PHP (R326). -/
def execPhp (s : State) : Result := finish (push8 s.p s)

/-- PLP (R327). -/
def execPlp (s : State) : Result :=
  finish do
    let (v, s) ← pull8 s
    return s.setP v

/-- PHB (R328). -/
def execPhb (s : State) : Result := finish (push8 s.dbr s)

/-- PLB (R329). -/
def execPlb (s : State) : Result :=
  finish do
    let (v, s) ← pull8 s
    return { s with dbr := v }.setNZ (zext v) .w8

/-- PHD (R330). -/
def execPhd (s : State) : Result := finish (push16 s.dpr s)

/-- PLD (R331). -/
def execPld (s : State) : Result :=
  finish do
    let (v, s) ← pull16 s
    return { s with dpr := v }.setNZ v .w16

/-- PHK (R332). -/
def execPhk (s : State) : Result := finish (push8 s.pbr s)

/-- PEA (R333). -/
def execPea (v : Word) (s : State) : Result := finish (push16 v s)

/-- PEI (R334). -/
def execPei (off : Byte) (s : State) : Result :=
  finish do
    let (ea, s) ← effAddr (.dp off) s
    let (v, s) ← rd ea .w16 s
    push16 v s

/-- PER (R335; 40_addressing.md R153). -/
def execPer (disp : Word) (s : State) : Result := finish (push16 (s.pc + disp) s)

end Sys2Proof.Machine
end

