-- ==== Sys2Proof/Machine/Status.lean ====
section
/-! DEFINITION. Flag and mode instructions (46_status_mode.md R360 to R369). -/

namespace Sys2Proof.Machine

/-- CLC (R360). -/
def execClc (s : State) : Result := .next (s.setFlag .C false)

/-- SEC (R361). -/
def execSec (s : State) : Result := .next (s.setFlag .C true)

/-- CLI (R362). -/
def execCli (s : State) : Result := .next (s.setFlag .I false)

/-- SEI (R363). -/
def execSei (s : State) : Result := .next (s.setFlag .I true)

/-- CLD (R364). -/
def execCld (s : State) : Result := .next (s.setFlag .D false)

/-- SED (R365). -/
def execSed (s : State) : Result := .next (s.setFlag .D true)

/-- CLV (R366). -/
def execClv (s : State) : Result := .next (s.setFlag .V false)

/-- REP (R367). -/
def execRep (mask : Byte) (s : State) : Result := .next (s.setP (s.p &&& ~~~mask))

/-- SEP (R368). -/
def execSep (mask : Byte) (s : State) : Result := .next (s.setP (s.p ||| mask))

/-- Native to emulation: the registers narrowed without losing the accumulator's high byte, the stack pointer
put into page 1, C receiving the old mode (R369). -/
def State.toEmulation (s : State) : State :=
  let s := if s.flag .M then s else { s with a := zext (loByte s.a), b := hiByte s.a }
  { s with
    x := zext (loByte s.x)
    y := zext (loByte s.y)
    p := s.p ||| 0x30
    sp := mkWord 0x01 (loByte s.sp)
    mode := .emulation }.setFlag .C false

/-- Emulation to native: 8-bit registers until REP widens them, the stack pointer kept, C receiving the old
mode (R369). -/
def State.toNative (s : State) : State :=
  { s with mode := .native, p := s.p ||| 0x30 }.setFlag .C true

/-- XCE: nothing is written when the carry already asks for the mode in force (R369). -/
def execXce (s : State) : Result :=
  .next <|
    if s.flag .C = (s.mode == .emulation) then s
    else if s.flag .C then s.toEmulation
    else s.toNative

end Sys2Proof.Machine
end

