-- ==== Sys2Proof/Machine/System.lean ====
section
/-! DEFINITION. Software interrupts, return from interrupt, wait, no-operations and the illegal-opcode fallback
(48_system.md R390 to R397). -/

namespace Sys2Proof.Machine

/-- BRK: `pc` is past the opcode and the return address skips the signature byte, which is not read (R390). -/
def execBrk (s : State) : Result := finish (takeException .brk (s.pc + 1) s)

/-- COP (R391). -/
def execCop (s : State) : Result := finish (takeException .cop (s.pc + 1) s)

/-- RTI (R392). -/
def execRti (s : State) : Result := finish (returnFromException s)

/-- WAI (R393). -/
def execWai (s : State) : Result := .next { s with waiting := true }

/-- STP, which the document does not tell from WAI (R394). -/
def execStp (s : State) : Result := .next { s with waiting := true }

/-- NOP (R395). -/
def execNop (s : State) : Result := .next s

/-- WDM: its operand byte has been fetched and is ignored (R396). -/
def execWdm (_v : Byte) (s : State) : Result := .next s

/-- The not-implemented fallback: `pc` goes back to the opcode and the step is reported to the host as an
illegal opcode (R397, 60_exceptions.md R416). -/
def execIllegal (op : Byte) (s : State) : Result :=
  let s := { s with pc := s.pc - 1 }
  .fault (.illegalOpcode op s.pcAddr s)

end Sys2Proof.Machine
end

