-- ==== Sys2Proof/Machine/Transfer.lean ====
section
/-! DEFINITION. Loads, stores and register transfers (41_load_store_transfer.md R180 to R199). On entry to a
meaning `pc` is past the instruction's operand bytes. -/

namespace Sys2Proof.Machine

/-- A load: read at the register's width, write the register, set N and Z. -/
def load (w : Width) (set : State → Word → State) (o : Operand) (s : State) : Result :=
  finish do
    let (v, s) ← readOperand w o s
    return (set s v).setNZ v w

/-- LDA (R180). -/
def execLda (o : Operand) (s : State) : Result := load s.wA State.setA o s

/-- LDX (R181). -/
def execLdx (o : Operand) (s : State) : Result := load s.wX State.setX o s

/-- LDY (R182). -/
def execLdy (o : Operand) (s : State) : Result := load s.wX State.setY o s

/-- STA (R183). -/
def execSta (m : Mem) (s : State) : Result := finish (storeThrough s.wA m s.acc s)

/-- STX (R184). -/
def execStx (m : Mem) (s : State) : Result := finish (storeThrough s.wX m s.x s)

/-- STY (R185). -/
def execSty (m : Mem) (s : State) : Result := finish (storeThrough s.wX m s.y s)

/-- STZ (R186). -/
def execStz (m : Mem) (s : State) : Result := finish (storeThrough s.wA m 0 s)

/-- The accumulator bits a transfer to an index register copies: the destination's width (R187). -/
def State.accForIndex (s : State) : Word := if s.x8 then s.a &&& 0x00FF else s.c16

/-- TAX (R187). -/
def execTax (s : State) : Result := .next ((s.setX s.accForIndex).setNZ s.accForIndex s.wX)

/-- TAY (R188). -/
def execTay (s : State) : Result := .next ((s.setY s.accForIndex).setNZ s.accForIndex s.wX)

/-- TXA (R189). -/
def execTxa (s : State) : Result := .next ((s.setA s.x).setNZ (s.x &&& s.wA.mask) s.wA)

/-- TYA (R190). -/
def execTya (s : State) : Result := .next ((s.setA s.y).setNZ (s.y &&& s.wA.mask) s.wA)

/-- TSX (R191). -/
def execTsx (s : State) : Result := .next ((s.setX s.sp).setNZ (s.sp &&& s.wX.mask) s.wX)

/-- TXS (R192). -/
def execTxs (s : State) : Result := .next (s.setSp s.x)

/-- TXY (R193). -/
def execTxy (s : State) : Result := .next ((s.setY s.x).setNZ (s.x &&& s.wX.mask) s.wX)

/-- TYX (R194). -/
def execTyx (s : State) : Result := .next ((s.setX s.y).setNZ (s.y &&& s.wX.mask) s.wX)

/-- TCD (R195). -/
def execTcd (s : State) : Result := .next ({ s with dpr := s.c16 }.setNZ s.c16 .w16)

/-- TDC (R196). -/
def execTdc (s : State) : Result := .next ((s.setC16 s.dpr).setNZ s.dpr .w16)

/-- TCS (R197). -/
def execTcs (s : State) : Result := .next (s.setSp s.c16)

/-- TSC (R198). -/
def execTsc (s : State) : Result := .next ((s.setC16 s.sp).setNZ s.sp .w16)

/-- XBA (R199). -/
def execXba (s : State) : Result :=
  .next ((s.setC16 (mkWord (loByte s.c16) (hiByte s.c16))).setNZ (zext (hiByte s.c16)) .w8)

end Sys2Proof.Machine
end

