-- ==== Sys2Proof/Syntax.lean ====
section
/-! DEFINITION. The instructions: one constructor per mnemonic of `spec/opcode_table.json`; a row of the table is
its mnemonic's constructor applied to the row's format (30_encoding.md R100), which is the operand form with
the operand bytes in it. -/

namespace Sys2Proof

/-- An instruction with its operands. Displacements are the raw encoded bytes (30_encoding.md R101). -/
inductive Instr where
  -- Loads, stores and transfers (41_load_store_transfer.md R180 to R199).
  | lda (o : Operand)
  | ldx (o : Operand)
  | ldy (o : Operand)
  | sta (m : Mem)
  | stx (m : Mem)
  | sty (m : Mem)
  | stz (m : Mem)
  | tax
  | tay
  | txa
  | tya
  | tsx
  | txs
  | txy
  | tyx
  | tcd
  | tdc
  | tcs
  | tsc
  | xba
  -- Arithmetic, compare, increment, decrement (42_arithmetic.md R220 to R232).
  | adc (o : Operand)
  | sbc (o : Operand)
  | cmp (o : Operand)
  | cpx (o : Operand)
  | cpy (o : Operand)
  | inc (t : Target)
  | dec (t : Target)
  | inx
  | iny
  | dex
  | dey
  -- Logic, bit tests, shifts, single-bit operations (43_logic_shift.md R250 to R261).
  | and (o : Operand)
  | ora (o : Operand)
  | eor (o : Operand)
  | bit (o : Operand)
  | tsb (m : Mem)
  | trb (m : Mem)
  | asl (t : Target)
  | lsr (t : Target)
  | rol (t : Target)
  | ror (t : Target)
  | rmb0 (off : Byte)
  | rmb1 (off : Byte)
  | rmb2 (off : Byte)
  | rmb3 (off : Byte)
  | rmb4 (off : Byte)
  | rmb5 (off : Byte)
  | rmb6 (off : Byte)
  | rmb7 (off : Byte)
  | smb0 (off : Byte)
  | smb1 (off : Byte)
  | smb2 (off : Byte)
  | smb3 (off : Byte)
  | smb4 (off : Byte)
  | smb5 (off : Byte)
  | smb6 (off : Byte)
  | smb7 (off : Byte)
  -- Branches, jumps, subroutines (44_control.md R280 to R298).
  | bpl (disp : Byte)
  | bmi (disp : Byte)
  | bvc (disp : Byte)
  | bvs (disp : Byte)
  | bcc (disp : Byte)
  | bcs (disp : Byte)
  | bne (disp : Byte)
  | beq (disp : Byte)
  | bra (disp : Byte)
  | brl (disp : Word)
  | bbr0 (off disp : Byte)
  | bbr1 (off disp : Byte)
  | bbr2 (off disp : Byte)
  | bbr3 (off disp : Byte)
  | bbr4 (off disp : Byte)
  | bbr5 (off disp : Byte)
  | bbr6 (off disp : Byte)
  | bbr7 (off disp : Byte)
  | bbs0 (off disp : Byte)
  | bbs1 (off disp : Byte)
  | bbs2 (off disp : Byte)
  | bbs3 (off disp : Byte)
  | bbs4 (off disp : Byte)
  | bbs5 (off disp : Byte)
  | bbs6 (off disp : Byte)
  | bbs7 (off disp : Byte)
  | jmp (f : JmpForm)
  | jml (f : JmlForm)
  | jsr (f : JsrForm)
  | jsl (addr : Long)
  | rts
  | rtl
  -- Stack (45_stack.md R320 to R335).
  | pha
  | pla
  | phx
  | plx
  | phy
  | ply
  | php
  | plp
  | phb
  | plb
  | phd
  | pld
  | phk
  | pea (v : Word)
  | pei (off : Byte)
  | per (disp : Word)
  -- Flags and mode (46_status_mode.md R360 to R369).
  | clc
  | sec
  | cli
  | sei
  | cld
  | sed
  | clv
  | rep (mask : Byte)
  | sep (mask : Byte)
  | xce
  -- Block move (47_block_move.md R380 to R382): destination bank first, as encoded (40_addressing.md R154).
  | mvn (dst src : Byte)
  | mvp (dst src : Byte)
  -- Software interrupts, return, wait, no-operations (48_system.md R390 to R396), and the not-implemented
  -- fallback with the opcode byte it was reached by (R397).
  | brk
  | cop
  | rti
  | wai
  | stp
  | nop
  | wdm (v : Byte)
  | illegal (op : Byte)
  deriving DecidableEq, Repr

end Sys2Proof
end

