-- ==== Sys2Proof/Machine/Dispatch.lean ====
section
/-! DEFINITION. The meaning of each instruction, with `pc` past its bytes (past the opcode for BRK, COP and the
fallback). -/

namespace Sys2Proof.Machine

def exec (i : Instr) (s : State) : Host.Outcome State Fault Refusal :=
  match i with
  | .lda o => Sys2Proof.Machine.execLda o s
  | .ldx o => Sys2Proof.Machine.execLdx o s
  | .ldy o => Sys2Proof.Machine.execLdy o s
  | .sta m => Sys2Proof.Machine.execSta m s
  | .stx m => Sys2Proof.Machine.execStx m s
  | .sty m => Sys2Proof.Machine.execSty m s
  | .stz m => Sys2Proof.Machine.execStz m s
  | .tax => Sys2Proof.Machine.execTax s
  | .tay => Sys2Proof.Machine.execTay s
  | .txa => Sys2Proof.Machine.execTxa s
  | .tya => Sys2Proof.Machine.execTya s
  | .tsx => Sys2Proof.Machine.execTsx s
  | .txs => Sys2Proof.Machine.execTxs s
  | .txy => Sys2Proof.Machine.execTxy s
  | .tyx => Sys2Proof.Machine.execTyx s
  | .tcd => Sys2Proof.Machine.execTcd s
  | .tdc => Sys2Proof.Machine.execTdc s
  | .tcs => Sys2Proof.Machine.execTcs s
  | .tsc => Sys2Proof.Machine.execTsc s
  | .xba => Sys2Proof.Machine.execXba s
  | .adc o => Sys2Proof.Machine.execAdc o s
  | .sbc o => Sys2Proof.Machine.execSbc o s
  | .cmp o => Sys2Proof.Machine.execCmp o s
  | .cpx o => Sys2Proof.Machine.execCpx o s
  | .cpy o => Sys2Proof.Machine.execCpy o s
  | .inc t => Sys2Proof.Machine.execInc t s
  | .dec t => Sys2Proof.Machine.execDec t s
  | .inx => Sys2Proof.Machine.execInx s
  | .iny => Sys2Proof.Machine.execIny s
  | .dex => Sys2Proof.Machine.execDex s
  | .dey => Sys2Proof.Machine.execDey s
  | .and o => Sys2Proof.Machine.execAnd o s
  | .ora o => Sys2Proof.Machine.execOra o s
  | .eor o => Sys2Proof.Machine.execEor o s
  | .bit o => Sys2Proof.Machine.execBit o s
  | .tsb m => Sys2Proof.Machine.execTsb m s
  | .trb m => Sys2Proof.Machine.execTrb m s
  | .asl t => Sys2Proof.Machine.execAsl t s
  | .lsr t => Sys2Proof.Machine.execLsr t s
  | .rol t => Sys2Proof.Machine.execRol t s
  | .ror t => Sys2Proof.Machine.execRor t s
  | .rmb0 off => Sys2Proof.Machine.execRmb0 off s
  | .rmb1 off => Sys2Proof.Machine.execRmb1 off s
  | .rmb2 off => Sys2Proof.Machine.execRmb2 off s
  | .rmb3 off => Sys2Proof.Machine.execRmb3 off s
  | .rmb4 off => Sys2Proof.Machine.execRmb4 off s
  | .rmb5 off => Sys2Proof.Machine.execRmb5 off s
  | .rmb6 off => Sys2Proof.Machine.execRmb6 off s
  | .rmb7 off => Sys2Proof.Machine.execRmb7 off s
  | .smb0 off => Sys2Proof.Machine.execSmb0 off s
  | .smb1 off => Sys2Proof.Machine.execSmb1 off s
  | .smb2 off => Sys2Proof.Machine.execSmb2 off s
  | .smb3 off => Sys2Proof.Machine.execSmb3 off s
  | .smb4 off => Sys2Proof.Machine.execSmb4 off s
  | .smb5 off => Sys2Proof.Machine.execSmb5 off s
  | .smb6 off => Sys2Proof.Machine.execSmb6 off s
  | .smb7 off => Sys2Proof.Machine.execSmb7 off s
  | .bpl disp => Sys2Proof.Machine.execBpl disp s
  | .bmi disp => Sys2Proof.Machine.execBmi disp s
  | .bvc disp => Sys2Proof.Machine.execBvc disp s
  | .bvs disp => Sys2Proof.Machine.execBvs disp s
  | .bcc disp => Sys2Proof.Machine.execBcc disp s
  | .bcs disp => Sys2Proof.Machine.execBcs disp s
  | .bne disp => Sys2Proof.Machine.execBne disp s
  | .beq disp => Sys2Proof.Machine.execBeq disp s
  | .bra disp => Sys2Proof.Machine.execBra disp s
  | .brl disp => Sys2Proof.Machine.execBrl disp s
  | .bbr0 off disp => Sys2Proof.Machine.execBbr0 off disp s
  | .bbr1 off disp => Sys2Proof.Machine.execBbr1 off disp s
  | .bbr2 off disp => Sys2Proof.Machine.execBbr2 off disp s
  | .bbr3 off disp => Sys2Proof.Machine.execBbr3 off disp s
  | .bbr4 off disp => Sys2Proof.Machine.execBbr4 off disp s
  | .bbr5 off disp => Sys2Proof.Machine.execBbr5 off disp s
  | .bbr6 off disp => Sys2Proof.Machine.execBbr6 off disp s
  | .bbr7 off disp => Sys2Proof.Machine.execBbr7 off disp s
  | .bbs0 off disp => Sys2Proof.Machine.execBbs0 off disp s
  | .bbs1 off disp => Sys2Proof.Machine.execBbs1 off disp s
  | .bbs2 off disp => Sys2Proof.Machine.execBbs2 off disp s
  | .bbs3 off disp => Sys2Proof.Machine.execBbs3 off disp s
  | .bbs4 off disp => Sys2Proof.Machine.execBbs4 off disp s
  | .bbs5 off disp => Sys2Proof.Machine.execBbs5 off disp s
  | .bbs6 off disp => Sys2Proof.Machine.execBbs6 off disp s
  | .bbs7 off disp => Sys2Proof.Machine.execBbs7 off disp s
  | .jmp f => Sys2Proof.Machine.execJmp f s
  | .jml f => Sys2Proof.Machine.execJml f s
  | .jsr f => Sys2Proof.Machine.execJsr f s
  | .jsl addr => Sys2Proof.Machine.execJsl addr s
  | .rts => Sys2Proof.Machine.execRts s
  | .rtl => Sys2Proof.Machine.execRtl s
  | .pha => Sys2Proof.Machine.execPha s
  | .pla => Sys2Proof.Machine.execPla s
  | .phx => Sys2Proof.Machine.execPhx s
  | .plx => Sys2Proof.Machine.execPlx s
  | .phy => Sys2Proof.Machine.execPhy s
  | .ply => Sys2Proof.Machine.execPly s
  | .php => Sys2Proof.Machine.execPhp s
  | .plp => Sys2Proof.Machine.execPlp s
  | .phb => Sys2Proof.Machine.execPhb s
  | .plb => Sys2Proof.Machine.execPlb s
  | .phd => Sys2Proof.Machine.execPhd s
  | .pld => Sys2Proof.Machine.execPld s
  | .phk => Sys2Proof.Machine.execPhk s
  | .pea v => Sys2Proof.Machine.execPea v s
  | .pei off => Sys2Proof.Machine.execPei off s
  | .per disp => Sys2Proof.Machine.execPer disp s
  | .clc => Sys2Proof.Machine.execClc s
  | .sec => Sys2Proof.Machine.execSec s
  | .cli => Sys2Proof.Machine.execCli s
  | .sei => Sys2Proof.Machine.execSei s
  | .cld => Sys2Proof.Machine.execCld s
  | .sed => Sys2Proof.Machine.execSed s
  | .clv => Sys2Proof.Machine.execClv s
  | .rep mask => Sys2Proof.Machine.execRep mask s
  | .sep mask => Sys2Proof.Machine.execSep mask s
  | .xce => Sys2Proof.Machine.execXce s
  | .mvn dst src => Sys2Proof.Machine.execMvn dst src s
  | .mvp dst src => Sys2Proof.Machine.execMvp dst src s
  | .brk => Sys2Proof.Machine.execBrk s
  | .cop => Sys2Proof.Machine.execCop s
  | .rti => Sys2Proof.Machine.execRti s
  | .wai => Sys2Proof.Machine.execWai s
  | .stp => Sys2Proof.Machine.execStp s
  | .nop => Sys2Proof.Machine.execNop s
  | .wdm v => Sys2Proof.Machine.execWdm v s
  | .illegal op => Sys2Proof.Machine.execIllegal op s

end Sys2Proof.Machine
end

