-- ==== Sys2Proof/WellFormed.lean ====
section
/-! DEFINITION. Which instruction terms the machine has: the variant's maps (30_encoding.md R105 to R107) give
each mnemonic its formats, and the width predicates give the size of an immediate (R102). -/

namespace Sys2Proof

/-- The variant is the 65816. -/
def DecodeCtx.is816 (c : DecodeCtx) : Bool := c.variant == .v65816

/-- The variant is the 65C02 or the 65816: the opcodes 30_encoding.md R106 adds to the 6502. -/
def DecodeCtx.cmos (c : DecodeCtx) : Bool := c.variant != .v6502

/-- The 65C02 with its single-bit instructions (30_encoding.md R106, `C02_BITOPS`). -/
def DecodeCtx.hasBitops (c : DecodeCtx) : Bool := c.variant == .v65C02 && c.bitops

/-- An immediate has the width in force: one byte when the predicate holds, else two (R102). -/
def Imm.fits (eight : Bool) : Imm → Bool
  | .byte _ => eight
  | .word _ => !eight

/-- The memory formats of ORA, AND, EOR, ADC, STA, LDA, CMP and SBC: seven on every variant, `izp` on the
65C02 and 65816, the long and stack-relative ones on the 65816 (41_load_store_transfer.md R180). -/
def Mem.inGroupOne (c : DecodeCtx) : Mem → Bool
  | .dp _ | .dpx _ | .abs _ | .abx _ | .aby _ | .izx _ | .izy _ => true
  | .izp _ => c.cmos
  | .idl _ | .idly _ | .abl _ | .alx _ | .sr _ | .sry _ => c.is816
  | .dpy _ => false

/-- The formats `dp` and `abs`. -/
def Mem.isDpAbs : Mem → Bool
  | .dp _ | .abs _ => true
  | _ => false

/-- The formats `dp`, `dpx`, `abs` and `abx`. -/
def Mem.isIndexedByX : Mem → Bool
  | .dp _ | .dpx _ | .abs _ | .abx _ => true
  | _ => false

/-- The formats `dp`, `dpy`, `abs` and `aby`. -/
def Mem.isIndexedByY : Mem → Bool
  | .dp _ | .dpy _ | .abs _ | .aby _ => true
  | _ => false

/-- The operands of an accumulator instruction with every group-one format. -/
def Operand.okGroupOne (c : DecodeCtx) : Operand → Bool
  | .imm v => v.fits c.m8
  | .mem m => m.inGroupOne c

/-- The operands of LDX, LDY, CPX, CPY: an `immX` immediate or a memory format the mnemonic has. -/
def Operand.okIndex (c : DecodeCtx) (has : Mem → Bool) : Operand → Bool
  | .imm v => v.fits c.x8
  | .mem m => has m

/-- The operands of BIT: `dp` and `abs` everywhere, the immediate, `dpx` and `abx` on the 65C02 and 65816
(43_logic_shift.md R253). -/
def Operand.okBit (c : DecodeCtx) : Operand → Bool
  | .imm v => c.cmos && v.fits c.m8
  | .mem (.dp _) | .mem (.abs _) => true
  | .mem (.dpx _) | .mem (.abx _) => c.cmos
  | .mem _ => false

/-- The targets of the shifts, INC and DEC; `acc` where the flag says the variant has it. -/
def Target.ok (hasAcc : Bool) : Target → Bool
  | .acc => hasAcc
  | .mem m => m.isIndexedByX

/-- The assigned opcodes of a variant's map, one number per row of the grid (30_encoding.md R105 to R107): bit
`C` of row `R` says that the cell `0xRC` is not empty. The 65C02 adds 29 cells to the 6502's and, with
`C02_BITOPS`, columns 7 and F; the 65816 adds its own 76 to the first 29. -/
def assignedRows (c : DecodeCtx) : List Nat :=
  let r6502 := [0x6763, 0x6363, 0x7773, 0x6363, 0x7763, 0x6363, 0x7763, 0x6363,
                0x7572, 0x2773, 0x7777, 0x7773, 0x7773, 0x6363, 0x7773, 0x6363]
  let add02 := [0x1010, 0x1414, 0x0000, 0x1414, 0x0000, 0x0404, 0x0010, 0x1414,
                0x0201, 0x5004, 0x0000, 0x0004, 0x0800, 0x0C04, 0x0000, 0x0404]
  let bits  := List.replicate 16 0x8080
  let add16 := [0x888C, 0x8888, 0x888C, 0x8888, 0x889C, 0x9898, 0x888C, 0x8888,
                0x888C, 0x8888, 0x8888, 0x8888, 0x808C, 0x9098, 0x888C, 0x9898]
  match c.variant with
  | .v6502 => r6502
  | .v65C02 => if c.bitops then List.zipWith (· ||| ·) (List.zipWith (· ||| ·) r6502 add02) bits
      else List.zipWith (· ||| ·) r6502 add02
  | .v65816 => List.zipWith (· ||| ·) (List.zipWith (· ||| ·) r6502 add02) add16

/-- The variant's map assigns an instruction to the opcode byte (30_encoding.md R105 to R108). -/
def assigned (c : DecodeCtx) (op : Byte) : Bool :=
  ((assignedRows c).getD (op.toNat / 16) 0).testBit (op.toNat % 16)

/-- The instruction is one the variant's map has, with a format the mnemonic has there and an immediate of
the width in force; the fallback is the meaning of exactly the unassigned bytes (R108). -/
def Instr.wf (c : DecodeCtx) : Instr → Bool
  | .lda o | .adc o | .sbc o | .cmp o | .and o | .ora o | .eor o => o.okGroupOne c
  | .sta m => m.inGroupOne c
  | .ldx o => o.okIndex c Mem.isIndexedByY
  | .ldy o => o.okIndex c Mem.isIndexedByX
  | .stx m => match m with | .dp _ | .dpy _ | .abs _ => true | _ => false
  | .sty m => match m with | .dp _ | .dpx _ | .abs _ => true | _ => false
  | .stz m => c.cmos && m.isIndexedByX
  | .tax | .tay | .txa | .tya | .tsx | .txs => true
  | .txy | .tyx | .tcd | .tdc | .tcs | .tsc | .xba => c.is816
  | .cpx o | .cpy o => o.okIndex c Mem.isDpAbs
  | .inc t | .dec t => t.ok c.cmos
  | .inx | .iny | .dex | .dey => true
  | .bit o => o.okBit c
  | .tsb m | .trb m => c.cmos && m.isDpAbs
  | .asl t | .lsr t | .rol t | .ror t => t.ok true
  | .rmb0 _ | .rmb1 _ | .rmb2 _ | .rmb3 _ | .rmb4 _ | .rmb5 _ | .rmb6 _ | .rmb7 _ => c.hasBitops
  | .smb0 _ | .smb1 _ | .smb2 _ | .smb3 _ | .smb4 _ | .smb5 _ | .smb6 _ | .smb7 _ => c.hasBitops
  | .bpl _ | .bmi _ | .bvc _ | .bvs _ | .bcc _ | .bcs _ | .bne _ | .beq _ => true
  | .bra _ => c.cmos
  | .brl _ => c.is816
  | .bbr0 _ _ | .bbr1 _ _ | .bbr2 _ _ | .bbr3 _ _ | .bbr4 _ _ | .bbr5 _ _ | .bbr6 _ _ | .bbr7 _ _ => c.hasBitops
  | .bbs0 _ _ | .bbs1 _ _ | .bbs2 _ _ | .bbs3 _ _ | .bbs4 _ _ | .bbs5 _ _ | .bbs6 _ _ | .bbs7 _ _ => c.hasBitops
  | .jmp f => match f with | .iax _ => c.cmos | _ => true
  | .jml _ => c.is816
  | .jsr f => match f with | .abj _ => true | .iax _ => c.is816
  | .jsl _ | .rtl => c.is816
  | .rts => true
  | .pha | .pla | .php | .plp => true
  | .phx | .plx | .phy | .ply => c.cmos
  | .phb | .plb | .phd | .pld | .phk | .pea _ | .pei _ | .per _ => c.is816
  | .clc | .sec | .cli | .sei | .cld | .sed | .clv => true
  | .rep _ | .sep _ | .xce => c.is816
  | .mvn _ _ | .mvp _ _ => c.is816
  | .brk | .rti | .nop => true
  | .cop | .wdm _ => c.is816
  | .wai | .stp => c.cmos
  | .illegal op => !assigned c op

end Sys2Proof
end

