-- ==== Sys2Proof/Decode.lean ====
section
/-! DEFINITION. The decoder, total on any bytes (30_encoding.md R100 to R108), and the encoder. -/

namespace Sys2Proof

open Sys2Proof.Machine (loByte hiByte mkWord mkLong offOf bankOf)

/-- An entry of an opcode table: how many operand bytes follow the opcode and the instruction they make
(30_encoding.md R100, R101, R104). -/
inductive Entry where
  | none  (i : Instr)
  | one   (k : Byte → Instr)
  | two   (k : Word → Instr)
  | three (k : Long → Instr)
  | pair  (k : Byte → Byte → Instr)
  | immM  (k : Imm → Instr)
  | immX  (k : Imm → Instr)

/-- The number of operand bytes fetched for an entry (30_encoding.md R100, R102, R110). -/
def Entry.operandBytes (c : DecodeCtx) : Entry → Nat
  | .none _ => 0
  | .one _ => 1
  | .two _ => 2
  | .three _ => 3
  | .pair _ => 2
  | .immM _ => if c.m8 then 1 else 2
  | .immX _ => if c.x8 then 1 else 2

/-- A width-dependent immediate from the bytes after the opcode (30_encoding.md R102). -/
def buildImm (eight : Bool) (k : Imm → Instr) : List Byte → Option (Instr × List Byte)
  | b :: rest =>
    if eight then some (k (.byte b), rest)
    else match rest with
      | h :: rest => some (k (.word (mkWord h b)), rest)
      | [] => .none
  | [] => .none

/-- The instruction an entry makes of the bytes after the opcode, little-endian (30_encoding.md R101), with
the bytes left over; none if there are too few. -/
def Entry.build (c : DecodeCtx) : Entry → List Byte → Option (Instr × List Byte)
  | .none i, bs => some (i, bs)
  | .one k, b :: bs => some (k b, bs)
  | .two k, l :: h :: bs => some (k (mkWord h l), bs)
  | .three k, l :: h :: bk :: bs => some (k (mkLong bk (mkWord h l)), bs)
  | .pair k, b1 :: b2 :: bs => some (k b1 b2, bs)
  | .immM k, bs => buildImm c.m8 k bs
  | .immX k, bs => buildImm c.x8 k bs
  | _, _ => .none

/-- The 6502 map, row by row of its grid: 151 opcodes (30_encoding.md R105). -/
def map6502 (row : Nat) : List (Nat × Entry) :=
  match row with
  | 0x0 =>
    [(0x0, .none .brk),
     (0x1, .one (.ora <| .mem <| .izx ·)),
     (0x5, .one (.ora <| .mem <| .dp ·)),
     (0x6, .one (.asl <| .mem <| .dp ·)),
     (0x8, .none .php),
     (0x9, .immM (.ora <| .imm ·)),
     (0xA, .none (.asl .acc)),
     (0xD, .two (.ora <| .mem <| .abs ·)),
     (0xE, .two (.asl <| .mem <| .abs ·))]
  | 0x1 =>
    [(0x0, .one .bpl),
     (0x1, .one (.ora <| .mem <| .izy ·)),
     (0x5, .one (.ora <| .mem <| .dpx ·)),
     (0x6, .one (.asl <| .mem <| .dpx ·)),
     (0x8, .none .clc),
     (0x9, .two (.ora <| .mem <| .aby ·)),
     (0xD, .two (.ora <| .mem <| .abx ·)),
     (0xE, .two (.asl <| .mem <| .abx ·))]
  | 0x2 =>
    [(0x0, .two (.jsr <| .abj ·)),
     (0x1, .one (.and <| .mem <| .izx ·)),
     (0x4, .one (.bit <| .mem <| .dp ·)),
     (0x5, .one (.and <| .mem <| .dp ·)),
     (0x6, .one (.rol <| .mem <| .dp ·)),
     (0x8, .none .plp),
     (0x9, .immM (.and <| .imm ·)),
     (0xA, .none (.rol .acc)),
     (0xC, .two (.bit <| .mem <| .abs ·)),
     (0xD, .two (.and <| .mem <| .abs ·)),
     (0xE, .two (.rol <| .mem <| .abs ·))]
  | 0x3 =>
    [(0x0, .one .bmi),
     (0x1, .one (.and <| .mem <| .izy ·)),
     (0x5, .one (.and <| .mem <| .dpx ·)),
     (0x6, .one (.rol <| .mem <| .dpx ·)),
     (0x8, .none .sec),
     (0x9, .two (.and <| .mem <| .aby ·)),
     (0xD, .two (.and <| .mem <| .abx ·)),
     (0xE, .two (.rol <| .mem <| .abx ·))]
  | 0x4 =>
    [(0x0, .none .rti),
     (0x1, .one (.eor <| .mem <| .izx ·)),
     (0x5, .one (.eor <| .mem <| .dp ·)),
     (0x6, .one (.lsr <| .mem <| .dp ·)),
     (0x8, .none .pha),
     (0x9, .immM (.eor <| .imm ·)),
     (0xA, .none (.lsr .acc)),
     (0xC, .two (.jmp <| .abj ·)),
     (0xD, .two (.eor <| .mem <| .abs ·)),
     (0xE, .two (.lsr <| .mem <| .abs ·))]
  | 0x5 =>
    [(0x0, .one .bvc),
     (0x1, .one (.eor <| .mem <| .izy ·)),
     (0x5, .one (.eor <| .mem <| .dpx ·)),
     (0x6, .one (.lsr <| .mem <| .dpx ·)),
     (0x8, .none .cli),
     (0x9, .two (.eor <| .mem <| .aby ·)),
     (0xD, .two (.eor <| .mem <| .abx ·)),
     (0xE, .two (.lsr <| .mem <| .abx ·))]
  | 0x6 =>
    [(0x0, .none .rts),
     (0x1, .one (.adc <| .mem <| .izx ·)),
     (0x5, .one (.adc <| .mem <| .dp ·)),
     (0x6, .one (.ror <| .mem <| .dp ·)),
     (0x8, .none .pla),
     (0x9, .immM (.adc <| .imm ·)),
     (0xA, .none (.ror .acc)),
     (0xC, .two (.jmp <| .ind ·)),
     (0xD, .two (.adc <| .mem <| .abs ·)),
     (0xE, .two (.ror <| .mem <| .abs ·))]
  | 0x7 =>
    [(0x0, .one .bvs),
     (0x1, .one (.adc <| .mem <| .izy ·)),
     (0x5, .one (.adc <| .mem <| .dpx ·)),
     (0x6, .one (.ror <| .mem <| .dpx ·)),
     (0x8, .none .sei),
     (0x9, .two (.adc <| .mem <| .aby ·)),
     (0xD, .two (.adc <| .mem <| .abx ·)),
     (0xE, .two (.ror <| .mem <| .abx ·))]
  | 0x8 =>
    [(0x1, .one (.sta <| .izx ·)),
     (0x4, .one (.sty <| .dp ·)),
     (0x5, .one (.sta <| .dp ·)),
     (0x6, .one (.stx <| .dp ·)),
     (0x8, .none .dey),
     (0xA, .none .txa),
     (0xC, .two (.sty <| .abs ·)),
     (0xD, .two (.sta <| .abs ·)),
     (0xE, .two (.stx <| .abs ·))]
  | 0x9 =>
    [(0x0, .one .bcc),
     (0x1, .one (.sta <| .izy ·)),
     (0x4, .one (.sty <| .dpx ·)),
     (0x5, .one (.sta <| .dpx ·)),
     (0x6, .one (.stx <| .dpy ·)),
     (0x8, .none .tya),
     (0x9, .two (.sta <| .aby ·)),
     (0xA, .none .txs),
     (0xD, .two (.sta <| .abx ·))]
  | 0xA =>
    [(0x0, .immX (.ldy <| .imm ·)),
     (0x1, .one (.lda <| .mem <| .izx ·)),
     (0x2, .immX (.ldx <| .imm ·)),
     (0x4, .one (.ldy <| .mem <| .dp ·)),
     (0x5, .one (.lda <| .mem <| .dp ·)),
     (0x6, .one (.ldx <| .mem <| .dp ·)),
     (0x8, .none .tay),
     (0x9, .immM (.lda <| .imm ·)),
     (0xA, .none .tax),
     (0xC, .two (.ldy <| .mem <| .abs ·)),
     (0xD, .two (.lda <| .mem <| .abs ·)),
     (0xE, .two (.ldx <| .mem <| .abs ·))]
  | 0xB =>
    [(0x0, .one .bcs),
     (0x1, .one (.lda <| .mem <| .izy ·)),
     (0x4, .one (.ldy <| .mem <| .dpx ·)),
     (0x5, .one (.lda <| .mem <| .dpx ·)),
     (0x6, .one (.ldx <| .mem <| .dpy ·)),
     (0x8, .none .clv),
     (0x9, .two (.lda <| .mem <| .aby ·)),
     (0xA, .none .tsx),
     (0xC, .two (.ldy <| .mem <| .abx ·)),
     (0xD, .two (.lda <| .mem <| .abx ·)),
     (0xE, .two (.ldx <| .mem <| .aby ·))]
  | 0xC =>
    [(0x0, .immX (.cpy <| .imm ·)),
     (0x1, .one (.cmp <| .mem <| .izx ·)),
     (0x4, .one (.cpy <| .mem <| .dp ·)),
     (0x5, .one (.cmp <| .mem <| .dp ·)),
     (0x6, .one (.dec <| .mem <| .dp ·)),
     (0x8, .none .iny),
     (0x9, .immM (.cmp <| .imm ·)),
     (0xA, .none .dex),
     (0xC, .two (.cpy <| .mem <| .abs ·)),
     (0xD, .two (.cmp <| .mem <| .abs ·)),
     (0xE, .two (.dec <| .mem <| .abs ·))]
  | 0xD =>
    [(0x0, .one .bne),
     (0x1, .one (.cmp <| .mem <| .izy ·)),
     (0x5, .one (.cmp <| .mem <| .dpx ·)),
     (0x6, .one (.dec <| .mem <| .dpx ·)),
     (0x8, .none .cld),
     (0x9, .two (.cmp <| .mem <| .aby ·)),
     (0xD, .two (.cmp <| .mem <| .abx ·)),
     (0xE, .two (.dec <| .mem <| .abx ·))]
  | 0xE =>
    [(0x0, .immX (.cpx <| .imm ·)),
     (0x1, .one (.sbc <| .mem <| .izx ·)),
     (0x4, .one (.cpx <| .mem <| .dp ·)),
     (0x5, .one (.sbc <| .mem <| .dp ·)),
     (0x6, .one (.inc <| .mem <| .dp ·)),
     (0x8, .none .inx),
     (0x9, .immM (.sbc <| .imm ·)),
     (0xA, .none .nop),
     (0xC, .two (.cpx <| .mem <| .abs ·)),
     (0xD, .two (.sbc <| .mem <| .abs ·)),
     (0xE, .two (.inc <| .mem <| .abs ·))]
  | 0xF =>
    [(0x0, .one .beq),
     (0x1, .one (.sbc <| .mem <| .izy ·)),
     (0x5, .one (.sbc <| .mem <| .dpx ·)),
     (0x6, .one (.inc <| .mem <| .dpx ·)),
     (0x8, .none .sed),
     (0x9, .two (.sbc <| .mem <| .aby ·)),
     (0xD, .two (.sbc <| .mem <| .abx ·)),
     (0xE, .two (.inc <| .mem <| .abx ·))]
  | _ => []

/-- The 29 opcodes the 65C02 adds and the 65816 keeps (30_encoding.md R106). -/
def mapAdded (row : Nat) : List (Nat × Entry) :=
  match row with
  | 0x0 =>
    [(0x4, .one (.tsb <| .dp ·)),
     (0xC, .two (.tsb <| .abs ·))]
  | 0x1 =>
    [(0x2, .one (.ora <| .mem <| .izp ·)),
     (0x4, .one (.trb <| .dp ·)),
     (0xA, .none (.inc .acc)),
     (0xC, .two (.trb <| .abs ·))]
  | 0x3 =>
    [(0x2, .one (.and <| .mem <| .izp ·)),
     (0x4, .one (.bit <| .mem <| .dpx ·)),
     (0xA, .none (.dec .acc)),
     (0xC, .two (.bit <| .mem <| .abx ·))]
  | 0x5 =>
    [(0x2, .one (.eor <| .mem <| .izp ·)),
     (0xA, .none .phy)]
  | 0x6 =>
    [(0x4, .one (.stz <| .dp ·))]
  | 0x7 =>
    [(0x2, .one (.adc <| .mem <| .izp ·)),
     (0x4, .one (.stz <| .dpx ·)),
     (0xA, .none .ply),
     (0xC, .two (.jmp <| .iax ·))]
  | 0x8 =>
    [(0x0, .one .bra),
     (0x9, .immM (.bit <| .imm ·))]
  | 0x9 =>
    [(0x2, .one (.sta <| .izp ·)),
     (0xC, .two (.stz <| .abs ·)),
     (0xE, .two (.stz <| .abx ·))]
  | 0xB =>
    [(0x2, .one (.lda <| .mem <| .izp ·))]
  | 0xC =>
    [(0xB, .none .wai)]
  | 0xD =>
    [(0x2, .one (.cmp <| .mem <| .izp ·)),
     (0xA, .none .phx),
     (0xB, .none .stp)]
  | 0xF =>
    [(0x2, .one (.sbc <| .mem <| .izp ·)),
     (0xA, .none .plx)]
  | _ => []

/-- The 32 single-bit opcodes of the 65C02, columns 7 and F (30_encoding.md R106). -/
def mapBitops (row : Nat) : List (Nat × Entry) :=
  match row with
  | 0x0 =>
    [(0x7, .one .rmb0),
     (0xF, .pair .bbr0)]
  | 0x1 =>
    [(0x7, .one .rmb1),
     (0xF, .pair .bbr1)]
  | 0x2 =>
    [(0x7, .one .rmb2),
     (0xF, .pair .bbr2)]
  | 0x3 =>
    [(0x7, .one .rmb3),
     (0xF, .pair .bbr3)]
  | 0x4 =>
    [(0x7, .one .rmb4),
     (0xF, .pair .bbr4)]
  | 0x5 =>
    [(0x7, .one .rmb5),
     (0xF, .pair .bbr5)]
  | 0x6 =>
    [(0x7, .one .rmb6),
     (0xF, .pair .bbr6)]
  | 0x7 =>
    [(0x7, .one .rmb7),
     (0xF, .pair .bbr7)]
  | 0x8 =>
    [(0x7, .one .smb0),
     (0xF, .pair .bbs0)]
  | 0x9 =>
    [(0x7, .one .smb1),
     (0xF, .pair .bbs1)]
  | 0xA =>
    [(0x7, .one .smb2),
     (0xF, .pair .bbs2)]
  | 0xB =>
    [(0x7, .one .smb3),
     (0xF, .pair .bbs3)]
  | 0xC =>
    [(0x7, .one .smb4),
     (0xF, .pair .bbs4)]
  | 0xD =>
    [(0x7, .one .smb5),
     (0xF, .pair .bbs5)]
  | 0xE =>
    [(0x7, .one .smb6),
     (0xF, .pair .bbs6)]
  | 0xF =>
    [(0x7, .one .smb7),
     (0xF, .pair .bbs7)]
  | _ => []

/-- The 76 opcodes of the 65816 alone (30_encoding.md R107). -/
def map65816 (row : Nat) : List (Nat × Entry) :=
  match row with
  | 0x0 =>
    [(0x2, .none .cop),
     (0x3, .one (.ora <| .mem <| .sr ·)),
     (0x7, .one (.ora <| .mem <| .idl ·)),
     (0xB, .none .phd),
     (0xF, .three (.ora <| .mem <| .abl ·))]
  | 0x1 =>
    [(0x3, .one (.ora <| .mem <| .sry ·)),
     (0x7, .one (.ora <| .mem <| .idly ·)),
     (0xB, .none .tcs),
     (0xF, .three (.ora <| .mem <| .alx ·))]
  | 0x2 =>
    [(0x2, .three .jsl),
     (0x3, .one (.and <| .mem <| .sr ·)),
     (0x7, .one (.and <| .mem <| .idl ·)),
     (0xB, .none .pld),
     (0xF, .three (.and <| .mem <| .abl ·))]
  | 0x3 =>
    [(0x3, .one (.and <| .mem <| .sry ·)),
     (0x7, .one (.and <| .mem <| .idly ·)),
     (0xB, .none .tsc),
     (0xF, .three (.and <| .mem <| .alx ·))]
  | 0x4 =>
    [(0x2, .one .wdm),
     (0x3, .one (.eor <| .mem <| .sr ·)),
     (0x4, .pair .mvp),
     (0x7, .one (.eor <| .mem <| .idl ·)),
     (0xB, .none .phk),
     (0xF, .three (.eor <| .mem <| .abl ·))]
  | 0x5 =>
    [(0x3, .one (.eor <| .mem <| .sry ·)),
     (0x4, .pair .mvn),
     (0x7, .one (.eor <| .mem <| .idly ·)),
     (0xB, .none .tcd),
     (0xC, .three (.jml <| .abl ·)),
     (0xF, .three (.eor <| .mem <| .alx ·))]
  | 0x6 =>
    [(0x2, .two .per),
     (0x3, .one (.adc <| .mem <| .sr ·)),
     (0x7, .one (.adc <| .mem <| .idl ·)),
     (0xB, .none .rtl),
     (0xF, .three (.adc <| .mem <| .abl ·))]
  | 0x7 =>
    [(0x3, .one (.adc <| .mem <| .sry ·)),
     (0x7, .one (.adc <| .mem <| .idly ·)),
     (0xB, .none .tdc),
     (0xF, .three (.adc <| .mem <| .alx ·))]
  | 0x8 =>
    [(0x2, .two .brl),
     (0x3, .one (.sta <| .sr ·)),
     (0x7, .one (.sta <| .idl ·)),
     (0xB, .none .phb),
     (0xF, .three (.sta <| .abl ·))]
  | 0x9 =>
    [(0x3, .one (.sta <| .sry ·)),
     (0x7, .one (.sta <| .idly ·)),
     (0xB, .none .txy),
     (0xF, .three (.sta <| .alx ·))]
  | 0xA =>
    [(0x3, .one (.lda <| .mem <| .sr ·)),
     (0x7, .one (.lda <| .mem <| .idl ·)),
     (0xB, .none .plb),
     (0xF, .three (.lda <| .mem <| .abl ·))]
  | 0xB =>
    [(0x3, .one (.lda <| .mem <| .sry ·)),
     (0x7, .one (.lda <| .mem <| .idly ·)),
     (0xB, .none .tyx),
     (0xF, .three (.lda <| .mem <| .alx ·))]
  | 0xC =>
    [(0x2, .one .rep),
     (0x3, .one (.cmp <| .mem <| .sr ·)),
     (0x7, .one (.cmp <| .mem <| .idl ·)),
     (0xF, .three (.cmp <| .mem <| .abl ·))]
  | 0xD =>
    [(0x3, .one (.cmp <| .mem <| .sry ·)),
     (0x4, .one .pei),
     (0x7, .one (.cmp <| .mem <| .idly ·)),
     (0xC, .two (.jml <| .ial ·)),
     (0xF, .three (.cmp <| .mem <| .alx ·))]
  | 0xE =>
    [(0x2, .one .sep),
     (0x3, .one (.sbc <| .mem <| .sr ·)),
     (0x7, .one (.sbc <| .mem <| .idl ·)),
     (0xB, .none .xba),
     (0xF, .three (.sbc <| .mem <| .abl ·))]
  | 0xF =>
    [(0x3, .one (.sbc <| .mem <| .sry ·)),
     (0x4, .two .pea),
     (0x7, .one (.sbc <| .mem <| .idly ·)),
     (0xB, .none .xce),
     (0xC, .two (.jsr <| .iax ·)),
     (0xF, .three (.sbc <| .mem <| .alx ·))]
  | _ => []

/-- The entry of column `col` in a row of a map. -/
def findColumn (col : Nat) : List (Nat × Entry) → Option Entry
  | [] => .none
  | (c, e) :: t => if c = col then some e else findColumn col t

/-- A row of the variant's table: the 65C02's is the 6502's with entries laid over it (30_encoding.md R104,
70_reset_and_hazards.md R463). -/
def tableRow (c : DecodeCtx) (row : Nat) : List (Nat × Entry) :=
  match c.variant with
  | .v6502 => map6502 row
  | .v65C02 => (if c.bitops then mapBitops row else []) ++ (mapAdded row ++ map6502 row)
  | .v65816 => map65816 row ++ (mapAdded row ++ map6502 row)

/-- `TABLE[VARIANT][opcode]`: total, the not-implemented fallback where the map has no instruction
(30_encoding.md R104, R108). -/
def entryOf (c : DecodeCtx) (op : Byte) : Entry :=
  match findColumn (op.toNat % 16) (tableRow c (op.toNat / 16)) with
  | some e => e
  | .none => .none (.illegal op)

/-- Why bytes are not an instruction. -/
inductive DecodeError where
  /-- there is no opcode byte -/
  | noOpcode
  /-- fewer operand bytes follow the opcode than its format has -/
  | truncated (op : Byte)
  deriving DecidableEq, Repr

/-- The first instruction of a list of bytes, with the bytes after it. Only the first byte selects the
instruction (30_encoding.md R100). -/
def decode (c : DecodeCtx) : List Byte → Except DecodeError (Instr × List Byte)
  | [] => .error .noOpcode
  | op :: bs =>
    match (entryOf c op).build c bs with
    | some r => .ok r
    | .none => .error (.truncated op)

/-- The context `decodeTableWord` decodes in: the widths after reset, on the 65816 (log 1). -/
def tableCtx : DecodeCtx := ⟨.v65816, true, true, true⟩

/-- The bytes of a table word: byte `k` is bits `8k+7` to `8k`, and the bits from `nbits` up are 0. -/
def tableBytes (nbits w : Nat) : List Byte :=
  (List.range 4).map fun k => BitVec.ofNat 8 ((w % 2 ^ nbits) / 2 ^ (8 * k))

/-- The instruction the decoder reads from a word of the opcode table (zeros above `nbits`). -/
def decodeTableWord (nbits w : Nat) : Option Instr :=
  match decode tableCtx (tableBytes nbits w) with
  | .ok (i, _) => some i
  | .error _ => .none

/-! The encoder, from the "Encodings" lines of the instruction rules (41 to 48). -/

/-- The bytes of an immediate, low byte first. -/
def Imm.bytes : Imm → List Byte
  | .byte v => [v]
  | .word v => [loByte v, hiByte v]

/-- A 16-bit operand, low byte first. -/
def wordBytes (v : Word) : List Byte := [loByte v, hiByte v]

/-- A 24-bit operand, low byte first. -/
def longBytes (v : Long) : List Byte := [loByte (offOf v), hiByte (offOf v), bankOf v]

/-- The operand bytes of a memory format (30_encoding.md R100). -/
def Mem.bytes : Mem → List Byte
  | .dp o | .dpx o | .dpy o | .izx o | .izy o | .izp o | .idl o | .idly o | .sr o | .sry o => [o]
  | .abs a | .abx a | .aby a => wordBytes a
  | .abl a | .alx a => longBytes a

/-- The opcode of a group-one memory format above the mnemonic's first opcode: `base` is the opcode that
rules R180, R183, R220, R221, R224, R250 to R252 give the `izx` form, less 1. -/
def Mem.groupOne (base : Byte) : Mem → Option Byte
  | .izx _ => some (base + 0x01) | .sr _ => some (base + 0x03) | .dp _ => some (base + 0x05)
  | .idl _ => some (base + 0x07) | .abs _ => some (base + 0x0D) | .abl _ => some (base + 0x0F)
  | .izy _ => some (base + 0x11) | .izp _ => some (base + 0x12) | .sry _ => some (base + 0x13)
  | .dpx _ => some (base + 0x15) | .idly _ => some (base + 0x17) | .aby _ => some (base + 0x19)
  | .abx _ => some (base + 0x1D) | .alx _ => some (base + 0x1F) | .dpy _ => .none

/-- Opcode and operand bytes together; nothing where the mnemonic has no such format. -/
def withOpcode (op : Option Byte) (bs : List Byte) : List Byte :=
  match op with
  | some o => o :: bs
  | .none => []

/-- The bytes of a group-one instruction whose immediate form has opcode `base + 9`. -/
def Operand.encodeGroupOne (base : Byte) : Operand → List Byte
  | .imm v => (base + 0x09) :: v.bytes
  | .mem m => withOpcode (m.groupOne base) m.bytes

/-- The bytes of a shift, INC or DEC: the accumulator form and the forms `dp`, `dpx`, `abs`, `abx`. -/
def Target.encode (acc dp dpx abs abx : Byte) : Target → List Byte
  | .acc => [acc]
  | .mem (.dp o) => [dp, o]
  | .mem (.dpx o) => [dpx, o]
  | .mem (.abs a) => abs :: wordBytes a
  | .mem (.abx a) => abx :: wordBytes a
  | .mem _ => []

/-- LDX and STX formats (R181, R184). -/
def opcodeX (dp dpy abs : Byte) (aby : Option Byte) : Mem → Option Byte
  | .dp _ => some dp | .dpy _ => some dpy | .abs _ => some abs | .aby _ => aby
  | _ => .none

/-- LDY, STY, STZ and BIT formats (R182, R185, R186, R253). -/
def opcodeY (dp dpx abs : Byte) (abx : Option Byte) : Mem → Option Byte
  | .dp _ => some dp | .dpx _ => some dpx | .abs _ => some abs | .abx _ => abx
  | _ => .none

/-- CPX, CPY, TSB and TRB formats (R225, R226, R254, R255). -/
def opcodeDpAbs (dp abs : Byte) : Mem → Option Byte
  | .dp _ => some dp | .abs _ => some abs
  | _ => .none

/-- The bytes of a well-formed instruction, opcode first; empty where the mnemonic has no such format. -/
def encode : Instr → List Byte
  | .ora o => o.encodeGroupOne 0x00
  | .and o => o.encodeGroupOne 0x20
  | .eor o => o.encodeGroupOne 0x40
  | .adc o => o.encodeGroupOne 0x60
  | .sta m => withOpcode (m.groupOne 0x80) m.bytes
  | .lda o => o.encodeGroupOne 0xA0
  | .cmp o => o.encodeGroupOne 0xC0
  | .sbc o => o.encodeGroupOne 0xE0
  | .ldx (.imm v) => 0xA2 :: v.bytes
  | .ldx (.mem m) => withOpcode (opcodeX 0xA6 0xB6 0xAE (some 0xBE) m) m.bytes
  | .ldy (.imm v) => 0xA0 :: v.bytes
  | .ldy (.mem m) => withOpcode (opcodeY 0xA4 0xB4 0xAC (some 0xBC) m) m.bytes
  | .stx m => withOpcode (opcodeX 0x86 0x96 0x8E .none m) m.bytes
  | .sty m => withOpcode (opcodeY 0x84 0x94 0x8C .none m) m.bytes
  | .stz m => withOpcode (opcodeY 0x64 0x74 0x9C (some 0x9E) m) m.bytes
  | .tax => [0xAA] | .tay => [0xA8] | .txa => [0x8A] | .tya => [0x98]
  | .tsx => [0xBA] | .txs => [0x9A] | .txy => [0x9B] | .tyx => [0xBB]
  | .tcd => [0x5B] | .tdc => [0x7B] | .tcs => [0x1B] | .tsc => [0x3B] | .xba => [0xEB]
  | .cpx (.imm v) => 0xE0 :: v.bytes
  | .cpx (.mem m) => withOpcode (opcodeDpAbs 0xE4 0xEC m) m.bytes
  | .cpy (.imm v) => 0xC0 :: v.bytes
  | .cpy (.mem m) => withOpcode (opcodeDpAbs 0xC4 0xCC m) m.bytes
  | .inc t => t.encode 0x1A 0xE6 0xF6 0xEE 0xFE
  | .dec t => t.encode 0x3A 0xC6 0xD6 0xCE 0xDE
  | .inx => [0xE8] | .iny => [0xC8] | .dex => [0xCA] | .dey => [0x88]
  | .bit (.imm v) => 0x89 :: v.bytes
  | .bit (.mem m) => withOpcode (opcodeY 0x24 0x34 0x2C (some 0x3C) m) m.bytes
  | .tsb m => withOpcode (opcodeDpAbs 0x04 0x0C m) m.bytes
  | .trb m => withOpcode (opcodeDpAbs 0x14 0x1C m) m.bytes
  | .asl t => t.encode 0x0A 0x06 0x16 0x0E 0x1E
  | .lsr t => t.encode 0x4A 0x46 0x56 0x4E 0x5E
  | .rol t => t.encode 0x2A 0x26 0x36 0x2E 0x3E
  | .ror t => t.encode 0x6A 0x66 0x76 0x6E 0x7E
  | .rmb0 o => [0x07, o] | .rmb1 o => [0x17, o]
  | .rmb2 o => [0x27, o] | .rmb3 o => [0x37, o]
  | .rmb4 o => [0x47, o] | .rmb5 o => [0x57, o]
  | .rmb6 o => [0x67, o] | .rmb7 o => [0x77, o]
  | .smb0 o => [0x87, o] | .smb1 o => [0x97, o]
  | .smb2 o => [0xA7, o] | .smb3 o => [0xB7, o]
  | .smb4 o => [0xC7, o] | .smb5 o => [0xD7, o]
  | .smb6 o => [0xE7, o] | .smb7 o => [0xF7, o]
  | .bpl d => [0x10, d] | .bmi d => [0x30, d] | .bvc d => [0x50, d] | .bvs d => [0x70, d]
  | .bcc d => [0x90, d] | .bcs d => [0xB0, d] | .bne d => [0xD0, d] | .beq d => [0xF0, d]
  | .bra d => [0x80, d]
  | .brl d => 0x82 :: wordBytes d
  | .bbr0 o d => [0x0F, o, d] | .bbr1 o d => [0x1F, o, d]
  | .bbr2 o d => [0x2F, o, d] | .bbr3 o d => [0x3F, o, d]
  | .bbr4 o d => [0x4F, o, d] | .bbr5 o d => [0x5F, o, d]
  | .bbr6 o d => [0x6F, o, d] | .bbr7 o d => [0x7F, o, d]
  | .bbs0 o d => [0x8F, o, d] | .bbs1 o d => [0x9F, o, d]
  | .bbs2 o d => [0xAF, o, d] | .bbs3 o d => [0xBF, o, d]
  | .bbs4 o d => [0xCF, o, d] | .bbs5 o d => [0xDF, o, d]
  | .bbs6 o d => [0xEF, o, d] | .bbs7 o d => [0xFF, o, d]
  | .jmp (.abj a) => 0x4C :: wordBytes a
  | .jmp (.ind a) => 0x6C :: wordBytes a
  | .jmp (.iax a) => 0x7C :: wordBytes a
  | .jml (.abl a) => 0x5C :: longBytes a
  | .jml (.ial a) => 0xDC :: wordBytes a
  | .jsr (.abj a) => 0x20 :: wordBytes a
  | .jsr (.iax a) => 0xFC :: wordBytes a
  | .jsl a => 0x22 :: longBytes a
  | .rts => [0x60] | .rtl => [0x6B]
  | .pha => [0x48] | .pla => [0x68] | .phx => [0xDA] | .plx => [0xFA] | .phy => [0x5A] | .ply => [0x7A]
  | .php => [0x08] | .plp => [0x28] | .phb => [0x8B] | .plb => [0xAB] | .phd => [0x0B] | .pld => [0x2B]
  | .phk => [0x4B]
  | .pea v => 0xF4 :: wordBytes v
  | .pei o => [0xD4, o]
  | .per d => 0x62 :: wordBytes d
  | .clc => [0x18] | .sec => [0x38] | .cli => [0x58] | .sei => [0x78] | .cld => [0xD8] | .sed => [0xF8]
  | .clv => [0xB8]
  | .rep m => [0xC2, m] | .sep m => [0xE2, m] | .xce => [0xFB]
  | .mvn d s => [0x54, d, s] | .mvp d s => [0x44, d, s]
  | .brk => [0x00] | .cop => [0x02] | .rti => [0x40] | .wai => [0xCB] | .stp => [0xDB] | .nop => [0xEA]
  | .wdm v => [0x42, v]
  | .illegal op => [op]

end Sys2Proof
end

