-- ==== Sys2Proof/Machine/Cycles.lean ====
section
/-! DEFINITION. The cycle tables `BASE_CYCLES` and `EXTRA_FLAG` (70_reset_and_hazards.md R470). The informative ones
are R471's and R472's: a count for each instruction at 8-bit widths and a page-aligned direct page, and the
adjustments by the state the routine starts in (log 6). -/

namespace Sys2Proof.Machine

/-- Cycles of a read from memory by format (R471, R472). -/
def readCycles : Mem → Nat
  | .dp _ => 3
  | .dpx _ | .dpy _ | .abs _ | .abx _ | .aby _ | .sr _ => 4
  | .izy _ | .izp _ | .abl _ | .alx _ => 5
  | .izx _ | .idl _ | .idly _ => 6
  | .sry _ => 7

/-- Cycles of a store by format (R471, R472). -/
def storeCycles : Mem → Nat
  | .dp _ => 3
  | .dpx _ | .dpy _ | .abs _ | .sr _ => 4
  | .abx _ | .aby _ | .izp _ | .abl _ | .alx _ => 5
  | .izx _ | .izy _ | .idl _ | .idly _ => 6
  | .sry _ => 7

/-- Cycles of a reading instruction. -/
def operandCycles : Operand → Nat
  | .imm _ => 2
  | .mem m => readCycles m

/-- Cycles of a read-modify-write; `abx` is the cycles of that format. -/
def modifyCycles (abx : Nat) : Target → Nat
  | .acc => 2
  | .mem (.dp _) => 5
  | .mem (.abx _) => abx
  | .mem _ => 6

/-- The formats marked "+p" (R471). -/
def chargesCrossing : Mem → Bool
  | .abx _ | .aby _ | .izy _ => true
  | _ => false

/-- The informative base count of an instruction on a variant (R471, R472). BRA counts 2 because the branch
template adds the cycle of a taken branch (44_control.md R280), as it does for BBRn and BBSn
(`State.bitBranchCycles`). -/
def informativeBase (v : Variant) : Instr → Nat
  | .lda o | .ldx o | .ldy o | .adc o | .sbc o | .and o | .ora o | .eor o | .cmp o | .cpx o | .cpy o | .bit o =>
    operandCycles o
  | .sta m | .stx m | .sty m | .stz m => storeCycles m
  | .asl t | .lsr t | .rol t | .ror t => modifyCycles (if v = .v6502 then 7 else 6) t
  | .inc t | .dec t => modifyCycles 7 t
  | .tsb m | .trb m => modifyCycles 7 (.mem m)
  | .tax | .tay | .txa | .tya | .tsx | .txs | .txy | .tyx | .tcd | .tdc | .tcs | .tsc => 2
  | .xba => 3
  | .inx | .iny | .dex | .dey => 2
  | .rmb0 _ | .rmb1 _ | .rmb2 _ | .rmb3 _ | .rmb4 _ | .rmb5 _ | .rmb6 _ | .rmb7 _ => 5
  | .smb0 _ | .smb1 _ | .smb2 _ | .smb3 _ | .smb4 _ | .smb5 _ | .smb6 _ | .smb7 _ => 5
  | .bpl _ | .bmi _ | .bvc _ | .bvs _ | .bcc _ | .bcs _ | .bne _ | .beq _ | .bra _ => 2
  | .brl _ => 4
  | .bbr0 _ _ | .bbr1 _ _ | .bbr2 _ _ | .bbr3 _ _ | .bbr4 _ _ | .bbr5 _ _ | .bbr6 _ _ | .bbr7 _ _ => 5
  | .bbs0 _ _ | .bbs1 _ _ | .bbs2 _ _ | .bbs3 _ _ | .bbs4 _ _ | .bbs5 _ _ | .bbs6 _ _ | .bbs7 _ _ => 5
  | .jmp (.abj _) => 3
  | .jmp (.ind _) => if v = .v6502 then 5 else 6
  | .jmp (.iax _) => 6
  | .jml (.abl _) => 4
  | .jml (.ial _) => 6
  | .jsr (.abj _) => 6
  | .jsr (.iax _) => 8
  | .jsl _ => 8
  | .rts | .rtl | .rti => 6
  | .pha | .php | .phx | .phy | .phb | .phk => 3
  | .pla | .plp | .plx | .ply | .plb | .phd => 4
  | .pld | .pea _ => 5
  | .pei _ | .per _ => 6
  | .clc | .sec | .cli | .sei | .cld | .sed | .clv => 2
  | .rep _ | .sep _ => 3
  | .xce => 2
  | .mvn _ _ | .mvp _ _ => 7
  | .brk | .cop => 7
  | .wai | .stp => 3
  | .nop | .wdm _ => 2
  | .illegal _ => 0

/-- The informative conditional-extra-cycle flag (R471: the formats marked "+p"). -/
def informativeExtra (v : Variant) : Instr → Bool
  | .lda (.mem m) | .ldx (.mem m) | .ldy (.mem m) | .adc (.mem m) | .sbc (.mem m) | .and (.mem m)
  | .ora (.mem m) | .eor (.mem m) | .cmp (.mem m) | .bit (.mem m) => chargesCrossing m
  | .asl (.mem m) | .lsr (.mem m) | .rol (.mem m) | .ror (.mem m) => v != .v6502 && chargesCrossing m
  | _ => false

/-- The instruction of an opcode with zero operands, to look its row up by. -/
def sample (c : Config) (op : Byte) : Instr :=
  match decode ⟨c.variant, c.c02Bitops, true, true⟩ [op, 0, 0, 0] with
  | .ok (i, _) => i
  | .error _ => .illegal op

/-- The cycle of a direct-page format whose page is not aligned (R472). -/
def directPageCycles (s : State) : Mem → Nat
  | .dp _ | .dpx _ | .dpy _ | .izx _ | .izy _ | .izp _ | .idl _ | .idly _ => bitOf (loByte s.dpr != 0)
  | .abs _ | .abx _ | .aby _ | .abl _ | .alx _ | .sr _ | .sry _ => 0

/-- The cycle of indexing from `base` by `r` across a page, or by a 16-bit register at all. Across a bank it is the
one `State.chargeCrossing` has counted: one cycle in all (R472, 40_addressing.md R157; DESIGN CHOICE, log 6). -/
def State.indexCycles (s : State) (base r : Word) : Nat :=
  bitOf (decide (base.toNat + r.toNat ≤ 0xFFFF) && (!s.x8 || hiByte base != hiByte (base + r)))

/-- The cycle of the `abx` and `aby` reads of the 65816 (R472). -/
def readIndexCycles (s : State) : Mem → Nat
  | .abx a => s.indexCycles a s.x
  | .aby a => s.indexCycles a s.y
  | _ => 0

/-- The adjustments of a reading instruction of the 65816 (R472); `eight` is the width predicate of its datum. -/
def readAdjustment (eight : Bool) (s : State) : Operand → Nat
  | .imm (.byte _) => 0
  | .imm (.word _) => 1
  | .mem m => bitOf (!eight) + directPageCycles s m + readIndexCycles s m

/-- The adjustments of a store of the 65816 (R472). -/
def storeAdjustment (eight : Bool) (s : State) (m : Mem) : Nat := bitOf (!eight) + directPageCycles s m

/-- The adjustments of a read-modify-write of the 65816 (R472; for TSB and TRB DEDUCED, log 6). -/
def modifyAdjustment (s : State) : Target → Nat
  | .acc => 0
  | .mem m => 2 * bitOf (!s.m8) + directPageCycles s m

/-- The 65816's adjustments, from the state its routine starts in (R472). -/
def adjustment65816 (s : State) : Instr → Nat
  | .lda o | .adc o | .sbc o | .and o | .ora o | .eor o | .cmp o | .bit o => readAdjustment s.m8 s o
  | .ldx o | .ldy o | .cpx o | .cpy o => readAdjustment s.x8 s o
  | .sta m | .stz m => storeAdjustment s.m8 s m
  | .stx m | .sty m => storeAdjustment s.x8 s m
  | .asl t | .lsr t | .rol t | .ror t | .inc t | .dec t => modifyAdjustment s t
  | .tsb m | .trb m => modifyAdjustment s (.mem m)
  | .pei off => directPageCycles s (.dp off)
  | .pha | .pla => bitOf (!s.m8)
  | .phx | .plx | .phy | .ply => bitOf (!s.x8)
  | .brk | .cop | .rti => bitOf s.native
  | _ => 0

/-- The 65C02's adjustment: decimal ADC and SBC (R471). -/
def adjustment65C02 (s : State) : Instr → Nat
  | .adc _ | .sbc _ => bitOf (s.flag .D)
  | _ => 0

/-- What the state adds to the informative count of an instruction (R471, R472). -/
def informativeAdjustment (s : State) (i : Instr) : Nat :=
  match s.cfg.variant with
  | .v6502 => 0
  | .v65C02 => adjustment65C02 s i
  | .v65816 => adjustment65816 s i

/-- `BASE_CYCLES[VARIANT][op]` (70_reset_and_hazards.md R470) of the opcode and the instruction read, in the state
its routine starts in: a given table counts by the opcode alone. -/
def baseCycles (op : Byte) (i : Instr) (s : State) : Nat :=
  match s.cfg.cycles with
  | .informative => informativeBase s.cfg.variant i + informativeAdjustment s i
  | .given base _ => base.getD op.toNat 0

/-- `EXTRA_FLAG[VARIANT][op]` (30_encoding.md R103). -/
def extraFlag (c : Config) (op : Byte) : Bool :=
  match c.cycles with
  | .informative => informativeExtra c.variant (sample c op)
  | .given _ extra => extra.getD op.toNat false

end Sys2Proof.Machine
end

