-- ==== Sys2Proof/Machine/Fetch.lean ====
section
/-! DEFINITION. The parts of a step around the instruction's meaning: the waiting tick, taking an IRQ, fetching and
decoding, and the cycle count (30_encoding.md R103; 20_memory.md R86). -/

namespace Sys2Proof.Machine

/-- The flag a conditional branch tests and the value it branches on, by opcode (44_control.md R281 to R288). -/
def branchTest (op : Byte) : Option (Flag × Bool) :=
  match op.toNat with
  | 0x10 => some (.N, false)
  | 0x30 => some (.N, true)
  | 0x50 => some (.V, false)
  | 0x70 => some (.V, true)
  | 0x90 => some (.C, false)
  | 0xB0 => some (.C, true)
  | 0xD0 => some (.Z, false)
  | 0xF0 => some (.Z, true)
  | _ => none

/-- The opcode is a conditional branch that is not taken: its displacement byte is skipped, not read
(44_control.md R280). -/
def State.skipsDisplacement (s : State) (op : Byte) : Bool :=
  match branchTest op with
  | some (f, want) => s.flag f != want
  | none => false

/-- `n` bytes of the instruction stream, in order (20_memory.md R86). -/
def fetchBytes : Nat → State → Except Fault (List Byte × State)
  | 0, s => .ok ([], s)
  | n + 1, s => do
    let (b, s) ← fetch8 s
    let (bs, s) ← fetchBytes n s
    return (b :: bs, s)

/-- The operand bytes of an entry; a displacement that is not read counts as 0, which no branch not taken
uses. -/
def fetchOperands (e : Entry) (op : Byte) (s : State) : Except Fault (List Byte × State) :=
  if s.skipsDisplacement op then .ok ([0], s.advancePc 1)
  else fetchBytes (e.operandBytes s.ctx) s

/-- An opcode byte and the instruction decoded from it and its operand bytes. -/
structure Fetched where
  op    : Byte
  instr : Instr
  deriving DecidableEq, Repr

/-- The per-step scratch counters after the opcode fetch (30_encoding.md R103). -/
def State.startCount (s : State) (op : Byte) : State :=
  { s with excycles := 0, addcycles := extraFlag s.cfg op }

/-- Fetch at `pbr:pc` and decode: the opcode byte, the scratch counters, the operand bytes; `pc` ends past
the bytes of the instruction (30_encoding.md R103, R110). -/
def fetchInstr (s : State) : Except Fault (Fetched × State) := do
  let (op, s) ← fetch8 s
  let s := s.startCount op
  let e := entryOf s.ctx op
  let (bs, s) ← fetchOperands e op s
  match e.build s.ctx bs with
  | some (i, _) => return (⟨op, i⟩, s)
  | none => return (⟨op, .illegal op⟩, s)

/-- A waiting step (30_encoding.md R103, 10_state.md R37). -/
def State.waitTick (s : State) : State :=
  { s with processorCycles := s.processorCycles + 1, waiting := !s.irq }

/-- The IRQ at the start of a step, if the line is asserted and I is clear (60_exceptions.md R412). -/
def takeIrq (s : State) : Except Fault State :=
  if s.irq && !s.flag .I then takeException .irq s.pc s else .ok s

/-- The end of a step that executed an opcode: its base and extra cycles are counted (30_encoding.md R103). -/
def countCycles (base : Nat) : Result → Result
  | .next s => .next { s with processorCycles := s.processorCycles + base + s.excycles }
  | .fault f => .fault f
  | .refused r => .refused r

/-- The bytes of memory from `pc`, inside the program bank (20_memory.md R86). -/
def State.storeAtPc (s : State) : List Byte → State
  | [] => s
  | b :: bs =>
    let t := ({ s with pc := s.pc + 1 }).storeAtPc bs
    { t with mem := t.mem.write s.pcAddr.toNat b, pc := s.pc }

/-- The observers bound to the address of the next byte of the program taken away, for `n` bytes. -/
def State.unbindAtPc (s : State) : Nat → State
  | 0 => s
  | n + 1 =>
    let t := ({ s with pc := s.pc + 1 }).unbindAtPc n
    { t with cfg := { t.cfg with ioRead := t.cfg.ioRead.filter (· != s.pcAddr.toNat) }, pc := s.pc }

end Sys2Proof.Machine
end

