-- ==== Sys2Proof/Machine/Step.lean ====
section
/-! DEFINITION. One step of the processor (30_encoding.md R103; 60_exceptions.md R417), and a state made to run a
given instruction next. -/

namespace Sys2Proof.Machine

/-- `step()`: a waiting tick; or the IRQ, if one is taken, and then one instruction (30_encoding.md R103). -/
def step (s : State) : Host.Outcome State Fault Refusal :=
  if s.waiting then .next s.waitTick
  else
    match takeIrq s with
    | .error f => .fault f
    | .ok s =>
      match fetchInstr s with
      | .error f => .fault f
      | .ok (f, s) => countCycles (baseCycles f.op f.instr s) (exec f.instr s)

/-- `s` with an instruction's bytes at `pbr:pc`, its fetch neither preceded by a waiting tick or an IRQ nor
answered by an observer (log 7). -/
def State.withFetchWord (s : State) (nbits w : Nat) : State :=
  let s := { s with waiting := false, irq := s.irq && s.flag .I }
  (s.unbindAtPc 4).storeAtPc (tableBytes nbits w)

end Sys2Proof.Machine
end

