-- ==== Sys2Proof/Machine/HostOps.lean ====
section
/-! DEFINITION. What the host does to the machine between steps: construction, reset, NMI, the interrupt line,
device stores (60_exceptions.md R414, R423, R436; 70_reset_and_hazards.md R460, R461). -/

namespace Sys2Proof.Machine

/-- `createProcessor(variant, memory, startPC)` with the memory image as a list of bytes (60_exceptions.md
R436; `INIT_MEM`, 20_memory.md R71). -/
def createProcessor (cfg : Config) (image : List Host.Cell) : State :=
  State.construct cfg (Memory.storeCells cfg.memSize image [])

/-- The word at the reset vector, which the host normally passes as `START_PC` (70_reset_and_hazards.md R461). -/
def resetVector (m : Memory) : Word := mkWord (m.read 0xFFFD) (m.read 0xFFFC)

/-- `reset()`: every register at its reset value; memory, the interrupt line and the record of observed
accesses are not written (70_reset_and_hazards.md R460). -/
def State.hostReset (s : State) : State :=
  { State.construct s.cfg s.mem with irq := s.irq, ioTrace := s.ioTrace }

/-- `nmi()`: ends a wait and takes the NMI whatever I is (60_exceptions.md R414). -/
def State.nmi (s : State) : Result := finish (takeException .nmi s.pc { s with waiting := false })

/-- The host drives the interrupt request line (10_state.md R38). -/
def State.setIrq (s : State) (level : Bool) : State := { s with irq := level }

/-- A device model stores a byte between steps (60_exceptions.md R423); an address outside memory changes
nothing. -/
def State.deviceStore (s : State) (addr : Nat) (v : Byte) : State :=
  { s with mem := Memory.storeCells s.cfg.memSize [(addr, v)] s.mem }

/-- What the host can do next (60_exceptions.md R417, R433). -/
inductive HostEvent where
  | step
  | reset
  | nmi
  | setIrq (level : Bool)
  | deviceStore (addr : Nat) (v : Byte)
  deriving DecidableEq, Repr

/-- One host event. -/
def hostAct (e : HostEvent) (s : State) : Result :=
  match e with
  | .step => step s
  | .reset => .next s.hostReset
  | .nmi => s.nmi
  | .setIrq level => .next (s.setIrq level)
  | .deviceStore addr v => .next (s.deviceStore addr v)

/-- A run under host events. After an illegal opcode the run goes on from the state the fault leaves, which
the host may retry (60_exceptions.md R416); any other stop ends it. -/
def hostRun : List HostEvent → State → Result
  | [], s => .next s
  | e :: es, s =>
    match hostAct e s with
    | .next s' => hostRun es s'
    | .fault (.illegalOpcode _ _ s') => hostRun es s'
    | .fault (.addressOutOfBounds a) => .fault (.addressOutOfBounds a)
    | .refused r => .refused r

end Sys2Proof.Machine
end

