-- ==== Sys2Proof/Machine/Engine.lean ====
section
/-! DEFINITION. The execution engine: run control around `step()` for a debugger (60_exceptions.md R425 to
R433). It is host state beside the processor's and decides when the processor steps, never what a step does. -/

namespace Sys2Proof.Machine

/-- The engine's states (60_exceptions.md R425). -/
inductive EnginePhase where
  | idle
  | running
  | breaking
  | waiting
  deriving DecidableEq, Repr

/-- The calls the engine makes to its hooks (60_exceptions.md R431, R432). -/
inductive HookCall where
  | callStackExit (addr : Long)
  /-- `none` after an out-of-bounds access, where no `pbr:pc` is defined (60_exceptions.md R437, log 13) -/
  | callStackEntry (addr : Option Long)
  | stopOnException (f : Fault)
  deriving DecidableEq, Repr

/-- What the peripherals do at one poll: the level they leave on the interrupt line (none: untouched) and the bytes
of memory they change (60_exceptions.md R423, R426). -/
structure Poll where
  irq    : Option Bool
  stores : List Host.Cell
  deriving DecidableEq, Repr

/-- The engine. The breakpoint oracle is a pure query (60_exceptions.md R430), held as the addresses at which
it says true. -/
structure Engine where
  proc        : State
  phase       : EnginePhase
  breakFlag   : Bool
  breakpoints : List Nat
  /-- what the peripherals do at the coming polls, the next first; nothing past the end (60_exceptions.md R426,
  log 13) -/
  polls       : List Poll
  /-- the hook calls made so far, newest first -/
  hooks       : List HookCall
  /-- false once no processor state is defined: after an out-of-bounds access (R437) or `terminate()` (R429) -/
  defined     : Bool
  deriving DecidableEq, Repr

/-- The engine at construction (60_exceptions.md R425, R436). -/
def Engine.create (cfg : Config) (image : List Host.Cell) (breakpoints : List Nat) (polls : List Poll) : Engine :=
  ⟨createProcessor cfg image, .idle, false, breakpoints, polls, [], true⟩

/-- `checkBP(pbr:pc)` (60_exceptions.md R430). -/
def Engine.checkBP (e : Engine) : Bool := e.breakpoints.contains e.proc.pcAddr.toNat

/-- A call of a hook. -/
def Engine.call (e : Engine) (h : HookCall) : Engine := { e with hooks := h :: e.hooks }

/-- A fault stops the run: the hook is called once and the engine is Idle (60_exceptions.md R426, R432). -/
def Engine.stopOn (e : Engine) (f : Fault) : Engine := { e.call (.stopOnException f) with phase := .idle }

/-- What one poll leaves of the processor: the interrupt line and bytes of memory may change, nothing else. -/
def Poll.apply (p : Poll) (s : State) : State :=
  { s with irq := p.irq.getD s.irq, mem := Memory.storeCells s.cfg.memSize p.stores s.mem }

/-- The peripherals are polled (60_exceptions.md R426). -/
def Engine.poll (e : Engine) : Engine :=
  match e.polls with
  | [] => e
  | p :: ps => { e with proc := p.apply e.proc, polls := ps }

/-- The processor's part of the engine's step, with the fault it ends in. DESIGN CHOICE (log 13): after an
out-of-bounds access, which leaves no state defined (60_exceptions.md R437), `proc` keeps the state of before the
step, and `defined` says that it stands for nothing. A refusal cannot occur. -/
def Engine.runProcessor (e : Engine) : Engine × Option Fault :=
  match Machine.step e.proc with
  | .next s => ({ e with proc := s }, none)
  | .fault (.illegalOpcode op addr s) => ({ e with proc := s }, some (.illegalOpcode op addr s))
  | .fault (.addressOutOfBounds a) => ({ e with defined := false }, some (.addressOutOfBounds a))
  | .refused _ => (e, none)

/-- The address the entry hook is called with: the current `pbr:pc`. DESIGN CHOICE (log 13): the call is made after
an out-of-bounds access too, as 60_exceptions.md R426 orders it, with no address. -/
def Engine.entryAddr (e : Engine) : Option Long := if e.defined then some e.proc.pcAddr else none

/-- The engine's `step()`, with whether a fault occurred: the exit hook, the processor's step, the entry hook, the
poll, and the stop on a fault (60_exceptions.md R426). It does not ask `checkBP`. DESIGN CHOICE (log 13): a step taken
where no processor state is defined, after an out-of-bounds step or `terminate()`, to which 60_exceptions.md R437 gives
no rule, runs all the same from the state kept in `proc`: the exit hook gets that state's `pbr:pc`, the entry hook gets
no address even if the step completes, and `defined` stays false. -/
def Engine.step (e : Engine) : Engine × Bool :=
  let (e, fault) := (e.call (.callStackExit e.proc.pcAddr)).runProcessor
  let e := (e.call (.callStackEntry e.entryAddr)).poll
  match fault with
  | none => (e, false)
  | some f => (e.stopOn f, true)

/-- How `stepTo` ends: it returns an address, or it has not ended within the steps it was given (it may never,
60_exceptions.md R427). -/
inductive StepToEnd where
  | returned (pc : Word)
  | stillRunning
  deriving DecidableEq, Repr

/-- `stepTo(address)`, followed for at most `fuel` steps: the first step is taken before any test
(60_exceptions.md R427). DESIGN CHOICE (log 13): the `pc` it returns after an out-of-bounds access, where none is
defined, is that of before the step. -/
def Engine.stepTo : Nat → Word → Engine → Engine × StepToEnd
  | 0, _, e => (e, .stillRunning)
  | fuel + 1, addr, e =>
    let (e, faulted) := e.step
    if faulted then (e, .returned e.proc.pc)
    else if e.proc.pc = addr then (e, .returned addr)
    else if e.checkBP then (e, .returned e.proc.pc)
    else Engine.stepTo fuel addr e

/-- `continue()` and `continueUntil(predicate)` schedule the run loop (60_exceptions.md R428). DESIGN CHOICE (log 13):
the engine is then Running even where the break flag is already set, by a `pause()` while Idle, or the
processor already waits. 60_exceptions.md R425 leaves open whether it is then Breaking or Waiting. -/
def Engine.resume (e : Engine) : Engine := { e with phase := .running }

/-- What a tick of the run loop returns (60_exceptions.md R428). -/
inductive TickEnd where
  | halted
  | waiting
  | running
  deriving DecidableEq, Repr

/-- The end of a batch that was not stopped (60_exceptions.md R425, R428). DESIGN CHOICE (log 13): this is where the
engine becomes Waiting or (but for a halt, `pause()` and `continue()`) stops being it, by the processor's `waiting` at
that moment; 60_exceptions.md R425 ties the two but names no moment (91_not_in_source.md N23). A wake or a WAI between
two such ends, or outside a batch, leaves the phase as it was until the next, and a batch of no iterations makes a
Breaking engine Running or Waiting. -/
def Engine.endBatch (e : Engine) : Engine × TickEnd :=
  if e.proc.waiting then ({ e with phase := .waiting }, .waiting) else ({ e with phase := .running }, .running)

/-- `tick()`: at most `budget` iterations (`STEP_BUDGET`), each testing the break flag, the oracle and the
predicate before a step (60_exceptions.md R428). DESIGN CHOICE (log 13): the predicate of `continueUntil`, to which R428
gives no argument, is a fixed function `stop` of the processor's state, not of hook calls or other host state; a run with
no predicate is one whose `stop` is never true. -/
def Engine.tick (stop : State → Bool) : Nat → Engine → Engine × TickEnd
  | 0, e => e.endBatch
  | budget + 1, e =>
    if e.breakFlag then ({ e with breakFlag := false, phase := .idle }, .halted)
    else if e.checkBP then ({ e with phase := .idle }, .halted)
    else if stop e.proc then ({ e with phase := .idle }, .halted)
    else
      let (e, faulted) := e.step
      if faulted then (e, .halted) else Engine.tick stop budget e

/-- `pause()`: sets the break flag; a run loop that is scheduled leaves at its next test (60_exceptions.md R425,
R429). DESIGN CHOICE (log 13): an engine that is Waiting becomes Breaking too, and one that is Idle stays Idle. -/
def Engine.pause (e : Engine) : Engine :=
  { e with breakFlag := true, phase := if e.phase = .idle then .idle else .breaking }

/-- `terminate()`: as `pause()`, and no processor state is defined afterwards (60_exceptions.md R429). -/
def Engine.terminate (e : Engine) : Engine := { e.pause with defined := false }

end Sys2Proof.Machine
end

