-- ==== Sys2Proof/Safety.lean ====
section
/-! DEFINITION. What every reachable state satisfies (10_state.md R39) and what a safe step is, in the terms the
statements use. -/

namespace Sys2Proof.Machine

/-- I2: the 8-bit variants use the low bytes of their registers alone and hold the 65816's registers at 0 and
the mode at emulation. -/
def State.narrow (s : State) : Bool :=
  s.is816 ||
    (hiByte s.a == 0 && hiByte s.x == 0 && hiByte s.y == 0 && hiByte s.sp == 0 && s.b == 0 && s.dbr == 0 &&
      s.pbr == 0 && s.dpr == 0 && s.mode == .emulation)

/-- I3: one representation of the accumulator and of the index registers for each width. -/
def State.widthsCanonical (s : State) : Bool :=
  (if s.m8 then hiByte s.a == 0 else s.b == 0) && (!s.x8 || (hiByte s.x == 0 && hiByte s.y == 0))

/-- I4: the stack of the 65816 is in page 1 in emulation mode. -/
def State.stackInPage1 (s : State) : Bool := !s.is816 || s.mode == .native || hiByte s.sp == 0x01

/-- I5: bits 5 and 4 of `p` are 1 outside native mode. -/
def State.statusForced (s : State) : Bool := s.native || (s.flag .M && s.flag .X)

/-- Memory is in canonical form and lists no address at or above `MEM_SIZE` (20_memory.md R71, I6). -/
def State.memoryOk (s : State) : Bool := s.mem.wf && s.mem.below s.cfg.memSize

/-- The invariant of every reachable state: I2 to I5 and the form of memory (10_state.md R39; I1 is the type of
`pc`). -/
def State.Inv (s : State) : Prop :=
  s.narrow = true ∧ s.widthsCanonical = true ∧ s.stackInPage1 = true ∧ s.statusForced = true ∧ s.memoryOk = true

/-- Nothing a step does reaches an observer (20_memory.md R77). -/
def State.Unobserved (s : State) : Prop := s.cfg.ioRead = [] ∧ s.cfg.ioWrite = []

/-- A safe outcome: a next state, or the recoverable report of an illegal opcode (00_scope.md R7). -/
def SafeOutcome : Result → Prop
  | .next _ => True
  | .fault (.illegalOpcode _ _ _) => True
  | .fault (.addressOutOfBounds _) => False
  | .refused _ => False

/-- The observed accesses made between two states of one run, newest first (20_memory.md R77). -/
def accessesSince (s t : State) : List IoRecord := t.ioTrace.take (t.ioTrace.length - s.ioTrace.length)

/-- An observer called between the two states left a byte at the address (20_memory.md R77). -/
def ObserverStored (s t : State) (a : Nat) : Prop := ∃ r ∈ accessesSince s t, ∃ c ∈ r.reply.stores, c.1 = a

/-- The frame of memory: every byte outside `stored` that no observer left reads as before, and so does a byte of
`stored` that a write observer is bound to, since the observer is called in place of the store (20_memory.md R77). -/
def MemFrame (stored : List Nat) (s t : State) : Prop :=
  ∀ a, (a ∉ stored ∨ a ∈ s.cfg.ioWrite) → ¬ ObserverStored s t a → t.mem.read a = s.mem.read a

/-- The addresses of the bytes of a datum of width `w` at an effective address (20_memory.md R75). -/
def Ea.bytes (ea : Ea) (w : Width) (s : State) : List Nat :=
  match w with
  | .w8 => [ea.addr.toNat]
  | .w16 => [ea.addr.toNat, (ea.next s).toNat]

/-- The bytes of a datum with their addresses, in the order they are stored: low byte first (20_memory.md R72, R75). -/
def Ea.cells (ea : Ea) (w : Width) (v : Word) (s : State) : List Host.Cell :=
  match w with
  | .w8 => [(ea.addr.toNat, loByte v)]
  | .w16 => [(ea.addr.toNat, loByte v), ((ea.next s).toNat, hiByte v)]

/-- The observed accesses that reading a datum makes (20_memory.md R77). -/
def Ea.readEvents (ea : Ea) (w : Width) (s : State) : List IoEvent :=
  ((ea.bytes w s).filter s.cfg.ioRead.contains).map .read

/-- The observed accesses that storing a datum makes: the callback receives the address and the byte (20_memory.md
R77). -/
def Ea.storeEvents (ea : Ea) (w : Width) (v : Word) (s : State) : List IoEvent :=
  ((ea.cells w v s).filter fun c => s.cfg.ioWrite.contains c.1).map fun c => .write c.1 c.2

/-! Where memory is: the condition under which an access is not out of bounds (20_memory.md R87). Bank 0 is memory
whatever `MEM_SIZE` is, so the stack, the vectors, the direct page and the pointers need none. -/

/-- `pbr:pc` is an address of memory. Then so is the rest of its bank, since `MEM_SIZE` is a multiple of 2^16. -/
def State.programInMemory (s : State) : Bool := decide (s.pcAddr.toNat < s.cfg.memSize)

/-- The bytes of the datum that a format names lie in memory. -/
def State.inMemory (s : State) (w : Width) (m : Mem) : Bool :=
  match effAddr m s with
  | .ok (ea, _) => (ea.bytes w s).all fun a => decide (a < s.cfg.memSize)
  | .error _ => false

/-- The bytes of an operand lie in memory; an immediate has none. -/
def State.operandInMemory (s : State) (w : Width) : Operand → Bool
  | .imm _ => true
  | .mem m => s.inMemory w m

/-- The bytes of the target of a read-modify-write lie in memory; the accumulator has none. -/
def State.targetInMemory (s : State) : Target → Bool
  | .acc => true
  | .mem m => s.inMemory s.wA m

/-- The byte that a block move moves, and where to, lie in memory (47_block_move.md R382). -/
def State.moveInMemory (s : State) (dst src : Byte) : Bool :=
  decide ((mkLong src s.x &&& s.addrMask).toNat < s.cfg.memSize ∧
    (mkLong dst s.y &&& s.addrMask).toNat < s.cfg.memSize)

/-- Every byte that an instruction accesses, besides those in bank 0, lies in memory. -/
def State.dataInMemory (s : State) : Instr → Bool
  | .lda o | .adc o | .sbc o | .and o | .ora o | .eor o | .cmp o | .bit o => s.operandInMemory s.wA o
  | .ldx o | .ldy o | .cpx o | .cpy o => s.operandInMemory s.wX o
  | .sta m | .stz m | .tsb m | .trb m => s.inMemory s.wA m
  | .stx m | .sty m => s.inMemory s.wX m
  | .asl t | .lsr t | .rol t | .ror t | .inc t | .dec t => s.targetInMemory t
  | .jmp (.iax _) | .jsr (.iax _) => s.programInMemory
  | .mvn dst src | .mvp dst src => s.moveInMemory dst src
  | .jmp (.abj _) | .jmp (.ind _) | .jsr (.abj _) | .jml _ | .jsl _ | .rts | .rtl | .rti | .brk | .cop => true
  | .bpl _ | .bmi _ | .bvc _ | .bvs _ | .bcc _ | .bcs _ | .bne _ | .beq _ | .bra _ | .brl _ => true
  | .bbr0 _ _ | .bbr1 _ _ | .bbr2 _ _ | .bbr3 _ _ | .bbr4 _ _ | .bbr5 _ _ | .bbr6 _ _ | .bbr7 _ _ => true
  | .bbs0 _ _ | .bbs1 _ _ | .bbs2 _ _ | .bbs3 _ _ | .bbs4 _ _ | .bbs5 _ _ | .bbs6 _ _ | .bbs7 _ _ => true
  | .rmb0 _ | .rmb1 _ | .rmb2 _ | .rmb3 _ | .rmb4 _ | .rmb5 _ | .rmb6 _ | .rmb7 _ => true
  | .smb0 _ | .smb1 _ | .smb2 _ | .smb3 _ | .smb4 _ | .smb5 _ | .smb6 _ | .smb7 _ => true
  | .pha | .phx | .phy | .php | .phb | .phd | .phk | .pea _ | .pei _ | .per _ => true
  | .pla | .plx | .ply | .plp | .plb | .pld => true
  | .tax | .tay | .txa | .tya | .txy | .tyx | .tsx | .txs | .tcd | .tdc | .tcs | .tsc | .xba => true
  | .inx | .iny | .dex | .dey | .clc | .sec | .cli | .sei | .cld | .sed | .clv | .rep _ | .sep _ | .xce => true
  | .wai | .stp | .nop | .wdm _ | .illegal _ => true

/-- The addresses that `n` pushes from a state store to, first push first (20_memory.md R79). -/
def State.pushBytes (s : State) : Nat → List Nat
  | 0 => []
  | n + 1 => s.stackAddr.toNat :: ({ s with sp := s.wrapSp (s.sp - 1) } : State).pushBytes n

/-- The stack pointer after `n` pushes (20_memory.md R79 `Dec`). -/
def State.spAfterPush (s : State) : Nat → Word
  | 0 => s.sp
  | n + 1 => ({ s with sp := s.wrapSp (s.sp - 1) } : State).spAfterPush n

/-- The stack pointer after `n` pulls (20_memory.md R79 `Inc`). -/
def State.spAfterPull (s : State) : Nat → Word
  | 0 => s.sp
  | n + 1 => ({ s with sp := s.wrapSp (s.sp + 1) } : State).spAfterPull n

/-- The state after bytes are pushed in order where no observer is bound (20_memory.md R79). -/
def State.pushed (s : State) : List Byte → State
  | [] => s
  | v :: vs =>
    ({ s with mem := s.mem.write s.stackAddr.toNat v, sp := s.wrapSp (s.sp - 1) } : State).pushed vs

/-- The byte that pull number `k` from a state reads, counting from 0, where no observer is bound
(20_memory.md R79). -/
def State.stacked (s : State) (k : Nat) : Byte :=
  s.mem.read ({ s with sp := s.spAfterPull (k + 1) } : State).stackAddr.toNat

/-- The number of bytes of a width. -/
def Width.count : Width → Nat
  | .w8 => 1
  | .w16 => 2

/-- The bytes a push of a register at a width stores, in order (45_stack.md; 20_memory.md R79). -/
def Width.pushData : Width → Word → List Byte
  | .w8, v => [loByte v]
  | .w16, v => [hiByte v, loByte v]

/-- The datum a pull at a width takes from the stack where no observer is bound (20_memory.md R79). -/
def State.pulled (s : State) : Width → Word
  | .w8 => zext (s.stacked 0)
  | .w16 => mkWord (s.stacked 1) (s.stacked 0)

/-- A value of a width read as a two's-complement integer (00_scope.md R5 `sext_N`). -/
def Width.signed (w : Width) (v : Word) : Int :=
  if v.getLsbD (w.bits - 1) then (v.toNat : Int) - 2 ^ w.bits else v.toNat

/-- Both nibbles of a byte are decimal digits. -/
def Decimal8 (v : Byte) : Prop := v.toNat / 16 ≤ 9 ∧ v.toNat % 16 ≤ 9

/-- The number a byte of two decimal digits writes. -/
def decimal8 (v : Byte) : Nat := v.toNat / 16 * 10 + v.toNat % 16

/-- Every nibble of a value of a width is a decimal digit. -/
def Width.isDecimal : Width → Word → Prop
  | .w8, v => Decimal8 (loByte v)
  | .w16, v => Decimal8 (hiByte v) ∧ Decimal8 (loByte v)

/-- The number a decimal value of a width writes. -/
def Width.decimal : Width → Word → Nat
  | .w8, v => decimal8 (loByte v)
  | .w16, v => decimal8 (hiByte v) * 100 + decimal8 (loByte v)

/-- One more than the largest decimal value of a width. -/
def Width.decimals : Width → Nat
  | .w8 => 100
  | .w16 => 10000

/-- The `n` bytes of the instruction stream from `pbr:pc`, inside the program bank (20_memory.md R86). -/
def State.codeBytes (s : State) : Nat → List Byte
  | 0 => []
  | n + 1 => s.mem.read s.pcAddr.toNat :: (s.advancePc 1).codeBytes n

/-! The vocabulary of the statements about instructions. -/

/-- `N` and `Z` are as `SetNZ(v, w)` leaves them and no other bit of `p` has changed (10_state.md R33). -/
def NZFrame (v : Word) (w : Width) (s t : State) : Prop :=
  t.flag .N = v.getLsbD (w.bits - 1) ∧ t.flag .Z = decide (v = 0) ∧
    ∀ f : Flag, f ≠ .N → f ≠ .Z → t.flag f = s.flag f

/-- `N`, `Z` of a result and `C` are written and no other bit of `p` has changed. -/
def NZCFrame (v : Word) (w : Width) (c : Bool) (s t : State) : Prop :=
  t.flag .N = v.getLsbD (w.bits - 1) ∧ t.flag .Z = decide (v = 0) ∧ t.flag .C = c ∧
    ∀ f : Flag, f ≠ .N → f ≠ .Z → f ≠ .C → t.flag f = s.flag f

/-- No bit of `p` but the named flag, which has the value, can have changed. -/
def OneFlag (f : Flag) (v : Bool) (s t : State) : Prop :=
  t.flag f = v ∧ ∀ g : Flag, g ≠ f → t.flag g = s.flag g

/-- `s` with the fields that accesses to memory and crossings of a boundary may change taken from `t`: the
scratch cycle counter, the interrupt line (an observer's effect), memory and the record of observed accesses. -/
def State.withTraffic (s t : State) : State :=
  { s with excycles := t.excycles, irq := t.irq, mem := t.mem, ioTrace := t.ioTrace }

/-- The frame of accesses to memory: the record of observed accesses only grows; the interrupt line moves only
where an observer was called, and none is where none is bound; the bytes outside `stored` are as they were. -/
def AccessFrame (stored : List Nat) (s t : State) : Prop :=
  (∃ new, t.ioTrace = new ++ s.ioTrace) ∧ (t.ioTrace = s.ioTrace → t.irq = s.irq) ∧
    (s.Unobserved → t.ioTrace = s.ioTrace) ∧ (s.mem.wf = true → MemFrame stored s t)

/-- Between two states exactly the observed accesses listed were made, in this order (20_memory.md R77). -/
def Recorded (events : List IoEvent) (s t : State) : Prop :=
  ∃ new, t.ioTrace = new ++ s.ioTrace ∧ new.reverse.map (·.event) = events

/-- The bytes of a datum are in memory at an effective address after `t`, low byte first, but for a byte that a write
observer is bound to and one that an observer called since `s` has left (20_memory.md R72, R75, R77). -/
def StoredAt (ea : Ea) (w : Width) (v : Word) (s t : State) : Prop :=
  ∀ c ∈ ea.cells w v s, c.1 ∉ s.cfg.ioWrite → ¬ ObserverStored s t c.1 → t.mem.read c.1 = c.2

/-- The instruction completes after reading its `w`-bit operand `m`, storing nothing, with `post m` of the next
state. The extra cycles are those of the effective address alone (40_addressing.md R157). -/
def CompletesReading (i : Instr) (w : Width) (o : Operand) (s : State) (post : Word → State → Prop) : Prop :=
  ∃ m u t, readOperand w o s = .ok (m, u) ∧ exec i s = .next t ∧ t.excycles = u.excycles ∧ AccessFrame [] s t ∧
    post m t

/-- The instruction completes storing the `w` bits of `v` at the effective address of its format, changes no
register, no flag and no other byte. Each byte that a write observer is bound to goes to it, in order and once, and not
to memory (20_memory.md R77). The extra cycles are those of the effective address alone (40_addressing.md R157). -/
def CompletesStoring (i : Instr) (m : Mem) (w : Width) (v : Word) (s : State) : Prop :=
  ∃ ea u t, effAddr m s = .ok (ea, u) ∧ exec i s = .next t ∧ t = s.withTraffic t ∧ t.excycles = u.excycles ∧
    AccessFrame (ea.bytes w s) s t ∧ Recorded (ea.storeEvents w v s) u t ∧
    (s.mem.wf = true → StoredAt ea w v u t)

/-- The read-modify-write completes: it reads `old` at the effective address of its format and stores `new old`
there, changing no register but `p`, of which `flags old` holds, and no other byte. Each byte of the datum is read
once and then stored once, which the observers bound to it see (20_memory.md R76, R77). The extra cycles are those of the effective address alone
(40_addressing.md R157). -/
def CompletesModifying (i : Instr) (m : Mem) (s : State) (new : Word → Word) (flags : Word → State → Prop) : Prop :=
  ∃ ea u old u' t, effAddr m s = .ok (ea, u) ∧ rd ea s.wA u = .ok (old, u') ∧ exec i s = .next t ∧
    flags old t ∧ t = { s.withTraffic t with p := t.p } ∧ t.excycles = u.excycles ∧
    AccessFrame (ea.bytes s.wA s) s t ∧ Recorded (ea.readEvents s.wA s) u u' ∧
    Recorded (ea.storeEvents s.wA (new old) s) u' t ∧ (s.mem.wf = true → StoredAt ea s.wA (new old) u' t)

/-- The instruction completes with `new` in the accumulator and `flags` of the next state, changing nothing but
the accumulator and `p`. -/
def CompletesInA (i : Instr) (s : State) (new : Word) (flags : State → Prop) : Prop :=
  ∃ t, exec i s = .next t ∧ t = { s with a := new, p := t.p } ∧ flags t

/-- The instruction completes with the bytes pushed in order, changing no register but the stack pointer. -/
def CompletesPushing (i : Instr) (bytes : List Byte) (s : State) : Prop :=
  ∃ t, exec i s = .next t ∧
    t = { s.withTraffic t with sp := s.spAfterPush bytes.length, excycles := s.excycles } ∧
    AccessFrame (s.pushBytes bytes.length) s t ∧ (s.Unobserved → t = s.pushed bytes)

/-- The instruction completes after pulling `v` at a width, storing nothing, with `post v` of the next state. -/
def CompletesPulling (i : Instr) (w : Width) (s : State) (post : Word → State → Prop) : Prop :=
  ∃ v t, exec i s = .next t ∧ AccessFrame [] s t ∧ (s.Unobserved → v = s.pulled w) ∧ post v t

/-- The entry of an event: the return address and the status image (and the bank first, in native mode) are
pushed, I is set, D cleared if `clearsD`, the program bank of the 65816 zeroed, and `pc` is the word at the
vector; nothing else changes (60_exceptions.md R413; 48_system.md R390, R391). -/
def EntersHandler (s t : State) (ret : Word) (image : Byte) (vector : Word) (clearsD : Bool) : Prop :=
  let frame := (if s.native then [s.pbr] else []) ++ [hiByte ret, loByte ret, image]
  t = { s.withTraffic t with
    sp := s.spAfterPush frame.length
    p := t.p
    pbr := if s.is816 then 0 else s.pbr
    pc := t.pc
    excycles := s.excycles } ∧
  t.flag .I = true ∧ t.flag .D = (!clearsD && s.flag .D) ∧
  (∀ f : Flag, f ≠ .I → f ≠ .D → t.flag f = s.flag f) ∧
  AccessFrame (s.pushBytes frame.length) s t ∧
  (s.Unobserved → t.mem = (s.pushed frame).mem ∧
    t.pc = mkWord (t.mem.read (vector.toNat + 1)) (t.mem.read vector.toNat))

/-- An effective address and the state its computation leaves. -/
def EaIs (m : Mem) (s : State) (addr : Nat) (cls : WrapClass) (u : State) : Prop :=
  ∃ ea, effAddr m s = .ok (ea, u) ∧ ea.addr.toNat = addr ∧ ea.cls = cls

/-- `s` without its cycle counters (10_state.md R36). -/
def State.forgetCycles (s : State) : State := { s with excycles := 0, addcycles := false, processorCycles := 0 }

/-- An outcome without the cycle counters of its states. -/
def forgetCyclesOf : Result → Result
  | .next s => .next s.forgetCycles
  | .fault (.illegalOpcode op addr s) => .fault (.illegalOpcode op addr s.forgetCycles)
  | .fault (.addressOutOfBounds a) => .fault (.addressOutOfBounds a)
  | .refused r => .refused r

end Sys2Proof.Machine
end

