-- ==== Sys2Proof/Certificates/Slice0/Obligations.lean ====
section
/-! DEFINITION. The statements for the provers. The conditions that an access lies in memory (20_memory.md R87) are
"s.programInMemory" for the program bank and "s.inMemory", "s.operandInMemory" and "s.dataInMemory" for the bytes an
instruction accesses; accesses to bank 0 (the stack, the vectors, the direct page, the pointers) need none, and
"s.cfg.covers" says that no address at all lies outside. "s.Unobserved" is the condition that no observer is bound
(R77); a statement without it holds whatever observers do. -/

open Sys2Proof Sys2Proof.Machine

/-! Encoding and decoding (30_encoding.md). -/

/-- Decoding the encoding of a well-formed instruction gives it back, with the bytes after it, in every variant
and at every width (30_encoding.md R100 to R108). -/
def Obligations.DecodeOfEncodeIsTheInstruction : Prop :=
  ∀ (c : DecodeCtx) (i : Instr) (rest : List Byte), i.wf c = true → decode c (encode i ++ rest) = .ok (i, rest)

/-- What the decoder reads is well formed, and encodes to exactly the bytes it was read from (30_encoding.md R100
to R108). -/
def Obligations.EncodeOfDecodeIsTheBytes : Prop :=
  ∀ (c : DecodeCtx) (bytes rest : List Byte) (i : Instr), decode c bytes = .ok (i, rest) →
    i.wf c = true ∧ encode i ++ rest = bytes

/-- Words written out from the maps of 30_encoding.md R105 to R107 decode to the instructions they stand for. -/
def Obligations.WrittenOutWordsDecode : Prop :=
  let c16 : DecodeCtx := ⟨.v65816, true, false, false⟩
  let c8 : DecodeCtx := ⟨.v6502, true, true, true⟩
  let c02 : DecodeCtx := ⟨.v65C02, true, true, true⟩
  decode c8 [0xA9, 0x80] = .ok (.lda (.imm (.byte 0x80)), []) ∧
  decode c16 [0xA9, 0x00, 0x80] = .ok (.lda (.imm (.word 0x8000)), []) ∧
  decode c8 [0x8D, 0x00, 0x20] = .ok (.sta (.abs 0x2000), []) ∧
  decode c16 [0x7F, 0x56, 0x34, 0x12] = .ok (.adc (.mem (.alx 0x123456)), []) ∧
  decode c8 [0x1E, 0x34, 0x12] = .ok (.asl (.mem (.abx 0x1234)), []) ∧
  decode c02 [0xF7, 0x10] = .ok (.smb7 0x10, []) ∧
  decode c02 [0x0F, 0x10, 0x02] = .ok (.bbr0 0x10 0x02, []) ∧
  decode c16 [0x0F, 0x10, 0x02, 0x03] = .ok (.ora (.mem (.abl 0x030210)), []) ∧
  decode c16 [0x5C, 0x00, 0x80, 0x02] = .ok (.jml (.abl 0x028000), []) ∧
  decode c16 [0x54, 0x01, 0x00] = .ok (.mvn 0x01 0x00, []) ∧
  decode c16 [0xC2, 0x30] = .ok (.rep 0x30, []) ∧
  decode c8 [0x68] = .ok (.pla, []) ∧ decode c8 [0x00, 0xEA] = .ok (.brk, [0xEA]) ∧
  decode c8 [0x02, 0xEA] = .ok (.illegal 0x02, [0xEA])

/-- The sizes of the three maps: 151, 180 (with the 32 single-bit instructions 212) and 256 opcodes, at any
widths (30_encoding.md R105, R106, R107). -/
def Obligations.MapsAssignTheStatedNumberOfOpcodes : Prop :=
  ∀ (bitops m8 x8 : Bool),
    (List.range 256).countP (fun n => assigned ⟨.v6502, bitops, m8, x8⟩ (BitVec.ofNat 8 n)) = 151 ∧
    (List.range 256).countP (fun n => assigned ⟨.v65C02, false, m8, x8⟩ (BitVec.ofNat 8 n)) = 180 ∧
    (List.range 256).countP (fun n => assigned ⟨.v65C02, true, m8, x8⟩ (BitVec.ofNat 8 n)) = 212 ∧
    (List.range 256).countP (fun n => assigned ⟨.v65816, bitops, m8, x8⟩ (BitVec.ofNat 8 n)) = 256

/-- An opcode byte decodes to the not-implemented fallback exactly where the map assigns it nothing, and to it
with that byte; on the 65816 no byte does (30_encoding.md R104, R107, R108). -/
def Obligations.FallbackExactlyOnUnassignedOpcodes : Prop :=
  ∀ (c : DecodeCtx) (op : Byte) (bs rest : List Byte) (i : Instr), decode c (op :: bs) = .ok (i, rest) →
    ((∃ op', i = .illegal op') ↔ assigned c op = false) ∧ (assigned c op = false → i = .illegal op ∧ rest = bs) ∧
    (c.variant = .v65816 → assigned c op = true)

/-! The step (30_encoding.md R103). -/

/-- When no interrupt is taken, a step runs the instruction that the bytes of memory at `pbr:pc` decode to, with `pc`
past it and the scratch counters started, and then counts its cycles (30_encoding.md R103; 20_memory.md R86). -/
def Obligations.StepRunsTheDecodedInstruction : Prop :=
  ∀ (s : State) (i : Instr) (rest : List Byte), s.waiting = false → (s.irq && !s.flag .I) = false →
    s.programInMemory = true → s.Unobserved → decode s.ctx (s.codeBytes 4) = .ok (i, rest) →
    let op := s.mem.read s.pcAddr.toNat
    let entry := (s.startCount op).advancePc (BitVec.ofNat 16 (4 - rest.length))
    step s = countCycles (baseCycles op i entry) (exec i entry)

/-- A step that starts with the line asserted and I clear enters the IRQ handler and goes on as a step from
there; the entry pushes `pc` and the status image (outside native mode with BREAK clear) and takes the IRQ vector
(60_exceptions.md R412, R413). -/
def Obligations.StepTakesTheIrqFirst : Prop :=
  ∀ s : State, s.waiting = false → s.irq = true → s.flag .I = false →
    ∃ t, takeIrq s = .ok t ∧ step s = step t ∧
      EntersHandler s t s.pc (if s.native then s.p else (s.p &&& 0xEF) ||| 0x20)
        (if s.native then 0xFFEE else 0xFFFE) s.cfg.intClearsD

/-- NMI is entered whatever I is, ends a wait, and takes the NMI vector (60_exceptions.md R414). -/
def Obligations.NmiEntersItsHandlerWhateverIIs : Prop :=
  ∀ s : State, ∃ t, s.nmi = .next t ∧ t.waiting = false ∧
    EntersHandler { s with waiting := false } t s.pc (if s.native then s.p else (s.p &&& 0xEF) ||| 0x20)
      (if s.native then 0xFFEA else 0xFFFA) s.cfg.intClearsD

/-- No step, from any state, answers that the model has no meaning for the instruction; an out-of-bounds report names
an address at or above `MEM_SIZE`; and where memory covers the address space, as it does in the 8-bit variants, a step's
only outcomes are a next state and the report of an illegal opcode (00_scope.md R7; 20_memory.md R87). -/
def Obligations.StepOutcomesAreTheStatedOnes : Prop :=
  (∀ (s : State) (r : Refusal), step s ≠ .refused r) ∧
  (∀ (s : State) (a : Nat), step s = .fault (.addressOutOfBounds a) → s.cfg.memSize ≤ a) ∧
  (∀ s : State, s.cfg.covers = true → SafeOutcome (step s)) ∧
  ∀ s : State, s.is816 = false → SafeOutcome (step s)

/-- Every instruction but the fallback completes, whatever the state and the operands, where the bytes it accesses lie
in memory, and else reports an address that does not (00_scope.md R7; 20_memory.md R87; 60_exceptions.md R421). -/
def Obligations.EveryInstructionCompletes : Prop :=
  ∀ (i : Instr) (s : State), (∀ op, i ≠ .illegal op) →
    (s.dataInMemory i = true → ∃ t, exec i s = .next t) ∧
    (s.dataInMemory i = false → ∃ a, s.cfg.memSize ≤ a ∧ exec i s = .fault (.addressOutOfBounds a))

/-- The fallback stops the step with an illegal-opcode report: `pc` is back at the opcode and nothing else is
written; so a step at an unassigned opcode, with no interrupt taken, reports the opcode byte and its address and
leaves the state before it (48_system.md R397, 60_exceptions.md R416), but for the scratch counters. Those are as
the fetch started them, `excycles` 0 and `addcycles` the opcode's flag, where R416 says that the state after is the
state before: the model's reading (log 9, DEDUCED). -/
def Obligations.IllegalOpcodeIsPreciseAndRecoverable : Prop :=
  (∀ (op : Byte) (s : State), exec (.illegal op) s =
    .fault (.illegalOpcode op (mkLong s.pbr (s.pc - 1) &&& s.addrMask) { s with pc := s.pc - 1 })) ∧
  ∀ s : State, s.waiting = false → (s.irq && !s.flag .I) = false → s.programInMemory = true → s.Unobserved →
    assigned s.ctx (s.mem.read s.pcAddr.toNat) = false →
    step s = .fault (.illegalOpcode (s.mem.read s.pcAddr.toNat) s.pcAddr
      (s.startCount (s.mem.read s.pcAddr.toNat)))

/-- The cycle counters decide nothing: two states that differ in them alone have the same step but for them
(70_reset_and_hazards.md R470). -/
def Obligations.CycleCountersDecideNothing : Prop :=
  ∀ s t : State, s.forgetCycles = t.forgetCycles → forgetCyclesOf (step s) = forgetCyclesOf (step t)

/-! Invariants and rules about the whole machine. -/

/-- Every step keeps the invariants I2 to I5 and the form of memory, and so does the state an illegal opcode
leaves (10_state.md R39). -/
def Obligations.StepKeepsTheInvariant : Prop :=
  ∀ s : State, s.Inv →
    (∀ t, step s = .next t → t.Inv) ∧ (∀ op addr t, step s = .fault (.illegalOpcode op addr t) → t.Inv)

/-- The reset state, and the state after construction or `reset()` with any parameters, has the invariant
(10_state.md R39, R41). -/
def Obligations.ResetHasTheInvariant : Prop :=
  State.reset.Inv ∧ (∀ (cfg : Config) (image : List Host.Cell), (createProcessor cfg image).Inv) ∧
    ∀ s : State, s.memoryOk = true → s.hostReset.Inv

/-- Every state the host can bring about, by steps, resets, NMIs, moves of the interrupt line and device stores
in any order from any construction, has the invariant (10_state.md R39). That the host's events come between steps
(log 8), and that a run goes on after an illegal opcode from the state its fault leaves (log 9), are the model's
reading (DEDUCED). -/
def Obligations.EveryReachableStateHasTheInvariant : Prop :=
  ∀ (cfg : Config) (image : List Host.Cell) (es : List HostEvent) (t : State),
    hostRun es (createProcessor cfg image) = .next t → t.Inv

/-- `reset()` puts every register at its value of the table of 10_state.md R41 and leaves memory and the interrupt
line (70_reset_and_hazards.md R460). The table's values but I, D, `mode` and `pc` are the document's decision D11
(log 4). -/
def Obligations.ResetValues : Prop :=
  ∀ s : State, let t := s.hostReset
    t.pc = s.cfg.startPc ∧ t.flag .I = true ∧ t.flag .D = s.cfg.resetD ∧ t.mode = .emulation ∧
    t.waiting = false ∧ t.processorCycles = 0 ∧ t.excycles = 0 ∧ t.addcycles = false ∧
    t.a = 0 ∧ t.b = 0 ∧ t.x = 0 ∧ t.y = 0 ∧ t.dbr = 0 ∧ t.pbr = 0 ∧ t.dpr = 0 ∧
    t.sp = (if s.is816 then 0x01FF else 0x00FF) ∧
    t.flag .M = true ∧ t.flag .X = true ∧ t.flag .N = false ∧ t.flag .V = false ∧ t.flag .Z = false ∧
    t.flag .C = false ∧ t.mem = s.mem ∧ t.irq = s.irq ∧ t.cfg = s.cfg

/-- No step writes a construction parameter; XCE alone changes the mode, and only on the 65816 is it an
instruction (10_state.md R27, R40). -/
def Obligations.ParametersAreFixedAndOnlyXceChangesTheMode : Prop :=
  (∀ s t : State, step s = .next t → t.cfg = s.cfg) ∧
  (∀ (i : Instr) (s t : State), exec i s = .next t → t.mode ≠ s.mode → i = .xce) ∧
  ∀ c : DecodeCtx, Instr.wf c .xce = true ↔ c.variant = .v65816

/-- The instructions that write the bank and direct-page registers; those that move the stack pointer: pushes,
pulls, calls, returns and the software interrupts, and TXS, TCS and XCE; and the only ones that start a wait
(10_state.md R24, R28, R37). -/
def Obligations.SpecialRegistersHaveTheListedWriters : Prop :=
  ∀ (i : Instr) (s t : State), exec i s = .next t →
    (t.dbr ≠ s.dbr → i = .plb ∨ ∃ d b, i = .mvn d b ∨ i = .mvp d b) ∧
    (t.dpr ≠ s.dpr → i = .tcd ∨ i = .pld) ∧
    (t.pbr ≠ s.pbr → (∃ f, i = .jml f) ∨ (∃ l, i = .jsl l) ∨ i = .rtl ∨ i = .rti ∨ i = .brk ∨ i = .cop) ∧
    (t.sp ≠ s.sp → i ∈ [.txs, .tcs, .xce, .pha, .pla, .phx, .plx, .phy, .ply, .php, .plp, .phb, .plb, .phd, .pld,
      .phk, .rts, .rtl, .rti, .brk, .cop] ∨ (∃ v, i = .pea v) ∨ (∃ o, i = .pei o) ∨ (∃ d, i = .per d) ∨
      (∃ f, i = .jsr f) ∨ ∃ l, i = .jsl l) ∧
    (t.waiting ≠ s.waiting → t.waiting = true ∧ (i = .wai ∨ i = .stp))

/-! Memory and addressing. -/

/-- A datum stored at an effective address is read back there, its low byte is the byte at the address, and no
other byte changes; a 16-bit read is the byte at the address and, above it, the byte at the next address, which is
one up for class `LIN` and in the same bank for class `BANK` (20_memory.md R72, R75). -/
def Obligations.WideAccessesAreLittleEndianInTheirWrapClass : Prop :=
  (∀ (s : State) (ea : Ea) (w : Width) (v : Word), s.Unobserved → s.mem.wf = true →
    ea.addr.toNat < s.cfg.memSize → (ea.next s).toNat < s.cfg.memSize →
    ∃ t, wr ea w v s = .ok t ∧ rd ea w t = .ok (v &&& w.mask, t) ∧ rd ea .w8 t = .ok (zext (loByte v), t) ∧
      t = { s with mem := t.mem } ∧ ∀ a, a ∉ ea.bytes w s → t.mem.read a = s.mem.read a) ∧
  ∀ (s : State) (ea : Ea), ea.addr.toNat < s.cfg.memSize → (ea.next s).toNat < s.cfg.memSize → s.Unobserved →
    s.is816 = true →
    let next := match ea.cls with
      | .lin => (ea.addr.toNat + 1) % 2 ^ 24
      | .bank => ea.addr.toNat / 65536 * 65536 + (ea.addr.toNat + 1) % 65536
    (ea.next s).toNat = next ∧
    rd ea .w16 s = .ok (BitVec.ofNat 16 ((s.mem.read next).toNat * 256 + (s.mem.read ea.addr.toNat).toNat), s)

/-- Effective addresses in the 8-bit variants: the zero page wraps in itself, absolute indexing wraps in 64 KB,
pointers lie in the zero page low byte first, and a page crossing costs a cycle where the opcode says so
(40_addressing.md R134 to R142, R156, R157). -/
def Obligations.EffectiveAddressesOfThe8BitVariants : Prop :=
  ∀ s : State, s.Inv → s.is816 = false → s.Unobserved →
    let word (q : Nat) : Nat := (s.mem.read q).toNat + 256 * (s.mem.read ((q + 1) % 256)).toNat
    let charged (base r : Nat) : State :=
      if s.addcycles ∧ base / 256 ≠ (base + r) % 65536 / 256 then { s with excycles := s.excycles + 1 } else s
    (∀ o : Byte,
      EaIs (.dp o) s o.toNat .bank s ∧
      EaIs (.dpx o) s ((o.toNat + s.x.toNat) % 256) .bank s ∧
      EaIs (.dpy o) s ((o.toNat + s.y.toNat) % 256) .bank s ∧
      EaIs (.izx o) s (word ((o.toNat + s.x.toNat) % 256)) .lin s ∧
      EaIs (.izp o) s (word o.toNat) .lin s ∧
      EaIs (.izy o) s ((word o.toNat + s.y.toNat) % 65536) .lin (charged (word o.toNat) s.y.toNat)) ∧
    ∀ a : Word,
      EaIs (.abs a) s a.toNat .lin s ∧
      EaIs (.abx a) s ((a.toNat + s.x.toNat) % 65536) .lin (charged a.toNat s.x.toNat) ∧
      EaIs (.aby a) s ((a.toNat + s.y.toNat) % 65536) .lin (charged a.toNat s.y.toNat)

/-- Effective addresses of the legacy formats on the 65816: direct-page addresses and pointers in bank 0, with
the page wrap of emulation mode; data-bank addresses in 24 bits; a bank crossing costs a cycle where the opcode
says so (40_addressing.md R134 to R142, R156, R157). -/
def Obligations.LegacyEffectiveAddressesOfThe65816 : Prop :=
  ∀ s : State, s.is816 = true → s.Unobserved →
    let d := s.dpr.toNat
    let indexed (o r : Nat) : Nat :=
      if s.mode = .emulation ∧ d % 256 = 0 then d + (o + r) % 256 else (d + o + r) % 65536
    let next (q : Nat) : Nat :=
      if s.mode = .emulation ∧ d % 256 = 0 then q / 256 * 256 + (q + 1) % 256 else (q + 1) % 65536
    let word (q : Nat) : Nat := (s.mem.read q).toNat + 256 * (s.mem.read (next q)).toNat
    let bank := s.dbr.toNat * 65536
    let charged (base r : Nat) : State :=
      if s.addcycles ∧ 65535 < base + r then { s with excycles := s.excycles + 1 } else s
    (∀ o : Byte,
      EaIs (.dp o) s ((d + o.toNat) % 65536) .bank s ∧
      EaIs (.dpx o) s (indexed o.toNat s.x.toNat) .bank s ∧
      EaIs (.dpy o) s (indexed o.toNat s.y.toNat) .bank s ∧
      EaIs (.izx o) s (bank + word (indexed o.toNat s.x.toNat)) .lin s ∧
      EaIs (.izp o) s (bank + word ((d + o.toNat) % 65536)) .lin s ∧
      EaIs (.izy o) s ((bank + word ((d + o.toNat) % 65536) + s.y.toNat) % 2 ^ 24) .lin
        (charged (word ((d + o.toNat) % 65536)) s.y.toNat)) ∧
    ∀ a : Word,
      EaIs (.abs a) s (bank + a.toNat) .lin s ∧
      EaIs (.abx a) s ((bank + a.toNat + s.x.toNat) % 2 ^ 24) .lin (charged a.toNat s.x.toNat) ∧
      EaIs (.aby a) s ((bank + a.toNat + s.y.toNat) % 2 ^ 24) .lin (charged a.toNat s.y.toNat)

/-- The long formats `idl` and `alx`, of the 65816 only: one operand byte, whose pointer's three bytes are in bank 0
and wrap at the bank-0 boundary only, in every mode; and three operand bytes, indexed by X, where the sum wraps only
at the top of the 24-bit space, with no extra cycle. Both addresses have the class `LIN` (40_addressing.md R143,
R146). -/
def Obligations.LongEffectiveAddresses : Prop :=
  (∀ s : State, s.is816 = true → s.Unobserved →
    let pointer (q : Nat) : Nat := (s.mem.read q).toNat + 256 * (s.mem.read ((q + 1) % 65536)).toNat +
      65536 * (s.mem.read ((q + 2) % 65536)).toNat
    (∀ o : Byte, EaIs (.idl o) s (pointer ((s.dpr.toNat + o.toNat) % 65536)) .lin s) ∧
    ∀ a : Long, EaIs (.alx a) s ((a.toNat + s.x.toNat) % 2 ^ 24) .lin s) ∧
  ∀ (c : DecodeCtx) (o : Byte) (a : Long),
    ((Mem.idl o).inGroupOne c = true ↔ c.variant = .v65816) ∧ (Mem.idl o).bytes = [o] ∧
    ((Mem.alx a).inGroupOne c = true ↔ c.variant = .v65816) ∧ (Mem.alx a).bytes.length = 3

/-- Effective addresses of the other formats the 65816 adds: no page wrap, pointers in bank 0 low byte first, long
addresses in 24 bits, no extra cycle (40_addressing.md R144, R145, R147, R148, R156). All six formats belong to the
same eight instructions, on the 65816 alone (R180, R183, R220, R221, R224, R250, R251, R252), as LDA's opcodes A3,
A7, AF, B3, B7 and BF show (30_encoding.md R107). -/
def Obligations.IndexedLongAndStackRelativeAddresses : Prop :=
  (∀ s : State, s.is816 = true → s.Unobserved →
    let word (q : Nat) : Nat := (s.mem.read q).toNat + 256 * (s.mem.read ((q + 1) % 65536)).toNat
    let long (q : Nat) : Nat := word q + 65536 * (s.mem.read ((q + 2) % 65536)).toNat
    (∀ o : Byte,
      EaIs (.idly o) s ((long ((s.dpr.toNat + o.toNat) % 65536) + s.y.toNat) % 2 ^ 24) .lin s ∧
      EaIs (.sr o) s ((s.sp.toNat + o.toNat) % 65536) .bank s ∧
      EaIs (.sry o) s ((s.dbr.toNat * 65536 + word ((s.sp.toNat + o.toNat) % 65536) + s.y.toNat) % 2 ^ 24) .lin s) ∧
    ∀ a : Long, EaIs (.abl a) s a.toNat .lin s) ∧
  (∀ (c : DecodeCtx) (o lo hi bank : Byte) (rest : List Byte), c.variant = .v65816 →
    let long := mkLong bank (mkWord hi lo)
    decode c (0xA3 :: o :: rest) = .ok (.lda (.mem (.sr o)), rest) ∧
    decode c (0xA7 :: o :: rest) = .ok (.lda (.mem (.idl o)), rest) ∧
    decode c (0xB3 :: o :: rest) = .ok (.lda (.mem (.sry o)), rest) ∧
    decode c (0xB7 :: o :: rest) = .ok (.lda (.mem (.idly o)), rest) ∧
    decode c (0xAF :: lo :: hi :: bank :: rest) = .ok (.lda (.mem (.abl long)), rest) ∧
    decode c (0xBF :: lo :: hi :: bank :: rest) = .ok (.lda (.mem (.alx long)), rest)) ∧
  ∀ (c : DecodeCtx) (o : Byte) (a : Long), ∀ m ∈ [Mem.idl o, .idly o, .sr o, .sry o, .abl a, .alx a],
    (∀ i ∈ ([.ora, .and, .eor, .adc, .lda, .cmp, .sbc] : List (Operand → Instr)),
      Instr.wf c (i (.mem m)) = true ↔ c.variant = .v65816) ∧
    (Instr.wf c (.sta m) = true ↔ c.variant = .v65816)

/-- What an operand reads: an immediate gives its value, a memory format the little-endian datum at its effective
address; reading changes no register and stores nothing, and ends in the out-of-bounds report where a byte of the datum
is outside memory (40_addressing.md R130, R133; 20_memory.md R75, R87). -/
def Obligations.OperandsReadWhatTheirFormatNames : Prop :=
  ∀ (s : State) (w : Width),
    (∀ v : Byte, readOperand w (.imm (.byte v)) s = .ok (zext v, s)) ∧
    (∀ v : Word, readOperand .w16 (.imm (.word v)) s = .ok (v, s)) ∧
    (∀ m : Mem, s.inMemory w m = false →
      ∃ a, s.cfg.memSize ≤ a ∧ readOperand w (.mem m) s = .error (.addressOutOfBounds a)) ∧
    ∀ m : Mem, s.inMemory w m = true → ∃ v u, readOperand w (.mem m) s = .ok (v, u) ∧ u = s.withTraffic u ∧
      AccessFrame [] s u ∧ v.toNat < 2 ^ w.bits ∧
      (s.Unobserved → ∃ ea, effAddr m s = .ok (ea, u) ∧
        v = match w with
          | .w8 => zext (s.mem.read ea.addr.toNat)
          | .w16 => mkWord (s.mem.read (ea.next s).toNat) (s.mem.read ea.addr.toNat))

/-- `SetNZ(v, w)`, with `v` already masked to the width: Z says whether it is zero, N is its top bit, no other bit of
`p` and nothing else changes (10_state.md R33). -/
def Obligations.SetNZWritesNAndZAlone : Prop :=
  ∀ (s : State) (v : Word) (w : Width), v.toNat < 2 ^ w.bits →
    (s.setNZ v w).flag .Z = decide (v.toNat = 0) ∧
    (s.setNZ v w).flag .N = decide (2 ^ (w.bits - 1) ≤ v.toNat) ∧
    (∀ f : Flag, f ≠ .N → f ≠ .Z → (s.setNZ v w).flag f = s.flag f) ∧
    s.setNZ v w = { s with p := (s.setNZ v w).p }

/-! Loads, stores and transfers (41_load_store_transfer.md). -/

/-- LDA, LDX and LDY load their register at its width and set N and Z; nothing else changes, and the extra cycles are
those of the effective address alone (R180, R181, R182; 40_addressing.md R157). -/
def Obligations.LoadsSetTheRegisterAndNZ : Prop :=
  ∀ (s : State) (o : Operand),
    (s.operandInMemory s.wA o = true → CompletesReading (.lda o) s.wA o s
      fun v t => t = { s.withTraffic t with a := v, p := t.p } ∧ NZFrame v s.wA s t) ∧
    (s.operandInMemory s.wX o = true → CompletesReading (.ldx o) s.wX o s
      fun v t => t = { s.withTraffic t with x := v, p := t.p } ∧ NZFrame v s.wX s t) ∧
    (s.operandInMemory s.wX o = true → CompletesReading (.ldy o) s.wX o s
      fun v t => t = { s.withTraffic t with y := v, p := t.p } ∧ NZFrame v s.wX s t)

/-- STA, STX, STY and STZ store the register, or zero, at its width at their effective address, and change no
register, no flag and no other byte. A byte stored to an address that a write observer is bound to is recorded and goes
to the observer; memory there stays as it was but for what observers leave (R183 to R186; 20_memory.md R77). -/
def Obligations.StoresWriteTheDatumAndNothingElse : Prop :=
  ∀ (s : State) (m : Mem),
    (s.inMemory s.wA m = true →
      CompletesStoring (.sta m) m s.wA s.a s ∧ CompletesStoring (.stz m) m s.wA 0 s) ∧
    (s.inMemory s.wX m = true →
      CompletesStoring (.stx m) m s.wX s.x s ∧ CompletesStoring (.sty m) m s.wX s.y s)

/-- The transfers among A, X and Y work at the destination's width and set N and Z (R187 to R190, R193, R194). -/
def Obligations.TransfersAmongAXYUseTheDestinationWidth : Prop :=
  ∀ s : State,
    let toIndex : Word := if s.x8 then zext (loByte s.a) else s.c16
    let a (v : Word) : Word := if s.m8 then zext (loByte v) else v
    let x (v : Word) : Word := if s.x8 then zext (loByte v) else v
    (∃ t, exec .tax s = .next t ∧ t = { s with x := toIndex, p := t.p } ∧ NZFrame toIndex s.wX s t) ∧
    (∃ t, exec .tay s = .next t ∧ t = { s with y := toIndex, p := t.p } ∧ NZFrame toIndex s.wX s t) ∧
    (∃ t, exec .txa s = .next t ∧ t = { s with a := a s.x, p := t.p } ∧ NZFrame (a s.x) s.wA s t) ∧
    (∃ t, exec .tya s = .next t ∧ t = { s with a := a s.y, p := t.p } ∧ NZFrame (a s.y) s.wA s t) ∧
    (∃ t, exec .txy s = .next t ∧ t = { s with y := x s.x, p := t.p } ∧ NZFrame (x s.x) s.wX s t) ∧
    (∃ t, exec .tyx s = .next t ∧ t = { s with x := x s.y, p := t.p } ∧ NZFrame (x s.y) s.wX s t)

/-- TSX at the index width; TXS and TCS without flags and keeping the stack in page 1 outside native mode; TSC, TCD
and TDC all 16 bits with 16-bit flags, and XBA exchanging the accumulator's bytes with 8-bit flags, at either
accumulator width (R191, R192, R195 to R199). -/
def Obligations.StackDirectPageAndByteTransfers : Prop :=
  ∀ s : State,
    let x (v : Word) : Word := if s.x8 then zext (loByte v) else v
    let sp (v : Word) : Word :=
      if s.native then v else if s.is816 then mkWord 0x01 (loByte v) else zext (loByte v)
    let toC16 (t : State) (v : Word) : Prop :=
      t.c16 = v ∧ t = { s with a := t.a, b := t.b, p := t.p } ∧ (s.m8 = false → t.b = s.b) ∧
        (s.m8 = true → t.a = zext (loByte v) ∧ t.b = hiByte v)
    let swapped := mkWord (loByte s.c16) (hiByte s.c16)
    (∃ t, exec .tsx s = .next t ∧ t = { s with x := x s.sp, p := t.p } ∧ NZFrame (x s.sp) s.wX s t) ∧
    exec .txs s = .next { s with sp := sp s.x } ∧
    exec .tcs s = .next { s with sp := sp s.c16 } ∧
    (∃ t, exec .tsc s = .next t ∧ toC16 t s.sp ∧ NZFrame s.sp .w16 s t) ∧
    (∃ t, exec .tcd s = .next t ∧ t = { s with dpr := s.c16, p := t.p } ∧ NZFrame s.c16 .w16 s t) ∧
    (∃ t, exec .tdc s = .next t ∧ toC16 t s.dpr ∧ NZFrame s.dpr .w16 s t) ∧
    ∃ t, exec .xba s = .next t ∧ toC16 t swapped ∧ NZFrame (zext (hiByte s.c16)) .w8 s t

/-! Arithmetic (42_arithmetic.md). -/

/-- ADC with D clear: the exact sum modulo the width, carry past the width, overflow when the signed sum does
not fit, N and Z of the result (R220). -/
def Obligations.BinaryAddIsExact : Prop :=
  ∀ (s : State) (o : Operand), s.operandInMemory s.wA o = true → s.flag .D = false →
    CompletesReading (.adc o) s.wA o s fun m t =>
      let n := 2 ^ s.wA.bits
      let sum := s.acc.toNat + m.toNat + bitOf (s.flag .C)
      let signed := s.wA.signed s.acc + s.wA.signed m + (bitOf (s.flag .C) : Int)
      t.a.toNat = sum % n ∧
      (t.flag .V = true ↔ signed < -(2 ^ (s.wA.bits - 1) : Int) ∨ (2 ^ (s.wA.bits - 1) : Int) ≤ signed) ∧
      t.flag .N = t.a.getLsbD (s.wA.bits - 1) ∧ t.flag .Z = decide (t.a = 0) ∧ t.flag .C = decide (n ≤ sum) ∧
      (∀ f ∈ [Flag.M, .X, .D, .I], t.flag f = s.flag f) ∧
      t = { s.withTraffic t with a := t.a, p := t.p }

/-- SBC with D clear: the exact difference modulo the width, carry when nothing is borrowed, overflow when the
signed difference does not fit, N and Z of the result (R221). -/
def Obligations.BinarySubtractIsExact : Prop :=
  ∀ (s : State) (o : Operand), s.operandInMemory s.wA o = true → s.flag .D = false →
    CompletesReading (.sbc o) s.wA o s fun m t =>
      let n := 2 ^ s.wA.bits
      let borrow := 1 - bitOf (s.flag .C)
      let signed := s.wA.signed s.acc - s.wA.signed m - (borrow : Int)
      t.a.toNat = (s.acc.toNat + n - m.toNat - borrow) % n ∧
      (t.flag .V = true ↔ signed < -(2 ^ (s.wA.bits - 1) : Int) ∨ (2 ^ (s.wA.bits - 1) : Int) ≤ signed) ∧
      t.flag .N = t.a.getLsbD (s.wA.bits - 1) ∧ t.flag .Z = decide (t.a = 0) ∧
      t.flag .C = decide (m.toNat + borrow ≤ s.acc.toNat) ∧
      (∀ f ∈ [Flag.M, .X, .D, .I], t.flag f = s.flag f) ∧
      t = { s.withTraffic t with a := t.a, p := t.p }

/-- ADC with D set: on decimal operands the decimal sum, with the decimal carry; N and Z of the corrected result
and the two's-complement overflow test on it, on any operands (R220, R222; decisions D30, D31). -/
def Obligations.DecimalAddIsExactOnDecimals : Prop :=
  ∀ (s : State) (o : Operand), s.operandInMemory s.wA o = true → s.flag .D = true →
    CompletesReading (.adc o) s.wA o s fun m t =>
      let w := s.wA
      let sum := w.decimal s.acc + w.decimal m + bitOf (s.flag .C)
      let top (v : Word) : Bool := v.getLsbD (w.bits - 1)
      (w.isDecimal s.acc → w.isDecimal m → w.isDecimal t.a ∧ w.decimal t.a = sum % w.decimals ∧
        t.flag .C = decide (w.decimals ≤ sum)) ∧
      (t.flag .V = true ↔ top s.acc = top m ∧ top t.a ≠ top m) ∧
      t.flag .N = top t.a ∧ t.flag .Z = decide (t.a = 0) ∧ t.a.toNat < 2 ^ w.bits ∧
      (∀ f ∈ [Flag.M, .X, .D, .I], t.flag f = s.flag f) ∧
      t = { s.withTraffic t with a := t.a, p := t.p }

/-- SBC with D set: on decimal operands the decimal difference, with carry when nothing is borrowed; N and Z of
the corrected result and the overflow test on it, on any operands (R221, R223; decisions D30, D31). -/
def Obligations.DecimalSubtractIsExactOnDecimals : Prop :=
  ∀ (s : State) (o : Operand), s.operandInMemory s.wA o = true → s.flag .D = true →
    CompletesReading (.sbc o) s.wA o s fun m t =>
      let w := s.wA
      let taken := w.decimal m + (1 - bitOf (s.flag .C))
      let top (v : Word) : Bool := v.getLsbD (w.bits - 1)
      (w.isDecimal s.acc → w.isDecimal m → w.isDecimal t.a ∧
        w.decimal t.a = (w.decimal s.acc + w.decimals - taken) % w.decimals ∧
        t.flag .C = decide (taken ≤ w.decimal s.acc)) ∧
      (t.flag .V = true ↔ top s.acc ≠ top m ∧ top t.a ≠ top s.acc) ∧
      t.flag .N = top t.a ∧ t.flag .Z = decide (t.a = 0) ∧ t.a.toNat < 2 ^ w.bits ∧
      (∀ f ∈ [Flag.M, .X, .D, .I], t.flag f = s.flag f) ∧
      t = { s.withTraffic t with a := t.a, p := t.p }

/-- CMP, CPX and CPY: C when the register is at least the operand, Z when equal, N the sign of the difference,
at the width of the register; no register is written, and V and D are unchanged (R224, R225, R226). -/
def Obligations.ComparesSetCZNAlone : Prop :=
  ∀ (s : State) (o : Operand),
    let flags (w : Width) (r m : Word) (t : State) : Prop :=
      t.flag .C = decide (m.toNat ≤ r.toNat) ∧ t.flag .Z = decide (r = m) ∧
      t.flag .N = (r - m).getLsbD (w.bits - 1) ∧
      (∀ f ∈ [Flag.V, .M, .X, .D, .I], t.flag f = s.flag f) ∧ t = { s.withTraffic t with p := t.p }
    (s.operandInMemory s.wA o = true → CompletesReading (.cmp o) s.wA o s (flags s.wA s.acc)) ∧
    (s.operandInMemory s.wX o = true →
      CompletesReading (.cpx o) s.wX o s (flags s.wX s.x) ∧ CompletesReading (.cpy o) s.wX o s (flags s.wX s.y))

/-- INC and DEC of memory and of the accumulator, and INX, INY, DEX and DEY, step the value by one modulo its width
and set N and Z; the memory forms read and write each byte once; C and V are unchanged (R227 to R232;
20_memory.md R76). -/
def Obligations.StepsByOneWrapAtTheWidth : Prop :=
  ∀ (s : State) (m : Mem),
    let up (w : Width) (v : Word) : Word := BitVec.ofNat 16 ((v.toNat + 1) % 2 ^ w.bits)
    let down (w : Width) (v : Word) : Word := BitVec.ofNat 16 ((v.toNat + 65535) % 2 ^ w.bits)
    let memory (i : Target → Instr) (f : Word → Word) : Prop :=
      (s.inMemory s.wA m = true →
        CompletesModifying (i (.mem m)) m s f fun old t => NZFrame (f old) s.wA s t) ∧
      CompletesInA (i .acc) s (f s.acc) (NZFrame (f s.acc) s.wA s)
    memory .inc (up s.wA) ∧ memory .dec (down s.wA) ∧
    (∃ t, exec .inx s = .next t ∧ t = { s with x := up s.wX s.x, p := t.p } ∧ NZFrame (up s.wX s.x) s.wX s t) ∧
    (∃ t, exec .iny s = .next t ∧ t = { s with y := up s.wX s.y, p := t.p } ∧ NZFrame (up s.wX s.y) s.wX s t) ∧
    (∃ t, exec .dex s = .next t ∧ t = { s with x := down s.wX s.x, p := t.p } ∧ NZFrame (down s.wX s.x) s.wX s t) ∧
    ∃ t, exec .dey s = .next t ∧ t = { s with y := down s.wX s.y, p := t.p } ∧ NZFrame (down s.wX s.y) s.wX s t

/-! Logic, bit tests, shifts (43_logic_shift.md). -/

/-- AND, ORA and EOR combine accumulator and operand bit by bit and set N and Z (R250, R251, R252). -/
def Obligations.LogicCombinesBitByBit : Prop :=
  ∀ (s : State) (o : Operand), s.operandInMemory s.wA o = true →
    let into (op : Bool → Bool → Bool) (m : Word) (t : State) : Prop :=
      (∀ k, t.a.getLsbD k = (decide (k < s.wA.bits) && op (s.a.getLsbD k) (m.getLsbD k))) ∧
      t = { s.withTraffic t with a := t.a, p := t.p } ∧ NZFrame t.a s.wA s t
    CompletesReading (.and o) s.wA o s (into and) ∧ CompletesReading (.ora o) s.wA o s (into or) ∧
    CompletesReading (.eor o) s.wA o s (into xor)

/-- BIT: Z of the AND; in the memory forms N and V are the operand's top two bits, in the immediate form they are
unchanged; no register is written. TSB sets and TRB clears in memory the bits set in the accumulator, with Z of
the AND alone (R253, R254, R255). -/
def Obligations.BitTestsAndTestAndModify : Prop :=
  (∀ (s : State) (v : Imm), CompletesReading (.bit (.imm v)) s.wA (.imm v) s fun v t =>
    OneFlag .Z (decide (s.acc &&& v = 0)) s t ∧ t = { s with p := t.p }) ∧
  ∀ (s : State) (m : Mem), s.inMemory s.wA m = true →
    CompletesReading (.bit (.mem m)) s.wA (.mem m) s (fun v t =>
      t.flag .Z = decide (s.acc &&& v = 0) ∧ t.flag .N = v.getLsbD (s.wA.bits - 1) ∧
      t.flag .V = v.getLsbD (s.wA.bits - 2) ∧ (∀ f ∈ [Flag.M, .X, .D, .I, .C], t.flag f = s.flag f) ∧
      t = { s.withTraffic t with p := t.p }) ∧
    CompletesModifying (.tsb m) m s (fun v => v ||| s.acc)
      (fun old t => OneFlag .Z (decide (s.acc &&& old = 0)) s t) ∧
    CompletesModifying (.trb m) m s (fun v => v &&& ~~~s.acc)
      (fun old t => OneFlag .Z (decide (s.acc &&& old = 0)) s t)

/-- The shifts and rotates of memory and of the accumulator: the value doubled or halved at the width, the carry
in at the freed end for the rotates, the bit shifted out to C, N and Z of the result (R256 to R259). -/
def Obligations.ShiftsMoveOneBitThroughC : Prop :=
  ∀ (s : State) (m : Mem),
    let w := s.wA.bits
    let c := bitOf (s.flag .C)
    let left (c : Nat) (v : Word) : Word := BitVec.ofNat 16 ((2 * v.toNat + c) % 2 ^ w)
    let right (c : Nat) (v : Word) : Word := BitVec.ofNat 16 (v.toNat / 2 + c * 2 ^ (w - 1))
    let top (v : Word) : Bool := v.getLsbD (w - 1)
    let low (v : Word) : Bool := v.getLsbD 0
    let both (i : Target → Instr) (f : Word → Word) (out : Word → Bool) : Prop :=
      (s.inMemory s.wA m = true →
        CompletesModifying (i (.mem m)) m s f fun old t => NZCFrame (f old) s.wA (out old) s t) ∧
      CompletesInA (i .acc) s (f s.acc) (NZCFrame (f s.acc) s.wA (out s.acc) s)
    both .asl (left 0) top ∧ both .rol (left c) top ∧ both .lsr (right 0) low ∧ both .ror (right c) low

/-- RMBn and SMBn clear and set bit n of a direct-page byte, 8 bits at any width, and change no flag, no register
and no other byte (R260, R261). -/
def Obligations.SingleBitOperationsChangeOneBit : Prop :=
  ∀ (s : State) (off : Byte),
    let addr := (s.dpr.toNat + off.toNat) % 65536
    let bit (i : Instr) (n : Nat) (v : Bool) : Prop :=
      ∃ t, exec i s = .next t ∧ t = { s.withTraffic t with excycles := s.excycles } ∧ AccessFrame [addr] s t ∧
        (s.Unobserved → s.mem.wf = true → ∀ k < 8,
          (t.mem.read addr).getLsbD k = if k = n then v else (s.mem.read addr).getLsbD k)
    bit (.rmb0 off) 0 false ∧ bit (.rmb1 off) 1 false ∧ bit (.rmb2 off) 2 false ∧ bit (.rmb3 off) 3 false ∧
    bit (.rmb4 off) 4 false ∧ bit (.rmb5 off) 5 false ∧ bit (.rmb6 off) 6 false ∧ bit (.rmb7 off) 7 false ∧
    bit (.smb0 off) 0 true ∧ bit (.smb1 off) 1 true ∧ bit (.smb2 off) 2 true ∧ bit (.smb3 off) 3 true ∧
    bit (.smb4 off) 4 true ∧ bit (.smb5 off) 5 true ∧ bit (.smb6 off) 6 true ∧ bit (.smb7 off) 7 true

/-! Control (44_control.md). -/

/-- The conditional branches and BRA add the signed displacement to the address of the next instruction, inside
the bank, when their flag has the value they test, and cost one cycle, two across a page in the 8-bit variants and
emulation mode; else they change nothing. BRL adds 16 bits (R280 to R290). -/
def Obligations.BranchesAddTheSignedDisplacement : Prop :=
  ∀ (s : State) (d : Byte) (d16 : Word),
    let branches (i : Instr) (taken : Bool) : Prop :=
      ∃ t, exec i s = .next t ∧
        if taken then
          (t.pc.toNat : Int) = ((s.pc.toNat : Int) + d.toInt) % 65536 ∧
          t = { s with
            pc := t.pc
            excycles := s.excycles +
              (if s.native = false ∧ t.pc.toNat / 256 ≠ s.pc.toNat / 256 then 2 else 1) }
        else t = s
    branches (.bpl d) (!s.flag .N) ∧ branches (.bmi d) (s.flag .N) ∧ branches (.bvc d) (!s.flag .V) ∧
    branches (.bvs d) (s.flag .V) ∧ branches (.bcc d) (!s.flag .C) ∧ branches (.bcs d) (s.flag .C) ∧
    branches (.bne d) (!s.flag .Z) ∧ branches (.beq d) (s.flag .Z) ∧ branches (.bra d) true ∧
    ∃ t, exec (.brl d16) s = .next t ∧ (t.pc.toNat : Int) = ((s.pc.toNat : Int) + d16.toInt) % 65536 ∧
      t = { s with pc := t.pc }

/-- BBRn and BBSn branch when bit n of their zero-page byte is clear, or set, and change nothing but `pc` and the extra
cycles (R291, R292). The clause on the cycles of a taken branch is the model's choice (log 6, DESIGN CHOICE): R291 and
R292 name none, and what R471 counts, one and two across a page, is informative; the model puts it in `excycles` with
the informative tables and counts none beside a given table. -/
def Obligations.BitBranchesTestAZeroPageBit : Prop :=
  ∀ (s : State) (off d : Byte),
    let tests (i : Instr) (n : Nat) (want : Bool) : Prop :=
      ∃ (taken : Bool) (t : State), exec i s = .next t ∧
        t = { s.withTraffic t with pc := t.pc, excycles := t.excycles } ∧ AccessFrame [] s t ∧
        (if taken then
          (t.pc.toNat : Int) = ((s.pc.toNat : Int) + d.toInt) % 65536 ∧
          t.excycles = s.excycles + (if s.cfg.cycles ≠ .informative then 0
            else if s.native = false ∧ t.pc.toNat / 256 ≠ s.pc.toNat / 256 then 2 else 1)
        else t.pc = s.pc ∧ t.excycles = s.excycles) ∧
        (s.Unobserved → taken = ((s.mem.read off.toNat).getLsbD n == want))
    tests (.bbr0 off d) 0 false ∧ tests (.bbr1 off d) 1 false ∧ tests (.bbr2 off d) 2 false ∧
    tests (.bbr3 off d) 3 false ∧ tests (.bbr4 off d) 4 false ∧ tests (.bbr5 off d) 5 false ∧
    tests (.bbr6 off d) 6 false ∧ tests (.bbr7 off d) 7 false ∧
    tests (.bbs0 off d) 0 true ∧ tests (.bbs1 off d) 1 true ∧ tests (.bbs2 off d) 2 true ∧
    tests (.bbs3 off d) 3 true ∧ tests (.bbs4 off d) 4 true ∧ tests (.bbs5 off d) 5 true ∧
    tests (.bbs6 off d) 6 true ∧ tests (.bbs7 off d) 7 true

/-- JMP and JML set `pc` (JML the program bank too) to their target: the operand, or a pointer in bank 0 (with
the 6502's page wrap for `ind`), or a pointer in the program bank for `iax`; nothing else changes (R293, R294;
40_addressing.md R149, R150, R151, R158). -/
def Obligations.JumpsLoadTheirTarget : Prop :=
  ∀ (s : State) (a : Word) (l : Long),
    let word (lo hi : Nat) : Word := mkWord (s.mem.read hi) (s.mem.read lo)
    let jumps (i : Instr) (sets : State → Prop) : Prop :=
      ∃ t, exec i s = .next t ∧ t = { s.withTraffic t with pc := t.pc, pbr := t.pbr, excycles := s.excycles } ∧
        AccessFrame [] s t ∧ ((∀ f, i ≠ .jml f) → t.pbr = s.pbr) ∧ (s.Unobserved → sets t)
    let inBank (q : Nat) : Nat := if s.is816 then s.pbr.toNat * 65536 + q else q
    exec (.jmp (.abj a)) s = .next { s with pc := a } ∧
    exec (.jml (.abl l)) s = .next { s with pc := offOf l, pbr := bankOf l } ∧
    jumps (.jmp (.ind a)) (fun t => t.pc = word a.toNat
      (if s.cfg.variant = .v6502 then a.toNat / 256 * 256 + (a.toNat + 1) % 256 else (a.toNat + 1) % 65536)) ∧
    (s.programInMemory = true → jumps (.jmp (.iax a)) fun t => t.pc =
      word (inBank ((a.toNat + s.x.toNat) % 65536)) (inBank ((a.toNat + s.x.toNat + 1) % 65536))) ∧
    jumps (.jml (.ial a)) (fun t => t.pc = word a.toNat ((a.toNat + 1) % 65536) ∧
      t.pbr = s.mem.read ((a.toNat + 2) % 65536))

/-- JSR and JSL push the address of the call's last byte (JSL the program bank before it) and jump; JSR `iax`
reads its pointer after the push; no flag and no other register changes (R295, R296). -/
def Obligations.CallsPushTheLastByteAndJump : Prop :=
  ∀ (s : State) (a : Word) (l : Long),
    let near : List Byte := [hiByte (s.pc - 1), loByte (s.pc - 1)]
    let far : List Byte := s.pbr :: near
    let inBank (q : Nat) : Nat := if s.is816 then s.pbr.toNat * 65536 + q else q
    let calls (i : Instr) (bytes : List Byte) (sets : State → Prop) : Prop :=
      ∃ t, exec i s = .next t ∧ t = { s.withTraffic t with
          sp := s.spAfterPush bytes.length, pc := t.pc, pbr := t.pbr, excycles := s.excycles } ∧
        AccessFrame (s.pushBytes bytes.length) s t ∧
        (s.Unobserved → t.mem = (s.pushed bytes).mem) ∧ sets t
    calls (.jsr (.abj a)) near (fun t => t.pc = a ∧ t.pbr = s.pbr) ∧
    (s.programInMemory = true → calls (.jsr (.iax a)) near fun t => t.pbr = s.pbr ∧ (s.Unobserved →
      t.pc = mkWord (t.mem.read (inBank ((a.toNat + s.x.toNat + 1) % 65536)))
        (t.mem.read (inBank ((a.toNat + s.x.toNat) % 65536))))) ∧
    calls (.jsl l) far (fun t => t.pc = offOf l ∧ t.pbr = bankOf l)

/-- RTS and RTL pull the return address and add one (RTL the program bank after it); nothing else changes (R297,
R298). -/
def Obligations.ReturnsPullTheAddressAndAddOne : Prop :=
  ∀ s : State,
    (∃ t, exec .rts s = .next t ∧
      t = { s.withTraffic t with sp := s.spAfterPull 2, pc := t.pc, excycles := s.excycles } ∧ AccessFrame [] s t ∧
      (s.Unobserved → t.pc = mkWord (s.stacked 1) (s.stacked 0) + 1)) ∧
    ∃ t, exec .rtl s = .next t ∧
      t = { s.withTraffic t with sp := s.spAfterPull 3, pc := t.pc, pbr := t.pbr, excycles := s.excycles } ∧
      AccessFrame [] s t ∧
      (s.Unobserved → t.pc = mkWord (s.stacked 1) (s.stacked 0) + 1 ∧ t.pbr = s.stacked 2)

/-- A return from a state with the call's stack pointer, where the bytes the call pushed (two for JSR, three for JSL)
are as it left them, goes back to the instruction after the call, with the stack pointer (and, from JSL, the program
bank) of before the call (R295 to R298). -/
def Obligations.ReturnUndoesTheCall : Prop :=
  ∀ (s t u : State) (f : JsrForm) (l : Long), s.Inv → s.Unobserved →
    u.cfg = s.cfg → u.mode = s.mode → u.sp = t.sp →
    (exec (.jsr f) s = .next t → (∀ a ∈ s.pushBytes 2, u.mem.read a = t.mem.read a) →
      ∃ v, exec .rts u = .next v ∧ v.pc = s.pc ∧ v.sp = s.sp) ∧
    (exec (.jsl l) s = .next t → (∀ a ∈ s.pushBytes 3, u.mem.read a = t.mem.read a) →
      ∃ v, exec .rtl u = .next v ∧ v.pc = s.pc ∧ v.sp = s.sp ∧ v.pbr = s.pbr)

/-! Stack (45_stack.md). -/

/-- PHA, PHX and PHY push their register at its width, PHB and PHK the bank registers, PHD the direct page register
always as 16 bits; no flag and no other register changes, and with an 8-bit accumulator `b` is not pushed. PHX and
PHY are of the 65C02 and the 65816, the last three of the 65816 alone (R320, R322, R324, R328, R330, R332). -/
def Obligations.RegisterPushesStoreTheRegisterAtItsWidth : Prop :=
  (∀ s : State,
    CompletesPushing .pha (if s.m8 then [loByte s.a] else [hiByte s.a, loByte s.a]) s ∧
    CompletesPushing .phx (if s.x8 then [loByte s.x] else [hiByte s.x, loByte s.x]) s ∧
    CompletesPushing .phy (if s.x8 then [loByte s.y] else [hiByte s.y, loByte s.y]) s ∧
    CompletesPushing .phb [s.dbr] s ∧ CompletesPushing .phk [s.pbr] s ∧
    CompletesPushing .phd [hiByte s.dpr, loByte s.dpr] s) ∧
  (∀ c : DecodeCtx, Instr.wf c .pha = true ∧
    (Instr.wf c .phx = true ↔ c.variant ≠ .v6502) ∧ (Instr.wf c .phy = true ↔ c.variant ≠ .v6502) ∧
    (Instr.wf c .phb = true ↔ c.variant = .v65816) ∧ (Instr.wf c .phk = true ↔ c.variant = .v65816) ∧
    (Instr.wf c .phd = true ↔ c.variant = .v65816)) ∧
  encode .pha = [0x48] ∧ encode .phx = [0xDA] ∧ encode .phy = [0x5A] ∧ encode .phb = [0x8B] ∧
  encode .phk = [0x4B] ∧ encode .phd = [0x0B]

/-- PHP pushes `p`; PEA its operand, PER the address its displacement reaches, PEI the 16-bit datum at its
direct-page address, each as 16 bits; no flag changes (R326, R333, R334, R335). -/
def Obligations.StatusAndEffectiveAddressPushes : Prop :=
  ∀ (s : State) (v : Word) (off : Byte),
    let at0 := (s.dpr.toNat + off.toNat) % 65536
    CompletesPushing .php [s.p] s ∧ CompletesPushing (.pea v) [hiByte v, loByte v] s ∧
    CompletesPushing (.per v) [hiByte (s.pc + v), loByte (s.pc + v)] s ∧
    ∃ t, exec (.pei off) s = .next t ∧
      t = { s.withTraffic t with sp := s.spAfterPush 2, excycles := s.excycles } ∧
      AccessFrame (s.pushBytes 2) s t ∧
      (s.Unobserved → t = s.pushed [s.mem.read ((at0 + 1) % 65536), s.mem.read at0])

/-- PLA, PLX and PLY pull at their register's width, PLB 8 bits and PLD 16, with N and Z of the value; PLP writes all
of `p` through the status setter; nothing else changes and nothing is stored (R321, R323, R325, R327, R329,
R331; 10_state.md R32). -/
def Obligations.PullsLoadTheirRegister : Prop :=
  ∀ s : State,
    let base (t : State) (w : Width) : State :=
      { s.withTraffic t with sp := s.spAfterPull w.count, p := t.p, excycles := s.excycles }
    CompletesPulling .pla s.wA s (fun v t => t = { base t s.wA with a := v } ∧ NZFrame v s.wA s t) ∧
    CompletesPulling .plx s.wX s (fun v t => t = { base t s.wX with x := v } ∧ NZFrame v s.wX s t) ∧
    CompletesPulling .ply s.wX s (fun v t => t = { base t s.wX with y := v } ∧ NZFrame v s.wX s t) ∧
    CompletesPulling .plb .w8 s (fun v t => t = { base t .w8 with dbr := loByte v } ∧ NZFrame v .w8 s t) ∧
    CompletesPulling .pld .w16 s (fun v t => t = { base t .w16 with dpr := v } ∧ NZFrame v .w16 s t) ∧
    CompletesPulling .plp .w8 s fun v t =>
      t = { s.setP (loByte v) with sp := s.spAfterPull 1, irq := t.irq, mem := t.mem, ioTrace := t.ioTrace }

/-! Status and mode (46_status_mode.md). -/

/-- REP and SEP clear and set in `p` the bits of their operand: outside native mode bits 5 and 4 stay 1 and nothing
else moves; in native mode a change of bit 5 moves the accumulator's high byte between `a` and `b` without loss,
and bit 4 truncates the index registers (46_status_mode.md R367, R368; 10_state.md R32, decisions D16 and D17). -/
def Obligations.RepSepMoveTheWidthsWithoutLoss : Prop :=
  ∀ (s : State) (m : Byte), s.Inv →
    let sets (i : Instr) (bit : Nat → Bool) : Prop :=
      ∃ t, exec i s = .next t ∧ t = { s with p := t.p, a := t.a, b := t.b, x := t.x, y := t.y } ∧
        (∀ k < 8, t.p.getLsbD k = (bit k || (!s.native && (k == 4 || k == 5)))) ∧ t.c16 = s.c16 ∧
        (s.native = false → t = { s with p := t.p }) ∧
        (s.native = true → (t.flag .M = true → hiByte t.a = 0) ∧ (t.flag .M = false → t.b = 0) ∧
          t.x = (if t.flag .X then zext (loByte s.x) else s.x) ∧
          t.y = (if t.flag .X then zext (loByte s.y) else s.y))
    sets (.rep m) (fun k => s.p.getLsbD k && !m.getLsbD k) ∧ sets (.sep m) (fun k => s.p.getLsbD k || m.getLsbD k)

/-- The single-flag instructions write their flag and nothing else (R360 to R366). -/
def Obligations.SingleFlagInstructions : Prop :=
  ∀ s : State,
    let sets (i : Instr) (f : Flag) (v : Bool) : Prop :=
      ∃ t, exec i s = .next t ∧ t = { s with p := t.p } ∧ OneFlag f v s t
    sets .clc .C false ∧ sets .sec .C true ∧ sets .cli .I false ∧ sets .sei .I true ∧ sets .cld .D false ∧
    sets .sed .D true ∧ sets .clv .V false

/-- XCE exchanges the carry and the mode: nothing where they agree; into emulation the registers narrow, the
accumulator's high byte kept in `b`, the stack goes to page 1; into native the registers stay 8 bits wide and the
stack pointer is kept (R369, decision D39). -/
def Obligations.XceExchangesCarryAndMode : Prop :=
  ∀ s : State, s.Inv → s.is816 = true →
    (s.flag .C = (s.mode == .emulation) → exec .xce s = .next s) ∧
    (s.flag .C ≠ (s.mode == .emulation) → ∃ t, exec .xce s = .next t ∧ t.mode ≠ s.mode ∧
      t.flag .C = (s.mode == .emulation) ∧ t.flag .M = true ∧ t.flag .X = true ∧
      (∀ f ∈ [Flag.N, .V, .D, .I, .Z], t.flag f = s.flag f) ∧ t.c16 = s.c16 ∧ hiByte t.a = 0 ∧
      t.x = zext (loByte s.x) ∧ t.y = zext (loByte s.y) ∧ t.sp = (if s.flag .C then mkWord 0x01 (loByte s.sp) else s.sp) ∧
      t = { s with mode := t.mode, p := t.p, a := t.a, b := t.b, x := t.x, y := t.y, sp := t.sp })

/-! Block move (47_block_move.md). -/

/-- One step of MVN or MVP moves one byte between the banks, steps X and Y within their width, takes one from the
16-bit counter, loads the data bank, and goes back to the opcode unless the counter has passed zero; no flag
changes (R380, R381, R382). -/
def Obligations.BlockMoveMovesOneByte : Prop :=
  ∀ (s : State) (dst src : Byte), s.moveInMemory dst src = true →
    let n := 2 ^ s.wX.bits
    let from_ := (mkLong src s.x &&& s.addrMask).toNat
    let to_ := (mkLong dst s.y &&& s.addrMask).toNat
    let moves (i : Instr) (step : Word → Word) : Prop :=
      ∃ t, exec i s = .next t ∧ t.x = step s.x ∧ t.y = step s.y ∧ t.c16 = s.c16 - 1 ∧
        (s.m8 = true → hiByte t.a = 0) ∧ (s.m8 = false → t.b = s.b) ∧
        t.pc = (if s.c16 = 0 then s.pc else s.pc - 3) ∧
        t = { s.withTraffic t with
          x := t.x, y := t.y, a := t.a, b := t.b, dbr := dst, pc := t.pc, excycles := s.excycles } ∧
        AccessFrame [to_] s t ∧ (s.Unobserved → s.mem.wf = true → t.mem.read to_ = s.mem.read from_)
    moves (.mvn dst src) (fun v => BitVec.ofNat 16 ((v.toNat + 1) % n)) ∧
    moves (.mvp dst src) (fun v => BitVec.ofNat 16 ((v.toNat + 65535) % n))

/-! Software interrupts, returns, waits (48_system.md). -/

/-- BRK and COP take the exception their rules describe: the return address skips the signature byte, BRK's image
has BREAK set outside native mode and COP's has it clear, I is set, and D is cleared on the 65816 (on the 65C02
by BRK where the parameter says so) (R390, R391). -/
def Obligations.BrkAndCopEnterTheirHandlers : Prop :=
  ∀ s : State,
    (∃ t, exec .brk s = .next t ∧ EntersHandler s t (s.pc + 1) (if s.native then s.p else s.p ||| 0x30)
      (if s.native then 0xFFE6 else 0xFFFE)
      (s.is816 || (s.cfg.variant == .v65C02 && s.cfg.c02BrkClearsD))) ∧
    ∃ t, exec .cop s = .next t ∧ EntersHandler s t (s.pc + 1)
      (if s.native then s.p else (s.p &&& 0xEF) ||| 0x20) (if s.native then 0xFFE4 else 0xFFF4) true

/-- RTI restores the status through the setter, then `pc`, and in native mode the program bank; nothing is stored
(R392). -/
def Obligations.RtiRestoresStatusAndPc : Prop :=
  ∀ s : State,
    ∃ image t, exec .rti s = .next t ∧
      t = { s.setP image with
        sp := s.spAfterPull (if s.native then 4 else 3)
        pc := t.pc
        pbr := if s.native then t.pbr else s.pbr
        irq := t.irq
        mem := t.mem
        ioTrace := t.ioTrace } ∧ AccessFrame [] s t ∧
      (s.Unobserved → image = s.stacked 0 ∧ t.pc = mkWord (s.stacked 2) (s.stacked 1) ∧
        (s.native = true → t.pbr = s.stacked 3))

/-- RTI from a handler that has kept the mode, the stack pointer and the frame's bytes (four in native mode, else
three) undoes the entry of any event: the return address, the status register, the stack pointer, and in native mode the program bank are those
of before (60_exceptions.md R413, R419; 48_system.md R392). -/
def Obligations.RtiUndoesTheEntry : Prop :=
  ∀ (e : Exc) (ret : Word) (s t u : State), s.Inv → s.Unobserved →
    takeException e ret s = .ok t → u.cfg = s.cfg → u.mode = s.mode → u.sp = t.sp →
    (∀ a ∈ s.pushBytes (if s.native then 4 else 3), u.mem.read a = t.mem.read a) →
    ∃ v, exec .rti u = .next v ∧ v.pc = ret ∧ v.p = s.p ∧ v.sp = s.sp ∧
      v.pbr = (if s.native then s.pbr else u.pbr)

/-- WAI sets the wait state and nothing else; a waiting step fetches nothing, counts 1, and clears it if the line is
asserted; an NMI clears it (R393). The step after, with the line asserted, enters the IRQ handler if I is clear and
goes on from there, the pushed address being `pc`, that of the instruction after WAI; if I is set it runs the
instruction at `pc` (R393; 60_exceptions.md R412, R413). -/
def Obligations.WaiWaitsForTheLine : Prop :=
  (∀ s : State, exec .wai s = .next { s with waiting := true }) ∧
  (∀ s : State, s.waiting = true → ∃ t, step s = .next t ∧ t.processorCycles = s.processorCycles + 1 ∧
    t.waiting = !s.irq ∧ t = { s with processorCycles := t.processorCycles, waiting := t.waiting }) ∧
  (∀ s t : State, s.nmi = .next t → t.waiting = false) ∧
  (∀ s : State, s.waiting = false → s.irq = true → s.flag .I = false →
    ∃ t, takeIrq s = .ok t ∧ step s = step t ∧
      EntersHandler s t s.pc (if s.native then s.p else (s.p &&& 0xEF) ||| 0x20)
        (if s.native then 0xFFEE else 0xFFFE) s.cfg.intClearsD) ∧
  (∀ (s : State) (i : Instr) (rest : List Byte), s.programInMemory = true → s.Unobserved → s.waiting = false →
    s.flag .I = true → decode s.ctx (s.codeBytes 4) = .ok (i, rest) →
    let op := s.mem.read s.pcAddr.toNat
    let entry := (s.startCount op).advancePc (BitVec.ofNat 16 (4 - rest.length))
    step s = countCycles (baseCycles op i entry) (exec i entry)) ∧
  (∀ c : DecodeCtx, Instr.wf c .wai = true ↔ c.variant = .v65C02 ∨ c.variant = .v65816) ∧ encode .wai = [0xCB]

/-- STP waits as WAI does, NOP does nothing, and WDM does nothing with its operand (R394, decision D29; R395;
R396, decision D28). -/
def Obligations.StpNopWdm : Prop :=
  ∀ (s : State) (v : Byte), exec .stp s = .next { s with waiting := true } ∧ exec .stp s = exec .wai s ∧
    exec .nop s = .next s ∧ exec (.wdm v) s = .next s

/-! The execution engine (60_exceptions.md). -/

/-- A tick halts before executing where the break flag, the oracle or the predicate asks for it, and leaves the
processor alone (R428, R430). -/
def Obligations.TickHaltsWithoutExecuting : Prop :=
  ∀ (stop : State → Bool) (budget : Nat) (e : Engine),
    e.breakFlag = true ∨ e.checkBP = true ∨ stop e.proc = true →
    ∃ e', Engine.tick stop (budget + 1) e = (e', .halted) ∧ e'.proc = e.proc ∧ e'.phase = .idle ∧
      e'.hooks = e.hooks ∧ (e.breakFlag = true → e'.breakFlag = false)

/-- The size of a batch decides only when the host regains control: a batch that was not halted and then another
reach the processor state of one batch of both sizes (R428, decision D37). -/
def Obligations.BatchSizeDoesNotMatter : Prop :=
  ∀ (stop : State → Bool) (m n : Nat) (e e' : Engine) (r : TickEnd), Engine.tick stop m e = (e', r) →
    r ≠ .halted → (Engine.tick stop (m + n) e).1.proc = (Engine.tick stop n e').1.proc ∧
      (Engine.tick stop (m + n) e).2 = (Engine.tick stop n e').2

/-- `stepTo` returns the processor's `pc`, and only at the target, at a breakpoint or after a fault, which calls
the exception hook and leaves the engine idle (R427, R432; decision D36). After an out-of-bounds access R437 defines no
state and so no `pc`: that the one returned is then of the state before the step is the model's choice (log 13, DESIGN
CHOICE). -/
def Obligations.StepToEndsAtTargetBreakpointOrFault : Prop :=
  ∀ (fuel : Nat) (addr pc : Word) (e e' : Engine), Engine.stepTo fuel addr e = (e', .returned pc) →
    pc = e'.proc.pc ∧
    (pc = addr ∨ e'.checkBP = true ∨ (e'.phase = .idle ∧ ∃ f hs, e'.hooks = .stopOnException f :: hs))
end

