-- ==== Sys2Proof/Laws/State.lean ====
section
/-! SUPPORT. One lemma per field per update of the state: what each named update leaves alone. -/

namespace Sys2Proof.Machine

variable (s : State)

/-! `setFlag` -/

@[simp] theorem setFlag_pc (f : Flag) (v : Bool) : (s.setFlag f v).pc = s.pc := rfl
@[simp] theorem setFlag_a (f : Flag) (v : Bool) : (s.setFlag f v).a = s.a := rfl
@[simp] theorem setFlag_b (f : Flag) (v : Bool) : (s.setFlag f v).b = s.b := rfl
@[simp] theorem setFlag_x (f : Flag) (v : Bool) : (s.setFlag f v).x = s.x := rfl
@[simp] theorem setFlag_y (f : Flag) (v : Bool) : (s.setFlag f v).y = s.y := rfl
@[simp] theorem setFlag_sp (f : Flag) (v : Bool) : (s.setFlag f v).sp = s.sp := rfl
@[simp] theorem setFlag_mode (f : Flag) (v : Bool) : (s.setFlag f v).mode = s.mode := rfl
@[simp] theorem setFlag_dbr (f : Flag) (v : Bool) : (s.setFlag f v).dbr = s.dbr := rfl
@[simp] theorem setFlag_pbr (f : Flag) (v : Bool) : (s.setFlag f v).pbr = s.pbr := rfl
@[simp] theorem setFlag_dpr (f : Flag) (v : Bool) : (s.setFlag f v).dpr = s.dpr := rfl
@[simp] theorem setFlag_excycles (f : Flag) (v : Bool) : (s.setFlag f v).excycles = s.excycles := rfl
@[simp] theorem setFlag_addcycles (f : Flag) (v : Bool) : (s.setFlag f v).addcycles = s.addcycles := rfl
@[simp] theorem setFlag_processorCycles (f : Flag) (v : Bool) : (s.setFlag f v).processorCycles = s.processorCycles := rfl
@[simp] theorem setFlag_waiting (f : Flag) (v : Bool) : (s.setFlag f v).waiting = s.waiting := rfl
@[simp] theorem setFlag_irq (f : Flag) (v : Bool) : (s.setFlag f v).irq = s.irq := rfl
@[simp] theorem setFlag_mem (f : Flag) (v : Bool) : (s.setFlag f v).mem = s.mem := rfl
@[simp] theorem setFlag_ioTrace (f : Flag) (v : Bool) : (s.setFlag f v).ioTrace = s.ioTrace := rfl
@[simp] theorem setFlag_cfg (f : Flag) (v : Bool) : (s.setFlag f v).cfg = s.cfg := rfl

/-! `setNZ` -/

@[simp] theorem setNZ_pc (v : Word) (w : Width) : (s.setNZ v w).pc = s.pc := rfl
@[simp] theorem setNZ_a (v : Word) (w : Width) : (s.setNZ v w).a = s.a := rfl
@[simp] theorem setNZ_b (v : Word) (w : Width) : (s.setNZ v w).b = s.b := rfl
@[simp] theorem setNZ_x (v : Word) (w : Width) : (s.setNZ v w).x = s.x := rfl
@[simp] theorem setNZ_y (v : Word) (w : Width) : (s.setNZ v w).y = s.y := rfl
@[simp] theorem setNZ_sp (v : Word) (w : Width) : (s.setNZ v w).sp = s.sp := rfl
@[simp] theorem setNZ_mode (v : Word) (w : Width) : (s.setNZ v w).mode = s.mode := rfl
@[simp] theorem setNZ_dbr (v : Word) (w : Width) : (s.setNZ v w).dbr = s.dbr := rfl
@[simp] theorem setNZ_pbr (v : Word) (w : Width) : (s.setNZ v w).pbr = s.pbr := rfl
@[simp] theorem setNZ_dpr (v : Word) (w : Width) : (s.setNZ v w).dpr = s.dpr := rfl
@[simp] theorem setNZ_excycles (v : Word) (w : Width) : (s.setNZ v w).excycles = s.excycles := rfl
@[simp] theorem setNZ_addcycles (v : Word) (w : Width) : (s.setNZ v w).addcycles = s.addcycles := rfl
@[simp] theorem setNZ_processorCycles (v : Word) (w : Width) : (s.setNZ v w).processorCycles = s.processorCycles := rfl
@[simp] theorem setNZ_waiting (v : Word) (w : Width) : (s.setNZ v w).waiting = s.waiting := rfl
@[simp] theorem setNZ_irq (v : Word) (w : Width) : (s.setNZ v w).irq = s.irq := rfl
@[simp] theorem setNZ_mem (v : Word) (w : Width) : (s.setNZ v w).mem = s.mem := rfl
@[simp] theorem setNZ_ioTrace (v : Word) (w : Width) : (s.setNZ v w).ioTrace = s.ioTrace := rfl
@[simp] theorem setNZ_cfg (v : Word) (w : Width) : (s.setNZ v w).cfg = s.cfg := rfl

/-! `compare` -/

@[simp] theorem compare_pc (w : Width) (r m : Word) : (s.compare w r m).pc = s.pc := rfl
@[simp] theorem compare_a (w : Width) (r m : Word) : (s.compare w r m).a = s.a := rfl
@[simp] theorem compare_b (w : Width) (r m : Word) : (s.compare w r m).b = s.b := rfl
@[simp] theorem compare_x (w : Width) (r m : Word) : (s.compare w r m).x = s.x := rfl
@[simp] theorem compare_y (w : Width) (r m : Word) : (s.compare w r m).y = s.y := rfl
@[simp] theorem compare_sp (w : Width) (r m : Word) : (s.compare w r m).sp = s.sp := rfl
@[simp] theorem compare_mode (w : Width) (r m : Word) : (s.compare w r m).mode = s.mode := rfl
@[simp] theorem compare_dbr (w : Width) (r m : Word) : (s.compare w r m).dbr = s.dbr := rfl
@[simp] theorem compare_pbr (w : Width) (r m : Word) : (s.compare w r m).pbr = s.pbr := rfl
@[simp] theorem compare_dpr (w : Width) (r m : Word) : (s.compare w r m).dpr = s.dpr := rfl
@[simp] theorem compare_excycles (w : Width) (r m : Word) : (s.compare w r m).excycles = s.excycles := rfl
@[simp] theorem compare_addcycles (w : Width) (r m : Word) : (s.compare w r m).addcycles = s.addcycles := rfl
@[simp] theorem compare_processorCycles (w : Width) (r m : Word) : (s.compare w r m).processorCycles = s.processorCycles := rfl
@[simp] theorem compare_waiting (w : Width) (r m : Word) : (s.compare w r m).waiting = s.waiting := rfl
@[simp] theorem compare_irq (w : Width) (r m : Word) : (s.compare w r m).irq = s.irq := rfl
@[simp] theorem compare_mem (w : Width) (r m : Word) : (s.compare w r m).mem = s.mem := rfl
@[simp] theorem compare_ioTrace (w : Width) (r m : Word) : (s.compare w r m).ioTrace = s.ioTrace := rfl
@[simp] theorem compare_cfg (w : Width) (r m : Word) : (s.compare w r m).cfg = s.cfg := rfl

/-! `setA` -/

@[simp] theorem setA_pc (v : Word) : (s.setA v).pc = s.pc := rfl
@[simp] theorem setA_b (v : Word) : (s.setA v).b = s.b := rfl
@[simp] theorem setA_x (v : Word) : (s.setA v).x = s.x := rfl
@[simp] theorem setA_y (v : Word) : (s.setA v).y = s.y := rfl
@[simp] theorem setA_sp (v : Word) : (s.setA v).sp = s.sp := rfl
@[simp] theorem setA_p (v : Word) : (s.setA v).p = s.p := rfl
@[simp] theorem setA_mode (v : Word) : (s.setA v).mode = s.mode := rfl
@[simp] theorem setA_dbr (v : Word) : (s.setA v).dbr = s.dbr := rfl
@[simp] theorem setA_pbr (v : Word) : (s.setA v).pbr = s.pbr := rfl
@[simp] theorem setA_dpr (v : Word) : (s.setA v).dpr = s.dpr := rfl
@[simp] theorem setA_excycles (v : Word) : (s.setA v).excycles = s.excycles := rfl
@[simp] theorem setA_addcycles (v : Word) : (s.setA v).addcycles = s.addcycles := rfl
@[simp] theorem setA_processorCycles (v : Word) : (s.setA v).processorCycles = s.processorCycles := rfl
@[simp] theorem setA_waiting (v : Word) : (s.setA v).waiting = s.waiting := rfl
@[simp] theorem setA_irq (v : Word) : (s.setA v).irq = s.irq := rfl
@[simp] theorem setA_mem (v : Word) : (s.setA v).mem = s.mem := rfl
@[simp] theorem setA_ioTrace (v : Word) : (s.setA v).ioTrace = s.ioTrace := rfl
@[simp] theorem setA_cfg (v : Word) : (s.setA v).cfg = s.cfg := rfl

/-! `setX` -/

@[simp] theorem setX_pc (v : Word) : (s.setX v).pc = s.pc := rfl
@[simp] theorem setX_a (v : Word) : (s.setX v).a = s.a := rfl
@[simp] theorem setX_b (v : Word) : (s.setX v).b = s.b := rfl
@[simp] theorem setX_y (v : Word) : (s.setX v).y = s.y := rfl
@[simp] theorem setX_sp (v : Word) : (s.setX v).sp = s.sp := rfl
@[simp] theorem setX_p (v : Word) : (s.setX v).p = s.p := rfl
@[simp] theorem setX_mode (v : Word) : (s.setX v).mode = s.mode := rfl
@[simp] theorem setX_dbr (v : Word) : (s.setX v).dbr = s.dbr := rfl
@[simp] theorem setX_pbr (v : Word) : (s.setX v).pbr = s.pbr := rfl
@[simp] theorem setX_dpr (v : Word) : (s.setX v).dpr = s.dpr := rfl
@[simp] theorem setX_excycles (v : Word) : (s.setX v).excycles = s.excycles := rfl
@[simp] theorem setX_addcycles (v : Word) : (s.setX v).addcycles = s.addcycles := rfl
@[simp] theorem setX_processorCycles (v : Word) : (s.setX v).processorCycles = s.processorCycles := rfl
@[simp] theorem setX_waiting (v : Word) : (s.setX v).waiting = s.waiting := rfl
@[simp] theorem setX_irq (v : Word) : (s.setX v).irq = s.irq := rfl
@[simp] theorem setX_mem (v : Word) : (s.setX v).mem = s.mem := rfl
@[simp] theorem setX_ioTrace (v : Word) : (s.setX v).ioTrace = s.ioTrace := rfl
@[simp] theorem setX_cfg (v : Word) : (s.setX v).cfg = s.cfg := rfl

/-! `setY` -/

@[simp] theorem setY_pc (v : Word) : (s.setY v).pc = s.pc := rfl
@[simp] theorem setY_a (v : Word) : (s.setY v).a = s.a := rfl
@[simp] theorem setY_b (v : Word) : (s.setY v).b = s.b := rfl
@[simp] theorem setY_x (v : Word) : (s.setY v).x = s.x := rfl
@[simp] theorem setY_sp (v : Word) : (s.setY v).sp = s.sp := rfl
@[simp] theorem setY_p (v : Word) : (s.setY v).p = s.p := rfl
@[simp] theorem setY_mode (v : Word) : (s.setY v).mode = s.mode := rfl
@[simp] theorem setY_dbr (v : Word) : (s.setY v).dbr = s.dbr := rfl
@[simp] theorem setY_pbr (v : Word) : (s.setY v).pbr = s.pbr := rfl
@[simp] theorem setY_dpr (v : Word) : (s.setY v).dpr = s.dpr := rfl
@[simp] theorem setY_excycles (v : Word) : (s.setY v).excycles = s.excycles := rfl
@[simp] theorem setY_addcycles (v : Word) : (s.setY v).addcycles = s.addcycles := rfl
@[simp] theorem setY_processorCycles (v : Word) : (s.setY v).processorCycles = s.processorCycles := rfl
@[simp] theorem setY_waiting (v : Word) : (s.setY v).waiting = s.waiting := rfl
@[simp] theorem setY_irq (v : Word) : (s.setY v).irq = s.irq := rfl
@[simp] theorem setY_mem (v : Word) : (s.setY v).mem = s.mem := rfl
@[simp] theorem setY_ioTrace (v : Word) : (s.setY v).ioTrace = s.ioTrace := rfl
@[simp] theorem setY_cfg (v : Word) : (s.setY v).cfg = s.cfg := rfl

/-! `setSp` -/

@[simp] theorem setSp_pc (v : Word) : (s.setSp v).pc = s.pc := rfl
@[simp] theorem setSp_a (v : Word) : (s.setSp v).a = s.a := rfl
@[simp] theorem setSp_b (v : Word) : (s.setSp v).b = s.b := rfl
@[simp] theorem setSp_x (v : Word) : (s.setSp v).x = s.x := rfl
@[simp] theorem setSp_y (v : Word) : (s.setSp v).y = s.y := rfl
@[simp] theorem setSp_p (v : Word) : (s.setSp v).p = s.p := rfl
@[simp] theorem setSp_mode (v : Word) : (s.setSp v).mode = s.mode := rfl
@[simp] theorem setSp_dbr (v : Word) : (s.setSp v).dbr = s.dbr := rfl
@[simp] theorem setSp_pbr (v : Word) : (s.setSp v).pbr = s.pbr := rfl
@[simp] theorem setSp_dpr (v : Word) : (s.setSp v).dpr = s.dpr := rfl
@[simp] theorem setSp_excycles (v : Word) : (s.setSp v).excycles = s.excycles := rfl
@[simp] theorem setSp_addcycles (v : Word) : (s.setSp v).addcycles = s.addcycles := rfl
@[simp] theorem setSp_processorCycles (v : Word) : (s.setSp v).processorCycles = s.processorCycles := rfl
@[simp] theorem setSp_waiting (v : Word) : (s.setSp v).waiting = s.waiting := rfl
@[simp] theorem setSp_irq (v : Word) : (s.setSp v).irq = s.irq := rfl
@[simp] theorem setSp_mem (v : Word) : (s.setSp v).mem = s.mem := rfl
@[simp] theorem setSp_ioTrace (v : Word) : (s.setSp v).ioTrace = s.ioTrace := rfl
@[simp] theorem setSp_cfg (v : Word) : (s.setSp v).cfg = s.cfg := rfl

/-! `advancePc` -/

@[simp] theorem advancePc_a (n : Word) : (s.advancePc n).a = s.a := rfl
@[simp] theorem advancePc_b (n : Word) : (s.advancePc n).b = s.b := rfl
@[simp] theorem advancePc_x (n : Word) : (s.advancePc n).x = s.x := rfl
@[simp] theorem advancePc_y (n : Word) : (s.advancePc n).y = s.y := rfl
@[simp] theorem advancePc_sp (n : Word) : (s.advancePc n).sp = s.sp := rfl
@[simp] theorem advancePc_p (n : Word) : (s.advancePc n).p = s.p := rfl
@[simp] theorem advancePc_mode (n : Word) : (s.advancePc n).mode = s.mode := rfl
@[simp] theorem advancePc_dbr (n : Word) : (s.advancePc n).dbr = s.dbr := rfl
@[simp] theorem advancePc_pbr (n : Word) : (s.advancePc n).pbr = s.pbr := rfl
@[simp] theorem advancePc_dpr (n : Word) : (s.advancePc n).dpr = s.dpr := rfl
@[simp] theorem advancePc_excycles (n : Word) : (s.advancePc n).excycles = s.excycles := rfl
@[simp] theorem advancePc_addcycles (n : Word) : (s.advancePc n).addcycles = s.addcycles := rfl
@[simp] theorem advancePc_processorCycles (n : Word) : (s.advancePc n).processorCycles = s.processorCycles := rfl
@[simp] theorem advancePc_waiting (n : Word) : (s.advancePc n).waiting = s.waiting := rfl
@[simp] theorem advancePc_irq (n : Word) : (s.advancePc n).irq = s.irq := rfl
@[simp] theorem advancePc_mem (n : Word) : (s.advancePc n).mem = s.mem := rfl
@[simp] theorem advancePc_ioTrace (n : Word) : (s.advancePc n).ioTrace = s.ioTrace := rfl
@[simp] theorem advancePc_cfg (n : Word) : (s.advancePc n).cfg = s.cfg := rfl

/-! `setC16` -/

@[simp] theorem setC16_pc (v : Word) : (s.setC16 v).pc = s.pc := by unfold State.setC16; split <;> rfl
@[simp] theorem setC16_x (v : Word) : (s.setC16 v).x = s.x := by unfold State.setC16; split <;> rfl
@[simp] theorem setC16_y (v : Word) : (s.setC16 v).y = s.y := by unfold State.setC16; split <;> rfl
@[simp] theorem setC16_sp (v : Word) : (s.setC16 v).sp = s.sp := by unfold State.setC16; split <;> rfl
@[simp] theorem setC16_p (v : Word) : (s.setC16 v).p = s.p := by unfold State.setC16; split <;> rfl
@[simp] theorem setC16_mode (v : Word) : (s.setC16 v).mode = s.mode := by unfold State.setC16; split <;> rfl
@[simp] theorem setC16_dbr (v : Word) : (s.setC16 v).dbr = s.dbr := by unfold State.setC16; split <;> rfl
@[simp] theorem setC16_pbr (v : Word) : (s.setC16 v).pbr = s.pbr := by unfold State.setC16; split <;> rfl
@[simp] theorem setC16_dpr (v : Word) : (s.setC16 v).dpr = s.dpr := by unfold State.setC16; split <;> rfl
@[simp] theorem setC16_excycles (v : Word) : (s.setC16 v).excycles = s.excycles := by unfold State.setC16; split <;> rfl
@[simp] theorem setC16_addcycles (v : Word) : (s.setC16 v).addcycles = s.addcycles := by unfold State.setC16; split <;> rfl
@[simp] theorem setC16_processorCycles (v : Word) : (s.setC16 v).processorCycles = s.processorCycles := by unfold State.setC16; split <;> rfl
@[simp] theorem setC16_waiting (v : Word) : (s.setC16 v).waiting = s.waiting := by unfold State.setC16; split <;> rfl
@[simp] theorem setC16_irq (v : Word) : (s.setC16 v).irq = s.irq := by unfold State.setC16; split <;> rfl
@[simp] theorem setC16_mem (v : Word) : (s.setC16 v).mem = s.mem := by unfold State.setC16; split <;> rfl
@[simp] theorem setC16_ioTrace (v : Word) : (s.setC16 v).ioTrace = s.ioTrace := by unfold State.setC16; split <;> rfl
@[simp] theorem setC16_cfg (v : Word) : (s.setC16 v).cfg = s.cfg := by unfold State.setC16; split <;> rfl

/-! `migrateA` -/

@[simp] theorem migrateA_pc (o n : Bool) : (s.migrateA o n).pc = s.pc := by unfold State.migrateA; split <;> (try split) <;> rfl
@[simp] theorem migrateA_x (o n : Bool) : (s.migrateA o n).x = s.x := by unfold State.migrateA; split <;> (try split) <;> rfl
@[simp] theorem migrateA_y (o n : Bool) : (s.migrateA o n).y = s.y := by unfold State.migrateA; split <;> (try split) <;> rfl
@[simp] theorem migrateA_sp (o n : Bool) : (s.migrateA o n).sp = s.sp := by unfold State.migrateA; split <;> (try split) <;> rfl
@[simp] theorem migrateA_p (o n : Bool) : (s.migrateA o n).p = s.p := by unfold State.migrateA; split <;> (try split) <;> rfl
@[simp] theorem migrateA_mode (o n : Bool) : (s.migrateA o n).mode = s.mode := by unfold State.migrateA; split <;> (try split) <;> rfl
@[simp] theorem migrateA_dbr (o n : Bool) : (s.migrateA o n).dbr = s.dbr := by unfold State.migrateA; split <;> (try split) <;> rfl
@[simp] theorem migrateA_pbr (o n : Bool) : (s.migrateA o n).pbr = s.pbr := by unfold State.migrateA; split <;> (try split) <;> rfl
@[simp] theorem migrateA_dpr (o n : Bool) : (s.migrateA o n).dpr = s.dpr := by unfold State.migrateA; split <;> (try split) <;> rfl
@[simp] theorem migrateA_excycles (o n : Bool) : (s.migrateA o n).excycles = s.excycles := by unfold State.migrateA; split <;> (try split) <;> rfl
@[simp] theorem migrateA_addcycles (o n : Bool) : (s.migrateA o n).addcycles = s.addcycles := by unfold State.migrateA; split <;> (try split) <;> rfl
@[simp] theorem migrateA_processorCycles (o n : Bool) : (s.migrateA o n).processorCycles = s.processorCycles := by unfold State.migrateA; split <;> (try split) <;> rfl
@[simp] theorem migrateA_waiting (o n : Bool) : (s.migrateA o n).waiting = s.waiting := by unfold State.migrateA; split <;> (try split) <;> rfl
@[simp] theorem migrateA_irq (o n : Bool) : (s.migrateA o n).irq = s.irq := by unfold State.migrateA; split <;> (try split) <;> rfl
@[simp] theorem migrateA_mem (o n : Bool) : (s.migrateA o n).mem = s.mem := by unfold State.migrateA; split <;> (try split) <;> rfl
@[simp] theorem migrateA_ioTrace (o n : Bool) : (s.migrateA o n).ioTrace = s.ioTrace := by unfold State.migrateA; split <;> (try split) <;> rfl
@[simp] theorem migrateA_cfg (o n : Bool) : (s.migrateA o n).cfg = s.cfg := by unfold State.migrateA; split <;> (try split) <;> rfl

/-! `truncateIndex` -/

@[simp] theorem truncateIndex_pc (e : Bool) : (s.truncateIndex e).pc = s.pc := by unfold State.truncateIndex; split <;> rfl
@[simp] theorem truncateIndex_a (e : Bool) : (s.truncateIndex e).a = s.a := by unfold State.truncateIndex; split <;> rfl
@[simp] theorem truncateIndex_b (e : Bool) : (s.truncateIndex e).b = s.b := by unfold State.truncateIndex; split <;> rfl
@[simp] theorem truncateIndex_sp (e : Bool) : (s.truncateIndex e).sp = s.sp := by unfold State.truncateIndex; split <;> rfl
@[simp] theorem truncateIndex_p (e : Bool) : (s.truncateIndex e).p = s.p := by unfold State.truncateIndex; split <;> rfl
@[simp] theorem truncateIndex_mode (e : Bool) : (s.truncateIndex e).mode = s.mode := by unfold State.truncateIndex; split <;> rfl
@[simp] theorem truncateIndex_dbr (e : Bool) : (s.truncateIndex e).dbr = s.dbr := by unfold State.truncateIndex; split <;> rfl
@[simp] theorem truncateIndex_pbr (e : Bool) : (s.truncateIndex e).pbr = s.pbr := by unfold State.truncateIndex; split <;> rfl
@[simp] theorem truncateIndex_dpr (e : Bool) : (s.truncateIndex e).dpr = s.dpr := by unfold State.truncateIndex; split <;> rfl
@[simp] theorem truncateIndex_excycles (e : Bool) : (s.truncateIndex e).excycles = s.excycles := by unfold State.truncateIndex; split <;> rfl
@[simp] theorem truncateIndex_addcycles (e : Bool) : (s.truncateIndex e).addcycles = s.addcycles := by unfold State.truncateIndex; split <;> rfl
@[simp] theorem truncateIndex_processorCycles (e : Bool) : (s.truncateIndex e).processorCycles = s.processorCycles := by unfold State.truncateIndex; split <;> rfl
@[simp] theorem truncateIndex_waiting (e : Bool) : (s.truncateIndex e).waiting = s.waiting := by unfold State.truncateIndex; split <;> rfl
@[simp] theorem truncateIndex_irq (e : Bool) : (s.truncateIndex e).irq = s.irq := by unfold State.truncateIndex; split <;> rfl
@[simp] theorem truncateIndex_mem (e : Bool) : (s.truncateIndex e).mem = s.mem := by unfold State.truncateIndex; split <;> rfl
@[simp] theorem truncateIndex_ioTrace (e : Bool) : (s.truncateIndex e).ioTrace = s.ioTrace := by unfold State.truncateIndex; split <;> rfl
@[simp] theorem truncateIndex_cfg (e : Bool) : (s.truncateIndex e).cfg = s.cfg := by unfold State.truncateIndex; split <;> rfl

/-! `setP` -/

@[simp] theorem setP_pc (v : Byte) : (s.setP v).pc = s.pc := by unfold State.setP; split <;> simp
@[simp] theorem setP_sp (v : Byte) : (s.setP v).sp = s.sp := by unfold State.setP; split <;> simp
@[simp] theorem setP_mode (v : Byte) : (s.setP v).mode = s.mode := by unfold State.setP; split <;> simp
@[simp] theorem setP_dbr (v : Byte) : (s.setP v).dbr = s.dbr := by unfold State.setP; split <;> simp
@[simp] theorem setP_pbr (v : Byte) : (s.setP v).pbr = s.pbr := by unfold State.setP; split <;> simp
@[simp] theorem setP_dpr (v : Byte) : (s.setP v).dpr = s.dpr := by unfold State.setP; split <;> simp
@[simp] theorem setP_excycles (v : Byte) : (s.setP v).excycles = s.excycles := by unfold State.setP; split <;> simp
@[simp] theorem setP_addcycles (v : Byte) : (s.setP v).addcycles = s.addcycles := by unfold State.setP; split <;> simp
@[simp] theorem setP_processorCycles (v : Byte) : (s.setP v).processorCycles = s.processorCycles := by unfold State.setP; split <;> simp
@[simp] theorem setP_waiting (v : Byte) : (s.setP v).waiting = s.waiting := by unfold State.setP; split <;> simp
@[simp] theorem setP_irq (v : Byte) : (s.setP v).irq = s.irq := by unfold State.setP; split <;> simp
@[simp] theorem setP_mem (v : Byte) : (s.setP v).mem = s.mem := by unfold State.setP; split <;> simp
@[simp] theorem setP_ioTrace (v : Byte) : (s.setP v).ioTrace = s.ioTrace := by unfold State.setP; split <;> simp
@[simp] theorem setP_cfg (v : Byte) : (s.setP v).cfg = s.cfg := by unfold State.setP; split <;> simp

/-! `chargeCrossing` -/

@[simp] theorem chargeCrossing_pc (base r : Word) : (s.chargeCrossing base r).pc = s.pc := by unfold State.chargeCrossing; split <;> rfl
@[simp] theorem chargeCrossing_a (base r : Word) : (s.chargeCrossing base r).a = s.a := by unfold State.chargeCrossing; split <;> rfl
@[simp] theorem chargeCrossing_b (base r : Word) : (s.chargeCrossing base r).b = s.b := by unfold State.chargeCrossing; split <;> rfl
@[simp] theorem chargeCrossing_x (base r : Word) : (s.chargeCrossing base r).x = s.x := by unfold State.chargeCrossing; split <;> rfl
@[simp] theorem chargeCrossing_y (base r : Word) : (s.chargeCrossing base r).y = s.y := by unfold State.chargeCrossing; split <;> rfl
@[simp] theorem chargeCrossing_sp (base r : Word) : (s.chargeCrossing base r).sp = s.sp := by unfold State.chargeCrossing; split <;> rfl
@[simp] theorem chargeCrossing_p (base r : Word) : (s.chargeCrossing base r).p = s.p := by unfold State.chargeCrossing; split <;> rfl
@[simp] theorem chargeCrossing_mode (base r : Word) : (s.chargeCrossing base r).mode = s.mode := by unfold State.chargeCrossing; split <;> rfl
@[simp] theorem chargeCrossing_dbr (base r : Word) : (s.chargeCrossing base r).dbr = s.dbr := by unfold State.chargeCrossing; split <;> rfl
@[simp] theorem chargeCrossing_pbr (base r : Word) : (s.chargeCrossing base r).pbr = s.pbr := by unfold State.chargeCrossing; split <;> rfl
@[simp] theorem chargeCrossing_dpr (base r : Word) : (s.chargeCrossing base r).dpr = s.dpr := by unfold State.chargeCrossing; split <;> rfl
@[simp] theorem chargeCrossing_addcycles (base r : Word) : (s.chargeCrossing base r).addcycles = s.addcycles := by unfold State.chargeCrossing; split <;> rfl
@[simp] theorem chargeCrossing_processorCycles (base r : Word) : (s.chargeCrossing base r).processorCycles = s.processorCycles := by unfold State.chargeCrossing; split <;> rfl
@[simp] theorem chargeCrossing_waiting (base r : Word) : (s.chargeCrossing base r).waiting = s.waiting := by unfold State.chargeCrossing; split <;> rfl
@[simp] theorem chargeCrossing_irq (base r : Word) : (s.chargeCrossing base r).irq = s.irq := by unfold State.chargeCrossing; split <;> rfl
@[simp] theorem chargeCrossing_mem (base r : Word) : (s.chargeCrossing base r).mem = s.mem := by unfold State.chargeCrossing; split <;> rfl
@[simp] theorem chargeCrossing_ioTrace (base r : Word) : (s.chargeCrossing base r).ioTrace = s.ioTrace := by unfold State.chargeCrossing; split <;> rfl
@[simp] theorem chargeCrossing_cfg (base r : Word) : (s.chargeCrossing base r).cfg = s.cfg := by unfold State.chargeCrossing; split <;> rfl

/-! `startCount` -/

@[simp] theorem startCount_pc (op : Byte) : (s.startCount op).pc = s.pc := rfl
@[simp] theorem startCount_a (op : Byte) : (s.startCount op).a = s.a := rfl
@[simp] theorem startCount_b (op : Byte) : (s.startCount op).b = s.b := rfl
@[simp] theorem startCount_x (op : Byte) : (s.startCount op).x = s.x := rfl
@[simp] theorem startCount_y (op : Byte) : (s.startCount op).y = s.y := rfl
@[simp] theorem startCount_sp (op : Byte) : (s.startCount op).sp = s.sp := rfl
@[simp] theorem startCount_p (op : Byte) : (s.startCount op).p = s.p := rfl
@[simp] theorem startCount_mode (op : Byte) : (s.startCount op).mode = s.mode := rfl
@[simp] theorem startCount_dbr (op : Byte) : (s.startCount op).dbr = s.dbr := rfl
@[simp] theorem startCount_pbr (op : Byte) : (s.startCount op).pbr = s.pbr := rfl
@[simp] theorem startCount_dpr (op : Byte) : (s.startCount op).dpr = s.dpr := rfl
@[simp] theorem startCount_processorCycles (op : Byte) : (s.startCount op).processorCycles = s.processorCycles := rfl
@[simp] theorem startCount_waiting (op : Byte) : (s.startCount op).waiting = s.waiting := rfl
@[simp] theorem startCount_irq (op : Byte) : (s.startCount op).irq = s.irq := rfl
@[simp] theorem startCount_mem (op : Byte) : (s.startCount op).mem = s.mem := rfl
@[simp] theorem startCount_ioTrace (op : Byte) : (s.startCount op).ioTrace = s.ioTrace := rfl
@[simp] theorem startCount_cfg (op : Byte) : (s.startCount op).cfg = s.cfg := rfl

/-! `waitTick` -/

@[simp] theorem waitTick_pc : (s.waitTick).pc = s.pc := rfl
@[simp] theorem waitTick_a : (s.waitTick).a = s.a := rfl
@[simp] theorem waitTick_b : (s.waitTick).b = s.b := rfl
@[simp] theorem waitTick_x : (s.waitTick).x = s.x := rfl
@[simp] theorem waitTick_y : (s.waitTick).y = s.y := rfl
@[simp] theorem waitTick_sp : (s.waitTick).sp = s.sp := rfl
@[simp] theorem waitTick_p : (s.waitTick).p = s.p := rfl
@[simp] theorem waitTick_mode : (s.waitTick).mode = s.mode := rfl
@[simp] theorem waitTick_dbr : (s.waitTick).dbr = s.dbr := rfl
@[simp] theorem waitTick_pbr : (s.waitTick).pbr = s.pbr := rfl
@[simp] theorem waitTick_dpr : (s.waitTick).dpr = s.dpr := rfl
@[simp] theorem waitTick_excycles : (s.waitTick).excycles = s.excycles := rfl
@[simp] theorem waitTick_addcycles : (s.waitTick).addcycles = s.addcycles := rfl
@[simp] theorem waitTick_irq : (s.waitTick).irq = s.irq := rfl
@[simp] theorem waitTick_mem : (s.waitTick).mem = s.mem := rfl
@[simp] theorem waitTick_ioTrace : (s.waitTick).ioTrace = s.ioTrace := rfl
@[simp] theorem waitTick_cfg : (s.waitTick).cfg = s.cfg := rfl

/-! `observe` -/

@[simp] theorem observe_pc (e : IoEvent) : ((observe e s).2).pc = s.pc := rfl
@[simp] theorem observe_a (e : IoEvent) : ((observe e s).2).a = s.a := rfl
@[simp] theorem observe_b (e : IoEvent) : ((observe e s).2).b = s.b := rfl
@[simp] theorem observe_x (e : IoEvent) : ((observe e s).2).x = s.x := rfl
@[simp] theorem observe_y (e : IoEvent) : ((observe e s).2).y = s.y := rfl
@[simp] theorem observe_sp (e : IoEvent) : ((observe e s).2).sp = s.sp := rfl
@[simp] theorem observe_p (e : IoEvent) : ((observe e s).2).p = s.p := rfl
@[simp] theorem observe_mode (e : IoEvent) : ((observe e s).2).mode = s.mode := rfl
@[simp] theorem observe_dbr (e : IoEvent) : ((observe e s).2).dbr = s.dbr := rfl
@[simp] theorem observe_pbr (e : IoEvent) : ((observe e s).2).pbr = s.pbr := rfl
@[simp] theorem observe_dpr (e : IoEvent) : ((observe e s).2).dpr = s.dpr := rfl
@[simp] theorem observe_excycles (e : IoEvent) : ((observe e s).2).excycles = s.excycles := rfl
@[simp] theorem observe_addcycles (e : IoEvent) : ((observe e s).2).addcycles = s.addcycles := rfl
@[simp] theorem observe_processorCycles (e : IoEvent) : ((observe e s).2).processorCycles = s.processorCycles := rfl
@[simp] theorem observe_waiting (e : IoEvent) : ((observe e s).2).waiting = s.waiting := rfl
@[simp] theorem observe_cfg (e : IoEvent) : ((observe e s).2).cfg = s.cfg := rfl

/-! `setSum` -/

@[simp] theorem setSum_pc (r : Sum) (v : Bool) : (s.setSum r v).pc = s.pc := rfl
@[simp] theorem setSum_b (r : Sum) (v : Bool) : (s.setSum r v).b = s.b := rfl
@[simp] theorem setSum_x (r : Sum) (v : Bool) : (s.setSum r v).x = s.x := rfl
@[simp] theorem setSum_y (r : Sum) (v : Bool) : (s.setSum r v).y = s.y := rfl
@[simp] theorem setSum_sp (r : Sum) (v : Bool) : (s.setSum r v).sp = s.sp := rfl
@[simp] theorem setSum_mode (r : Sum) (v : Bool) : (s.setSum r v).mode = s.mode := rfl
@[simp] theorem setSum_dbr (r : Sum) (v : Bool) : (s.setSum r v).dbr = s.dbr := rfl
@[simp] theorem setSum_pbr (r : Sum) (v : Bool) : (s.setSum r v).pbr = s.pbr := rfl
@[simp] theorem setSum_dpr (r : Sum) (v : Bool) : (s.setSum r v).dpr = s.dpr := rfl
@[simp] theorem setSum_excycles (r : Sum) (v : Bool) : (s.setSum r v).excycles = s.excycles := rfl
@[simp] theorem setSum_addcycles (r : Sum) (v : Bool) : (s.setSum r v).addcycles = s.addcycles := rfl
@[simp] theorem setSum_processorCycles (r : Sum) (v : Bool) : (s.setSum r v).processorCycles = s.processorCycles := rfl
@[simp] theorem setSum_waiting (r : Sum) (v : Bool) : (s.setSum r v).waiting = s.waiting := rfl
@[simp] theorem setSum_irq (r : Sum) (v : Bool) : (s.setSum r v).irq = s.irq := rfl
@[simp] theorem setSum_mem (r : Sum) (v : Bool) : (s.setSum r v).mem = s.mem := rfl
@[simp] theorem setSum_ioTrace (r : Sum) (v : Bool) : (s.setSum r v).ioTrace = s.ioTrace := rfl
@[simp] theorem setSum_cfg (r : Sum) (v : Bool) : (s.setSum r v).cfg = s.cfg := rfl

/-! `repeatUnlessDone` -/

@[simp] theorem repeatUnlessDone_a (c : Word) : (s.repeatUnlessDone c).a = s.a := by unfold State.repeatUnlessDone; split <;> rfl
@[simp] theorem repeatUnlessDone_b (c : Word) : (s.repeatUnlessDone c).b = s.b := by unfold State.repeatUnlessDone; split <;> rfl
@[simp] theorem repeatUnlessDone_x (c : Word) : (s.repeatUnlessDone c).x = s.x := by unfold State.repeatUnlessDone; split <;> rfl
@[simp] theorem repeatUnlessDone_y (c : Word) : (s.repeatUnlessDone c).y = s.y := by unfold State.repeatUnlessDone; split <;> rfl
@[simp] theorem repeatUnlessDone_sp (c : Word) : (s.repeatUnlessDone c).sp = s.sp := by unfold State.repeatUnlessDone; split <;> rfl
@[simp] theorem repeatUnlessDone_p (c : Word) : (s.repeatUnlessDone c).p = s.p := by unfold State.repeatUnlessDone; split <;> rfl
@[simp] theorem repeatUnlessDone_mode (c : Word) : (s.repeatUnlessDone c).mode = s.mode := by unfold State.repeatUnlessDone; split <;> rfl
@[simp] theorem repeatUnlessDone_dbr (c : Word) : (s.repeatUnlessDone c).dbr = s.dbr := by unfold State.repeatUnlessDone; split <;> rfl
@[simp] theorem repeatUnlessDone_pbr (c : Word) : (s.repeatUnlessDone c).pbr = s.pbr := by unfold State.repeatUnlessDone; split <;> rfl
@[simp] theorem repeatUnlessDone_dpr (c : Word) : (s.repeatUnlessDone c).dpr = s.dpr := by unfold State.repeatUnlessDone; split <;> rfl
@[simp] theorem repeatUnlessDone_excycles (c : Word) : (s.repeatUnlessDone c).excycles = s.excycles := by unfold State.repeatUnlessDone; split <;> rfl
@[simp] theorem repeatUnlessDone_addcycles (c : Word) : (s.repeatUnlessDone c).addcycles = s.addcycles := by unfold State.repeatUnlessDone; split <;> rfl
@[simp] theorem repeatUnlessDone_processorCycles (c : Word) : (s.repeatUnlessDone c).processorCycles = s.processorCycles := by unfold State.repeatUnlessDone; split <;> rfl
@[simp] theorem repeatUnlessDone_waiting (c : Word) : (s.repeatUnlessDone c).waiting = s.waiting := by unfold State.repeatUnlessDone; split <;> rfl
@[simp] theorem repeatUnlessDone_irq (c : Word) : (s.repeatUnlessDone c).irq = s.irq := by unfold State.repeatUnlessDone; split <;> rfl
@[simp] theorem repeatUnlessDone_mem (c : Word) : (s.repeatUnlessDone c).mem = s.mem := by unfold State.repeatUnlessDone; split <;> rfl
@[simp] theorem repeatUnlessDone_ioTrace (c : Word) : (s.repeatUnlessDone c).ioTrace = s.ioTrace := by unfold State.repeatUnlessDone; split <;> rfl
@[simp] theorem repeatUnlessDone_cfg (c : Word) : (s.repeatUnlessDone c).cfg = s.cfg := by unfold State.repeatUnlessDone; split <;> rfl

/-! `setIrq` -/

@[simp] theorem setIrq_pc (l : Bool) : (s.setIrq l).pc = s.pc := rfl
@[simp] theorem setIrq_a (l : Bool) : (s.setIrq l).a = s.a := rfl
@[simp] theorem setIrq_b (l : Bool) : (s.setIrq l).b = s.b := rfl
@[simp] theorem setIrq_x (l : Bool) : (s.setIrq l).x = s.x := rfl
@[simp] theorem setIrq_y (l : Bool) : (s.setIrq l).y = s.y := rfl
@[simp] theorem setIrq_sp (l : Bool) : (s.setIrq l).sp = s.sp := rfl
@[simp] theorem setIrq_p (l : Bool) : (s.setIrq l).p = s.p := rfl
@[simp] theorem setIrq_mode (l : Bool) : (s.setIrq l).mode = s.mode := rfl
@[simp] theorem setIrq_dbr (l : Bool) : (s.setIrq l).dbr = s.dbr := rfl
@[simp] theorem setIrq_pbr (l : Bool) : (s.setIrq l).pbr = s.pbr := rfl
@[simp] theorem setIrq_dpr (l : Bool) : (s.setIrq l).dpr = s.dpr := rfl
@[simp] theorem setIrq_excycles (l : Bool) : (s.setIrq l).excycles = s.excycles := rfl
@[simp] theorem setIrq_addcycles (l : Bool) : (s.setIrq l).addcycles = s.addcycles := rfl
@[simp] theorem setIrq_processorCycles (l : Bool) : (s.setIrq l).processorCycles = s.processorCycles := rfl
@[simp] theorem setIrq_waiting (l : Bool) : (s.setIrq l).waiting = s.waiting := rfl
@[simp] theorem setIrq_mem (l : Bool) : (s.setIrq l).mem = s.mem := rfl
@[simp] theorem setIrq_ioTrace (l : Bool) : (s.setIrq l).ioTrace = s.ioTrace := rfl
@[simp] theorem setIrq_cfg (l : Bool) : (s.setIrq l).cfg = s.cfg := rfl

/-! What an update writes. -/

@[simp] theorem setA_a (v : Word) : (s.setA v).a = v &&& s.wA.mask := rfl
@[simp] theorem setX_x (v : Word) : (s.setX v).x = v &&& s.wX.mask := rfl
@[simp] theorem setY_y (v : Word) : (s.setY v).y = v &&& s.wX.mask := rfl
@[simp] theorem setFlag_p (f : Flag) (v : Bool) : (s.setFlag f v).p = putBit s.p f.bit v := rfl
@[simp] theorem advancePc_pc (n : Word) : (s.advancePc n).pc = s.pc + n := rfl

end Sys2Proof.Machine
end

