-- ==== Sys2Proof/Laws/Bits.lean ====
section
/-! SUPPORT. Byte order and single bits: the lemmas of `Machine/Bits.lean`, and what the flag and width predicates
read after each update. -/

namespace Sys2Proof.Machine

theorem toNat_mkWord (h l : Byte) : (mkWord h l).toNat = h.toNat * 256 + l.toNat := by
  have h1 : (h.setWidth 16 <<< 8 : Word).toNat = h.toNat <<< 8 := by
    simp only [BitVec.toNat_shiftLeft, BitVec.toNat_setWidth, Nat.shiftLeft_eq]
    have := h.isLt
    omega
  have h2 : (l.setWidth 16 : Word).toNat = l.toNat := by
    simp only [BitVec.toNat_setWidth]
    have := l.isLt
    omega
  rw [mkWord, BitVec.toNat_or, h1, h2, ← Nat.shiftLeft_add_eq_or_of_lt l.isLt, Nat.shiftLeft_eq]

theorem toNat_mkLong (bank : Byte) (off : Word) : (mkLong bank off).toNat = bank.toNat * 65536 + off.toNat := by
  have h1 : (bank.setWidth 24 <<< 16 : Long).toNat = bank.toNat <<< 16 := by
    simp only [BitVec.toNat_shiftLeft, BitVec.toNat_setWidth, Nat.shiftLeft_eq]
    have := bank.isLt
    omega
  have h2 : (off.setWidth 24 : Long).toNat = off.toNat := by
    simp only [BitVec.toNat_setWidth]
    have := off.isLt
    omega
  rw [mkLong, BitVec.toNat_or, h1, h2, ← Nat.shiftLeft_add_eq_or_of_lt off.isLt, Nat.shiftLeft_eq]

theorem toNat_loByte (v : Word) : (loByte v).toNat = v.toNat % 256 := by
  simp [loByte]

theorem toNat_hiByte (v : Word) : (hiByte v).toNat = v.toNat / 256 := by
  simp only [hiByte, BitVec.toNat_setWidth, BitVec.toNat_ushiftRight, Nat.shiftRight_eq_div_pow]
  have := v.isLt
  omega

theorem toNat_zext (v : Byte) : (zext v).toNat = v.toNat := by
  simp only [zext, BitVec.toNat_setWidth]
  have := v.isLt
  omega

@[simp] theorem loByte_mkWord (h l : Byte) : loByte (mkWord h l) = l := by
  apply BitVec.eq_of_toNat_eq
  rw [toNat_loByte, toNat_mkWord]
  have := l.isLt
  omega

@[simp] theorem hiByte_mkWord (h l : Byte) : hiByte (mkWord h l) = h := by
  apply BitVec.eq_of_toNat_eq
  rw [toNat_hiByte, toNat_mkWord]
  have := l.isLt
  omega

@[simp] theorem mkWord_hi_lo (v : Word) : mkWord (hiByte v) (loByte v) = v := by
  apply BitVec.eq_of_toNat_eq
  rw [toNat_mkWord, toNat_hiByte, toNat_loByte]
  omega

@[simp] theorem loByte_zext (v : Byte) : loByte (zext v) = v := by
  simp [loByte, zext]

@[simp] theorem hiByte_zext (v : Byte) : hiByte (zext v) = 0 := by
  apply BitVec.eq_of_toNat_eq
  rw [toNat_hiByte, toNat_zext]
  have := v.isLt
  simp
  omega

@[simp] theorem offOf_mkLong (bank : Byte) (off : Word) : offOf (mkLong bank off) = off := by
  apply BitVec.eq_of_toNat_eq
  simp only [offOf, BitVec.toNat_setWidth, toNat_mkLong]
  have := off.isLt
  omega

@[simp] theorem bankOf_mkLong (bank : Byte) (off : Word) : bankOf (mkLong bank off) = bank := by
  apply BitVec.eq_of_toNat_eq
  simp only [bankOf, BitVec.toNat_setWidth, BitVec.toNat_ushiftRight, toNat_mkLong, Nat.shiftRight_eq_div_pow]
  have := off.isLt
  have := bank.isLt
  omega

@[simp] theorem mkLong_bank_off (v : Long) : mkLong (bankOf v) (offOf v) = v := by
  apply BitVec.eq_of_toNat_eq
  simp only [toNat_mkLong, bankOf, offOf, BitVec.toNat_setWidth, BitVec.toNat_ushiftRight, Nat.shiftRight_eq_div_pow]
  have := v.isLt
  omega

theorem zext_loByte_of_hi_zero {v : Word} (h : hiByte v = 0) : zext (loByte v) = v := by
  apply BitVec.eq_of_toNat_eq
  have := congrArg BitVec.toNat h
  rw [toNat_hiByte] at this
  rw [toNat_zext, toNat_loByte]
  simp at this
  omega

/-- A bit of a byte after `putBit`. -/
theorem getLsbD_putBit (p : Byte) (n m : Nat) (b : Bool) (hm : m < 8) :
    (putBit p n b).getLsbD m = if m = n then b else p.getLsbD m := by
  unfold putBit
  by_cases h : m = n
  · subst h
    cases b <;> simp [hm]
  · have h1 : m < n ∨ n < m := by omega
    rcases h1 with h1 | h1
    · cases b <;> simp [h, hm, h1]
    · have : m - n ≠ 0 := by omega
      cases b <;> simp [h, hm, this]

/-- A flag after a flag is written. -/
@[simp] theorem flag_setFlag (s : State) (f g : Flag) (v : Bool) :
    (s.setFlag f v).flag g = if g = f then v else s.flag g := by
  unfold State.flag State.setFlag
  rw [getLsbD_putBit _ _ _ _ (by cases g <;> simp [Flag.bit])]
  cases f <;> cases g <;> simp [Flag.bit]

@[simp] theorem is816_of_cfg (s : State) (p : Byte) : ({ s with p := p } : State).is816 = s.is816 := rfl

/-- The flags `SetNZ` writes and leaves (10_state.md R33). -/
@[simp] theorem flag_setNZ (s : State) (v : Word) (w : Width) (g : Flag) :
    (s.setNZ v w).flag g = if g = .N then signBit v w else if g = .Z then v == 0 else s.flag g := by
  simp [State.setNZ]

/-- The flags a compare writes and leaves (42_arithmetic.md R224). -/
@[simp] theorem flag_compare (s : State) (w : Width) (r m : Word) (g : Flag) :
    (s.compare w r m).flag g =
      if g = .N then signBit (r - m) w else if g = .Z then r == m
      else if g = .C then decide (m.toNat ≤ r.toNat) else s.flag g := by
  simp [State.compare]

theorem native_congr {s t : State} (hc : t.cfg = s.cfg) (hm : t.mode = s.mode) : t.native = s.native := by
  simp [State.native, State.is816, hc, hm]

theorem is816_congr {s t : State} (hc : t.cfg = s.cfg) : t.is816 = s.is816 := by
  simp [State.is816, hc]

theorem m8_congr {s t : State} (hc : t.cfg = s.cfg) (hm : t.mode = s.mode) (hp : t.flag .M = s.flag .M) :
    t.m8 = s.m8 := by
  simp [State.m8, native_congr hc hm, hp]

theorem x8_congr {s t : State} (hc : t.cfg = s.cfg) (hm : t.mode = s.mode) (hp : t.flag .X = s.flag .X) :
    t.x8 = s.x8 := by
  simp [State.x8, native_congr hc hm, hp]

theorem wA_congr {s t : State} (hc : t.cfg = s.cfg) (hm : t.mode = s.mode) (hp : t.flag .M = s.flag .M) :
    t.wA = s.wA := by
  simp [State.wA, m8_congr hc hm hp]

theorem wX_congr {s t : State} (hc : t.cfg = s.cfg) (hm : t.mode = s.mode) (hp : t.flag .X = s.flag .X) :
    t.wX = s.wX := by
  simp [State.wX, x8_congr hc hm hp]

/-- A value masked to 8 bits. -/
theorem and_mask8 (v : Word) : v &&& Width.w8.mask = zext (loByte v) := by
  apply BitVec.eq_of_toNat_eq
  rw [toNat_zext, toNat_loByte]
  simp only [Width.mask, BitVec.toNat_and]
  exact Nat.and_two_pow_sub_one_eq_mod v.toNat 8

/-- A value masked to 16 bits. -/
theorem and_mask16 (v : Word) : v &&& Width.w16.mask = v := by
  apply BitVec.eq_of_toNat_eq
  simp only [Width.mask, BitVec.toNat_and]
  have h := Nat.and_two_pow_sub_one_eq_mod v.toNat 16
  have := v.isLt
  simp at h ⊢
  omega

/-- The value of a masked word (00_scope.md R4). -/
theorem toNat_and_mask (v : Word) (w : Width) : (v &&& w.mask).toNat = v.toNat % 2 ^ w.bits := by
  cases w
  · rw [and_mask8, toNat_zext, toNat_loByte]; rfl
  · rw [and_mask16, Nat.mod_eq_of_lt]; exact v.isLt

end Sys2Proof.Machine
end

