-- ==== Sys2Proof/Laws/Memory.lean ====
section
/-! SUPPORT. Memory: read after write, and that every operation keeps the canonical form (20_memory.md R71;
log 3). -/

namespace Sys2Proof.Machine

/-- A bound that the addresses of a well-formed memory are above. -/
def Memory.above (lo : Option Nat) (a : Nat) : Prop := ∀ l, lo = some l → l < a

theorem Memory.wfFrom_cons {lo : Option Nat} {k : Nat} {v : Byte} {t : Memory} :
    Memory.wfFrom lo ((k, v) :: t) = true ↔ Memory.above lo k ∧ v ≠ Memory.unlisted ∧ Memory.wfFrom (some k) t = true := by
  cases lo <;> simp [Memory.wfFrom, Memory.above, and_assoc]

/-- An address at or below the bound is not listed. -/
theorem Memory.read_of_le {m : Memory} {l a : Nat} (h : Memory.wfFrom (some l) m = true) (ha : a ≤ l) :
    m.read a = Memory.unlisted := by
  cases m with
  | nil => rfl
  | cons c t =>
    obtain ⟨k, v⟩ := c
    have hk := (Memory.wfFrom_cons.1 h).1 l rfl
    simp [Memory.read, show ¬ a = k by omega, show a < k by omega]

theorem Memory.wfFrom_weaken {m : Memory} {lo : Option Nat} {l : Nat} (h : Memory.wfFrom (some l) m = true)
    (hl : Memory.above lo l) : Memory.wfFrom lo m = true := by
  cases m with
  | nil => rfl
  | cons c t =>
    obtain ⟨k, v⟩ := c
    rw [Memory.wfFrom_cons] at h ⊢
    exact ⟨fun x hx => Nat.lt_trans (hl x hx) (h.1 l rfl), h.2⟩

theorem Memory.write_wfFrom {m : Memory} {lo : Option Nat} {a : Nat} (v : Byte) (h : Memory.wfFrom lo m = true)
    (ha : Memory.above lo a) : Memory.wfFrom lo (m.write a v) = true := by
  induction m generalizing lo with
  | nil =>
    by_cases hv : v = Memory.unlisted
    · simp [Memory.write, hv, Memory.wfFrom]
    · simp only [Memory.write, hv, if_false]
      exact Memory.wfFrom_cons.2 ⟨ha, hv, rfl⟩
  | cons c t ih =>
    obtain ⟨k, w⟩ := c
    have h' := Memory.wfFrom_cons.1 h
    obtain ⟨h1, h2, h3⟩ := h'
    simp only [Memory.write]
    split
    · split
      · exact Memory.wfFrom_weaken h3 h1
      · subst a; exact Memory.wfFrom_cons.2 ⟨h1, ‹_›, h3⟩
    · split
      · split
        · exact h
        · exact Memory.wfFrom_cons.2 ⟨ha, ‹_›, Memory.wfFrom_cons.2 ⟨fun l hl => by cases hl; assumption, h2, h3⟩⟩
      · exact Memory.wfFrom_cons.2 ⟨h1, h2, ih h3 (fun l hl => by cases hl; omega)⟩

/-- A write keeps the canonical form. -/
theorem Memory.write_wf {m : Memory} (a : Nat) (v : Byte) (h : m.wf = true) : (m.write a v).wf = true :=
  Memory.write_wfFrom v h (fun _ hl => by cases hl)

theorem Memory.read_write_from {m : Memory} {lo : Option Nat} (a b : Nat) (v : Byte)
    (h : Memory.wfFrom lo m = true) : (m.write a v).read b = if b = a then v else m.read b := by
  induction m generalizing lo with
  | nil =>
    simp only [Memory.write]
    split <;> rename_i hv
    · simp [Memory.read, hv]
    · simp [Memory.read]
  | cons c t ih =>
    obtain ⟨k, w⟩ := c
    obtain ⟨h1, h2, h3⟩ := Memory.wfFrom_cons.1 h
    simp only [Memory.write]
    split
    · subst a
      split <;> rename_i hv
      · by_cases hb : b = k
        · subst b; simp [Memory.read_of_le h3 (Nat.le_refl _), hv]
        · simp only [hb, if_false, Memory.read]
          split
          · rw [Memory.read_of_le h3 (by omega)]
          · rfl
      · simp only [Memory.read]
        by_cases hb : b = k <;> simp [hb]
    · split
      · split <;> rename_i hv
        · by_cases hb : b = a
          · subst b; simp [Memory.read, *]
          · simp [hb]
        · simp only [Memory.read]
          by_cases hb : b = a
          · simp [hb]
          · simp only [hb, if_false]
            split
            · simp only [show ¬ b = k by omega, show b < k by omega, if_false, if_true]
            · rfl
      · simp only [Memory.read]
        by_cases hb : b = k
        · subst b; simp only [if_true, show ¬ k = a by omega, if_false]
        · simp only [hb, if_false]
          split
          · simp only [show ¬ b = a by omega, if_false]
          · exact ih h3

/-- A byte reads as it was last written. -/
theorem Memory.read_write_same {m : Memory} (a : Nat) (v : Byte) (h : m.wf = true) : (m.write a v).read a = v := by
  rw [Memory.read_write_from a a v h, if_pos rfl]

/-- A write leaves every other byte alone. -/
theorem Memory.read_write_ne {m : Memory} {a b : Nat} (v : Byte) (h : m.wf = true) (hne : b ≠ a) :
    (m.write a v).read b = m.read b := by
  rw [Memory.read_write_from a b v h, if_neg hne]

/-- A write inside the memory keeps every listed address inside it. -/
theorem Memory.write_below {size : Nat} {m : Memory} {a : Nat} (v : Byte) (h : m.below size = true) (ha : a < size) :
    (m.write a v).below size = true := by
  induction m with
  | nil => simp only [Memory.write]; split <;> simp [Memory.below, ha]
  | cons c t ih =>
    obtain ⟨k, w⟩ := c
    have ⟨hk, ht⟩ : decide (k < size) = true ∧ Memory.below size t = true := by
      simpa only [Memory.below, List.all_cons, Bool.and_eq_true] using h
    have hcons : ∀ (n : Memory) (b : Nat) (u : Byte), decide (b < size) = true → Memory.below size n = true →
        Memory.below size ((b, u) :: n) = true := fun n b u hb hn => by
      simp only [Memory.below, List.all_cons, Bool.and_eq_true]
      exact ⟨hb, hn⟩
    have ha' := decide_eq_true ha
    simp only [Memory.write]
    split
    · split
      · exact ht
      · exact hcons _ _ _ ha' ht
    · split
      · split
        · exact h
        · exact hcons _ _ _ ha' h
      · exact hcons _ _ _ hk (ih ht)

/-- A device's stores keep the canonical form. -/
theorem Memory.storeCells_wf {size : Nat} {m : Memory} (l : List Host.Cell) (h : m.wf = true) :
    (Memory.storeCells size l m).wf = true := by
  induction l generalizing m with
  | nil => exact h
  | cons c t ih =>
    simp only [Memory.storeCells]
    apply ih
    split
    · exact Memory.write_wf _ _ h
    · exact h

theorem Memory.storeCells_below {size : Nat} {m : Memory} (l : List Host.Cell) (h : m.below size = true) :
    (Memory.storeCells size l m).below size = true := by
  induction l generalizing m with
  | nil => exact h
  | cons c t ih =>
    simp only [Memory.storeCells]
    apply ih
    split
    · exact Memory.write_below _ h ‹_›
    · exact h

/-- A device's stores leave every address they do not name alone. -/
theorem Memory.read_storeCells {size : Nat} {m : Memory} {l : List Host.Cell} {a : Nat} (h : m.wf = true)
    (ha : ∀ c ∈ l, c.1 ≠ a) : (Memory.storeCells size l m).read a = m.read a := by
  induction l generalizing m with
  | nil => rfl
  | cons c t ih =>
    obtain ⟨k, v⟩ := c
    have hk : k ≠ a := ha (k, v) (by simp)
    have ht : ∀ c ∈ t, c.1 ≠ a := fun c hc => ha c (by simp [hc])
    simp only [Memory.storeCells]
    split
    · rw [ih (Memory.write_wf _ _ h) ht, Memory.read_write_ne _ h (Ne.symm hk)]
    · exact ih h ht

/-- The memory of the reset state, and any memory built from an image, is in canonical form. -/
theorem Memory.image_wf (size : Nat) (image : List Host.Cell) : (Memory.storeCells size image []).wf = true :=
  Memory.storeCells_wf image rfl

theorem Memory.reset_wf : State.reset.mem.wf = true := rfl

theorem Memory.ext_from {m n : Memory} {lo lo' : Option Nat} (hm : Memory.wfFrom lo m = true)
    (hn : Memory.wfFrom lo' n = true) (h : ∀ a, m.read a = n.read a) : m = n := by
  induction m generalizing n lo lo' with
  | nil =>
    cases n with
    | nil => rfl
    | cons c t =>
      obtain ⟨k, v⟩ := c
      have := h k
      simp only [Memory.read, if_true] at this
      exact absurd this.symm (Memory.wfFrom_cons.1 hn).2.1
  | cons c t ih =>
    obtain ⟨k, v⟩ := c
    obtain ⟨-, hv, ht⟩ := Memory.wfFrom_cons.1 hm
    cases n with
    | nil =>
      have := h k
      simp only [Memory.read, if_true] at this
      exact absurd this hv
    | cons c' t' =>
      obtain ⟨k', v'⟩ := c'
      obtain ⟨-, hv', ht'⟩ := Memory.wfFrom_cons.1 hn
      have hk : k = k' := by
        rcases Nat.lt_trichotomy k k' with hlt | heq | hgt
        · have := h k
          simp only [Memory.read, if_true, show ¬ k = k' by omega, hlt, if_false] at this
          exact absurd this hv
        · exact heq
        · have := h k'
          simp only [Memory.read, if_true, show ¬ k' = k by omega, hgt, if_false] at this
          exact absurd this.symm hv'
      subst hk
      have hvv : v = v' := by simpa [Memory.read] using h k
      subst hvv
      have : t = t' := by
        apply ih ht ht'
        intro a
        by_cases ha : a ≤ k
        · rw [Memory.read_of_le ht ha, Memory.read_of_le ht' ha]
        · have := h a
          simpa [Memory.read, show ¬ a = k by omega, show ¬ a < k by omega] using this
      rw [this]

/-- Memories in canonical form that read alike are equal. -/
theorem Memory.eq_of_read {m n : Memory} (hm : m.wf = true) (hn : n.wf = true) (h : ∀ a, m.read a = n.read a) :
    m = n := Memory.ext_from hm hn h

end Sys2Proof.Machine
end

