-- ==== Sys2Proof/Laws/Ops.lean ====
section
/-! SUPPORT. What each shared operation over memory can do, said once: the memory traffic it makes, the registers
it leaves alone, and when it completes. -/

namespace Sys2Proof.Machine

theorem bind_ok {α β : Type} {e : Except Fault α} {f : α → Except Fault β} {r : β} :
    (e >>= f) = .ok r ↔ ∃ x, e = .ok x ∧ f x = .ok r := by
  cases e <;> simp [bind, Except.bind]

theorem ok_bind {α β : Type} (x : α) (f : α → Except Fault β) : (Except.ok x >>= f) = f x := rfl

theorem pure_ok {α : Type} {x y : α} : (pure x : Except Fault α) = .ok y ↔ x = y := by
  simp [pure, Except.pure]

@[simp] theorem finish_next {e : Except Fault State} {t : State} : finish e = .next t ↔ e = .ok t := by
  cases e <;> simp [finish]

theorem finish_ne_refused {e : Except Fault State} {r : Refusal} : finish e ≠ .refused r := by
  cases e <;> simp [finish]

/-- Nothing but the interrupt line, memory and the record of observed accesses differs. -/
def SameRegs (s t : State) : Prop := t = { s with irq := t.irq, mem := t.mem, ioTrace := t.ioTrace }

namespace SameRegs

variable {s t u : State}

theorem refl (s : State) : SameRegs s s := rfl

theorem trans (h : SameRegs s t) (k : SameRegs t u) : SameRegs s u := by
  unfold SameRegs at *
  rw [k, h]

theorem pc (h : SameRegs s t) : t.pc = s.pc := by rw [h]
theorem a (h : SameRegs s t) : t.a = s.a := by rw [h]
theorem b (h : SameRegs s t) : t.b = s.b := by rw [h]
theorem x (h : SameRegs s t) : t.x = s.x := by rw [h]
theorem y (h : SameRegs s t) : t.y = s.y := by rw [h]
theorem sp (h : SameRegs s t) : t.sp = s.sp := by rw [h]
theorem p (h : SameRegs s t) : t.p = s.p := by rw [h]
theorem mode (h : SameRegs s t) : t.mode = s.mode := by rw [h]
theorem dbr (h : SameRegs s t) : t.dbr = s.dbr := by rw [h]
theorem pbr (h : SameRegs s t) : t.pbr = s.pbr := by rw [h]
theorem dpr (h : SameRegs s t) : t.dpr = s.dpr := by rw [h]
theorem excycles (h : SameRegs s t) : t.excycles = s.excycles := by rw [h]
theorem addcycles (h : SameRegs s t) : t.addcycles = s.addcycles := by rw [h]
theorem processorCycles (h : SameRegs s t) : t.processorCycles = s.processorCycles := by rw [h]
theorem waiting (h : SameRegs s t) : t.waiting = s.waiting := by rw [h]
theorem cfg (h : SameRegs s t) : t.cfg = s.cfg := by rw [h]
theorem flag (h : SameRegs s t) (f : Flag) : t.flag f = s.flag f := by rw [h]; rfl
theorem is816 (h : SameRegs s t) : t.is816 = s.is816 := by rw [h]; rfl
theorem native (h : SameRegs s t) : t.native = s.native := by rw [h]; rfl
theorem m8 (h : SameRegs s t) : t.m8 = s.m8 := by rw [h]; rfl
theorem x8 (h : SameRegs s t) : t.x8 = s.x8 := by rw [h]; rfl
theorem wA (h : SameRegs s t) : t.wA = s.wA := by rw [h]; rfl
theorem wX (h : SameRegs s t) : t.wX = s.wX := by rw [h]; rfl
theorem acc (h : SameRegs s t) : t.acc = s.acc := by rw [h]; rfl
theorem c16 (h : SameRegs s t) : t.c16 = s.c16 := by rw [h]; rfl
theorem addrMask (h : SameRegs s t) : t.addrMask = s.addrMask := by rw [h]; rfl
theorem stackAddr (h : SameRegs s t) : t.stackAddr = s.stackAddr := by rw [h]; rfl
theorem wrapSp (h : SameRegs s t) (v : Word) : t.wrapSp v = s.wrapSp v := by rw [h]; rfl
theorem pcAddr (h : SameRegs s t) : t.pcAddr = s.pcAddr := by rw [h]; rfl
theorem ctx (h : SameRegs s t) : t.ctx = s.ctx := by rw [h]; rfl
theorem eaNext (h : SameRegs s t) (ea : Ea) : ea.next t = ea.next s := by rw [h]; rfl
theorem ptrNext (h : SameRegs s t) (q : Word) : t.ptrNext q = s.ptrNext q := by rw [h]; rfl
theorem dataEa (h : SameRegs s t) (off r : Word) : t.dataEa off r = s.dataEa off r := by rw [h]; rfl

end SameRegs

/-- The memory traffic between two states: stores to `stored` and what observers did, all in the record. -/
structure Traffic (stored : List Nat) (s t : State) : Prop where
  cfg   : t.cfg = s.cfg
  trace : ∃ new, t.ioTrace = new ++ s.ioTrace ∧ (new = [] → t.irq = s.irq) ∧
    (s.mem.wf = true → ∀ a, (a ∉ stored ∨ a ∈ s.cfg.ioWrite) → (∀ r ∈ new, ∀ c ∈ r.reply.stores, c.1 ≠ a) →
      t.mem.read a = s.mem.read a)
  quiet : s.Unobserved → t.ioTrace = s.ioTrace
  wf    : s.mem.wf = true → t.mem.wf = true
  below : s.mem.below s.cfg.memSize = true → t.mem.below s.cfg.memSize = true

namespace Traffic

variable {l m : List Nat} {s t u : State}

theorem refl (s : State) : Traffic [] s s :=
  ⟨rfl, ⟨[], rfl, fun _ => rfl, fun _ _ _ _ => rfl⟩, fun _ => rfl, id, id⟩

theorem trans (h : Traffic l s t) (k : Traffic m t u) : Traffic (l ++ m) s u := by
  obtain ⟨hc, ⟨n1, t1, i1, m1⟩, q1, w1, b1⟩ := h
  obtain ⟨kc, ⟨n2, t2, i2, m2⟩, q2, w2, b2⟩ := k
  refine ⟨kc.trans hc, ⟨n2 ++ n1, by rw [t2, t1, List.append_assoc], ?_, ?_⟩,
    fun hu => (q2 (by simpa [State.Unobserved, hc] using hu)).trans (q1 hu), w2 ∘ w1, ?_⟩
  · intro hn
    obtain ⟨rfl, rfl⟩ := List.append_eq_nil_iff.1 hn
    rw [i2 rfl, i1 rfl]
  · intro hw a ha ho
    rw [hc] at m2
    rw [m2 (w1 hw) a (ha.imp_left fun h => fun h' => h (by simp [h'])) (fun r hr => ho r (by simp [hr])),
      m1 hw a (ha.imp_left fun h => fun h' => h (by simp [h'])) (fun r hr => ho r (by simp [hr]))]
  · rw [hc] at b2
    exact b2 ∘ b1

/-- Traffic that stores to fewer addresses. -/
theorem mono (h : Traffic l s t) (hl : ∀ a ∈ l, a ∈ m) : Traffic m s t := by
  obtain ⟨hc, ⟨n, ht, hi, hm⟩, q, w, b⟩ := h
  exact ⟨hc, ⟨n, ht, hi, fun hw a ha => hm hw a (ha.imp_left fun h h' => h (hl a h'))⟩, q, w, b⟩

/-- A read before other traffic adds nothing to the stored addresses. -/
theorem cons_nil (h : Traffic [] s t) (k : Traffic m t u) : Traffic m s u := h.trans k

/-- Traffic after which nothing more is stored. -/
theorem snoc_nil (h : Traffic l s t) (k : Traffic [] t u) : Traffic l s u := by
  simpa using h.trans k

/-- The registers do not matter to the traffic. -/
theorem of_eq {s' t' : State} (h : Traffic l s t) (hs : s'.cfg = s.cfg ∧ s'.ioTrace = s.ioTrace ∧ s'.irq = s.irq ∧ s'.mem = s.mem)
    (ht : t'.cfg = t.cfg ∧ t'.ioTrace = t.ioTrace ∧ t'.irq = t.irq ∧ t'.mem = t.mem) : Traffic l s' t' := by
  obtain ⟨hc, ⟨n, t1, i1, m1⟩, q, w, b⟩ := h
  obtain ⟨s1, s2, s3, s4⟩ := hs
  obtain ⟨u1, u2, u3, u4⟩ := ht
  exact ⟨by rw [u1, s1, hc], ⟨n, by rw [u2, s2, t1], by rw [u3, s3]; exact i1, by rw [u4, s4, s1]; exact m1⟩,
    fun hu => by rw [u2, s2]; exact q (by simpa [State.Unobserved, s1] using hu),
    by rw [u4, s4]; exact w, by rw [u4, s4, s1]; exact b⟩

/-- The frame of memory that traffic gives. -/
theorem memFrame (h : Traffic l s t) (hw : s.mem.wf = true) : MemFrame l s t := by
  obtain ⟨-, ⟨n, ht, -, hm⟩, -, -, -⟩ := h
  intro a ha ho
  refine hm hw a ha fun r hr c hc hca => ho ⟨r, ?_, c, hc, hca⟩
  simpa [accessesSince, ht] using hr

/-- The interrupt line moves only where an observer was called. -/
theorem irq_of_trace (h : Traffic l s t) (ht : t.ioTrace = s.ioTrace) : t.irq = s.irq := by
  obtain ⟨-, ⟨n, hn, hi, -⟩, -, -, -⟩ := h
  apply hi
  have := congrArg List.length (hn.symm.trans ht)
  simpa using this

/-- The frame the statements use. -/
theorem frame (h : Traffic l s t) : AccessFrame l s t :=
  ⟨let ⟨n, hn, _⟩ := h.trace; ⟨n, hn⟩, h.irq_of_trace, h.quiet, h.memFrame⟩

theorem memoryOk (h : Traffic l s t) (hs : s.memoryOk = true) : t.memoryOk = true := by
  simp only [State.memoryOk, Bool.and_eq_true] at *
  rw [h.cfg]
  exact ⟨h.wf hs.1, h.below hs.2⟩

theorem unobserved (h : Traffic l s t) (hs : s.Unobserved) : t.Unobserved := by
  simpa [State.Unobserved, h.cfg] using hs

end Traffic

/-! Byte accesses. -/

theorem observe_regs (e : IoEvent) (s : State) : SameRegs s (observe e s).2 := rfl

theorem observe_traffic (e : IoEvent) {s : State} (hu : ¬ s.Unobserved) : Traffic [] s (observe e s).2 := by
  refine ⟨rfl, ⟨[⟨e, Config.observerReply s.ioTrace.length e⟩], rfl, by simp, ?_⟩, fun h => absurd h hu,
    Memory.storeCells_wf _,
    Memory.storeCells_below _⟩
  intro hw a _ ho
  exact Memory.read_storeCells hw (fun c hc => ho _ (List.mem_singleton.2 rfl) c hc)

/-- The reachable addresses of the variant (00_scope.md R3, `ADDR_MASK`): bank 0 alone in the 8-bit variants. -/
def State.reaches (s : State) (addr : Long) : Prop := s.is816 = true ∨ bankOf addr = 0

theorem memSize_covers {s : State} {addr : Long} (hc : s.cfg.covers = true) (hr : s.reaches addr) :
    addr.toNat < s.cfg.memSize := by
  have h0 := addr.isLt
  unfold Config.covers at hc
  unfold Config.memSize
  rcases hr with hr | hr
  · simp only [State.is816, beq_iff_eq] at hr
    simp only [hr, bne_self_eq_false, Bool.false_or, beq_iff_eq] at hc
    simp [hr, hc]
    omega
  · have h1 : addr.toNat < 65536 := by
      have h2 := congrArg BitVec.toNat hr
      simp only [bankOf, BitVec.toNat_setWidth, BitVec.toNat_ushiftRight, Nat.shiftRight_eq_div_pow] at h2
      simp at h2
      omega
    cases hv : s.cfg.variant <;> simp
    · exact h1
    · exact h1
    · simp only [hv, bne_self_eq_false, Bool.false_or, beq_iff_eq] at hc
      simp [hc]
      omega

/-- `MemRead1` (20_memory.md R74). -/
theorem memRead1_spec {addr : Long} {s t : State} {v : Byte} (h : memRead1 addr s = .ok (v, t)) :
    SameRegs s t ∧ Traffic [] s t := by
  unfold memRead1 at h
  split at h
  · cases h
  · split at h
    · rename_i hio
      cases h
      exact ⟨observe_regs _ _, observe_traffic _ fun hu => by rw [hu.1] at hio; cases hio⟩
    · cases h; exact ⟨.refl _, .refl _⟩

/-- No observed access. -/
theorem Recorded.refl (s : State) : Recorded [] s s := ⟨[], rfl, rfl⟩

/-- The observed accesses of two stretches of a run, in order. -/
theorem Recorded.trans {e f : List IoEvent} {s t u : State} (h : Recorded e s t) (k : Recorded f t u) :
    Recorded (e ++ f) s u := by
  obtain ⟨m, hm, rfl⟩ := h
  obtain ⟨n, hn, rfl⟩ := k
  exact ⟨n ++ m, by rw [hn, hm, List.append_assoc], by simp⟩

/-- An observed access is recorded. -/
theorem observe_recorded (e : IoEvent) (s : State) : Recorded [e] s (observe e s).2 := ⟨[_], rfl, rfl⟩

/-- A byte read is an observed access where a read observer is bound, and else none. -/
theorem memRead1_recorded {addr : Long} {s t : State} {v : Byte} (h : memRead1 addr s = .ok (v, t)) :
    Recorded (([addr.toNat].filter s.cfg.ioRead.contains).map .read) s t := by
  unfold memRead1 at h
  split at h
  · cases h
  · split at h
    · rename_i hio; cases h
      rw [List.filter_cons, if_pos hio]
      exact observe_recorded _ s
    · rename_i hio; cases h
      rw [List.filter_cons, if_neg hio]
      exact .refl s

/-- A byte of memory can be read. -/
theorem memRead1_completes {addr : Long} {s : State} (ha : addr.toNat < s.cfg.memSize) :
    ∃ v t, memRead1 addr s = .ok (v, t) := by
  unfold memRead1
  rw [if_neg (by omega)]
  split <;> exact ⟨_, _, rfl⟩

/-- An address outside memory cannot be read (20_memory.md R87). -/
theorem memRead1_outside {addr : Long} {s : State} (ha : s.cfg.memSize ≤ addr.toNat) :
    memRead1 addr s = .error (.addressOutOfBounds addr.toNat) := by
  unfold memRead1
  rw [if_pos ha]

/-- A read with no observer. -/
theorem memRead1_plain {addr : Long} {s : State} (ha : addr.toNat < s.cfg.memSize) (hu : s.Unobserved) :
    memRead1 addr s = .ok (s.mem.read addr.toNat, s) := by
  unfold memRead1
  rw [if_neg (by omega), hu.1]
  rfl

/-- A byte written is an observed access where a write observer is bound, and else none. -/
theorem memWrite1_recorded {addr : Long} {v : Byte} {s t : State} (h : memWrite1 addr v s = .ok t) :
    Recorded (([(addr.toNat, v)].filter fun c => s.cfg.ioWrite.contains c.1).map fun c => .write c.1 c.2) s t := by
  unfold memWrite1 at h
  split at h
  · cases h
  · split at h
    · rename_i hio; cases h
      rw [List.filter_cons, if_pos hio]
      exact observe_recorded _ s
    · rename_i hio; cases h
      rw [List.filter_cons, if_neg hio]
      exact ⟨[], rfl, rfl⟩

/-- `MemWrite1` (20_memory.md R74). -/
theorem memWrite1_spec {addr : Long} {v : Byte} {s t : State} (h : memWrite1 addr v s = .ok t) :
    SameRegs s t ∧ Traffic [addr.toNat] s t := by
  unfold memWrite1 at h
  split at h
  · cases h
  · split at h
    · rename_i hio
      cases h
      refine ⟨observe_regs _ _, ?_⟩
      exact (observe_traffic _ fun hu => by rw [hu.2] at hio; cases hio).mono (by simp)
    · rename_i hio
      cases h
      refine ⟨rfl, rfl, ⟨[], rfl, fun _ => rfl, ?_⟩, fun _ => rfl, Memory.write_wf _ _,
        fun hb => Memory.write_below _ hb (by omega)⟩
      intro hw a ha _
      refine Memory.read_write_ne _ hw ?_
      rintro rfl
      exact ha.elim (· (by simp)) fun h => hio (by simpa using h)

/-- A byte of memory can be written. -/
theorem memWrite1_completes {addr : Long} {v : Byte} {s : State} (ha : addr.toNat < s.cfg.memSize) :
    ∃ t, memWrite1 addr v s = .ok t := by
  unfold memWrite1
  rw [if_neg (by omega)]
  split <;> exact ⟨_, rfl⟩

/-- An address outside memory cannot be written (20_memory.md R87). -/
theorem memWrite1_outside {addr : Long} {v : Byte} {s : State} (ha : s.cfg.memSize ≤ addr.toNat) :
    memWrite1 addr v s = .error (.addressOutOfBounds addr.toNat) := by
  unfold memWrite1
  rw [if_pos ha]

/-- A store where no write observer is bound, in full. -/
theorem memWrite1_unbound {addr : Long} {v : Byte} {s t : State} (h : memWrite1 addr v s = .ok t)
    (hio : addr.toNat ∉ s.cfg.ioWrite) : t = { s with mem := s.mem.write addr.toNat v } := by
  unfold memWrite1 at h
  split at h
  · cases h
  · rw [if_neg (by simpa using hio)] at h; cases h; rfl

theorem memWrite1_plain {addr : Long} {v : Byte} {s : State} (ha : addr.toNat < s.cfg.memSize) (hu : s.Unobserved) :
    memWrite1 addr v s = .ok { s with mem := s.mem.write addr.toNat v } := by
  unfold memWrite1
  rw [if_neg (by omega), hu.2]
  rfl

/-! Reachable addresses. -/

theorem reaches_bank0 (s : State) (off : Word) : s.reaches (mkLong 0 off) := .inr (by simp)

theorem reaches_masked (s : State) (addr : Long) : s.reaches (addr &&& s.addrMask) := by
  unfold State.reaches State.addrMask
  cases h : s.is816
  · refine .inr ?_
    apply BitVec.eq_of_toNat_eq
    simp only [Bool.false_eq_true, if_false, bankOf, BitVec.toNat_setWidth, BitVec.toNat_ushiftRight,
      BitVec.toNat_and, Nat.shiftRight_eq_div_pow]
    have h2 := Nat.and_two_pow_sub_one_eq_mod addr.toNat 16
    simp at h2 ⊢
    omega
  · exact .inl rfl

theorem reaches_congr {s t : State} {addr : Long} (h : t.cfg = s.cfg) (hr : s.reaches addr) : t.reaches addr := by
  simpa [State.reaches, is816_congr h] using hr

theorem reaches_next {s : State} {ea : Ea} (h : s.reaches ea.addr) : s.reaches (ea.next s) := by
  unfold Ea.next
  cases ea.cls
  · exact reaches_masked _ _
  · rcases h with h | h
    · exact .inl h
    · exact .inr (by simp [h])

/-- Bank 0 is memory whatever `MEM_SIZE` is (20_memory.md R71). -/
theorem bank0_inMemory (c : Config) (off : Word) : (mkLong 0 off).toNat < c.memSize := by
  have h1 : (mkLong 0 off).toNat = off.toNat := by simp [toNat_mkLong]
  have h2 := off.isLt
  rw [h1]
  unfold Config.memSize
  split
  · have := Nat.pow_le_pow_right (n := 2) (by omega) (Nat.le_add_right 16 c.memExtra.val)
    omega
  · omega

/-- With `pbr:pc` every address of the program bank is in memory (20_memory.md R71, R86). -/
theorem programBank_inMemory {s : State} (h : s.programInMemory = true) (off : Word) :
    (mkLong s.pbr off &&& s.addrMask).toNat < s.cfg.memSize := by
  have addr : ∀ o : Word, (mkLong s.pbr o &&& s.addrMask).toNat =
      if s.is816 then s.pbr.toNat * 65536 + o.toNat else o.toNat := by
    intro o
    have hp := s.pbr.isLt
    have ho := o.isLt
    have m24 := Nat.and_two_pow_sub_one_eq_mod (mkLong s.pbr o).toNat 24
    have m16 := Nat.and_two_pow_sub_one_eq_mod (mkLong s.pbr o).toNat 16
    rw [BitVec.toNat_and, State.addrMask]
    split <;> simp [toNat_mkLong] at m16 m24 ⊢ <;> omega
  have ho := off.isLt
  have hp := s.pc.isLt
  have h := of_decide_eq_true h
  rw [State.pcAddr, addr] at h
  rw [addr]
  unfold Config.memSize State.is816 at *
  cases hv : s.cfg.variant <;> simp only [hv] at h ⊢
  · exact ho
  · exact ho
  · simp only [beq_self_eq_true, if_true, Nat.pow_add] at h ⊢
    generalize 2 ^ s.cfg.memExtra.val = k at *
    omega

/-- The first byte of a datum is at its effective address. -/
theorem Ea.addr_mem_bytes (ea : Ea) (w : Width) (s : State) : ea.addr.toNat ∈ ea.bytes w s := by
  cases w <;> simp [Ea.bytes]

/-! Wide accesses. -/

/-- `Rd` (20_memory.md R75). -/
theorem rd_spec {ea : Ea} {w : Width} {s t : State} {v : Word} (h : rd ea w s = .ok (v, t)) :
    SameRegs s t ∧ Traffic [] s t := by
  unfold rd at h
  simp only [bind_ok, Prod.exists] at h
  obtain ⟨lo, s1, h1, h⟩ := h
  obtain ⟨r1, t1⟩ := memRead1_spec h1
  cases w
  · cases pure_ok.1 h; exact ⟨r1, t1⟩
  · simp only [bind_ok, Prod.exists] at h
    obtain ⟨hi, s2, h2, h⟩ := h
    cases pure_ok.1 h
    obtain ⟨r2, t2⟩ := memRead1_spec h2
    exact ⟨r1.trans r2, t1.trans t2⟩

/-- A datum that lies in memory can be read. -/
theorem rd_completes {ea : Ea} {w : Width} {s : State} (h : ∀ a ∈ ea.bytes w s, a < s.cfg.memSize) :
    ∃ v t, rd ea w s = .ok (v, t) := by
  obtain ⟨lo, s1, h1⟩ := memRead1_completes (s := s) (h _ (ea.addr_mem_bytes w s))
  obtain ⟨r1, t1⟩ := memRead1_spec h1
  cases w
  · exact ⟨zext lo, s1, by simp only [rd, h1, ok_bind]; rfl⟩
  · obtain ⟨hi, s2, h2⟩ := memRead1_completes (addr := ea.next s) (s := s1)
      (by rw [t1.cfg]; exact h _ (by simp [Ea.bytes]))
    exact ⟨mkWord hi lo, s2, by simp only [rd, h1, ok_bind, r1.eaNext, h2]; rfl⟩

/-- A datum with a byte outside memory cannot be read (20_memory.md R87). -/
theorem rd_outside {ea : Ea} {w : Width} {s : State} (h : ∃ a ∈ ea.bytes w s, s.cfg.memSize ≤ a) :
    ∃ a, s.cfg.memSize ≤ a ∧ rd ea w s = .error (.addressOutOfBounds a) := by
  by_cases h0 : s.cfg.memSize ≤ ea.addr.toNat
  · exact ⟨_, h0, by simp only [rd, memRead1_outside h0]; rfl⟩
  · obtain ⟨lo, s1, h1⟩ := memRead1_completes (s := s) (by omega : ea.addr.toNat < s.cfg.memSize)
    obtain ⟨r1, t1⟩ := memRead1_spec h1
    obtain ⟨a, ha, hm⟩ := h
    cases w <;> simp only [Ea.bytes, List.mem_cons, List.not_mem_nil, or_false] at ha
    · omega
    · have hn : s1.cfg.memSize ≤ (ea.next s).toNat := by rw [t1.cfg]; rcases ha with rfl | rfl <;> omega
      refine ⟨(ea.next s).toNat, by rw [← t1.cfg]; exact hn, ?_⟩
      simp only [rd, h1, ok_bind, r1.eaNext, memRead1_outside hn]
      rfl

/-- A value read at a width is below the width. -/
theorem rd_lt {ea : Ea} {w : Width} {s t : State} {v : Word} (h : rd ea w s = .ok (v, t)) : v &&& w.mask = v := by
  cases w
  · unfold rd at h
    simp only [bind_ok, Prod.exists] at h
    obtain ⟨lo, s1, -, h⟩ := h
    cases pure_ok.1 h
    rw [and_mask8, loByte_zext]
  · exact and_mask16 v

/-- `Wr` (20_memory.md R75). -/
theorem wr_spec {ea : Ea} {w : Width} {v : Word} {s t : State} (h : wr ea w v s = .ok t) :
    SameRegs s t ∧ Traffic (ea.bytes w s) s t := by
  unfold wr at h
  simp only [bind_ok] at h
  obtain ⟨s1, h1, h⟩ := h
  obtain ⟨r1, t1⟩ := memWrite1_spec h1
  cases w
  · cases pure_ok.1 h; exact ⟨r1, t1⟩
  · obtain ⟨r2, t2⟩ := memWrite1_spec h
    rw [r1.eaNext] at t2
    exact ⟨r1.trans r2, t1.trans t2⟩

/-- `Rd` reads each byte of the datum once. -/
theorem rd_recorded {ea : Ea} {w : Width} {s t : State} {v : Word} (h : rd ea w s = .ok (v, t)) :
    Recorded (ea.readEvents w s) s t := by
  unfold rd at h
  simp only [bind_ok, Prod.exists] at h
  obtain ⟨lo, s1, h1, h⟩ := h
  obtain ⟨r1, -⟩ := memRead1_spec h1
  have c1 := memRead1_recorded h1
  cases w
  · cases pure_ok.1 h; exact c1
  · simp only [bind_ok, Prod.exists] at h
    obtain ⟨hi, s2, h2, h⟩ := h
    cases pure_ok.1 h
    have c2 := memRead1_recorded h2
    rw [r1.eaNext, r1.cfg] at c2
    have := c1.trans c2
    rw [← List.map_append, ← List.filter_append] at this
    exact this

/-- `Wr` writes each byte of the datum once, low byte first. -/
theorem wr_recorded {ea : Ea} {w : Width} {v : Word} {s t : State} (h : wr ea w v s = .ok t) :
    Recorded (ea.storeEvents w v s) s t := by
  unfold wr at h
  simp only [bind_ok] at h
  obtain ⟨s1, h1, h⟩ := h
  obtain ⟨r1, -⟩ := memWrite1_spec h1
  have c1 := memWrite1_recorded h1
  cases w
  · cases pure_ok.1 h; exact c1
  · have c2 := memWrite1_recorded h
    rw [r1.eaNext, r1.cfg] at c2
    have := c1.trans c2
    rw [← List.map_append, ← List.filter_append] at this
    exact this

/-- A datum that lies in memory can be stored. -/
theorem wr_completes {ea : Ea} {w : Width} {v : Word} {s : State} (h : ∀ a ∈ ea.bytes w s, a < s.cfg.memSize) :
    ∃ t, wr ea w v s = .ok t := by
  obtain ⟨s1, h1⟩ := memWrite1_completes (v := loByte v) (h _ (ea.addr_mem_bytes w s))
  obtain ⟨r1, t1⟩ := memWrite1_spec h1
  cases w
  · exact ⟨s1, by simp only [wr, h1, ok_bind]; rfl⟩
  · obtain ⟨s2, h2⟩ := memWrite1_completes (addr := ea.next s) (v := hiByte v) (s := s1)
      (by rw [t1.cfg]; exact h _ (by simp [Ea.bytes]))
    exact ⟨s2, by simp only [wr, h1, ok_bind, r1.eaNext, h2]⟩

/-- A datum with a byte outside memory cannot be stored (20_memory.md R87). -/
theorem wr_outside {ea : Ea} {w : Width} {v : Word} {s : State} (h : ∃ a ∈ ea.bytes w s, s.cfg.memSize ≤ a) :
    ∃ a, s.cfg.memSize ≤ a ∧ wr ea w v s = .error (.addressOutOfBounds a) := by
  by_cases h0 : s.cfg.memSize ≤ ea.addr.toNat
  · exact ⟨_, h0, by simp only [wr, memWrite1_outside h0]; rfl⟩
  · obtain ⟨s1, h1⟩ := memWrite1_completes (s := s) (v := loByte v) (by omega : ea.addr.toNat < s.cfg.memSize)
    obtain ⟨r1, t1⟩ := memWrite1_spec h1
    obtain ⟨a, ha, hm⟩ := h
    cases w <;> simp only [Ea.bytes, List.mem_cons, List.not_mem_nil, or_false] at ha
    · omega
    · have hn : s1.cfg.memSize ≤ (ea.next s).toNat := by rw [t1.cfg]; rcases ha with rfl | rfl <;> omega
      refine ⟨(ea.next s).toNat, by rw [← t1.cfg]; exact hn, ?_⟩
      simp only [wr, h1, ok_bind, r1.eaNext, memWrite1_outside hn]

theorem read16Bank0_spec {lo hi : Word} {s t : State} {v : Word} (h : read16Bank0 lo hi s = .ok (v, t)) :
    SameRegs s t ∧ Traffic [] s t := by
  unfold read16Bank0 at h
  simp only [bind_ok, Prod.exists] at h
  obtain ⟨l, s1, h1, h2, s2, h3, h⟩ := h
  cases pure_ok.1 h
  obtain ⟨r1, t1⟩ := memRead1_spec h1
  obtain ⟨r2, t2⟩ := memRead1_spec h3
  exact ⟨r1.trans r2, t1.trans t2⟩

theorem read16Bank0_completes (lo hi : Word) (s : State) : ∃ v t, read16Bank0 lo hi s = .ok (v, t) := by
  obtain ⟨l, s1, h1⟩ := memRead1_completes (bank0_inMemory s.cfg lo)
  obtain ⟨h, s2, h2⟩ := memRead1_completes (bank0_inMemory s1.cfg hi)
  exact ⟨mkWord h l, s2, by simp only [read16Bank0, h1, ok_bind, h2]; rfl⟩

/-! The instruction stream. -/

/-- `Fetch8` (20_memory.md R86): `pc` moves past the byte. -/
theorem fetch8_spec {s t : State} {v : Byte} (h : fetch8 s = .ok (v, t)) :
    SameRegs (s.advancePc 1) t ∧ Traffic [] s t := by
  unfold fetch8 at h
  simp only [bind_ok, Prod.exists] at h
  obtain ⟨b, s1, h1, h⟩ := h
  cases pure_ok.1 h
  obtain ⟨r1, t1⟩ := memRead1_spec h1
  refine ⟨?_, t1.of_eq ⟨rfl, rfl, rfl, rfl⟩ ⟨rfl, rfl, rfl, rfl⟩⟩
  unfold SameRegs State.advancePc at *
  rw [r1]

/-- A byte of the instruction stream can be fetched where the program bank is in memory. -/
theorem fetch8_completes {s : State} (h : s.programInMemory = true) : ∃ v t, fetch8 s = .ok (v, t) := by
  obtain ⟨v, t, h⟩ := memRead1_completes (programBank_inMemory h s.pc)
  exact ⟨v, _, by unfold fetch8 State.pcAddr; simp only [h, ok_bind]; rfl⟩

/-- `pc` moves inside the program bank. -/
theorem programInMemory_congr {s t : State} (hc : t.cfg = s.cfg) (hb : t.pbr = s.pbr)
    (h : s.programInMemory = true) : t.programInMemory = true := by
  have := programBank_inMemory h t.pc
  simpa [State.programInMemory, State.pcAddr, State.addrMask, State.is816, hc, hb] using this

/-! The stack. -/

/-- The stack is in bank 0. -/
theorem stack_inMemory (s : State) : s.stackAddr.toNat < s.cfg.memSize := bank0_inMemory _ _

/-- `Push8` (20_memory.md R79). -/
theorem push8_spec {v : Byte} {s t : State} (h : push8 v s = .ok t) :
    SameRegs { s with sp := s.spAfterPush 1 } t ∧ Traffic (s.pushBytes 1) s t := by
  unfold push8 at h
  simp only [bind_ok] at h
  obtain ⟨s1, h1, h⟩ := h
  obtain ⟨r1, t1⟩ := memWrite1_spec h1
  cases pure_ok.1 h
  refine ⟨?_, t1.of_eq ⟨rfl, rfl, rfl, rfl⟩ ⟨rfl, rfl, rfl, rfl⟩⟩
  rw [r1.wrapSp, r1.sp]
  unfold SameRegs at *
  rw [r1]; rfl

theorem push8_completes (v : Byte) (s : State) : ∃ t, push8 v s = .ok t := by
  obtain ⟨t, h⟩ := memWrite1_completes (v := v) (stack_inMemory s)
  exact ⟨_, by unfold push8; simp only [h, ok_bind]; rfl⟩

/-- `Pull8` (20_memory.md R79). -/
theorem pull8_spec {s t : State} {v : Byte} (h : pull8 s = .ok (v, t)) :
    SameRegs { s with sp := s.spAfterPull 1 } t ∧ Traffic [] s t := by
  obtain ⟨r, k⟩ := memRead1_spec h
  exact ⟨r, k.of_eq ⟨rfl, rfl, rfl, rfl⟩ ⟨rfl, rfl, rfl, rfl⟩⟩

theorem pull8_completes (s : State) : ∃ v t, pull8 s = .ok (v, t) :=
  memRead1_completes (s := { s with sp := s.spAfterPull 1 }) (stack_inMemory _)

/-- `Push16` (20_memory.md R79). -/
theorem push16_spec {v : Word} {s t : State} (h : push16 v s = .ok t) :
    SameRegs { s with sp := s.spAfterPush 2 } t ∧ Traffic (s.pushBytes 2) s t := by
  unfold push16 at h
  simp only [bind_ok] at h
  obtain ⟨s1, h1, h2⟩ := h
  obtain ⟨r1, t1⟩ := push8_spec h1
  obtain ⟨r2, t2⟩ := push8_spec h2
  constructor
  · unfold SameRegs at *
    rw [r2, r1]; rfl
  · have := t1.trans t2
    rw [show s1.pushBytes 1 = ({ s with sp := s.spAfterPush 1 } : State).pushBytes 1 by rw [r1]; rfl] at this
    exact this

theorem push16_completes (v : Word) (s : State) : ∃ t, push16 v s = .ok t := by
  obtain ⟨s1, h1⟩ := push8_completes (hiByte v) s
  obtain ⟨s2, h2⟩ := push8_completes (loByte v) s1
  exact ⟨s2, by simp only [push16, h1, ok_bind, h2]⟩

/-- `Pull16` (20_memory.md R79). -/
theorem pull16_spec {s t : State} {v : Word} (h : pull16 s = .ok (v, t)) :
    SameRegs { s with sp := s.spAfterPull 2 } t ∧ Traffic [] s t := by
  unfold pull16 at h
  simp only [bind_ok, Prod.exists] at h
  obtain ⟨lo, s1, h1, hi, s2, h2, h⟩ := h
  cases pure_ok.1 h
  obtain ⟨r1, t1⟩ := pull8_spec h1
  obtain ⟨r2, t2⟩ := pull8_spec h2
  refine ⟨?_, t1.trans t2⟩
  unfold SameRegs at *
  rw [r2, r1]; rfl

theorem pull16_completes (s : State) : ∃ v t, pull16 s = .ok (v, t) := by
  obtain ⟨lo, s1, h1⟩ := pull8_completes s
  obtain ⟨hi, s2, h2⟩ := pull8_completes s1
  exact ⟨mkWord hi lo, s2, by simp only [pull16, h1, ok_bind, h2]; rfl⟩

theorem pushW_spec {w : Width} {v : Word} {s t : State} (h : pushW w v s = .ok t) :
    SameRegs { s with sp := s.spAfterPush w.count } t ∧ Traffic (s.pushBytes w.count) s t := by
  cases w
  · exact push8_spec h
  · exact push16_spec h

theorem pushW_completes (w : Width) (v : Word) (s : State) : ∃ t, pushW w v s = .ok t := by
  cases w
  · exact push8_completes _ s
  · exact push16_completes v s

theorem pullW_spec {w : Width} {s t : State} {v : Word} (h : pullW w s = .ok (v, t)) :
    SameRegs { s with sp := s.spAfterPull w.count } t ∧ Traffic [] s t ∧ v &&& w.mask = v := by
  cases w
  · simp only [pullW, bind_ok, Prod.exists] at h
    obtain ⟨b, s1, h1, h⟩ := h
    cases pure_ok.1 h
    exact ⟨(pull8_spec h1).1, (pull8_spec h1).2, by rw [and_mask8, loByte_zext]⟩
  · exact ⟨(pull16_spec h).1, (pull16_spec h).2, and_mask16 v⟩

theorem pullW_completes (w : Width) (s : State) : ∃ v t, pullW w s = .ok (v, t) := by
  cases w
  · obtain ⟨b, t, h⟩ := pull8_completes s
    exact ⟨zext b, t, by simp only [pullW, h, ok_bind]; rfl⟩
  · exact pull16_completes s

end Sys2Proof.Machine
end

