-- ==== Sys2Proof/Laws/Exceptions.lean ====
section
/-! SUPPORT. The stack with no observer bound, and what taking an exception and returning from one do
(60_exceptions.md R413; 48_system.md R390 to R392). -/

namespace Sys2Proof.Machine

/-- The bytes an event pushes, in order: the bank in native mode, the return address, the status image. -/
def Exc.frame (e : Exc) (ret : Word) (s : State) : List Byte :=
  (if s.native then [s.pbr] else []) ++ [hiByte ret, loByte ret, e.image s]

theorem Exc.clearsD_congr {e : Exc} {s t : State} (h : t.cfg = s.cfg) : e.clearsD t = e.clearsD s := by
  cases e <;> simp [Exc.clearsD, State.is816, h]

/-- What an entry does to the status register and the program bank depends on the parameters and on them. -/
theorem Exc.mask_eq (e : Exc) {s t : State} (hc : t.cfg = s.cfg) (hp : t.p = s.p) (hb : t.pbr = s.pbr) :
    e.mask t = { t with p := (e.mask s).p, pbr := (e.mask s).pbr } := by
  have h : e.clearsD (t.setFlag .I true) = e.clearsD (s.setFlag .I true) := Exc.clearsD_congr hc
  unfold Exc.mask
  simp only [h]
  cases e.clearsD (s.setFlag .I true) <;> cases hi : s.is816 <;>
    simp [State.setFlag, State.is816, hc, hp, hb] at hi ⊢ <;> simp [hi]

theorem Exc.mask_regs (e : Exc) (s : State) : e.mask s = { s with p := (e.mask s).p, pbr := (e.mask s).pbr } :=
  e.mask_eq rfl rfl rfl

/-- The number of bytes an event pushes. -/
def State.excCount (s : State) : Nat := if s.native then 4 else 3

/-- The push of the program bank that starts a native entry. -/
theorem pushBank_spec {s t : State} (h : pushBank s = .ok t) :
    SameRegs { s with sp := s.spAfterPush (if s.native then 1 else 0) } t ∧
      Traffic (s.pushBytes (if s.native then 1 else 0)) s t := by
  unfold pushBank at h
  cases hn : s.native <;> simp only [hn, if_true, if_false, Bool.false_eq_true] at h
  · cases h; exact ⟨rfl, .refl _⟩
  · exact push8_spec h

theorem pushBank_completes (s : State) : ∃ t, pushBank s = .ok t := by
  unfold pushBank
  split
  · exact push8_completes _ s
  · exact ⟨s, rfl⟩

theorem spAfterPush_add (s : State) (m n : Nat) :
    ({ s with sp := s.spAfterPush m } : State).spAfterPush n = s.spAfterPush (m + n) := by
  induction m generalizing s with
  | zero => rw [Nat.zero_add]; rfl
  | succ m ih => rw [Nat.add_right_comm]; exact ih { s with sp := s.wrapSp (s.sp - 1) }

theorem pushBytes_add (s : State) (m n : Nat) :
    s.pushBytes m ++ ({ s with sp := s.spAfterPush m } : State).pushBytes n = s.pushBytes (m + n) := by
  induction m generalizing s with
  | zero => rw [Nat.zero_add]; rfl
  | succ m ih =>
    rw [Nat.add_right_comm]
    exact congrArg (s.stackAddr.toNat :: ·) (ih { s with sp := s.wrapSp (s.sp - 1) })

theorem spAfterPull_add (s : State) (m n : Nat) :
    ({ s with sp := s.spAfterPull m } : State).spAfterPull n = s.spAfterPull (m + n) := by
  induction m generalizing s with
  | zero => rw [Nat.zero_add]; rfl
  | succ m ih => rw [Nat.add_right_comm]; exact ih { s with sp := s.wrapSp (s.sp + 1) }

/-- The stack pointer's moves read the variant, the mode and the pointer. -/
theorem spAfterPush_congr {s t : State} (hc : t.cfg = s.cfg) (hm : t.mode = s.mode) (hs : t.sp = s.sp) (n : Nat) :
    t.spAfterPush n = s.spAfterPush n := by
  induction n generalizing s t with
  | zero => exact hs
  | succ n ih => exact ih hc hm (by simp [State.wrapSp, State.is816, hc, hm, hs])

theorem pushBytes_congr {s t : State} (hc : t.cfg = s.cfg) (hm : t.mode = s.mode) (hs : t.sp = s.sp) (n : Nat) :
    t.pushBytes n = s.pushBytes n := by
  induction n generalizing s t with
  | zero => rfl
  | succ n ih =>
    have h1 : t.stackAddr.toNat = s.stackAddr.toNat := by simp [State.stackAddr, State.is816, hc, hs]
    have h2 := ih (s := { s with sp := s.wrapSp (s.sp - 1) }) (t := { t with sp := t.wrapSp (t.sp - 1) }) hc hm
      (by simp [State.wrapSp, State.is816, hc, hm, hs])
    simp only [State.pushBytes, h1, h2]

theorem spAfterPull_congr {s t : State} (hc : t.cfg = s.cfg) (hm : t.mode = s.mode) (hs : t.sp = s.sp) (n : Nat) :
    t.spAfterPull n = s.spAfterPull n := by
  induction n generalizing s t with
  | zero => exact hs
  | succ n ih => exact ih hc hm (by simp [State.wrapSp, State.is816, hc, hm, hs])

/-- Taking an exception: the stack pointer, I and D, the program bank and `pc` change, and the bytes pushed are
all that is stored (60_exceptions.md R413, 48_system.md R390, R391). -/
theorem takeException_spec {e : Exc} {ret : Word} {s t : State} (h : takeException e ret s = .ok t) :
    SameRegs { s with
      sp := s.spAfterPush s.excCount
      p := (e.mask s).p
      pbr := (e.mask s).pbr
      pc := t.pc } t ∧ Traffic (s.pushBytes s.excCount) s t := by
  unfold takeException at h
  simp only [bind_ok, Prod.exists] at h
  obtain ⟨s1, h1, s2, h2, s3, h3, v, s4, h4, h⟩ := h
  cases pure_ok.1 h
  obtain ⟨r1, t1⟩ := pushBank_spec h1
  obtain ⟨r2, t2⟩ := push16_spec h2
  obtain ⟨r3, t3⟩ := push8_spec h3
  obtain ⟨r4, t4⟩ := read16Bank0_spec h4
  have hcount : s.excCount = (if s.native then 1 else 0) + 3 := by unfold State.excCount; split <;> rfl
  rw [hcount]
  generalize (if s.native then 1 else 0) = k at *
  have c1 : s1.cfg = s.cfg := r1.cfg
  have c2 : s2.cfg = s.cfg := r2.cfg.trans c1
  have c3 : s3.cfg = s.cfg := r3.cfg.trans c2
  have m1 : s1.mode = s.mode := r1.mode
  have m2 : s2.mode = s.mode := r2.mode.trans m1
  have sp1 : s1.sp = s.spAfterPush k := r1.sp
  have sp2 : s2.sp = s.spAfterPush (k + 2) := by
    rw [r2.sp, ← spAfterPush_add]
    exact spAfterPush_congr (s := { s with sp := s.spAfterPush k }) c1 m1 sp1 2
  have sp3 : s3.sp = s.spAfterPush (k + 3) := by
    rw [r3.sp, show k + 3 = (k + 2) + 1 from rfl, ← spAfterPush_add]
    exact spAfterPush_congr (s := { s with sp := s.spAfterPush (k + 2) }) c2 m2 sp2 1
  have b1 : s1.pushBytes 2 = ({ s with sp := s.spAfterPush k } : State).pushBytes 2 :=
    pushBytes_congr (s := { s with sp := s.spAfterPush k }) c1 m1 sp1 2
  have b2 : s2.pushBytes 1 = ({ s with sp := s.spAfterPush (k + 2) } : State).pushBytes 1 :=
    pushBytes_congr (s := { s with sp := s.spAfterPush (k + 2) }) c2 m2 sp2 1
  have p3 : s3.p = s.p := r3.p.trans (r2.p.trans r1.p)
  have k3 : s3.pbr = s.pbr := r3.pbr.trans (r2.pbr.trans r1.pbr)
  have regs3 : SameRegs { s with sp := s.spAfterPush (k + 3) } s3 := by
    unfold SameRegs at r1 r2 r3 ⊢
    rw [← sp3, r3, r2, r1]
  rw [e.mask_eq c3 p3 k3] at r4 t4
  constructor
  · unfold SameRegs at r4 regs3 ⊢
    rw [r4, regs3]
  · have t123 := (t1.trans t2).trans t3
    rw [b1, b2, pushBytes_add, pushBytes_add] at t123
    exact t123.snoc_nil (t4.of_eq ⟨rfl, rfl, rfl, rfl⟩ ⟨rfl, rfl, rfl, rfl⟩)

/-- Taking an exception completes from every state: the stack and the vectors are in bank 0. -/
theorem takeException_completes (e : Exc) (ret : Word) (s : State) : ∃ t, takeException e ret s = .ok t := by
  obtain ⟨s1, h1⟩ := pushBank_completes s
  obtain ⟨s2, h2⟩ := push16_completes ret s1
  obtain ⟨s3, h3⟩ := push8_completes (e.image s) s2
  obtain ⟨v, s4, h4⟩ := read16Bank0_completes (e.vector s.native) (e.vector s.native + 1) (e.mask s3)
  exact ⟨{ s4 with pc := v }, by simp only [takeException, h1, ok_bind, h2, h3, h4]; rfl⟩

/-- `SetP` reads and writes no field that a pull changes. -/
theorem setP_sameRegs {s t : State} {n : Word} (image : Byte) (h : SameRegs { s with sp := n } t) :
    SameRegs { s.setP image with sp := n } (t.setP image) := by
  unfold SameRegs at *
  rw [h]
  unfold State.setP State.migrateA State.truncateIndex State.native State.is816 State.flag
  dsimp only
  repeat (first | rfl | split)

theorem pullBank_spec {s t : State} (h : pullBank s = .ok t) :
    SameRegs { s with sp := s.spAfterPull (if s.native then 1 else 0), pbr := if s.native then t.pbr else s.pbr } t ∧
      Traffic [] s t := by
  unfold pullBank at h
  cases hn : s.native <;> simp only [hn, if_true, if_false, Bool.false_eq_true] at h ⊢
  · cases h; exact ⟨rfl, .refl _⟩
  · simp only [bind_ok, Prod.exists] at h
    obtain ⟨b, s1, h1, h⟩ := h
    cases pure_ok.1 h
    obtain ⟨r1, t1⟩ := pull8_spec h1
    refine ⟨?_, t1.of_eq ⟨rfl, rfl, rfl, rfl⟩ ⟨rfl, rfl, rfl, rfl⟩⟩
    unfold SameRegs at *
    rw [r1]

theorem pullBank_completes (s : State) : ∃ t, pullBank s = .ok t := by
  unfold pullBank
  split
  · obtain ⟨b, t, h⟩ := pull8_completes s
    exact ⟨{ t with pbr := b }, by rw [h]; rfl⟩
  · exact ⟨s, rfl⟩

/-- A return from an exception: the status image through `SetP`, `pc`, and the bank in native mode; nothing is
stored (48_system.md R392). -/
theorem returnFromException_spec {s t : State} (h : returnFromException s = .ok t) :
    ∃ image : Byte, SameRegs { s.setP image with
      sp := s.spAfterPull s.excCount
      pbr := if s.native then t.pbr else s.pbr
      pc := t.pc } t ∧ Traffic [] s t := by
  unfold returnFromException at h
  simp only [bind_ok, Prod.exists] at h
  obtain ⟨image, s1, h1, ret, s2, h2, h3⟩ := h
  obtain ⟨r1, t1⟩ := pull8_spec h1
  obtain ⟨r2, t2⟩ := pull16_spec h2
  obtain ⟨r3, t3⟩ := pullBank_spec h3
  have q1 := setP_sameRegs image r1
  have c1 : (s1.setP image).cfg = s.cfg := q1.cfg.trans (by simp)
  have m1 : (s1.setP image).mode = s.mode := q1.mode.trans (by simp)
  have sp2 : s2.sp = s.spAfterPull 3 := by
    rw [r2.sp, show (3 : Nat) = 1 + 2 from rfl, ← spAfterPull_add]
    exact spAfterPull_congr (s := { s with sp := s.spAfterPull 1 }) c1 m1 q1.sp 2
  have c2 : s2.cfg = s.cfg := r2.cfg.trans c1
  have m2 : s2.mode = s.mode := r2.mode.trans m1
  have hn : ({ s2 with pc := ret } : State).native = s.native := native_congr c2 m2
  have b2 : s2.pbr = s.pbr := r2.pbr.trans (q1.pbr.trans (by simp))
  rw [hn] at r3
  have hcount : s.excCount = 3 + (if s.native then 1 else 0) := by unfold State.excCount; split <;> rfl
  refine ⟨image, ?_, ?_⟩
  · have sp3 : t.sp = s.spAfterPull s.excCount := by
      rw [hcount, ← spAfterPull_add]
      exact r3.sp.trans
        (spAfterPull_congr (s := { s with sp := s.spAfterPull 3 }) (t := { s2 with pc := ret }) c2 m2 sp2 _)
    have r3' := r3.sp
    rw [sp3] at r3'
    unfold SameRegs at q1 r2 r3 ⊢
    rw [r3, ← r3']
    simp only [b2]
    rw [r2, q1]
    cases s.native <;> rfl
  · refine (t1.trans (t2.of_eq ⟨?_, ?_, ?_, ?_⟩ ⟨rfl, rfl, rfl, rfl⟩)).trans (t3.of_eq ⟨rfl, rfl, rfl, rfl⟩ ⟨rfl, rfl, rfl, rfl⟩)
    all_goals simp

theorem returnFromException_completes (s : State) : ∃ t, returnFromException s = .ok t := by
  obtain ⟨image, s1, h1⟩ := pull8_completes s
  obtain ⟨ret, s2, h2⟩ := pull16_completes (s1.setP image)
  obtain ⟨t, h3⟩ := pullBank_completes { s2 with pc := ret }
  exact ⟨t, by simp only [returnFromException, h1, ok_bind, h2, h3]⟩

/-! With no observer bound. -/

theorem push8_plain {v : Byte} {s : State} (hu : s.Unobserved) :
    push8 v s = .ok (s.pushed [v]) := by
  unfold push8
  rw [memWrite1_plain (stack_inMemory s) hu]
  rfl

theorem pushed_append (s : State) (l m : List Byte) : s.pushed (l ++ m) = (s.pushed l).pushed m := by
  induction l generalizing s with
  | nil => rfl
  | cons v l ih => exact ih _

theorem pushed_regs (s : State) (l : List Byte) :
    s.pushed l = { s with sp := s.spAfterPush l.length, mem := (s.pushed l).mem } := by
  induction l generalizing s with
  | nil => rfl
  | cons v l ih =>
    show State.pushed _ l = _
    rw [ih]
    have : State.spAfterPush { s with mem := s.mem.write s.stackAddr.toNat v, sp := s.wrapSp (s.sp - 1) } l.length =
        s.spAfterPush (l.length + 1) :=
      spAfterPush_congr (s := { s with sp := s.wrapSp (s.sp - 1) })
        (t := { s with mem := s.mem.write s.stackAddr.toNat v, sp := s.wrapSp (s.sp - 1) }) rfl rfl rfl _
    rw [this]
    rfl

theorem pushed_cfg (s : State) (l : List Byte) : (s.pushed l).cfg = s.cfg := by rw [pushed_regs]

theorem pushed_unobserved {s : State} (l : List Byte) (hu : s.Unobserved) : (s.pushed l).Unobserved := by
  simpa [State.Unobserved, pushed_cfg] using hu

theorem push16_plain {v : Word} {s : State} (hu : s.Unobserved) :
    push16 v s = .ok (s.pushed [hiByte v, loByte v]) := by
  unfold push16
  rw [push8_plain hu, ok_bind, push8_plain (pushed_unobserved _ hu)]
  rfl

theorem pull8_plain {s : State} (hu : s.Unobserved) :
    pull8 s = .ok (s.stacked 0, { s with sp := s.spAfterPull 1 }) :=
  memRead1_plain (s := { s with sp := s.spAfterPull 1 }) (stack_inMemory _) hu

theorem pull16_plain {s : State} (hu : s.Unobserved) :
    pull16 s = .ok (mkWord (s.stacked 1) (s.stacked 0), { s with sp := s.spAfterPull 2 }) := by
  unfold pull16
  rw [pull8_plain hu, ok_bind]
  dsimp only
  rw [pull8_plain (s := { s with sp := s.spAfterPull 1 }) hu]
  rfl

theorem read16Bank0_plain {lo hi : Word} {s : State} (hu : s.Unobserved) :
    read16Bank0 lo hi s = .ok (mkWord (s.mem.read hi.toNat) (s.mem.read lo.toNat), s) := by
  have h : ∀ v : Word, (mkLong 0 v).toNat = v.toNat := fun v => by simp [toNat_mkLong]
  unfold read16Bank0
  rw [memRead1_plain (bank0_inMemory _ lo) hu, ok_bind]
  dsimp only
  rw [memRead1_plain (bank0_inMemory _ hi) hu, h, h]
  rfl

theorem pushBank_plain {s : State} (hu : s.Unobserved) :
    pushBank s = .ok (s.pushed (if s.native then [s.pbr] else [])) := by
  unfold pushBank
  split
  · exact push8_plain hu
  · rfl

/-- Taking an exception with no observer bound, in full. -/
theorem takeException_plain {e : Exc} {ret : Word} {s : State} (hu : s.Unobserved) :
    takeException e ret s =
      .ok { e.mask (s.pushed (e.frame ret s)) with
        pc := mkWord ((s.pushed (e.frame ret s)).mem.read (e.vector s.native + 1).toNat)
          ((s.pushed (e.frame ret s)).mem.read (e.vector s.native).toNat) } := by
  have hf : ((s.pushed (if s.native then [s.pbr] else [])).pushed [hiByte ret, loByte ret]).pushed [e.image s] =
      s.pushed (e.frame ret s) := by
    rw [← pushed_append, ← pushed_append]
    unfold Exc.frame
    rfl
  unfold takeException
  rw [pushBank_plain hu, ok_bind, push16_plain (pushed_unobserved _ hu), ok_bind,
    push8_plain (pushed_unobserved _ (pushed_unobserved _ hu)), ok_bind, hf]
  have hm := e.mask_regs (s.pushed (e.frame ret s))
  rw [read16Bank0_plain (by rw [hm]; exact pushed_unobserved _ hu), ok_bind,
    show (e.mask (s.pushed (e.frame ret s))).mem = (s.pushed (e.frame ret s)).mem by rw [hm]]
  rfl

theorem stacked_eq {s t : State} {k j : Nat} (hc : t.cfg = s.cfg) (hm : t.mode = s.mode) (hmem : t.mem = s.mem)
    (hs : t.sp = s.spAfterPull j) : t.stacked k = s.stacked (j + k) := by
  have h5 : t.spAfterPull (k + 1) = s.spAfterPull (j + k + 1) := by
    rw [Nat.add_assoc, ← spAfterPull_add s]
    exact spAfterPull_congr (s := { s with sp := s.spAfterPull j }) hc hm hs _
  unfold State.stacked
  rw [hmem, h5]
  simp [State.stackAddr, State.is816, hc]

theorem spAfterPull_from {s t : State} {k j : Nat} (hc : t.cfg = s.cfg) (hm : t.mode = s.mode)
    (hs : t.sp = s.spAfterPull j) : t.spAfterPull k = s.spAfterPull (j + k) := by
  rw [← spAfterPull_add]
  exact spAfterPull_congr (s := { s with sp := s.spAfterPull j }) hc hm hs _

/-- A return from an exception with no observer bound, in full. -/
theorem returnFromException_plain {s : State} (hu : s.Unobserved) :
    returnFromException s =
      .ok { s.setP (s.stacked 0) with
        sp := s.spAfterPull s.excCount
        pc := mkWord (s.stacked 2) (s.stacked 1)
        pbr := if s.native then s.stacked 3 else s.pbr } := by
  unfold returnFromException
  rw [pull8_plain hu, ok_bind]
  dsimp only
  have hset : ({ s with sp := s.spAfterPull 1 } : State).setP (s.stacked 0) =
      { s.setP (s.stacked 0) with sp := s.spAfterPull 1 } := by
    have := setP_sameRegs (s.stacked 0) (SameRegs.refl { s with sp := s.spAfterPull 1 })
    unfold SameRegs at this
    rw [this]
    simp
  rw [hset]
  generalize hg : ({ s.setP (s.stacked 0) with sp := s.spAfterPull 1 } : State) = u
  have uc : u.cfg = s.cfg := by rw [← hg]; simp
  have um : u.mode = s.mode := by rw [← hg]; simp
  have umem : u.mem = s.mem := by rw [← hg]; simp
  have us : u.sp = s.spAfterPull 1 := by rw [← hg]
  have ub : u.pbr = s.pbr := by rw [← hg]; simp
  rw [pull16_plain (by simpa [State.Unobserved, uc] using hu), ok_bind]
  dsimp only
  rw [stacked_eq uc um umem us, stacked_eq uc um umem us, spAfterPull_from uc um us]
  generalize hg2 : ({ u with sp := s.spAfterPull (1 + 2), pc := mkWord (s.stacked (1 + 1)) (s.stacked (1 + 0)) } : State) = v
  have vc : v.cfg = s.cfg := by rw [← hg2]; exact uc
  have vm : v.mode = s.mode := by rw [← hg2]; exact um
  have vmem : v.mem = s.mem := by rw [← hg2]; exact umem
  have vs : v.sp = s.spAfterPull 3 := by rw [← hg2]
  have vb : v.pbr = s.pbr := by rw [← hg2]; exact ub
  unfold pullBank
  rw [native_congr vc vm]
  cases hn : s.native <;> simp only [hn, State.excCount, if_true, if_false, Bool.false_eq_true]
  · rw [← vb, ← hg2, ← hg]
  · rw [pull8_plain (by simpa [State.Unobserved, vc] using hu), ok_bind]
    dsimp only
    rw [stacked_eq vc vm vmem vs, spAfterPull_from vc vm vs, ← hg2, ← hg]
    rfl

end Sys2Proof.Machine
end

