-- ==== Sys2Proof/Laws/Operands.lean ====
section
/-! SUPPORT. What the addressing modes and the operand operations can do (40_addressing.md): an address costs no
register but the cycle counter, and every address can be computed; an access completes where
its bytes lie in memory. -/

namespace Sys2Proof.Machine

theorem ptr16_spec {q : Word} {s t : State} {v : Word} (h : ptr16 q s = .ok (v, t)) :
    SameRegs s t ∧ Traffic [] s t := read16Bank0_spec h

theorem ptr16B0_spec {q : Word} {s t : State} {v : Word} (h : ptr16B0 q s = .ok (v, t)) :
    SameRegs s t ∧ Traffic [] s t := read16Bank0_spec h

theorem ptr24B0_spec {q : Word} {s t : State} {v : Long} (h : ptr24B0 q s = .ok (v, t)) :
    SameRegs s t ∧ Traffic [] s t := by
  unfold ptr24B0 at h
  simp only [bind_ok, Prod.exists] at h
  obtain ⟨o, s1, h1, b, s2, h2, h⟩ := h
  cases pure_ok.1 h
  obtain ⟨r1, t1⟩ := read16Bank0_spec h1
  obtain ⟨r2, t2⟩ := memRead1_spec h2
  exact ⟨r1.trans r2, t1.trans t2⟩

theorem ptr24B0_completes (q : Word) (s : State) : ∃ v t, ptr24B0 q s = .ok (v, t) := by
  obtain ⟨o, s1, h1⟩ := read16Bank0_completes q (q + 1) s
  obtain ⟨b, s2, h2⟩ := memRead1_completes (bank0_inMemory s1.cfg (q + 2))
  exact ⟨mkLong b o, s2, by simp only [ptr24B0, h1, ok_bind, h2]; rfl⟩

/-- The cycle of a crossing touches the scratch counter alone. -/
theorem chargeCrossing_spec (s : State) (base r : Word) :
    SameRegs { s with excycles := (s.chargeCrossing base r).excycles } (s.chargeCrossing base r) ∧
      Traffic [] s (s.chargeCrossing base r) := by
  unfold State.chargeCrossing
  split
  · exact ⟨rfl, rfl, ⟨[], rfl, fun _ => rfl, fun _ _ _ _ => rfl⟩, fun _ => rfl, id, id⟩
  · exact ⟨.refl _, .refl _⟩

/-- A register state that differs in the scratch counter alone. -/
theorem SameRegs.setExcycles {s t : State} (h : SameRegs s t) : SameRegs { s with excycles := t.excycles } t := by
  unfold SameRegs at *
  rw [h]

/-- The effective address of a format: no register but the scratch counter changes, nothing is stored, and the
address lies in the address space of the variant (40_addressing.md R134 to R148). -/
theorem effAddr_spec {m : Mem} {s t : State} {ea : Ea} (h : effAddr m s = .ok (ea, t)) :
    SameRegs { s with excycles := t.excycles } t ∧ Traffic [] s t ∧ s.reaches ea.addr := by
  have charged : ∀ (s s1 : State) (b r : Word), SameRegs s s1 → Traffic [] s s1 →
      SameRegs { s with excycles := (s1.chargeCrossing b r).excycles } (s1.chargeCrossing b r) ∧
        Traffic [] s (s1.chargeCrossing b r) := by
    intro s s1 b r hr ht
    obtain ⟨r2, t2⟩ := chargeCrossing_spec s1 b r
    refine ⟨?_, ht.trans t2⟩
    unfold SameRegs at *
    rw [r2, hr]
  cases m <;> simp only [effAddr, bind_ok, Prod.exists] at h
  case dp => cases h; exact ⟨.refl _, .refl _, reaches_bank0 _ _⟩
  case dpx => cases h; exact ⟨.refl _, .refl _, reaches_bank0 _ _⟩
  case dpy => cases h; exact ⟨.refl _, .refl _, reaches_bank0 _ _⟩
  case abs => cases h; exact ⟨.refl _, .refl _, reaches_masked _ _⟩
  case abx => cases h; exact ⟨(chargeCrossing_spec _ _ _).1, (chargeCrossing_spec _ _ _).2, reaches_masked _ _⟩
  case aby => cases h; exact ⟨(chargeCrossing_spec _ _ _).1, (chargeCrossing_spec _ _ _).2, reaches_masked _ _⟩
  case abl => cases h; exact ⟨.refl _, .refl _, reaches_masked _ _⟩
  case alx => cases h; exact ⟨.refl _, .refl _, reaches_masked _ _⟩
  case sr => cases h; exact ⟨.refl _, .refl _, reaches_bank0 _ _⟩
  case izx =>
    obtain ⟨p, s1, h1, h⟩ := h
    obtain ⟨r1, t1⟩ := ptr16_spec h1
    cases pure_ok.1 h
    rw [r1.dataEa]
    exact ⟨r1.setExcycles, t1, reaches_masked _ _⟩
  case izy =>
    obtain ⟨p, s1, h1, h⟩ := h
    obtain ⟨r1, t1⟩ := ptr16_spec h1
    cases pure_ok.1 h
    rw [r1.dataEa]
    exact ⟨(charged _ _ _ _ r1 t1).1, (charged _ _ _ _ r1 t1).2, reaches_masked _ _⟩
  case izp =>
    obtain ⟨p, s1, h1, h⟩ := h
    obtain ⟨r1, t1⟩ := ptr16_spec h1
    cases pure_ok.1 h
    rw [r1.dataEa]
    exact ⟨r1.setExcycles, t1, reaches_masked _ _⟩
  case idl =>
    obtain ⟨p, s1, h1, h⟩ := h
    obtain ⟨r1, t1⟩ := ptr24B0_spec h1
    cases pure_ok.1 h
    rw [r1.addrMask]
    exact ⟨r1.setExcycles, t1, reaches_masked _ _⟩
  case idly =>
    obtain ⟨p, s1, h1, h⟩ := h
    obtain ⟨r1, t1⟩ := ptr24B0_spec h1
    cases pure_ok.1 h
    rw [r1.addrMask]
    exact ⟨r1.setExcycles, t1, reaches_masked _ _⟩
  case sry =>
    obtain ⟨p, s1, h1, h⟩ := h
    obtain ⟨r1, t1⟩ := ptr16B0_spec h1
    cases pure_ok.1 h
    rw [r1.dataEa]
    exact ⟨r1.setExcycles, t1, reaches_masked _ _⟩

/-- Every effective address can be computed: the pointers are in bank 0. -/
theorem effAddr_completes (m : Mem) (s : State) : ∃ ea t, effAddr m s = .ok (ea, t) := by
  have p16 : ∀ lo hi : Word, ∃ v t, read16Bank0 lo hi s = .ok (v, t) := fun _ _ => read16Bank0_completes _ _ _
  cases m <;> simp only [effAddr, ptr16, ptr16B0]
  case izx o => obtain ⟨v, t, h⟩ := p16 (s.dpIndexed o s.x) (s.ptrNext (s.dpIndexed o s.x)); rw [h]; exact ⟨_, _, rfl⟩
  case izy o => obtain ⟨v, t, h⟩ := p16 (s.dpAddr o) (s.ptrNext (s.dpAddr o)); rw [h]; exact ⟨_, _, rfl⟩
  case izp o => obtain ⟨v, t, h⟩ := p16 (s.dpAddr o) (s.ptrNext (s.dpAddr o)); rw [h]; exact ⟨_, _, rfl⟩
  case idl o => obtain ⟨v, t, h⟩ := ptr24B0_completes (s.dpAddr o) s; rw [h]; exact ⟨_, _, rfl⟩
  case idly o => obtain ⟨v, t, h⟩ := ptr24B0_completes (s.dpAddr o) s; rw [h]; exact ⟨_, _, rfl⟩
  case sry o => obtain ⟨v, t, h⟩ := p16 (s.sp + zext o) (s.sp + zext o + 1); rw [h]; exact ⟨_, _, rfl⟩
  all_goals exact ⟨_, _, rfl⟩

/-- Where a datum lies in memory, its effective address and its bytes. -/
theorem inMemory_cases {w : Width} {m : Mem} {s : State} (h : s.inMemory w m = true) :
    ∃ ea u, effAddr m s = .ok (ea, u) ∧ ∀ a ∈ ea.bytes w s, a < s.cfg.memSize := by
  obtain ⟨ea, u, h1⟩ := effAddr_completes m s
  simp only [State.inMemory, h1, List.all_eq_true, decide_eq_true_eq] at h
  exact ⟨ea, u, h1, h⟩

/-- Where a datum does not, a byte of it that is outside. -/
theorem not_inMemory_cases {w : Width} {m : Mem} {s : State} (h : s.inMemory w m = false) :
    ∃ ea u, effAddr m s = .ok (ea, u) ∧ ∃ a ∈ ea.bytes w s, s.cfg.memSize ≤ a := by
  obtain ⟨ea, u, h1⟩ := effAddr_completes m s
  simp only [State.inMemory, h1, List.all_eq_false, decide_eq_true_eq, not_lt] at h
  exact ⟨ea, u, h1, h⟩

/-- The bytes of a datum depend on the parameters alone. -/
theorem bytes_congr {s t : State} (h : t.cfg = s.cfg) (ea : Ea) (w : Width) : ea.bytes w t = ea.bytes w s := by
  cases w <;> simp [Ea.bytes, Ea.next, State.addrMask, State.is816, h]

/-- Where memory covers the address space, every datum lies in it. -/
theorem inMemory_of_covers {s : State} (hc : s.cfg.covers = true) (w : Width) (m : Mem) : s.inMemory w m = true := by
  obtain ⟨ea, u, h1⟩ := effAddr_completes m s
  obtain ⟨-, -, q1⟩ := effAddr_spec h1
  simp only [State.inMemory, h1, List.all_eq_true, decide_eq_true_eq]
  intro a ha
  have h0 := memSize_covers hc q1
  have hn := memSize_covers hc (reaches_next (ea := ea) q1)
  cases w <;> simp only [Ea.bytes, List.mem_cons, List.not_mem_nil, or_false] at ha
  · rw [ha]; exact h0
  · rcases ha with rfl | rfl
    · exact h0
    · exact hn

/-- The operand of a reading instruction is below its width (40_addressing.md R130). -/
theorem readOperand_spec {w : Width} {o : Operand} {s t : State} {v : Word} (h : readOperand w o s = .ok (v, t)) :
    SameRegs { s with excycles := t.excycles } t ∧ Traffic [] s t ∧ v &&& w.mask = v := by
  cases o with
  | imm i =>
    cases h
    exact ⟨.refl _, .refl _, by rw [BitVec.and_assoc, BitVec.and_self]⟩
  | mem m =>
    simp only [readOperand, bind_ok, Prod.exists] at h
    obtain ⟨ea, s1, h1, h2⟩ := h
    obtain ⟨r1, t1, -⟩ := effAddr_spec h1
    obtain ⟨r2, t2⟩ := rd_spec h2
    refine ⟨?_, t1.trans t2, rd_lt h2⟩
    rw [r2.excycles]
    exact r1.trans r2

theorem readOperand_completes {w : Width} {o : Operand} {s : State} (hm : s.operandInMemory w o = true) :
    ∃ v t, readOperand w o s = .ok (v, t) := by
  cases o with
  | imm i => exact ⟨_, _, rfl⟩
  | mem m =>
    obtain ⟨ea, s1, h1, hb⟩ := inMemory_cases (w := w) (m := m) hm
    obtain ⟨r1, t1, -⟩ := effAddr_spec h1
    obtain ⟨v, s2, h2⟩ := rd_completes (ea := ea) (w := w) (s := s1) (by rw [bytes_congr t1.cfg, t1.cfg]; exact hb)
    exact ⟨v, s2, by simp only [readOperand, h1, ok_bind, h2]⟩

/-- A datum with a byte outside memory cannot be read through a format (20_memory.md R87). -/
theorem readOperand_outside {w : Width} {m : Mem} {s : State} (hm : s.inMemory w m = false) :
    ∃ a, s.cfg.memSize ≤ a ∧ readOperand w (.mem m) s = .error (.addressOutOfBounds a) := by
  obtain ⟨ea, s1, h1, hb⟩ := not_inMemory_cases hm
  obtain ⟨r1, t1, -⟩ := effAddr_spec h1
  obtain ⟨a, ha, h2⟩ := rd_outside (ea := ea) (w := w) (s := s1) (by rw [bytes_congr t1.cfg, t1.cfg]; exact hb)
  exact ⟨a, by rw [← t1.cfg]; exact ha, by simp only [readOperand, h1, ok_bind, h2]⟩

/-- A store through a format stores the datum's bytes at the format's address and nothing else. -/
theorem storeThrough_spec {w : Width} {m : Mem} {v : Word} {s t : State} (h : storeThrough w m v s = .ok t) :
    SameRegs { s with excycles := t.excycles } t ∧
      ∃ ea s1, effAddr m s = .ok (ea, s1) ∧ Traffic (ea.bytes w s) s t := by
  simp only [storeThrough, bind_ok, Prod.exists] at h
  obtain ⟨ea, s1, h1, h2⟩ := h
  obtain ⟨r1, t1, -⟩ := effAddr_spec h1
  obtain ⟨r2, t2⟩ := wr_spec h2
  refine ⟨?_, ea, s1, h1, ?_⟩
  · rw [r2.excycles]
    exact r1.trans r2
  · have := t1.trans t2
    rw [show ea.bytes w s1 = ea.bytes w s by rw [r1]; rfl] at this
    exact this

theorem storeThrough_completes {w : Width} {m : Mem} {v : Word} {s : State} (hm : s.inMemory w m = true) :
    ∃ t, storeThrough w m v s = .ok t := by
  obtain ⟨ea, s1, h1, hb⟩ := inMemory_cases hm
  obtain ⟨r1, t1, -⟩ := effAddr_spec h1
  obtain ⟨s2, h2⟩ := wr_completes (ea := ea) (w := w) (v := v) (s := s1)
    (by rw [bytes_congr t1.cfg, t1.cfg]; exact hb)
  exact ⟨s2, by simp only [storeThrough, h1, ok_bind, h2]⟩

/-- A datum with a byte outside memory cannot be stored through a format (20_memory.md R87). -/
theorem storeThrough_outside {w : Width} {m : Mem} {v : Word} {s : State} (hm : s.inMemory w m = false) :
    ∃ a, s.cfg.memSize ≤ a ∧ storeThrough w m v s = .error (.addressOutOfBounds a) := by
  obtain ⟨ea, s1, h1, hb⟩ := not_inMemory_cases hm
  obtain ⟨r1, t1, -⟩ := effAddr_spec h1
  obtain ⟨a, ha, h2⟩ := wr_outside (ea := ea) (w := w) (v := v) (s := s1)
    (by rw [bytes_congr t1.cfg, t1.cfg]; exact hb)
  exact ⟨a, by rw [← t1.cfg]; exact ha, by simp only [storeThrough, h1, ok_bind, h2]⟩

/-- A modification that writes only the status register, and not its width bits, and answers within the width. -/
def FlagsOnly (f : Word → State → Word × State) : Prop :=
  ∀ v s, (f v s).2 = { s with p := (f v s).2.p } ∧ (f v s).2.flag .M = s.flag .M ∧ (f v s).2.flag .X = s.flag .X

/-- A read-modify-write of memory: one address, the value read, what `f` makes of it, and where it is stored. -/
theorem modify_mem_spec {m : Mem} {f : Word → State → Word × State} (hf : FlagsOnly f) {s t : State}
    (h : modify (.mem m) f s = .ok t) :
    ∃ ea s1 old s2, effAddr m s = .ok (ea, s1) ∧ rd ea s.wA s1 = .ok (old, s2) ∧
      SameRegs { s with excycles := t.excycles, p := (f old s2).2.p } t ∧ Traffic (ea.bytes s.wA s) s t := by
  simp only [modify, bind_ok, Prod.exists] at h
  obtain ⟨ea, s1, h1, old, s2, h2, h3⟩ := h
  obtain ⟨r1, t1, -⟩ := effAddr_spec h1
  have hw1 : s1.wA = s.wA := by rw [r1]; rfl
  rw [hw1] at h2
  obtain ⟨r2, t2⟩ := rd_spec h2
  obtain ⟨e3, m3, -⟩ := hf old s2
  obtain ⟨r3, t3⟩ := wr_spec h3
  have hw2 : (f old s2).2.wA = s.wA := by
    rw [wA_congr (s := s2) (by rw [e3]) (by rw [e3]) m3, r2.wA, hw1]
  refine ⟨ea, s1, old, s2, h1, h2, ?_, ?_⟩
  · unfold SameRegs at *
    rw [r3, e3, r2, r1]
  · have t3' : Traffic (ea.bytes s.wA s) s2 t := by
      rw [hw2, show ea.bytes s.wA (f old s2).2 = ea.bytes s.wA s by rw [e3, r2, r1]; rfl] at t3
      exact t3.of_eq ⟨by rw [e3], by rw [e3], by rw [e3], by rw [e3]⟩ ⟨rfl, rfl, rfl, rfl⟩
    exact (t1.trans t2).trans t3'

theorem modify_completes {g : Target} {f : Word → State → Word × State} (hf : FlagsOnly f) {s : State}
    (hm : s.targetInMemory g = true) : ∃ t, modify g f s = .ok t := by
  cases g with
  | acc => exact ⟨_, rfl⟩
  | mem m =>
    obtain ⟨ea, s1, h1, hb⟩ := inMemory_cases (w := s.wA) (m := m) hm
    obtain ⟨r1, t1, -⟩ := effAddr_spec h1
    have w1 : s1.wA = s.wA := by rw [r1]; rfl
    obtain ⟨old, s2, h2⟩ := rd_completes (ea := ea) (w := s1.wA) (s := s1)
      (by rw [bytes_congr t1.cfg, t1.cfg, w1]; exact hb)
    obtain ⟨r2, t2⟩ := rd_spec h2
    obtain ⟨e3, m3, -⟩ := hf old s2
    have c3 : (f old s2).2.cfg = s.cfg := by rw [e3]; exact t2.cfg.trans t1.cfg
    have w3 : (f old s2).2.wA = s.wA := by
      rw [wA_congr (s := s2) (by rw [e3]) (by rw [e3]) m3, r2.wA, w1]
    obtain ⟨s3, h3⟩ := wr_completes (s := (f old s2).2) (ea := ea) (w := (f old s2).2.wA) (v := (f old s2).1)
      (by rw [bytes_congr c3, c3, w3]; exact hb)
    exact ⟨s3, by simp only [modify, h1, ok_bind, h2, h3]⟩

/-- A read-modify-write of a datum with a byte outside memory stops at the read (20_memory.md R87). -/
theorem modify_outside {m : Mem} {f : Word → State → Word × State} {s : State}
    (hm : s.inMemory s.wA m = false) :
    ∃ a, s.cfg.memSize ≤ a ∧ modify (.mem m) f s = .error (.addressOutOfBounds a) := by
  obtain ⟨ea, s1, h1, hb⟩ := not_inMemory_cases hm
  obtain ⟨r1, t1, -⟩ := effAddr_spec h1
  have w1 : s1.wA = s.wA := by rw [r1]; rfl
  obtain ⟨a, ha, h2⟩ := rd_outside (ea := ea) (w := s1.wA) (s := s1)
    (by rw [bytes_congr t1.cfg, t1.cfg, w1]; exact hb)
  exact ⟨a, by rw [← t1.cfg]; exact ha, by simp only [modify, h1, ok_bind, h2]; rfl⟩

theorem indTarget_spec {q : Word} {s t : State} {v : Word} (h : indTarget q s = .ok (v, t)) :
    SameRegs s t ∧ Traffic [] s t := read16Bank0_spec h

theorem indTarget_completes (q : Word) (s : State) : ∃ v t, indTarget q s = .ok (v, t) :=
  read16Bank0_completes _ _ _

theorem iaxTarget_spec {q : Word} {s t : State} {v : Word} (h : iaxTarget q s = .ok (v, t)) :
    SameRegs s t ∧ Traffic [] s t := by
  simp only [iaxTarget, bind_ok, Prod.exists] at h
  obtain ⟨l, s1, h1, k, s2, h2, h⟩ := h
  cases pure_ok.1 h
  obtain ⟨r1, t1⟩ := memRead1_spec h1
  obtain ⟨r2, t2⟩ := memRead1_spec h2
  exact ⟨r1.trans r2, t1.trans t2⟩

theorem iaxTarget_completes {q : Word} {s : State} (h : s.programInMemory = true) :
    ∃ v t, iaxTarget q s = .ok (v, t) := by
  obtain ⟨l, s1, h1⟩ := memRead1_completes (programBank_inMemory h (q + s.x))
  obtain ⟨r1, t1⟩ := memRead1_spec h1
  obtain ⟨k, s2, h2⟩ := memRead1_completes
    (programBank_inMemory (programInMemory_congr t1.cfg r1.pbr h) (q + s.x + 1))
  exact ⟨mkWord k l, s2, by simp only [iaxTarget, h1, ok_bind, h2]; rfl⟩

/-- A pointer of a program bank outside memory cannot be read (20_memory.md R87). -/
theorem iaxTarget_outside {q : Word} {s : State} (h : s.programInMemory = false) :
    ∃ a, s.cfg.memSize ≤ a ∧ iaxTarget q s = .error (.addressOutOfBounds a) := by
  have hl : s.cfg.memSize ≤ (mkLong s.pbr (q + s.x) &&& s.addrMask).toNat := by
    by_contra hlt
    have h1 : ({ s with pc := q + s.x } : State).programInMemory = true := decide_eq_true (not_le.1 hlt)
    rw [programInMemory_congr (s := { s with pc := q + s.x }) (t := s) rfl rfl h1] at h
    cases h
  exact ⟨_, hl, by simp only [iaxTarget, memRead1_outside hl]; rfl⟩

/-- Where memory covers the address space, the program bank lies in it. -/
theorem programInMemory_of_covers {s : State} (hc : s.cfg.covers = true) : s.programInMemory = true :=
  decide_eq_true (memSize_covers hc (reaches_masked s _))

/-- Where memory covers the address space, everything an instruction accesses lies in it. -/
theorem dataInMemory_of_covers {s : State} (hc : s.cfg.covers = true) (i : Instr) : s.dataInMemory i = true := by
  have hm : ∀ w m, s.inMemory w m = true := inMemory_of_covers hc
  have ho : ∀ w o, s.operandInMemory w o = true := fun w o => by cases o <;> simp [State.operandInMemory, hm]
  have ht : ∀ t, s.targetInMemory t = true := fun t => by cases t <;> simp [State.targetInMemory, hm]
  have hp := programInMemory_of_covers hc
  have hv : ∀ d b, s.moveInMemory d b = true := fun d b =>
    decide_eq_true ⟨memSize_covers hc (reaches_masked s _), memSize_covers hc (reaches_masked s _)⟩
  unfold State.dataInMemory
  split <;> simp only [hm, ho, ht, hp, hv]

end Sys2Proof.Machine
end

