-- ==== Sys2Proof/Laws/PerInstr.lean ====
section
/-! SUPPORT. A law of every instruction as syntax, one lemma per constructor: the encoding of a well-formed
instruction is an opcode that the variant's map assigns (the fallback's is the byte it was reached by) and at most
three operand bytes (30_encoding.md R100, R104 to R108, R110). -/

namespace Sys2Proof.Laws.EncodedLength

/-- The encoding is an opcode of the map, or the fallback's byte, and at most three operand bytes. -/
def Statement (i : Instr) : Prop :=
  ∀ c : DecodeCtx, i.wf c = true →
    ∃ op bs, encode i = op :: bs ∧ bs.length ≤ 3 ∧ (assigned c op = true ∨ i = .illegal op)

/-- One format of an instruction. -/
theorem of_encode {i : Instr} {c : DecodeCtx} (op : Byte) (bs : List Byte) (h : encode i = op :: bs)
    (hl : bs.length ≤ 3) (ha : assigned c op = true) :
    ∃ op bs, encode i = op :: bs ∧ bs.length ≤ 3 ∧ (assigned c op = true ∨ i = .illegal op) :=
  ⟨op, bs, h, hl, .inl ha⟩

/-- The opcodes of the 6502 are assigned on every variant. -/
theorem assigned_of_6502 (c : DecodeCtx) (op : Byte) (h : assigned ⟨.v6502, true, true, true⟩ op = true) :
    assigned c op = true := by
  obtain ⟨v, b, m, x⟩ := c
  have : ∀ v b (op : Byte), assigned ⟨.v6502, true, true, true⟩ op = true →
      assigned ⟨v, b, true, true⟩ op = true := by
    intro v b; cases v <;> cases b <;> decide
  exact this v b op h

/-- The opcodes the 65C02 adds are assigned on it and on the 65816. -/
theorem assigned_of_cmos (c : DecodeCtx) (op : Byte) (hc : c.cmos = true)
    (h : assigned ⟨.v65C02, false, true, true⟩ op = true) : assigned c op = true := by
  obtain ⟨v, b, m, x⟩ := c
  have : ∀ b (op : Byte), assigned ⟨.v65C02, false, true, true⟩ op = true →
      assigned ⟨.v65C02, b, true, true⟩ op = true ∧ assigned ⟨.v65816, b, true, true⟩ op = true := by
    intro b; cases b <;> decide
  cases v
  · simp [DecodeCtx.cmos] at hc
  · exact (this b op h).1
  · exact (this b op h).2

/-- Every opcode is assigned on the 65816. -/
theorem assigned_of_816 (c : DecodeCtx) (op : Byte) (hc : c.is816 = true) : assigned c op = true := by
  obtain ⟨v, b, m, x⟩ := c
  have : ∀ b (op : Byte), assigned ⟨.v65816, b, true, true⟩ op = true := by intro b; cases b <;> decide
  simp only [DecodeCtx.is816, beq_iff_eq] at hc
  subst hc
  exact this b op

/-- The single-bit opcodes are assigned on the 65C02 that has them. -/
theorem assigned_of_bitops (c : DecodeCtx) (op : Byte) (hc : c.hasBitops = true)
    (h : assigned ⟨.v65C02, true, true, true⟩ op = true) : assigned c op = true := by
  obtain ⟨v, b, m, x⟩ := c
  simp only [DecodeCtx.hasBitops, Bool.and_eq_true, beq_iff_eq] at hc
  obtain ⟨rfl, rfl⟩ := hc
  exact h

theorem imm_length (v : Imm) : v.bytes.length ≤ 3 := by cases v <;> simp [Imm.bytes]

theorem mem_length (m : Mem) : m.bytes.length ≤ 3 := by cases m <;> simp [Mem.bytes, wordBytes, longBytes]

/-- The memory formats of the accumulator's instructions have opcodes of the map. -/
theorem groupOne (c : DecodeCtx) (base : Byte) (hb : base &&& 0x1F = 0) (m : Mem) (h : m.inGroupOne c = true) :
    ∃ op, m.groupOne base = some op ∧ assigned c op = true := by
  have six : ∀ base : Byte, base &&& 0x1F = 0 → ∀ d ∈ ([0x01, 0x05, 0x0D, 0x11, 0x15, 0x19, 0x1D] : List Byte),
      assigned ⟨.v6502, true, true, true⟩ (base + d) = true := by decide
  have cmos : ∀ base : Byte, base &&& 0x1F = 0 → assigned ⟨.v65C02, false, true, true⟩ (base + 0x12) = true := by
    decide
  cases m <;> simp only [Mem.inGroupOne, Bool.false_eq_true] at h
  all_goals refine ⟨_, rfl, ?_⟩
  all_goals first
    | exact assigned_of_816 c _ h
    | exact assigned_of_cmos c _ h (cmos base hb)
    | exact assigned_of_6502 c _ (six base hb _ (by simp))

theorem withGroupOne {i : Instr} {c : DecodeCtx} (base : Byte) (m : Mem) (hb : base &&& 0x1F = 0)
    (h : m.inGroupOne c = true) (he : encode i = withOpcode (m.groupOne base) m.bytes) :
    ∃ op bs, encode i = op :: bs ∧ bs.length ≤ 3 ∧ (assigned c op = true ∨ i = .illegal op) := by
  obtain ⟨op, ho, ha⟩ := groupOne c base hb m h
  rw [ho] at he
  exact of_encode op m.bytes he (mem_length m) ha

theorem operandGroupOne {i : Instr} {c : DecodeCtx} (base : Byte) (o : Operand) (hb : base &&& 0x1F = 0)
    (hi : assigned ⟨.v6502, true, true, true⟩ (base + 0x09) = true) (h : o.okGroupOne c = true)
    (he : encode i = o.encodeGroupOne base) :
    ∃ op bs, encode i = op :: bs ∧ bs.length ≤ 3 ∧ (assigned c op = true ∨ i = .illegal op) := by
  cases o with
  | imm v => exact of_encode _ v.bytes he (imm_length v) (assigned_of_6502 c _ hi)
  | mem m => exact withGroupOne base m hb h he

theorem lda (o : Operand) : Statement (.lda o) := 
  fun _ h => operandGroupOne 0xA0 o (by decide) (by decide) h rfl

theorem ldx (o : Operand) : Statement (.ldx o) := by
  intro c h
  rcases o with v | m
  · exact of_encode _ _ rfl (imm_length v) (assigned_of_6502 c _ (by decide))
  · cases m <;> simp only [Instr.wf, Operand.okIndex, Mem.isIndexedByY, Bool.false_eq_true] at h
    all_goals exact of_encode _ _ rfl (mem_length _) (assigned_of_6502 c _ (by decide))

theorem ldy (o : Operand) : Statement (.ldy o) := by
  intro c h
  rcases o with v | m
  · exact of_encode _ _ rfl (imm_length v) (assigned_of_6502 c _ (by decide))
  · cases m <;> simp only [Instr.wf, Operand.okIndex, Mem.isIndexedByX, Bool.false_eq_true] at h
    all_goals exact of_encode _ _ rfl (mem_length _) (assigned_of_6502 c _ (by decide))

theorem sta (m : Mem) : Statement (.sta m) := 
  fun _ h => withGroupOne 0x80 m (by decide) h rfl

theorem stx (m : Mem) : Statement (.stx m) := by
  intro c h
  cases m <;> simp only [Instr.wf, Bool.false_eq_true] at h
  all_goals exact of_encode _ _ rfl (mem_length _) (assigned_of_6502 c _ (by decide))

theorem sty (m : Mem) : Statement (.sty m) := by
  intro c h
  cases m <;> simp only [Instr.wf, Bool.false_eq_true] at h
  all_goals exact of_encode _ _ rfl (mem_length _) (assigned_of_6502 c _ (by decide))

theorem stz (m : Mem) : Statement (.stz m) := by
  intro c h
  cases m <;> simp only [Instr.wf, Mem.isIndexedByX, Bool.and_false, Bool.and_true, Bool.false_eq_true] at h
  all_goals exact of_encode _ _ rfl (mem_length _) (assigned_of_cmos c _ h (by decide))

theorem tax : Statement .tax := 
  fun c _ => of_encode _ _ rfl (by simp) (assigned_of_6502 c _ (by decide))

theorem tay : Statement .tay := 
  fun c _ => of_encode _ _ rfl (by simp) (assigned_of_6502 c _ (by decide))

theorem txa : Statement .txa := 
  fun c _ => of_encode _ _ rfl (by simp) (assigned_of_6502 c _ (by decide))

theorem tya : Statement .tya := 
  fun c _ => of_encode _ _ rfl (by simp) (assigned_of_6502 c _ (by decide))

theorem tsx : Statement .tsx := 
  fun c _ => of_encode _ _ rfl (by simp) (assigned_of_6502 c _ (by decide))

theorem txs : Statement .txs := 
  fun c _ => of_encode _ _ rfl (by simp) (assigned_of_6502 c _ (by decide))

theorem txy : Statement .txy := 
  fun c h => of_encode _ _ rfl (Nat.le_of_ble_eq_true rfl) (assigned_of_816 c _ h)

theorem tyx : Statement .tyx := 
  fun c h => of_encode _ _ rfl (Nat.le_of_ble_eq_true rfl) (assigned_of_816 c _ h)

theorem tcd : Statement .tcd := 
  fun c h => of_encode _ _ rfl (Nat.le_of_ble_eq_true rfl) (assigned_of_816 c _ h)

theorem tdc : Statement .tdc := 
  fun c h => of_encode _ _ rfl (Nat.le_of_ble_eq_true rfl) (assigned_of_816 c _ h)

theorem tcs : Statement .tcs := 
  fun c h => of_encode _ _ rfl (Nat.le_of_ble_eq_true rfl) (assigned_of_816 c _ h)

theorem tsc : Statement .tsc := 
  fun c h => of_encode _ _ rfl (Nat.le_of_ble_eq_true rfl) (assigned_of_816 c _ h)

theorem xba : Statement .xba := 
  fun c h => of_encode _ _ rfl (Nat.le_of_ble_eq_true rfl) (assigned_of_816 c _ h)

theorem adc (o : Operand) : Statement (.adc o) := 
  fun _ h => operandGroupOne 0x60 o (by decide) (by decide) h rfl

theorem sbc (o : Operand) : Statement (.sbc o) := 
  fun _ h => operandGroupOne 0xE0 o (by decide) (by decide) h rfl

theorem cmp (o : Operand) : Statement (.cmp o) := 
  fun _ h => operandGroupOne 0xC0 o (by decide) (by decide) h rfl

theorem cpx (o : Operand) : Statement (.cpx o) := by
  intro c h
  rcases o with v | m
  · exact of_encode _ _ rfl (imm_length v) (assigned_of_6502 c _ (by decide))
  · cases m <;> simp only [Instr.wf, Operand.okIndex, Mem.isDpAbs, Bool.false_eq_true] at h
    all_goals exact of_encode _ _ rfl (mem_length _) (assigned_of_6502 c _ (by decide))

theorem cpy (o : Operand) : Statement (.cpy o) := by
  intro c h
  rcases o with v | m
  · exact of_encode _ _ rfl (imm_length v) (assigned_of_6502 c _ (by decide))
  · cases m <;> simp only [Instr.wf, Operand.okIndex, Mem.isDpAbs, Bool.false_eq_true] at h
    all_goals exact of_encode _ _ rfl (mem_length _) (assigned_of_6502 c _ (by decide))

theorem inc (t : Target) : Statement (.inc t) := by
  intro c h
  rcases t with _ | m
  · exact of_encode _ _ rfl (by simp) (assigned_of_cmos c _ h (by decide))
  · cases m <;> simp only [Instr.wf, Target.ok, Mem.isIndexedByX, Bool.false_eq_true] at h
    all_goals exact of_encode _ _ rfl (by simp [wordBytes]) (assigned_of_6502 c _ (by decide))

theorem dec (t : Target) : Statement (.dec t) := by
  intro c h
  rcases t with _ | m
  · exact of_encode _ _ rfl (by simp) (assigned_of_cmos c _ h (by decide))
  · cases m <;> simp only [Instr.wf, Target.ok, Mem.isIndexedByX, Bool.false_eq_true] at h
    all_goals exact of_encode _ _ rfl (by simp [wordBytes]) (assigned_of_6502 c _ (by decide))

theorem inx : Statement .inx := 
  fun c _ => of_encode _ _ rfl (by simp) (assigned_of_6502 c _ (by decide))

theorem iny : Statement .iny := 
  fun c _ => of_encode _ _ rfl (by simp) (assigned_of_6502 c _ (by decide))

theorem dex : Statement .dex := 
  fun c _ => of_encode _ _ rfl (by simp) (assigned_of_6502 c _ (by decide))

theorem dey : Statement .dey := 
  fun c _ => of_encode _ _ rfl (by simp) (assigned_of_6502 c _ (by decide))

theorem and (o : Operand) : Statement (.and o) := 
  fun _ h => operandGroupOne 0x20 o (by decide) (by decide) h rfl

theorem ora (o : Operand) : Statement (.ora o) := 
  fun _ h => operandGroupOne 0x00 o (by decide) (by decide) h rfl

theorem eor (o : Operand) : Statement (.eor o) := 
  fun _ h => operandGroupOne 0x40 o (by decide) (by decide) h rfl

theorem bit (o : Operand) : Statement (.bit o) := by
  intro c h
  rcases o with v | m
  · exact of_encode _ _ rfl (imm_length v) (assigned_of_cmos c _ (Bool.and_eq_true _ _ ▸ h : _ ∧ _).1
      (by decide))
  · cases m <;> simp only [Instr.wf, Operand.okBit, Bool.false_eq_true] at h
    all_goals first
      | exact of_encode _ _ rfl (mem_length _) (assigned_of_6502 c _ (by decide))
      | exact of_encode _ _ rfl (mem_length _) (assigned_of_cmos c _ h (by decide))

theorem tsb (m : Mem) : Statement (.tsb m) := by
  intro c h
  cases m <;> simp only [Instr.wf, Mem.isDpAbs, Bool.and_false, Bool.and_true, Bool.false_eq_true] at h
  all_goals exact of_encode _ _ rfl (mem_length _) (assigned_of_cmos c _ h (by decide))

theorem trb (m : Mem) : Statement (.trb m) := by
  intro c h
  cases m <;> simp only [Instr.wf, Mem.isDpAbs, Bool.and_false, Bool.and_true, Bool.false_eq_true] at h
  all_goals exact of_encode _ _ rfl (mem_length _) (assigned_of_cmos c _ h (by decide))

theorem asl (t : Target) : Statement (.asl t) := by
  intro c h
  rcases t with _ | m
  · exact of_encode _ _ rfl (by simp) (assigned_of_6502 c _ (by decide))
  · cases m <;> simp only [Instr.wf, Target.ok, Mem.isIndexedByX, Bool.false_eq_true] at h
    all_goals exact of_encode _ _ rfl (by simp [wordBytes]) (assigned_of_6502 c _ (by decide))

theorem lsr (t : Target) : Statement (.lsr t) := by
  intro c h
  rcases t with _ | m
  · exact of_encode _ _ rfl (by simp) (assigned_of_6502 c _ (by decide))
  · cases m <;> simp only [Instr.wf, Target.ok, Mem.isIndexedByX, Bool.false_eq_true] at h
    all_goals exact of_encode _ _ rfl (by simp [wordBytes]) (assigned_of_6502 c _ (by decide))

theorem rol (t : Target) : Statement (.rol t) := by
  intro c h
  rcases t with _ | m
  · exact of_encode _ _ rfl (by simp) (assigned_of_6502 c _ (by decide))
  · cases m <;> simp only [Instr.wf, Target.ok, Mem.isIndexedByX, Bool.false_eq_true] at h
    all_goals exact of_encode _ _ rfl (by simp [wordBytes]) (assigned_of_6502 c _ (by decide))

theorem ror (t : Target) : Statement (.ror t) := by
  intro c h
  rcases t with _ | m
  · exact of_encode _ _ rfl (by simp) (assigned_of_6502 c _ (by decide))
  · cases m <;> simp only [Instr.wf, Target.ok, Mem.isIndexedByX, Bool.false_eq_true] at h
    all_goals exact of_encode _ _ rfl (by simp [wordBytes]) (assigned_of_6502 c _ (by decide))

theorem rmb0 (off : Byte) : Statement (.rmb0 off) := 
  fun c h => of_encode _ _ rfl (by simp) (assigned_of_bitops c _ h (by decide))

theorem rmb1 (off : Byte) : Statement (.rmb1 off) := 
  fun c h => of_encode _ _ rfl (by simp) (assigned_of_bitops c _ h (by decide))

theorem rmb2 (off : Byte) : Statement (.rmb2 off) := 
  fun c h => of_encode _ _ rfl (by simp) (assigned_of_bitops c _ h (by decide))

theorem rmb3 (off : Byte) : Statement (.rmb3 off) := 
  fun c h => of_encode _ _ rfl (by simp) (assigned_of_bitops c _ h (by decide))

theorem rmb4 (off : Byte) : Statement (.rmb4 off) := 
  fun c h => of_encode _ _ rfl (by simp) (assigned_of_bitops c _ h (by decide))

theorem rmb5 (off : Byte) : Statement (.rmb5 off) := 
  fun c h => of_encode _ _ rfl (by simp) (assigned_of_bitops c _ h (by decide))

theorem rmb6 (off : Byte) : Statement (.rmb6 off) := 
  fun c h => of_encode _ _ rfl (by simp) (assigned_of_bitops c _ h (by decide))

theorem rmb7 (off : Byte) : Statement (.rmb7 off) := 
  fun c h => of_encode _ _ rfl (by simp) (assigned_of_bitops c _ h (by decide))

theorem smb0 (off : Byte) : Statement (.smb0 off) := 
  fun c h => of_encode _ _ rfl (by simp) (assigned_of_bitops c _ h (by decide))

theorem smb1 (off : Byte) : Statement (.smb1 off) := 
  fun c h => of_encode _ _ rfl (by simp) (assigned_of_bitops c _ h (by decide))

theorem smb2 (off : Byte) : Statement (.smb2 off) := 
  fun c h => of_encode _ _ rfl (by simp) (assigned_of_bitops c _ h (by decide))

theorem smb3 (off : Byte) : Statement (.smb3 off) := 
  fun c h => of_encode _ _ rfl (by simp) (assigned_of_bitops c _ h (by decide))

theorem smb4 (off : Byte) : Statement (.smb4 off) := 
  fun c h => of_encode _ _ rfl (by simp) (assigned_of_bitops c _ h (by decide))

theorem smb5 (off : Byte) : Statement (.smb5 off) := 
  fun c h => of_encode _ _ rfl (by simp) (assigned_of_bitops c _ h (by decide))

theorem smb6 (off : Byte) : Statement (.smb6 off) := 
  fun c h => of_encode _ _ rfl (by simp) (assigned_of_bitops c _ h (by decide))

theorem smb7 (off : Byte) : Statement (.smb7 off) := 
  fun c h => of_encode _ _ rfl (by simp) (assigned_of_bitops c _ h (by decide))

theorem bpl (disp : Byte) : Statement (.bpl disp) := 
  fun c _ => of_encode _ _ rfl (by simp) (assigned_of_6502 c _ (by decide))

theorem bmi (disp : Byte) : Statement (.bmi disp) := 
  fun c _ => of_encode _ _ rfl (by simp) (assigned_of_6502 c _ (by decide))

theorem bvc (disp : Byte) : Statement (.bvc disp) := 
  fun c _ => of_encode _ _ rfl (by simp) (assigned_of_6502 c _ (by decide))

theorem bvs (disp : Byte) : Statement (.bvs disp) := 
  fun c _ => of_encode _ _ rfl (by simp) (assigned_of_6502 c _ (by decide))

theorem bcc (disp : Byte) : Statement (.bcc disp) := 
  fun c _ => of_encode _ _ rfl (by simp) (assigned_of_6502 c _ (by decide))

theorem bcs (disp : Byte) : Statement (.bcs disp) := 
  fun c _ => of_encode _ _ rfl (by simp) (assigned_of_6502 c _ (by decide))

theorem bne (disp : Byte) : Statement (.bne disp) := 
  fun c _ => of_encode _ _ rfl (by simp) (assigned_of_6502 c _ (by decide))

theorem beq (disp : Byte) : Statement (.beq disp) := 
  fun c _ => of_encode _ _ rfl (by simp) (assigned_of_6502 c _ (by decide))

theorem bra (disp : Byte) : Statement (.bra disp) := 
  fun c h => of_encode _ _ rfl (by simp) (assigned_of_cmos c _ h (by decide))

theorem brl (disp : Word) : Statement (.brl disp) := 
  fun c h => of_encode _ _ rfl (Nat.le_of_ble_eq_true rfl) (assigned_of_816 c _ h)

theorem bbr0 (off : Byte) (disp : Byte) : Statement (.bbr0 off disp) := 
  fun c h => of_encode _ _ rfl (by simp) (assigned_of_bitops c _ h (by decide))

theorem bbr1 (off : Byte) (disp : Byte) : Statement (.bbr1 off disp) := 
  fun c h => of_encode _ _ rfl (by simp) (assigned_of_bitops c _ h (by decide))

theorem bbr2 (off : Byte) (disp : Byte) : Statement (.bbr2 off disp) := 
  fun c h => of_encode _ _ rfl (by simp) (assigned_of_bitops c _ h (by decide))

theorem bbr3 (off : Byte) (disp : Byte) : Statement (.bbr3 off disp) := 
  fun c h => of_encode _ _ rfl (by simp) (assigned_of_bitops c _ h (by decide))

theorem bbr4 (off : Byte) (disp : Byte) : Statement (.bbr4 off disp) := 
  fun c h => of_encode _ _ rfl (by simp) (assigned_of_bitops c _ h (by decide))

theorem bbr5 (off : Byte) (disp : Byte) : Statement (.bbr5 off disp) := 
  fun c h => of_encode _ _ rfl (by simp) (assigned_of_bitops c _ h (by decide))

theorem bbr6 (off : Byte) (disp : Byte) : Statement (.bbr6 off disp) := 
  fun c h => of_encode _ _ rfl (by simp) (assigned_of_bitops c _ h (by decide))

theorem bbr7 (off : Byte) (disp : Byte) : Statement (.bbr7 off disp) := 
  fun c h => of_encode _ _ rfl (by simp) (assigned_of_bitops c _ h (by decide))

theorem bbs0 (off : Byte) (disp : Byte) : Statement (.bbs0 off disp) := 
  fun c h => of_encode _ _ rfl (by simp) (assigned_of_bitops c _ h (by decide))

theorem bbs1 (off : Byte) (disp : Byte) : Statement (.bbs1 off disp) := 
  fun c h => of_encode _ _ rfl (by simp) (assigned_of_bitops c _ h (by decide))

theorem bbs2 (off : Byte) (disp : Byte) : Statement (.bbs2 off disp) := 
  fun c h => of_encode _ _ rfl (by simp) (assigned_of_bitops c _ h (by decide))

theorem bbs3 (off : Byte) (disp : Byte) : Statement (.bbs3 off disp) := 
  fun c h => of_encode _ _ rfl (by simp) (assigned_of_bitops c _ h (by decide))

theorem bbs4 (off : Byte) (disp : Byte) : Statement (.bbs4 off disp) := 
  fun c h => of_encode _ _ rfl (by simp) (assigned_of_bitops c _ h (by decide))

theorem bbs5 (off : Byte) (disp : Byte) : Statement (.bbs5 off disp) := 
  fun c h => of_encode _ _ rfl (by simp) (assigned_of_bitops c _ h (by decide))

theorem bbs6 (off : Byte) (disp : Byte) : Statement (.bbs6 off disp) := 
  fun c h => of_encode _ _ rfl (by simp) (assigned_of_bitops c _ h (by decide))

theorem bbs7 (off : Byte) (disp : Byte) : Statement (.bbs7 off disp) := 
  fun c h => of_encode _ _ rfl (by simp) (assigned_of_bitops c _ h (by decide))

theorem jmp (f : JmpForm) : Statement (.jmp f) := by
  intro c h
  cases f
  all_goals first
    | exact of_encode _ _ rfl (by simp [wordBytes]) (assigned_of_6502 c _ (by decide))
    | exact of_encode _ _ rfl (by simp [wordBytes]) (assigned_of_cmos c _ h (by decide))

theorem jml (f : JmlForm) : Statement (.jml f) := by
  intro c h; cases f <;> exact of_encode _ _ rfl (Nat.le_of_ble_eq_true rfl) (assigned_of_816 c _ h)

theorem jsr (f : JsrForm) : Statement (.jsr f) := by
  intro c h
  cases f
  all_goals first
    | exact of_encode _ _ rfl (by simp [wordBytes]) (assigned_of_6502 c _ (by decide))
    | exact of_encode _ _ rfl (by simp [wordBytes]) (assigned_of_816 c _ h)

theorem jsl (addr : Long) : Statement (.jsl addr) := 
  fun c h => of_encode _ _ rfl (Nat.le_of_ble_eq_true rfl) (assigned_of_816 c _ h)

theorem rts : Statement .rts := 
  fun c _ => of_encode _ _ rfl (by simp) (assigned_of_6502 c _ (by decide))

theorem rtl : Statement .rtl := 
  fun c h => of_encode _ _ rfl (Nat.le_of_ble_eq_true rfl) (assigned_of_816 c _ h)

theorem pha : Statement .pha := 
  fun c _ => of_encode _ _ rfl (by simp) (assigned_of_6502 c _ (by decide))

theorem pla : Statement .pla := 
  fun c _ => of_encode _ _ rfl (by simp) (assigned_of_6502 c _ (by decide))

theorem phx : Statement .phx := 
  fun c h => of_encode _ _ rfl (by simp) (assigned_of_cmos c _ h (by decide))

theorem plx : Statement .plx := 
  fun c h => of_encode _ _ rfl (by simp) (assigned_of_cmos c _ h (by decide))

theorem phy : Statement .phy := 
  fun c h => of_encode _ _ rfl (by simp) (assigned_of_cmos c _ h (by decide))

theorem ply : Statement .ply := 
  fun c h => of_encode _ _ rfl (by simp) (assigned_of_cmos c _ h (by decide))

theorem php : Statement .php := 
  fun c _ => of_encode _ _ rfl (by simp) (assigned_of_6502 c _ (by decide))

theorem plp : Statement .plp := 
  fun c _ => of_encode _ _ rfl (by simp) (assigned_of_6502 c _ (by decide))

theorem phb : Statement .phb := 
  fun c h => of_encode _ _ rfl (Nat.le_of_ble_eq_true rfl) (assigned_of_816 c _ h)

theorem plb : Statement .plb := 
  fun c h => of_encode _ _ rfl (Nat.le_of_ble_eq_true rfl) (assigned_of_816 c _ h)

theorem phd : Statement .phd := 
  fun c h => of_encode _ _ rfl (Nat.le_of_ble_eq_true rfl) (assigned_of_816 c _ h)

theorem pld : Statement .pld := 
  fun c h => of_encode _ _ rfl (Nat.le_of_ble_eq_true rfl) (assigned_of_816 c _ h)

theorem phk : Statement .phk := 
  fun c h => of_encode _ _ rfl (Nat.le_of_ble_eq_true rfl) (assigned_of_816 c _ h)

theorem pea (v : Word) : Statement (.pea v) := 
  fun c h => of_encode _ _ rfl (Nat.le_of_ble_eq_true rfl) (assigned_of_816 c _ h)

theorem pei (off : Byte) : Statement (.pei off) := 
  fun c h => of_encode _ _ rfl (Nat.le_of_ble_eq_true rfl) (assigned_of_816 c _ h)

theorem per (disp : Word) : Statement (.per disp) := 
  fun c h => of_encode _ _ rfl (Nat.le_of_ble_eq_true rfl) (assigned_of_816 c _ h)

theorem clc : Statement .clc := 
  fun c _ => of_encode _ _ rfl (by simp) (assigned_of_6502 c _ (by decide))

theorem sec : Statement .sec := 
  fun c _ => of_encode _ _ rfl (by simp) (assigned_of_6502 c _ (by decide))

theorem cli : Statement .cli := 
  fun c _ => of_encode _ _ rfl (by simp) (assigned_of_6502 c _ (by decide))

theorem sei : Statement .sei := 
  fun c _ => of_encode _ _ rfl (by simp) (assigned_of_6502 c _ (by decide))

theorem cld : Statement .cld := 
  fun c _ => of_encode _ _ rfl (by simp) (assigned_of_6502 c _ (by decide))

theorem sed : Statement .sed := 
  fun c _ => of_encode _ _ rfl (by simp) (assigned_of_6502 c _ (by decide))

theorem clv : Statement .clv := 
  fun c _ => of_encode _ _ rfl (by simp) (assigned_of_6502 c _ (by decide))

theorem rep (mask : Byte) : Statement (.rep mask) := 
  fun c h => of_encode _ _ rfl (Nat.le_of_ble_eq_true rfl) (assigned_of_816 c _ h)

theorem sep (mask : Byte) : Statement (.sep mask) := 
  fun c h => of_encode _ _ rfl (Nat.le_of_ble_eq_true rfl) (assigned_of_816 c _ h)

theorem xce : Statement .xce := 
  fun c h => of_encode _ _ rfl (Nat.le_of_ble_eq_true rfl) (assigned_of_816 c _ h)

theorem mvn (dst : Byte) (src : Byte) : Statement (.mvn dst src) := 
  fun c h => of_encode _ _ rfl (Nat.le_of_ble_eq_true rfl) (assigned_of_816 c _ h)

theorem mvp (dst : Byte) (src : Byte) : Statement (.mvp dst src) := 
  fun c h => of_encode _ _ rfl (Nat.le_of_ble_eq_true rfl) (assigned_of_816 c _ h)

theorem brk : Statement .brk := 
  fun c _ => of_encode _ _ rfl (by simp) (assigned_of_6502 c _ (by decide))

theorem cop : Statement .cop := 
  fun c h => of_encode _ _ rfl (Nat.le_of_ble_eq_true rfl) (assigned_of_816 c _ h)

theorem rti : Statement .rti := 
  fun c _ => of_encode _ _ rfl (by simp) (assigned_of_6502 c _ (by decide))

theorem wai : Statement .wai := 
  fun c h => of_encode _ _ rfl (by simp) (assigned_of_cmos c _ h (by decide))

theorem stp : Statement .stp := 
  fun c h => of_encode _ _ rfl (by simp) (assigned_of_cmos c _ h (by decide))

theorem nop : Statement .nop := 
  fun c _ => of_encode _ _ rfl (by simp) (assigned_of_6502 c _ (by decide))

theorem wdm (v : Byte) : Statement (.wdm v) := 
  fun c h => of_encode _ _ rfl (Nat.le_of_ble_eq_true rfl) (assigned_of_816 c _ h)

theorem illegal (op : Byte) : Statement (.illegal op) := 
  fun _ _ => ⟨op, [], rfl, by simp, .inr rfl⟩

end Sys2Proof.Laws.EncodedLength
end

