-- ==== Sys2Proof/Laws/Shapes.lean ====
section
/-! SUPPORT. The shapes the statements use, met once by the operation each shape is built on: reading, storing,
modifying, pushing, pulling; and the flag lemmas they need. -/

namespace Sys2Proof.Machine

theorem and_twoPow_ne_zero (v : Word) (n : Nat) (hn : n < 16) : (v &&& BitVec.twoPow 16 n != 0) = v.getLsbD n := by
  rw [BitVec.and_twoPow]
  cases h : v.getLsbD n
  · simp
  · have : BitVec.twoPow 16 n ≠ 0#16 := by
      intro h0
      have := congrArg (fun x => x.getLsbD n) h0
      simp [hn] at this
    simpa using this

/-- The sign bit of a value is bit `w-1` (10_state.md R33). -/
theorem signBit_eq (v : Word) (w : Width) : signBit v w = v.getLsbD (w.bits - 1) := by
  cases w
  · exact and_twoPow_ne_zero v 7 (by omega)
  · exact and_twoPow_ne_zero v 15 (by omega)

/-- `SetNZ` has its frame, from any state with the flags of `s`. -/
theorem nzFrame_setNZ {s u : State} (v : Word) (w : Width) (hp : u.p = s.p) : NZFrame v w s (u.setNZ v w) := by
  have hf : ∀ f, u.flag f = s.flag f := fun f => by simp [State.flag, hp]
  refine ⟨by simp [signBit_eq], by simp [beq_eq_decide], fun f h1 h2 => by simp [h1, h2, hf]⟩

theorem flag_congr {s t : State} (h : t.p = s.p) (f : Flag) : t.flag f = s.flag f := by simp [State.flag, h]

/-- States with the registers of `s` but the scratch counter are `s` with traffic. -/
theorem withTraffic_of_sameRegs {s t : State} (h : SameRegs { s with excycles := t.excycles } t) :
    t = s.withTraffic t := h

/-- A reading instruction: it completes where its operand lies in memory, and its next state is `f` of the operand
and the state after the read. -/
theorem completesReading {i : Instr} {w : Width} {o : Operand} {s : State} {post : Word → State → Prop}
    {f : Word → State → State} (hmem : s.operandInMemory w o = true)
    (hexec : exec i s = finish (readOperand w o s >>= fun x => pure (f x.1 x.2)))
    (hf : ∀ m u, (f m u).irq = u.irq ∧ (f m u).mem = u.mem ∧ (f m u).ioTrace = u.ioTrace ∧ (f m u).cfg = u.cfg)
    (hcycles : ∀ m u, (f m u).excycles = u.excycles)
    (hpost : ∀ m u, readOperand w o s = .ok (m, u) → u = s.withTraffic u → m &&& w.mask = m → post m (f m u)) :
    CompletesReading i w o s post := by
  obtain ⟨m, u, h⟩ := readOperand_completes hmem
  obtain ⟨r, k, hm⟩ := readOperand_spec h
  obtain ⟨f1, f2, f3, f4⟩ := hf m u
  refine ⟨m, u, f m u, h, by rw [hexec, h]; rfl, hcycles m u, ?_, hpost m u h r hm⟩
  exact (k.of_eq ⟨rfl, rfl, rfl, rfl⟩ ⟨f4, f3, f1, f2⟩).frame

/-- The two bytes of a datum are at different addresses. -/
theorem Ea.next_ne (ea : Ea) (s : State) : (ea.next s).toNat ≠ ea.addr.toNat := by
  intro heq
  have heq' : ea.next s = ea.addr := BitVec.eq_of_toNat_eq heq
  unfold Ea.next at heq'
  cases hcl : ea.cls <;> simp only [hcl] at heq'
  · have h2 := congrArg BitVec.toNat heq'
    have hlt := ea.addr.isLt
    rw [BitVec.toNat_and, BitVec.toNat_add] at h2
    unfold State.addrMask at h2
    split at h2
    · have h3 := Nat.and_two_pow_sub_one_eq_mod ((ea.addr.toNat + 1) % 2 ^ 24) 24
      simp at h2 h3
      omega
    · have h3 := Nat.and_two_pow_sub_one_eq_mod ((ea.addr.toNat + 1) % 2 ^ 24) 16
      simp at h2 h3
      omega
  · have h2 := congrArg (fun a => (offOf a).toNat) heq'
    simp only [offOf_mkLong] at h2
    rw [BitVec.toNat_add] at h2
    have := (offOf ea.addr).isLt
    simp at h2
    omega

/-- The observed accesses between two states are what the record grew by. -/
theorem accessesSince_eq {s t : State} {new : List IoRecord} (h : t.ioTrace = new ++ s.ioTrace) :
    accessesSince s t = new := by
  simp [accessesSince, h]

/-- A datum written at an effective address is there, but for the bytes that are an observer's. -/
theorem wr_storedAt {ea : Ea} {w : Width} {v : Word} {s t : State} (h : wr ea w v s = .ok t)
    (hw : s.mem.wf = true) : StoredAt ea w v s t := by
  unfold wr at h
  simp only [bind_ok] at h
  obtain ⟨s1, h1, h⟩ := h
  obtain ⟨r1, t1⟩ := memWrite1_spec h1
  have low : ea.addr.toNat ∉ s.cfg.ioWrite → s1.mem.read ea.addr.toNat = loByte v := by
    intro hio
    rw [memWrite1_unbound h1 hio]
    exact Memory.read_write_same _ _ hw
  cases w
  · cases pure_ok.1 h
    intro c hc hio _
    simp only [Ea.cells, List.mem_singleton] at hc
    subst hc
    exact low hio
  · obtain ⟨r2, t2⟩ := memWrite1_spec h
    rw [r1.eaNext] at t2 h
    intro c hc hio ho
    simp only [Ea.cells, List.mem_cons, List.not_mem_nil, or_false] at hc
    rcases hc with rfl | rfl
    · rw [← low hio]
      refine t2.memFrame (t1.wf hw) _ (.inl (by simpa using (ea.next_ne s).symm)) fun ho2 => ho ?_
      obtain ⟨n1, hn1, -⟩ := t1.trace
      obtain ⟨n2, hn2, -⟩ := t2.trace
      obtain ⟨r, hr, c, hc, ha⟩ := ho2
      refine ⟨r, ?_, c, hc, ha⟩
      rw [accessesSince_eq hn2] at hr
      rw [accessesSince_eq (show _ = (n2 ++ n1) ++ s.ioTrace by rw [hn2, hn1, List.append_assoc])]
      exact List.mem_append_left _ hr
    · rw [memWrite1_unbound h (by rw [t1.cfg]; exact hio)]
      exact Memory.read_write_same _ _ (t1.wf hw)

/-- What is asked of the bytes of a datum depends on the parameters and on the datum up to its width. -/
theorem cells_congr {s s' : State} {v v' : Word} {w : Width} (hc : s'.cfg = s.cfg)
    (hv : v' &&& w.mask = v &&& w.mask) (ea : Ea) : ea.cells w v' s' = ea.cells w v s := by
  have hn : ea.next s' = ea.next s := by simp [Ea.next, State.addrMask, State.is816, hc]
  cases w
  · rw [and_mask8, and_mask8] at hv
    have := congrArg loByte hv
    rw [loByte_zext, loByte_zext] at this
    simp [Ea.cells, this]
  · rw [and_mask16, and_mask16] at hv
    simp [Ea.cells, hv, hn]

theorem storedAt_congr {ea : Ea} {w : Width} {v v' : Word} {s s' t : State} (h : StoredAt ea w v s t)
    (hc : s'.cfg = s.cfg) (ht : s'.ioTrace = s.ioTrace) (hv : v' &&& w.mask = v &&& w.mask) :
    StoredAt ea w v' s' t := by
  intro c hcell hio ho
  rw [cells_congr hc hv] at hcell
  rw [hc] at hio
  exact h c hcell hio (by simpa [ObserverStored, accessesSince, ht] using ho)

theorem storeEvents_congr {s s' : State} {v v' : Word} {w : Width} (hc : s'.cfg = s.cfg)
    (hv : v' &&& w.mask = v &&& w.mask) (ea : Ea) : ea.storeEvents w v' s' = ea.storeEvents w v s := by
  simp only [Ea.storeEvents, cells_congr hc hv, hc]

/-- A store completes where its datum lies in memory. -/
theorem completesStoring {i : Instr} {m : Mem} {w : Width} {v v' : Word} {s : State} (hm : s.inMemory w m = true)
    (hexec : exec i s = finish (storeThrough w m v s)) (hv : v' &&& w.mask = v &&& w.mask) :
    CompletesStoring i m w v' s := by
  obtain ⟨t, h⟩ := storeThrough_completes (v := v) hm
  have h' := h
  simp only [storeThrough, bind_ok, Prod.exists] at h'
  obtain ⟨ea, u, h1, h2⟩ := h'
  obtain ⟨r1, t1, -⟩ := effAddr_spec h1
  obtain ⟨r, ea', u', h1', k⟩ := storeThrough_spec h
  rw [h1] at h1'
  cases h1'
  refine ⟨ea, u, t, h1, by rw [hexec, h]; rfl, r, (wr_spec h2).1.excycles, k.frame, ?_, fun hw => ?_⟩
  · rw [storeEvents_congr (s := u) t1.cfg.symm hv]
    exact wr_recorded h2
  · exact storedAt_congr (wr_storedAt h2 (t1.wf hw)) rfl rfl hv

/-- A read-modify-write of memory completes where its datum lies in memory. -/
theorem completesModifying {i : Instr} {m : Mem} {s : State} {new : Word → Word} {flags : Word → State → Prop}
    {f : Word → State → Word × State} (hf : FlagsOnly f) (hm : s.inMemory s.wA m = true)
    (hexec : exec i s = finish (modify (.mem m) f s))
    (hnew : ∀ old u, old &&& s.wA.mask = old → u = s.withTraffic u → new old &&& s.wA.mask = (f old u).1 &&& s.wA.mask)
    (hflags : ∀ old u t, old &&& s.wA.mask = old → u = s.withTraffic u → t.p = (f old u).2.p → flags old t) :
    CompletesModifying i m s new flags := by
  obtain ⟨t, h⟩ := modify_completes (g := .mem m) hf hm
  have h' := h
  simp only [modify, bind_ok, Prod.exists] at h'
  obtain ⟨ea, u, h1, old, u', h2, h3⟩ := h'
  obtain ⟨r1, t1, -⟩ := effAddr_spec h1
  have hw1 : u.wA = s.wA := by rw [r1]; rfl
  rw [hw1] at h2
  obtain ⟨r2, t2⟩ := rd_spec h2
  obtain ⟨ea', u1, old', u1', g1, g2, g3, g4⟩ := modify_mem_spec hf h
  rw [h1] at g1
  cases g1
  rw [h2] at g2
  cases g2
  have hu' : u' = s.withTraffic u' := by
    have hx : u'.excycles = u.excycles := r2.excycles
    unfold SameRegs State.withTraffic at *
    rw [r2, r1]
  have hold := rd_lt h2
  obtain ⟨e3, m3, -⟩ := hf old u'
  have hw2 : (f old u').2.wA = s.wA := by
    rw [wA_congr (s := u') (by rw [e3]) (by rw [e3]) m3, r2.wA, hw1]
  rw [hw2] at h3
  have c3 : (f old u').2.cfg = u'.cfg := by rw [e3]
  have i3 : (f old u').2.ioTrace = u'.ioTrace := by rw [e3]
  refine ⟨ea, u, old, u', t, h1, h2, by rw [hexec, h]; rfl, hflags old u' t hold hu' (by rw [g3]), ?_, ?_, g4.frame,
    ?_, ?_, ?_⟩
  · unfold SameRegs State.withTraffic at *
    rw [g3]
  · rw [(wr_spec h3).1.excycles, e3]
    exact r2.excycles
  · have := rd_recorded h2
    rwa [Ea.readEvents, bytes_congr t1.cfg, t1.cfg] at this
  · have := wr_recorded h3
    rw [← storeEvents_congr (v' := new old) (s' := s) (by rw [c3, t2.cfg, t1.cfg]) (hnew old u' hold hu')] at this
    rwa [Recorded, i3] at this
  · intro hwf
    refine storedAt_congr (wr_storedAt h3 ?_) c3.symm i3.symm (hnew old u' hold hu')
    rw [e3]; exact t2.wf (t1.wf hwf)

/-- A push of bytes completes from every state. -/
theorem completesPushing {i : Instr} {bytes : List Byte} {s : State} {e : Except Fault State}
    (hexec : exec i s = finish e) (hok : ∃ t, e = .ok t)
    (hspec : ∀ t, e = .ok t → SameRegs { s with sp := s.spAfterPush bytes.length } t ∧
      Traffic (s.pushBytes bytes.length) s t)
    (hplain : s.Unobserved → e = .ok (s.pushed bytes)) : CompletesPushing i bytes s := by
  obtain ⟨t, h⟩ := hok
  obtain ⟨r, k⟩ := hspec t h
  refine ⟨t, by rw [hexec, h]; rfl, ?_, k.frame, fun hu => ?_⟩
  · unfold SameRegs State.withTraffic at *
    rw [r]
  · have := (h.symm.trans (hplain hu)); cases this; rfl

theorem completesPushing8 {i : Instr} {v : Byte} {s : State}
    (hexec : exec i s = finish (push8 v s)) : CompletesPushing i [v] s :=
  completesPushing hexec (push8_completes v s) (fun _ => push8_spec) push8_plain

theorem completesPushing16 {i : Instr} {v : Word} {s : State}
    (hexec : exec i s = finish (push16 v s)) : CompletesPushing i [hiByte v, loByte v] s :=
  completesPushing hexec (push16_completes v s) (fun _ => push16_spec) push16_plain

/-- A pull at a width, with no observer bound. -/
theorem pullW_plain {w : Width} {s : State} (hu : s.Unobserved) :
    pullW w s = .ok (s.pulled w, { s with sp := s.spAfterPull w.count }) := by
  cases w
  · simp only [pullW, pull8_plain hu, ok_bind]; rfl
  · exact pull16_plain hu

/-- A pull completes from every state. -/
theorem completesPulling {i : Instr} {w : Width} {s : State} {post : Word → State → Prop}
    {f : Word → State → State}
    (hexec : exec i s = finish (pullW w s >>= fun x => pure (f x.1 x.2)))
    (hf : ∀ m u, (f m u).irq = u.irq ∧ (f m u).mem = u.mem ∧ (f m u).ioTrace = u.ioTrace ∧ (f m u).cfg = u.cfg)
    (hpost : ∀ v u, SameRegs { s with sp := s.spAfterPull w.count } u → v &&& w.mask = v → post v (f v u)) :
    CompletesPulling i w s post := by
  obtain ⟨v, u, h⟩ := pullW_completes w s
  obtain ⟨r, k, hm⟩ := pullW_spec h
  obtain ⟨f1, f2, f3, f4⟩ := hf v u
  refine ⟨v, f v u, by rw [hexec, h]; rfl, (k.of_eq ⟨rfl, rfl, rfl, rfl⟩ ⟨f4, f3, f1, f2⟩).frame, fun hu => ?_,
    hpost v u r hm⟩
  rw [pullW_plain hu] at h
  cases h
  rfl

theorem Exc.frame_length (e : Exc) (ret : Word) (s : State) : (e.frame ret s).length = s.excCount := by
  unfold Exc.frame State.excCount
  split <;> rfl

/-- The entry of an event, as the statements say it (60_exceptions.md R413). -/
theorem entersHandler (e : Exc) (ret : Word) (s : State) :
    ∃ t, takeException e ret s = .ok t ∧
      EntersHandler s t ret (e.image s) (e.vector s.native) (e.clearsD s) := by
  obtain ⟨t, h⟩ := takeException_completes e ret s
  obtain ⟨r, k⟩ := takeException_spec h
  have hfr : (if s.native then [s.pbr] else []) ++ [hiByte ret, loByte ret, e.image s] = e.frame ret s := rfl
  have hp : t.p = (e.mask s).p := r.p
  have hcd : e.clearsD (s.setFlag .I true) = e.clearsD s := Exc.clearsD_congr rfl
  have hflag : ∀ f, t.flag f = ((if e.clearsD s then (s.setFlag .I true).setFlag .D false else s.setFlag .I true) : State).flag f := by
    intro f
    rw [flag_congr hp]
    unfold Exc.mask
    dsimp only
    rw [hcd]
    split <;> split <;> rfl
  refine ⟨t, h, ?_, ?_, ?_, ?_, ?_, ?_⟩
  · rw [hfr, Exc.frame_length]
    have hpbr : (e.mask s).pbr = if s.is816 then 0 else s.pbr := by
      unfold Exc.mask
      dsimp only
      cases h8 : s.is816 <;> split <;> simp_all [State.is816]
    unfold SameRegs State.withTraffic at *
    rw [hpbr] at r
    rw [r]
  · rw [hflag]; split <;> simp
  · rw [hflag]; split <;> simp [*]
  · intro f h1 h2; rw [hflag]; split <;> simp [h1, h2]
  · rw [hfr, Exc.frame_length]; exact k.frame
  · intro hu
    rw [takeException_plain hu] at h
    cases h
    rw [hfr]
    have hm : (e.mask (s.pushed (e.frame ret s))).mem = (s.pushed (e.frame ret s)).mem := by rw [Exc.mask_regs]
    have hv : (e.vector s.native + 1).toNat = (e.vector s.native).toNat + 1 := by
      cases e <;> cases s.native <;> rfl
    refine ⟨hm, ?_⟩
    dsimp only
    rw [hm, hv]

end Sys2Proof.Machine
end

