-- ==== Sys2Proof/Tests/Slice0.lean ====
section
/-! SUPPORT. Tests on fixed values, and a witness for the hypotheses of each statement. The words and the step tests
are from the spec: `V<n>` is vector n of 95_test_vectors.md, other numbers are a rule's own example. -/

namespace Sys2Proof.Tests

open Sys2Proof Sys2Proof.Machine

def c6502 : DecodeCtx := ⟨.v6502, true, true, true⟩
def c65C02 : DecodeCtx := ⟨.v65C02, true, true, true⟩
def c65C02NoBits : DecodeCtx := ⟨.v65C02, false, true, true⟩
def c8 : DecodeCtx := ⟨.v65816, true, true, true⟩
def c16 : DecodeCtx := ⟨.v65816, true, false, false⟩

/-! Ill-formed terms: one for each check of `Instr.wf`. -/

theorem test_wf_immediate_of_the_wrong_width :
    (Instr.wf c8 (.lda (.imm (.word 0x1234))) || Instr.wf c16 (.adc (.imm (.byte 0x12))) ||
      Instr.wf c8 (.ldx (.imm (.word 0x1234))) || Instr.wf c16 (.cpy (.imm (.byte 0x12))) ||
      Instr.wf c16 (.bit (.imm (.byte 0x12)))) = false := by decide

theorem test_wf_group_one_formats :
    (Instr.wf c6502 (.ora (.mem (.izp 0x12))) || Instr.wf c65C02 (.sta (.sr 0x12)) ||
      Instr.wf c65C02 (.lda (.mem (.abl 0x123456))) || Instr.wf c8 (.sbc (.mem (.dpy 0x12)))) = false := by decide

theorem test_wf_index_formats :
    (Instr.wf c8 (.ldx (.mem (.dpx 0x12))) || Instr.wf c8 (.ldy (.mem (.aby 0x1234))) ||
      Instr.wf c8 (.cpx (.mem (.dpx 0x12))) || Instr.wf c8 (.cpy (.mem (.abx 0x1234))) ||
      Instr.wf c8 (.stx (.aby 0x1234)) || Instr.wf c8 (.sty (.abx 0x1234))) = false := by decide

theorem test_wf_stz_bit_and_test_and_modify :
    (Instr.wf c6502 (.stz (.dp 0x12)) || Instr.wf c8 (.stz (.aby 0x1234)) ||
      Instr.wf c6502 (.bit (.imm (.byte 0x12))) || Instr.wf c6502 (.bit (.mem (.dpx 0x12))) ||
      Instr.wf c8 (.bit (.mem (.izy 0x12))) || Instr.wf c6502 (.tsb (.dp 0x12)) ||
      Instr.wf c8 (.trb (.dpx 0x12))) = false := by decide

theorem test_wf_targets :
    (Instr.wf c6502 (.inc .acc) || Instr.wf c6502 (.dec .acc) || Instr.wf c8 (.asl (.mem (.dpy 0x12))) ||
      Instr.wf c8 (.ror (.mem (.izx 0x12)))) = false := by decide

theorem test_wf_transfers_of_the_65816 :
    ([.txy, .tyx, .tcd, .tdc, .tcs, .tsc, .xba].any fun i => Instr.wf c65C02 i) = false := by decide

theorem test_wf_single_bit_instructions :
    ((Instr.wf c6502 (.rmb0 0x12) || Instr.wf c8 (.smb7 0x12)) ||
      (Instr.wf c65C02NoBits (.bbr3 0x12 0x34) || Instr.wf c8 (.bbs4 0x12 0x34))) = false := by decide

theorem test_wf_control :
    (Instr.wf c6502 (.bra 0x12) || Instr.wf c65C02 (.brl 0x1234) || Instr.wf c6502 (.jmp (.iax 0x1234)) ||
      Instr.wf c65C02 (.jml (.abl 0x123456)) || Instr.wf c65C02 (.jsr (.iax 0x1234)) ||
      Instr.wf c65C02 (.jsl 0x123456) || Instr.wf c65C02 .rtl) = false := by decide

theorem test_wf_stack :
    (([.phx, .plx, .phy, .ply].any fun i => Instr.wf c6502 i) ||
      [.phb, .plb, .phd, .pld, .phk, .pea 0x1234, .pei 0x12, .per 0x1234].any fun i => Instr.wf c65C02 i) =
      false := by decide

theorem test_wf_status_block_and_system :
    (([.rep 0x30, .sep 0x30, .xce, .mvn 0x01 0x02, .mvp 0x01 0x02, .cop,
        .wdm 0x12].any fun i => Instr.wf c65C02 i) ||
      [.wai, .stp].any fun i => Instr.wf c6502 i) = false := by decide

theorem test_wf_fallback_only_where_unassigned :
    (Instr.wf c6502 (.illegal 0xEA) || Instr.wf c8 (.illegal 0x42)) = false ∧
      Instr.wf c6502 (.illegal 0x02) = true := by decide

/-! Decoding: words written out from the "Encodings" lines of 41 to 48, one at least per constructor. -/

/-- Each word decodes, whole, to its instruction; the instruction is well formed and encodes to the word. -/
def reads (rows : List (DecodeCtx × List Byte × Instr)) : Bool :=
  rows.all fun (c, bytes, i) =>
    (match decode c bytes with
      | .ok (j, rest) => j == i && rest == []
      | .error _ => false) && i.wf c && encode i == bytes

theorem test_decode_load_store_transfer_1 :
    reads
      [(c6502, [0b10100001, 0x12], .lda (.mem (.izx 0x12))),
       (c8, [0b10100011, 0x12], .lda (.mem (.sr 0x12))),
       (c6502, [0b10100101, 0x12], .lda (.mem (.dp 0x12))),
       (c8, [0b10100111, 0x12], .lda (.mem (.idl 0x12))),
       (c6502, [0b10101001, 0x12], .lda (.imm (.byte 0x12))),
       (c16, [0b10101001, 0x34, 0x12], .lda (.imm (.word 0x1234))),
       (c6502, [0b10101101, 0x34, 0x12], .lda (.mem (.abs 0x1234))),
       (c8, [0b10101111, 0x56, 0x34, 0x12], .lda (.mem (.abl 0x123456))),
       (c6502, [0b10110001, 0x12], .lda (.mem (.izy 0x12))),
       (c65C02, [0b10110010, 0x12], .lda (.mem (.izp 0x12))),
       (c8, [0b10110011, 0x12], .lda (.mem (.sry 0x12))),
       (c6502, [0b10110101, 0x12], .lda (.mem (.dpx 0x12))),
       (c8, [0b10110111, 0x12], .lda (.mem (.idly 0x12))),
       (c6502, [0b10111001, 0x34, 0x12], .lda (.mem (.aby 0x1234))),
       (c6502, [0b10111101, 0x34, 0x12], .lda (.mem (.abx 0x1234))),
       (c8, [0b10111111, 0x56, 0x34, 0x12], .lda (.mem (.alx 0x123456))),
       (c6502, [0b10100010, 0x12], .ldx (.imm (.byte 0x12))),
       (c16, [0b10100010, 0x34, 0x12], .ldx (.imm (.word 0x1234))),
       (c6502, [0b10100110, 0x12], .ldx (.mem (.dp 0x12))),
       (c6502, [0b10101110, 0x34, 0x12], .ldx (.mem (.abs 0x1234))),
       (c6502, [0b10110110, 0x12], .ldx (.mem (.dpy 0x12))),
       (c6502, [0b10111110, 0x34, 0x12], .ldx (.mem (.aby 0x1234))),
       (c6502, [0b10100000, 0x12], .ldy (.imm (.byte 0x12))),
       (c16, [0b10100000, 0x34, 0x12], .ldy (.imm (.word 0x1234)))] = true := by decide

theorem test_decode_load_store_transfer_2 :
    reads
      [(c6502, [0b10100100, 0x12], .ldy (.mem (.dp 0x12))),
       (c6502, [0b10101100, 0x34, 0x12], .ldy (.mem (.abs 0x1234))),
       (c6502, [0b10110100, 0x12], .ldy (.mem (.dpx 0x12))),
       (c6502, [0b10111100, 0x34, 0x12], .ldy (.mem (.abx 0x1234))),
       (c6502, [0b10000001, 0x12], .sta (.izx 0x12)),
       (c8, [0b10000011, 0x12], .sta (.sr 0x12)),
       (c6502, [0b10000101, 0x12], .sta (.dp 0x12)),
       (c8, [0b10000111, 0x12], .sta (.idl 0x12)),
       (c6502, [0b10001101, 0x34, 0x12], .sta (.abs 0x1234)),
       (c8, [0b10001111, 0x56, 0x34, 0x12], .sta (.abl 0x123456)),
       (c6502, [0b10010001, 0x12], .sta (.izy 0x12)),
       (c65C02, [0b10010010, 0x12], .sta (.izp 0x12)),
       (c8, [0b10010011, 0x12], .sta (.sry 0x12)),
       (c6502, [0b10010101, 0x12], .sta (.dpx 0x12)),
       (c8, [0b10010111, 0x12], .sta (.idly 0x12)),
       (c6502, [0b10011001, 0x34, 0x12], .sta (.aby 0x1234)),
       (c6502, [0b10011101, 0x34, 0x12], .sta (.abx 0x1234)),
       (c8, [0b10011111, 0x56, 0x34, 0x12], .sta (.alx 0x123456)),
       (c6502, [0b10000110, 0x12], .stx (.dp 0x12)),
       (c6502, [0b10000100, 0x12], .sty (.dp 0x12)),
       (c65C02, [0b01100100, 0x12], .stz (.dp 0x12)),
       (c65C02, [0b01110100, 0x12], .stz (.dpx 0x12)),
       (c65C02, [0b10011100, 0x34, 0x12], .stz (.abs 0x1234)),
       (c65C02, [0b10011110, 0x34, 0x12], .stz (.abx 0x1234))] = true := by decide

theorem test_decode_load_store_transfer_3 :
    reads
      [(c6502, [0b10101010], .tax),
       (c6502, [0b10101000], .tay),
       (c6502, [0b10001010], .txa),
       (c6502, [0b10011000], .tya),
       (c6502, [0b10111010], .tsx),
       (c6502, [0b10011010], .txs),
       (c8, [0b10011011], .txy),
       (c8, [0b10111011], .tyx),
       (c8, [0b01011011], .tcd),
       (c8, [0b01111011], .tdc),
       (c8, [0b00011011], .tcs),
       (c8, [0b00111011], .tsc),
       (c8, [0b11101011], .xba)] = true := by decide

theorem test_decode_arithmetic :
    reads
      [(c6502, [0b01100001, 0x12], .adc (.mem (.izx 0x12))),
       (c6502, [0b11100001, 0x12], .sbc (.mem (.izx 0x12))),
       (c6502, [0b11000001, 0x12], .cmp (.mem (.izx 0x12))),
       (c6502, [0b11100000, 0x12], .cpx (.imm (.byte 0x12))),
       (c16, [0b11100000, 0x34, 0x12], .cpx (.imm (.word 0x1234))),
       (c6502, [0b11000000, 0x12], .cpy (.imm (.byte 0x12))),
       (c16, [0b11000000, 0x34, 0x12], .cpy (.imm (.word 0x1234))),
       (c65C02, [0b00011010], .inc .acc),
       (c6502, [0b11100110, 0x12], .inc (.mem (.dp 0x12))),
       (c6502, [0b11101110, 0x34, 0x12], .inc (.mem (.abs 0x1234))),
       (c6502, [0b11110110, 0x12], .inc (.mem (.dpx 0x12))),
       (c6502, [0b11111110, 0x34, 0x12], .inc (.mem (.abx 0x1234))),
       (c65C02, [0b00111010], .dec .acc),
       (c65C02, [0b00111010], .dec .acc),
       (c6502, [0b11101000], .inx),
       (c6502, [0b11001000], .iny),
       (c6502, [0b11001010], .dex),
       (c6502, [0b10001000], .dey)] = true := by decide

theorem test_decode_logic_and_shift :
    reads
      [(c6502, [0b00100001, 0x12], .and (.mem (.izx 0x12))),
       (c6502, [0b00000001, 0x12], .ora (.mem (.izx 0x12))),
       (c6502, [0b01000001, 0x12], .eor (.mem (.izx 0x12))),
       (c6502, [0b00100100, 0x12], .bit (.mem (.dp 0x12))),
       (c6502, [0b00101100, 0x34, 0x12], .bit (.mem (.abs 0x1234))),
       (c65C02, [0b00110100, 0x12], .bit (.mem (.dpx 0x12))),
       (c65C02, [0b00111100, 0x34, 0x12], .bit (.mem (.abx 0x1234))),
       (c65C02, [0b10001001, 0x12], .bit (.imm (.byte 0x12))),
       (c16, [0b10001001, 0x34, 0x12], .bit (.imm (.word 0x1234))),
       (c65C02, [0b00000100, 0x12], .tsb (.dp 0x12)),
       (c65C02, [0b00010100, 0x12], .trb (.dp 0x12)),
       (c6502, [0b00000110, 0x12], .asl (.mem (.dp 0x12))),
       (c6502, [0b00001010], .asl .acc),
       (c6502, [0b01000110, 0x12], .lsr (.mem (.dp 0x12))),
       (c6502, [0b01001010], .lsr .acc),
       (c6502, [0b00100110, 0x12], .rol (.mem (.dp 0x12))),
       (c6502, [0b00101010], .rol .acc),
       (c6502, [0b01100110, 0x12], .ror (.mem (.dp 0x12))),
       (c6502, [0b01101010], .ror .acc)] = true := by decide

theorem test_decode_single_bit :
    reads
      [(c65C02, [0b00000111, 0x12], .rmb0 0x12),
       (c65C02, [0b00010111, 0x12], .rmb1 0x12),
       (c65C02, [0b00100111, 0x12], .rmb2 0x12),
       (c65C02, [0b00110111, 0x12], .rmb3 0x12),
       (c65C02, [0b01000111, 0x12], .rmb4 0x12),
       (c65C02, [0b01010111, 0x12], .rmb5 0x12),
       (c65C02, [0b01100111, 0x12], .rmb6 0x12),
       (c65C02, [0b01110111, 0x12], .rmb7 0x12),
       (c65C02, [0b10000111, 0x12], .smb0 0x12),
       (c65C02, [0b10010111, 0x12], .smb1 0x12),
       (c65C02, [0b10100111, 0x12], .smb2 0x12),
       (c65C02, [0b10110111, 0x12], .smb3 0x12),
       (c65C02, [0b11000111, 0x12], .smb4 0x12),
       (c65C02, [0b11010111, 0x12], .smb5 0x12),
       (c65C02, [0b11100111, 0x12], .smb6 0x12),
       (c65C02, [0b11110111, 0x12], .smb7 0x12)] = true := by decide

theorem test_decode_branch :
    reads
      [(c6502, [0b00010000, 0x12], .bpl 0x12),
       (c6502, [0b00110000, 0x12], .bmi 0x12),
       (c6502, [0b01010000, 0x12], .bvc 0x12),
       (c6502, [0b01110000, 0x12], .bvs 0x12),
       (c6502, [0b10010000, 0x12], .bcc 0x12),
       (c6502, [0b10110000, 0x12], .bcs 0x12),
       (c6502, [0b11010000, 0x12], .bne 0x12),
       (c6502, [0b11110000, 0x12], .beq 0x12),
       (c65C02, [0b10000000, 0x12], .bra 0x12),
       (c8, [0b10000010, 0x34, 0x12], .brl 0x1234)] = true := by decide

theorem test_decode_bit_branch :
    reads
      [(c65C02, [0b00001111, 0x01, 0x02], .bbr0 0x01 0x02),
       (c65C02, [0b00011111, 0x01, 0x02], .bbr1 0x01 0x02),
       (c65C02, [0b00101111, 0x01, 0x02], .bbr2 0x01 0x02),
       (c65C02, [0b00111111, 0x01, 0x02], .bbr3 0x01 0x02),
       (c65C02, [0b01001111, 0x01, 0x02], .bbr4 0x01 0x02),
       (c65C02, [0b01011111, 0x01, 0x02], .bbr5 0x01 0x02),
       (c65C02, [0b01101111, 0x01, 0x02], .bbr6 0x01 0x02),
       (c65C02, [0b01111111, 0x01, 0x02], .bbr7 0x01 0x02),
       (c65C02, [0b10001111, 0x01, 0x02], .bbs0 0x01 0x02),
       (c65C02, [0b10011111, 0x01, 0x02], .bbs1 0x01 0x02),
       (c65C02, [0b10101111, 0x01, 0x02], .bbs2 0x01 0x02),
       (c65C02, [0b10111111, 0x01, 0x02], .bbs3 0x01 0x02),
       (c65C02, [0b11001111, 0x01, 0x02], .bbs4 0x01 0x02),
       (c65C02, [0b11011111, 0x01, 0x02], .bbs5 0x01 0x02),
       (c65C02, [0b11101111, 0x01, 0x02], .bbs6 0x01 0x02),
       (c65C02, [0b11111111, 0x01, 0x02], .bbs7 0x01 0x02)] = true := by decide

theorem test_decode_jump :
    reads
      [(c6502, [0b01001100, 0x34, 0x12], .jmp (.abj 0x1234)),
       (c6502, [0b01101100, 0x34, 0x12], .jmp (.ind 0x1234)),
       (c65C02, [0b01111100, 0x34, 0x12], .jmp (.iax 0x1234)),
       (c8, [0b01011100, 0x56, 0x34, 0x12], .jml (.abl 0x123456)),
       (c8, [0b11011100, 0x34, 0x12], .jml (.ial 0x1234)),
       (c6502, [0b00100000, 0x34, 0x12], .jsr (.abj 0x1234)),
       (c8, [0b11111100, 0x34, 0x12], .jsr (.iax 0x1234)),
       (c8, [0b00100010, 0x56, 0x34, 0x12], .jsl 0x123456),
       (c6502, [0b01100000], .rts),
       (c8, [0b01101011], .rtl)] = true := by decide

theorem test_decode_stack :
    reads
      [(c6502, [0b01001000], .pha),
       (c6502, [0b01101000], .pla),
       (c65C02, [0b11011010], .phx),
       (c65C02, [0b11111010], .plx),
       (c65C02, [0b01011010], .phy),
       (c65C02, [0b01111010], .ply),
       (c6502, [0b00001000], .php),
       (c6502, [0b00101000], .plp),
       (c8, [0b10001011], .phb),
       (c8, [0b10101011], .plb),
       (c8, [0b00001011], .phd),
       (c8, [0b00101011], .pld),
       (c8, [0b01001011], .phk),
       (c8, [0b11110100, 0x34, 0x12], .pea 0x1234),
       (c8, [0b11010100, 0x12], .pei 0x12),
       (c8, [0b01100010, 0x34, 0x12], .per 0x1234)] = true := by decide

theorem test_decode_status :
    reads
      [(c6502, [0b00011000], .clc),
       (c6502, [0b00111000], .sec),
       (c6502, [0b01011000], .cli),
       (c6502, [0b01111000], .sei),
       (c6502, [0b11011000], .cld),
       (c6502, [0b11111000], .sed),
       (c6502, [0b10111000], .clv),
       (c8, [0b11000010, 0x12], .rep 0x12),
       (c8, [0b11100010, 0x12], .sep 0x12),
       (c8, [0b11111011], .xce)] = true := by decide

theorem test_decode_system :
    reads
      [(c8, [0b01010100, 0x01, 0x02], .mvn 0x01 0x02),
       (c8, [0b01000100, 0x01, 0x02], .mvp 0x01 0x02),
       (c6502, [0b00000000], .brk),
       (c8, [0b00000010], .cop),
       (c6502, [0b01000000], .rti),
       (c65C02, [0b11001011], .wai),
       (c65C02, [0b11011011], .stp),
       (c6502, [0b11101010], .nop),
       (c8, [0b01000010, 0x12], .wdm 0x12)] = true := by decide

theorem test_decode_illegal :
    reads
      [(c6502, [0b00000010], .illegal 0x02), (c6502, [0b10000000], .illegal 0x80),
       (c65C02, [0b00000011], .illegal 0x03), (c65C02NoBits, [0b00000111], .illegal 0x07)] = true := by decide

/-- Whether the decoder's table has an instruction for the opcode. -/
def hasEntry (c : DecodeCtx) (op : Byte) : Bool :=
  match decode c [op, 0x00, 0x00, 0x00] with
  | .ok (.illegal _, _) => false
  | _ => true

theorem test_maps_agree_6502 :
    ((List.range 256).all fun n => hasEntry c6502 (BitVec.ofNat 8 n) == assigned c6502 (BitVec.ofNat 8 n)) = true := by
  decide +kernel

theorem test_maps_agree_65C02 :
    ((List.range 256).all fun n =>
      hasEntry c65C02 (BitVec.ofNat 8 n) == assigned c65C02 (BitVec.ofNat 8 n)) = true := by decide +kernel

theorem test_maps_agree_65816 :
    ((List.range 256).all fun n => hasEntry c8 (BitVec.ofNat 8 n) && assigned c8 (BitVec.ofNat 8 n)) = true := by
  decide +kernel

theorem test_decode_truncated :
    (match decode c6502 [0xAD, 0x34] with | .error e => e == .truncated 0xAD | .ok _ => false) = true ∧
      (match decode c6502 [] with | .error e => e == .noOpcode | .ok _ => false) = true := by decide

theorem test_table_words :
    decodeTableWord 8 0xA9 = some (.lda (.imm (.byte 0x00))) ∧
      decodeTableWord 24 0x123420 = some (.jsr (.abj 0x1234)) ∧
      decodeTableWord 8 0x00 = some .brk := by decide

/-! Single steps. -/

/-- A machine after reset with memory and the base program counter of 95_test_vectors.md section 1. -/
def machine (v : Variant) (pc : Word) (cells : List Host.Cell) : State :=
  { State.construct (Config.default v) cells with pc := pc }

def m6502 (cells : List Host.Cell) : State := machine .v6502 0x0600 cells
def m65C02 (cells : List Host.Cell) : State := machine .v65C02 0x0600 cells
def m65816 (cells : List Host.Cell) : State := machine .v65816 0x8000 cells

/-- What is asked of the state after one step, if the step has one. -/
def after {α : Type} (s : State) (view : State → α) : Option α :=
  match step s with
  | .next t => some (view t)
  | _ => none

theorem test_step_runs_the_fetch_word :
    after (State.reset.withFetchWord 8 0xEA) (fun t => (t.pc, t.processorCycles)) = some (0x0001, 2) := by
  decide

theorem test_step_runs_the_fetch_word_lda :
    after (State.reset.withFetchWord 16 0x80A9) (fun t => (t.pc, t.a, t.flag .N)) =
      some (0x0002, 0x0080, true) := by decide

/-! Loads, stores and transfers. -/

theorem test_lda_V1 : after { m6502 [(0x0010, 0x77), (0x0600, 0xB5), (0x0601, 0xF0)] with x := 0x0020, p := 0x34 }
    (fun t => (t.a, t.p, t.pc)) = some (0x0077, 0x34, 0x0602) := by decide
theorem test_lda_V19 :
    after { m65816 [(0x0000, 0x34), (0x0001, 0x02), (0x8000, 0xA7), (0x8001, 0xFF), (0xFFFF, 0x56), (0x23456, 0x77)] with
        p := 0x34, dpr := 0xFF00, mode := .native }
      (fun t => (t.a, t.p, t.pc)) = some (0x0077, 0x34, 0x8002) := by decide

theorem test_ldx_V5 : after { m6502 [(0x0001, 0x44), (0x0600, 0xB6), (0x0601, 0xFF)] with y := 0x0002, p := 0x34 }
    (fun t => (t.x, t.p, t.pc)) = some (0x0044, 0x34, 0x0602) := by decide

theorem test_ldy_V31 :
    after { m65816 [(0x8000, 0xA0), (0x8001, 0x34), (0x8002, 0x12)] with p := 0x24, mode := .native }
      (fun t => (t.y, t.p, t.pc)) = some (0x1234, 0x24, 0x8003) := by decide

theorem test_sta_V33 :
    after { m65816 [(0x8000, 0x8D), (0x8002, 0x20)] with a := 0x1234, p := 0x14, dbr := 0x01, mode := .native }
      (fun t => (t.p, t.pc, t.mem.read 0x12000, t.mem.read 0x12001)) = some (0x14, 0x8003, 0x34, 0x12) := by decide
theorem test_sta_V34 :
    after { m65816 [(0x8000, 0x8D), (0x8002, 0x20)] with
        a := 0x0034, b := 0x12, p := 0x34, dbr := 0x01, mode := .native }
      (fun t => (t.p, t.pc, t.mem.read 0x12000)) = some (0x34, 0x8003, 0x34) := by decide

theorem test_stx_V35 : after { m6502 [(0x0600, 0x86), (0x0601, 0x10)] with x := 0x007F, p := 0x34 }
    (fun t => (t.p, t.pc, t.mem.read 0x0010)) = some (0x34, 0x0602, 0x7F) := by decide

theorem test_sty_V36 : after { m6502 [(0x0600, 0x94), (0x0601, 0xF0)] with x := 0x0020, y := 0x0080, p := 0x34 }
    (fun t => (t.p, t.pc, t.mem.read 0x0010)) = some (0x34, 0x0602, 0x80) := by decide

theorem test_stz_V37 : after { m65C02 [(0x0010, 0xFF), (0x0600, 0x64), (0x0601, 0x10)] with p := 0x34 }
    (fun t => (t.p, t.pc, t.mem.read 0x0010)) = some (0x34, 0x0602, 0x00) := by decide
theorem test_stz_V38 :
    after { m65816 [(0x2000, 0xFF), (0x2001, 0xFF), (0x8000, 0x9C), (0x8002, 0x20)] with
        p := 0x14, mode := .native }
      (fun t => (t.p, t.pc, t.mem.read 0x2000, t.mem.read 0x2001)) = some (0x14, 0x8003, 0x00, 0x00) := by decide

theorem test_tax_V39 : after { m65816 [(0x8000, 0xAA)] with a := 0x0034, b := 0x12, p := 0x24, mode := .native }
    (fun t => (t.x, t.p, t.pc)) = some (0x1234, 0x24, 0x8001) := by decide
theorem test_tax_V40 : after { m65816 [(0x8000, 0xAA)] with a := 0x1280, x := 0x0000, p := 0x14, mode := .native }
    (fun t => (t.x, t.p, t.pc)) = some (0x0080, 0x94, 0x8001) := by decide

theorem test_tay_V41 : after { m65816 [(0x8000, 0xA8)] with a := 0x0000, y := 0x1111, p := 0x04, mode := .native }
    (fun t => (t.y, t.p, t.pc)) = some (0x0000, 0x06, 0x8001) := by decide

theorem test_txa_V43 : after { m65816 [(0x8000, 0x8A)] with a := 0xFFFF, x := 0x0080, p := 0x14, mode := .native }
    (fun t => (t.a, t.p, t.pc)) = some (0x0080, 0x14, 0x8001) := by decide

theorem test_tya_V44 :
    after { m65816 [(0x8000, 0x98)] with a := 0x0011, b := 0x22, y := 0x8000, p := 0x24, mode := .native }
      (fun t => (t.a, t.p, t.pc)) = some (0x0000, 0x26, 0x8001) := by decide

theorem test_tsx_V45 : after { m6502 [(0x0600, 0xBA)] with p := 0x34 }
    (fun t => (t.x, t.p, t.pc)) = some (0x00FF, 0xB4, 0x0601) := by decide
theorem test_tsx_V47 : after { m65816 [(0x8000, 0xBA)] with sp := 0x8234, p := 0x24, mode := .native }
    (fun t => (t.x, t.p, t.pc)) = some (0x8234, 0xA4, 0x8001) := by decide

theorem test_txs_V49 : after { m65816 [(0x8000, 0x9A)] with x := 0x0080, p := 0x34 }
    (fun t => (t.sp, t.p, t.pc)) = some (0x0180, 0x34, 0x8001) := by decide
theorem test_txs_V50 : after { m65816 [(0x8000, 0x9A)] with x := 0x0080, p := 0x34, mode := .native }
    (fun t => (t.sp, t.p, t.pc)) = some (0x0080, 0x34, 0x8001) := by decide

theorem test_txy_V52 : after { m65816 [(0x8000, 0x9B)] with x := 0x8001, p := 0x24, mode := .native }
    (fun t => (t.y, t.p, t.pc)) = some (0x8001, 0xA4, 0x8001) := by decide

theorem test_tyx_V53 : after { m65816 [(0x8000, 0xBB)] with x := 0x0055, y := 0x0000, p := 0x34, mode := .native }
    (fun t => (t.x, t.p, t.pc)) = some (0x0000, 0x36, 0x8001) := by decide

theorem test_tcd_V54 : after { m65816 [(0x8000, 0x5B)] with a := 0x0000, b := 0x20, p := 0x34, mode := .native }
    (fun t => (t.p, t.dpr, t.pc)) = some (0x34, 0x2000, 0x8001) := by decide

theorem test_tdc_V55 : after { m65816 [(0x8000, 0x7B)] with p := 0x34, dpr := 0x8012, mode := .native }
    (fun t => (t.a, t.b, t.p, t.pc)) = some (0x0012, 0x80, 0xB4, 0x8001) := by decide

theorem test_tcs_V56 : after { m65816 [(0x8000, 0x1B)] with a := 0x0080, b := 0x77, p := 0x34 }
    (fun t => (t.sp, t.p, t.pc)) = some (0x0180, 0x34, 0x8001) := by decide
theorem test_tcs_V57 : after { m65816 [(0x8000, 0x1B)] with a := 0x0080, b := 0x77, p := 0x34, mode := .native }
    (fun t => (t.sp, t.p, t.pc)) = some (0x7780, 0x34, 0x8001) := by decide

theorem test_tsc_V58 : after { m65816 [(0x8000, 0x3B)] with p := 0x34 }
    (fun t => (t.a, t.b, t.p, t.pc)) = some (0x00FF, 0x01, 0x34, 0x8001) := by decide

theorem test_xba_V59 : after { m65816 [(0x8000, 0xEB)] with a := 0x0000, b := 0x80, p := 0x34, mode := .native }
    (fun t => (t.a, t.b, t.p, t.pc)) = some (0x0080, 0x00, 0xB4, 0x8001) := by decide
theorem test_xba_V60 : after { m65816 [(0x8000, 0xEB)] with a := 0x1200, p := 0x04, mode := .native }
    (fun t => (t.a, t.p, t.pc)) = some (0x0012, 0x04, 0x8001) := by decide

/-! Arithmetic. -/

theorem test_adc_V66 :
    after { m65816 [(0x8000, 0x69), (0x8001, 0xFF), (0x8002, 0xFF)] with a := 0x0001, p := 0x05, mode := .native }
      (fun t => (t.p, t.pc)) = some (0x05, 0x8003) := by decide
theorem test_adc_V70 : after { m6502 [(0x0600, 0x69), (0x0601, 0x46)] with a := 0x0058, p := 0x3D }
    (fun t => (t.a, t.p, t.pc)) = some (0x0005, 0x3D, 0x0602) := by decide

theorem test_sbc_V81 : after { m65816 [(0x8000, 0xE9), (0x8001, 0x01)] with
    a := 0x8000, p := 0x05, mode := .native }
    (fun t => (t.a, t.p, t.pc)) = some (0x7FFF, 0x45, 0x8003) := by decide
theorem test_sbc_V85 : after { m6502 [(0x0600, 0xE9), (0x0601, 0x21)] with a := 0x0012, p := 0x3D }
    (fun t => (t.a, t.p, t.pc)) = some (0x0091, 0xBC, 0x0602) := by decide

theorem test_cmp_V88 : after { m6502 [(0x0600, 0xC9), (0x0601, 0x20)] with a := 0x0010, p := 0x34 }
    (fun t => (t.p, t.pc)) = some (0xB4, 0x0602) := by decide
theorem test_cmp_V92 : after { m65816 [(0x8000, 0xC9), (0x8002, 0x80)] with
    a := 0x0000, p := 0x04, mode := .native }
    (fun t => (t.p, t.pc)) = some (0x84, 0x8003) := by decide

theorem test_cpx_V94 : after { m65816 [(0x8000, 0xE0), (0x8002, 0x01)] with
    x := 0x00FF, p := 0x24, mode := .native }
    (fun t => (t.p, t.pc)) = some (0xA4, 0x8003) := by decide
theorem test_cpx_V95 : after { m65816 [(0x8000, 0xE0), (0x8001, 0x05)] with x := 0x0006, p := 0x34 }
    (fun t => (t.p, t.pc)) = some (0x35, 0x8002) := by decide

theorem test_cpy_V96 : after { m6502 [(0x0600, 0xC0), (0x0601, 0x10)] with y := 0x000F, p := 0x34 }
    (fun t => (t.p, t.pc)) = some (0xB4, 0x0602) := by decide

theorem test_inc_V98 : after { m6502 [(0x0010, 0xFF), (0x0600, 0xE6), (0x0601, 0x10)] with p := 0x34 }
    (fun t => (t.p, t.pc, t.mem.read 0x0010)) = some (0x36, 0x0602, 0x00) := by decide
theorem test_inc_V100 :
    after { m65816 [(0x2000, 0xFF), (0x8000, 0xEE), (0x8002, 0x20)] with p := 0x14, mode := .native }
      (fun t => (t.p, t.pc, t.mem.read 0x2000, t.mem.read 0x2001)) = some (0x14, 0x8003, 0x00, 0x01) := by decide

theorem test_dec_V102 : after { m6502 [(0x0600, 0xC6), (0x0601, 0x10)] with p := 0x34 }
    (fun t => (t.p, t.pc, t.mem.read 0x0010)) = some (0xB4, 0x0602, 0xFF) := by decide
theorem test_dec_V104 : after { m65816 [(0x8000, 0x3A)] with a := 0x0000, p := 0x14, mode := .native }
    (fun t => (t.a, t.p, t.pc)) = some (0xFFFF, 0x94, 0x8001) := by decide

theorem test_inx_V105 : after { m6502 [(0x0600, 0xE8)] with x := 0x00FF, p := 0x34 }
    (fun t => (t.x, t.p, t.pc)) = some (0x0000, 0x36, 0x0601) := by decide
theorem test_inx_V107 : after { m65816 [(0x8000, 0xE8)] with x := 0xFFFF, p := 0x24, mode := .native }
    (fun t => (t.x, t.p, t.pc)) = some (0x0000, 0x26, 0x8001) := by decide

theorem test_iny_V108 : after { m6502 [(0x0600, 0xC8)] with y := 0x007F, p := 0x34 }
    (fun t => (t.y, t.p, t.pc)) = some (0x0080, 0xB4, 0x0601) := by decide

theorem test_dex_V109 : after { m6502 [(0x0600, 0xCA)] with x := 0x0001, p := 0x34 }
    (fun t => (t.x, t.p, t.pc)) = some (0x0000, 0x36, 0x0601) := by decide
theorem test_dex_V110 : after { m6502 [(0x0600, 0xCA)] with x := 0x0000, p := 0x34 }
    (fun t => (t.x, t.p, t.pc)) = some (0x00FF, 0xB4, 0x0601) := by decide

theorem test_dey_V111 : after { m65816 [(0x8000, 0x88)] with y := 0x0000, p := 0x24, mode := .native }
    (fun t => (t.y, t.p, t.pc)) = some (0xFFFF, 0xA4, 0x8001) := by decide

/-! Logic, bit tests, shifts. -/

theorem test_and_V113 : after { m65816 [(0x8000, 0x29), (0x8001, 0xFF)] with
    a := 0x1234, p := 0x14, mode := .native }
    (fun t => (t.a, t.p, t.pc)) = some (0x0034, 0x14, 0x8003) := by decide
theorem test_and_V114 : after { m65816 [(0x8000, 0x29)] with a := 0x0034, b := 0x12, p := 0x34, mode := .native }
    (fun t => (t.a, t.p, t.pc)) = some (0x0000, 0x36, 0x8002) := by decide

theorem test_ora_V115 : after { m6502 [(0x0600, 0x09), (0x0601, 0x80)] with a := 0x0001, p := 0x34 }
    (fun t => (t.a, t.p, t.pc)) = some (0x0081, 0xB4, 0x0602) := by decide

theorem test_eor_V116 : after { m6502 [(0x0600, 0x49), (0x0601, 0xFF)] with a := 0x00FF, p := 0x34 }
    (fun t => (t.a, t.p, t.pc)) = some (0x0000, 0x36, 0x0602) := by decide
theorem test_eor_V117 :
    after { m65816 [(0x8000, 0x49), (0x8001, 0xFF), (0x8002, 0xFF)] with a := 0x00FF, p := 0x14, mode := .native }
      (fun t => (t.a, t.p, t.pc)) = some (0xFF00, 0x94, 0x8003) := by decide

theorem test_bit_V118 : after { m6502 [(0x0010, 0xC0), (0x0600, 0x24), (0x0601, 0x10)] with a := 0x0001, p := 0x34 }
    (fun t => (t.p, t.pc)) = some (0xF6, 0x0602) := by decide
theorem test_bit_V120 : after { m65C02 [(0x0600, 0x89), (0x0601, 0xC0)] with a := 0x0001, p := 0x34 }
    (fun t => (t.p, t.pc)) = some (0x36, 0x0602) := by decide

theorem test_tsb_V123 : after { m65C02 [(0x0010, 0xF0), (0x0600, 0x04), (0x0601, 0x10)] with
    a := 0x000F, p := 0x34 }
    (fun t => (t.p, t.pc, t.mem.read 0x0010)) = some (0x36, 0x0602, 0xFF) := by decide
theorem test_tsb_V124 : after { m65C02 [(0x0010, 0xF0), (0x0600, 0x04), (0x0601, 0x10)] with
    a := 0x0018, p := 0x34 }
    (fun t => (t.p, t.pc, t.mem.read 0x0010)) = some (0x34, 0x0602, 0xF8) := by decide

theorem test_trb_V125 : after { m65C02 [(0x0010, 0xFF), (0x0600, 0x14), (0x0601, 0x10)] with
    a := 0x000F, p := 0x34 }
    (fun t => (t.p, t.pc, t.mem.read 0x0010)) = some (0x34, 0x0602, 0xF0) := by decide
theorem test_trb_V126 :
    after { m65816 [(0x2000, 0x34), (0x2001, 0x12), (0x8000, 0x1C), (0x8002, 0x20)] with
        a := 0xFF00, p := 0x14, mode := .native }
      (fun t => (t.p, t.pc, t.mem.read 0x2000, t.mem.read 0x2001)) = some (0x14, 0x8003, 0x34, 0x00) := by decide

theorem test_asl_V128 : after { m6502 [(0x0010, 0x40), (0x0600, 0x06), (0x0601, 0x10)] with p := 0x34 }
    (fun t => (t.p, t.pc, t.mem.read 0x0010)) = some (0xB4, 0x0602, 0x80) := by decide
theorem test_asl_V129 : after { m65816 [(0x8000, 0x0A)] with a := 0x8000, p := 0x14, mode := .native }
    (fun t => (t.a, t.p, t.pc)) = some (0x0000, 0x17, 0x8001) := by decide

theorem test_lsr_V131 : after { m6502 [(0x0600, 0x4A)] with a := 0x0001, p := 0x34 }
    (fun t => (t.a, t.p, t.pc)) = some (0x0000, 0x37, 0x0601) := by decide
theorem test_lsr_V132 :
    after { m65816 [(0x2001, 0x01), (0x8000, 0x4E), (0x8002, 0x20)] with p := 0x14, mode := .native }
      (fun t => (t.p, t.pc, t.mem.read 0x2000, t.mem.read 0x2001)) = some (0x14, 0x8003, 0x80, 0x00) := by decide

theorem test_rol_V133 : after { m6502 [(0x0600, 0x2A)] with a := 0x0080, p := 0x35 }
    (fun t => (t.a, t.p, t.pc)) = some (0x0001, 0x35, 0x0601) := by decide
theorem test_rol_V134 : after { m65816 [(0x8000, 0x2A)] with a := 0x8000, p := 0x14, mode := .native }
    (fun t => (t.a, t.p, t.pc)) = some (0x0000, 0x17, 0x8001) := by decide

theorem test_ror_V135 : after { m6502 [(0x0600, 0x6A)] with a := 0x0001, p := 0x34 }
    (fun t => (t.a, t.p, t.pc)) = some (0x0000, 0x37, 0x0601) := by decide
theorem test_ror_V137 : after { m65816 [(0x8000, 0x6A)] with a := 0x0000, p := 0x15, mode := .native }
    (fun t => (t.a, t.p, t.pc)) = some (0x8000, 0x94, 0x8001) := by decide

/-! Single-bit operations. -/

theorem test_rmb3_V139 : after { m65C02 [(0x0010, 0xFF), (0x0600, 0x37), (0x0601, 0x10)] with p := 0x34 }
    (fun t => (t.p, t.pc, t.mem.read 0x0010)) = some (0x34, 0x0602, 0xF7) := by decide

theorem test_smb7_V140 : after { m65C02 [(0x0600, 0xF7), (0x0601, 0x10)] with p := 0x34 }
    (fun t => (t.p, t.pc, t.mem.read 0x0010)) = some (0x34, 0x0602, 0x80) := by decide

/-- Each RMBn on 0xFF and each SMBn on 0x00 at zero-page 0x10 (R260, R261). -/
theorem test_rmb_and_smb_write_their_bit :
    ((List.range 8).all fun n =>
      (after (m65C02 [(0x0010, 0xFF), (0x0600, BitVec.ofNat 8 (16 * n + 7)), (0x0601, 0x10)]) fun t =>
        (t.mem.read 0x0010).toNat) == some (255 - 2 ^ n) &&
      (after (m65C02 [(0x0600, BitVec.ofNat 8 (128 + 16 * n + 7)), (0x0601, 0x10)]) fun t =>
        (t.mem.read 0x0010).toNat) == some (2 ^ n)) = true := by decide

/-! Branches, jumps, subroutines. -/

theorem test_bpl_V141 : after { m6502 [(0x2000, 0x10), (0x2001, 0x05)] with p := 0x34, pc := 0x2000 }
    (fun t => (t.p, t.pc)) = some (0x34, 0x2007) := by decide

theorem test_bmi_V143 : after { m6502 [(0x2000, 0x30), (0x2001, 0xFE)] with p := 0xB4, pc := 0x2000 }
    (fun t => (t.p, t.pc)) = some (0xB4, 0x2000) := by decide

theorem test_bvc_V144 : after { m6502 [(0x0600, 0x50), (0x0601, 0x10)] with p := 0x74 }
    (fun t => (t.p, t.pc)) = some (0x74, 0x0602) := by decide

theorem test_bvs_V145 : after { m6502 [(0x0600, 0x70), (0x0601, 0x10)] with p := 0x74 }
    (fun t => (t.p, t.pc)) = some (0x74, 0x0612) := by decide

theorem test_bcc_V146 : after { m6502 [(0x0600, 0x90), (0x0601, 0x80)] with p := 0x34 }
    (fun t => (t.p, t.pc)) = some (0x34, 0x0582) := by decide

theorem test_bcs_V147 : after { m6502 [(0x0600, 0xB0), (0x0601, 0x7F)] with p := 0x35 }
    (fun t => (t.p, t.pc)) = some (0x35, 0x0681) := by decide

theorem test_bne_V28 : after { m6502 [(0xFFFC, 0xD0), (0xFFFD, 0x05)] with p := 0x34, pc := 0xFFFC }
    (fun t => (t.p, t.pc)) = some (0x34, 0x0003) := by decide
theorem test_bne_V149 : after { m6502 [(0x0602, 0xD0), (0x0603, 0xFD)] with p := 0x36, pc := 0x0602 }
    (fun t => (t.p, t.pc)) = some (0x36, 0x0604) := by decide

theorem test_beq_V150 : after { m6502 [(0x0600, 0xF0), (0x0601, 0x02)] with p := 0x36 }
    (fun t => (t.p, t.pc)) = some (0x36, 0x0604) := by decide

theorem test_bra_V151 : after { m65C02 [(0x0600, 0x80), (0x0601, 0x10)] with p := 0x34 }
    (fun t => (t.p, t.pc)) = some (0x34, 0x0612) := by decide

theorem test_brl_V153 : after { m65816 [(0x8000, 0x82), (0x8002, 0x80)] with p := 0x34, mode := .native }
    (fun t => (t.p, t.pc)) = some (0x34, 0x0003) := by decide

theorem test_bbr0_V154 :
    after { m65C02 [(0x0010, 0xFE), (0x3000, 0x0F), (0x3001, 0x10), (0x3002, 0x02)] with p := 0x34, pc := 0x3000 }
      (fun t => (t.p, t.pc)) = some (0x34, 0x3005) := by decide

theorem test_bbs7_V156 :
    after { m65C02 [(0x0010, 0x80), (0x3000, 0xFF), (0x3001, 0x10), (0x3002, 0xFD)] with p := 0x34, pc := 0x3000 }
      (fun t => (t.p, t.pc)) = some (0x34, 0x3000) := by decide

theorem test_jmp_V25 :
    after { m65816 [(0xFFFF, 0xEE), (0x30000, 0x12), (0x38000, 0x7C), (0x38001, 0xFF), (0x38002, 0xFF), (0x3FFFF, 0x34)] with
        x := 0x0000, p := 0x24, pbr := 0x03, pc := 0x8000, mode := .native }
      (fun t => (t.p, t.pc)) = some (0x24, 0x1234) := by decide
theorem test_jmp_V158 :
    after { m6502 [(0x0600, 0x6C), (0x0601, 0xFF), (0x0602, 0x10), (0x1000, 0x12), (0x10FF, 0x34), (0x1100, 0x56)] with
        p := 0x34 }
      (fun t => (t.p, t.pc)) = some (0x34, 0x1234) := by decide

theorem test_jml_V26 :
    after { m65816 [(0x0000, 0x90), (0x0001, 0x02), (0x8000, 0xDC), (0x8001, 0xFF), (0x8002, 0xFF)] with
        p := 0x34, mode := .native }
      (fun t => (t.p, t.pbr, t.pc)) = some (0x34, 0x02, 0x9000) := by decide
theorem test_jml_V161 :
    after { m65816 [(0x8000, 0x5C), (0x8002, 0x80), (0x8003, 0x02)] with p := 0x34, mode := .native }
      (fun t => (t.p, t.pbr, t.pc)) = some (0x34, 0x02, 0x8000) := by decide

theorem test_jsr_V162 : after { m6502 [(0x0600, 0x20), (0x0602, 0x30)] with p := 0x34 }
    (fun t => (t.sp, t.p, t.pc, t.mem.read 0x01FF, t.mem.read 0x01FE)) = some (0x00FD, 0x34, 0x3000, 0x06,
        0x02) := by decide
theorem test_jsr_V164 :
    after { m65816 [(0x18000, 0xFC), (0x18002, 0x90), (0x19002, 0x34), (0x19003, 0x12)] with
        x := 0x0002, p := 0x24, pbr := 0x01, pc := 0x8000, mode := .native }
      (fun t => (t.sp, t.p, t.pc, t.mem.read 0x01FF, t.mem.read 0x01FE)) = some (0x01FD, 0x24, 0x1234, 0x80,
          0x02) := by decide

theorem test_jsl_V165 :
    after { m65816 [(0x18000, 0x22), (0x18002, 0x90), (0x18003, 0x02)] with
        p := 0x34, pbr := 0x01, pc := 0x8000, mode := .native }
      (fun t => (t.sp, t.p, t.pbr, t.pc, t.mem.read 0x01FF, t.mem.read 0x01FE, t.mem.read 0x01FD))
          = some (0x01FC, 0x34, 0x02, 0x9000, 0x01, 0x80, 0x03) := by decide

theorem test_rts_V163 :
    after { m6502 [(0x01FE, 0x02), (0x01FF, 0x06), (0x3000, 0x60)] with sp := 0x00FD, p := 0x34, pc := 0x3000 }
      (fun t => (t.sp, t.p, t.pc)) = some (0x00FF, 0x34, 0x0603) := by decide
theorem test_rts_V167 :
    after { m6502 [(0x0100, 0xFF), (0x0101, 0xFF), (0x3000, 0x60)] with sp := 0x00FF, p := 0x34, pc := 0x3000 }
      (fun t => (t.sp, t.p, t.pc)) = some (0x0001, 0x34, 0x0000) := by decide

theorem test_rtl_V166 :
    after { m65816 [(0x01FD, 0x03), (0x01FE, 0x80), (0x01FF, 0x01), (0x29000, 0x6B)] with
        sp := 0x01FC, p := 0x34, pbr := 0x02, pc := 0x9000, mode := .native }
      (fun t => (t.sp, t.p, t.pbr, t.pc)) = some (0x01FF, 0x34, 0x01, 0x8004) := by decide

/-- Each BBRn, on a byte with every bit but n set and on one with bit n alone, displacement 0x10 (R291). -/
theorem test_bbr_branches_on_its_bit_clear :
    ((List.range 8).all fun n =>
      let code (v : Byte) := m65C02 [(0x0010, v), (0x0600, BitVec.ofNat 8 (16 * n + 15)), (0x0601, 0x10),
          (0x0602, 0x10)]
      (after (code (BitVec.ofNat 8 (255 - 2 ^ n))) fun t => t.pc) == some 0x0613 &&
      (after (code (BitVec.ofNat 8 (2 ^ n))) fun t => t.pc) == some 0x0603) = true := by decide

/-- Each BBSn on the same bytes (R292). -/
theorem test_bbs_branches_on_its_bit_set :
    ((List.range 8).all fun n =>
      let code (v : Byte) :=
        m65C02 [(0x0010, v), (0x0600, BitVec.ofNat 8 (128 + 16 * n + 15)), (0x0601, 0x10), (0x0602, 0x10)]
      (after (code (BitVec.ofNat 8 (2 ^ n))) fun t => t.pc) == some 0x0613 &&
      (after (code (BitVec.ofNat 8 (255 - 2 ^ n))) fun t => t.pc) == some 0x0603) = true := by decide

/-! Stack. -/

theorem test_pha_V169 : after { m65816 [(0x8000, 0x48)] with a := 0x1234, p := 0x14, mode := .native }
    (fun t => (t.sp, t.p, t.pc, t.mem.read 0x01FF, t.mem.read 0x01FE)) = some (0x01FD, 0x14, 0x8001, 0x12,
        0x34) := by decide
theorem test_pha_V170 : after { m6502 [(0x0600, 0x48)] with a := 0x0042, sp := 0x0000, p := 0x34 }
    (fun t => (t.sp, t.p, t.pc, t.mem.read 0x0100)) = some (0x00FF, 0x34, 0x0601, 0x42) := by decide

theorem test_pla_V171 : after { m6502 [(0x01FF, 0x80), (0x0600, 0x68)] with sp := 0x00FE, p := 0x34 }
    (fun t => (t.a, t.sp, t.p, t.pc)) = some (0x0080, 0x00FF, 0xB4, 0x0601) := by decide
theorem test_pla_V172 : after { m65816 [(0x8000, 0x68)] with sp := 0x01FD, p := 0x14, mode := .native }
    (fun t => (t.sp, t.p, t.pc)) = some (0x01FF, 0x16, 0x8001) := by decide

theorem test_phx_V173 : after { m65C02 [(0x0600, 0xDA)] with x := 0x0011, p := 0x34 }
    (fun t => (t.sp, t.p, t.pc, t.mem.read 0x01FF)) = some (0x00FE, 0x34, 0x0601, 0x11) := by decide

theorem test_plx_V174 :
    after { m65816 [(0x01FE, 0x34), (0x01FF, 0x80), (0x8000, 0xFA)] with sp := 0x01FD, p := 0x24, mode := .native }
      (fun t => (t.x, t.sp, t.p, t.pc)) = some (0x8034, 0x01FF, 0xA4, 0x8001) := by decide

theorem test_phy_V175 : after { m65816 [(0x8000, 0x5A)] with y := 0x1234, p := 0x24, mode := .native }
    (fun t => (t.sp, t.p, t.pc, t.mem.read 0x01FF, t.mem.read 0x01FE)) = some (0x01FD, 0x24, 0x8001, 0x12,
        0x34) := by decide

theorem test_ply_V176 : after { m65C02 [(0x0600, 0x7A)] with sp := 0x00FE, p := 0x34 }
    (fun t => (t.sp, t.p, t.pc)) = some (0x00FF, 0x36, 0x0601) := by decide

theorem test_php_V177 : after { m6502 [(0x0600, 0x08)] with p := 0x3C }
    (fun t => (t.sp, t.p, t.pc, t.mem.read 0x01FF)) = some (0x00FE, 0x3C, 0x0601, 0x3C) := by decide
theorem test_php_V178 : after { m65816 [(0x8000, 0x08)] with p := 0x05, mode := .native }
    (fun t => (t.sp, t.p, t.pc, t.mem.read 0x01FF)) = some (0x01FE, 0x05, 0x8001, 0x05) := by decide

theorem test_plp_V180 :
    after { m65816 [(0x8000, 0x28)] with a := 0x0034, b := 0x12, sp := 0x01FE, p := 0x30, mode := .native }
      (fun t => (t.a, t.b, t.sp, t.p, t.pc)) = some (0x1234, 0x00, 0x01FF, 0x00, 0x8001) := by decide
theorem test_plp_V181 :
    after { m65816 [(0x01FF, 0x30), (0x8000, 0x28)] with
        a := 0x1234, x := 0x5678, y := 0x9ABC, sp := 0x01FE, p := 0x00, mode := .native }
      (fun t => (t.a, t.b, t.x, t.y, t.sp, t.p, t.pc)) = some (0x0034, 0x12, 0x0078, 0x00BC, 0x01FF, 0x30,
          0x8001) := by decide

theorem test_phb_V182 : after { m65816 [(0x8000, 0x8B)] with p := 0x34, dbr := 0x03, mode := .native }
    (fun t => (t.sp, t.p, t.pc, t.mem.read 0x01FF)) = some (0x01FE, 0x34, 0x8001, 0x03) := by decide

theorem test_plb_V183 :
    after { m65816 [(0x01FF, 0x80), (0x8000, 0xAB)] with sp := 0x01FE, p := 0x34, mode := .native }
      (fun t => (t.sp, t.p, t.dbr, t.pc)) = some (0x01FF, 0xB4, 0x80, 0x8001) := by decide

theorem test_phd_V184 : after { m65816 [(0x8000, 0x0B)] with p := 0x34, dpr := 0x1234, mode := .native }
    (fun t => (t.sp, t.p, t.pc, t.mem.read 0x01FF, t.mem.read 0x01FE)) = some (0x01FD, 0x34, 0x8001, 0x12,
        0x34) := by decide

theorem test_pld_V185 :
    after { m65816 [(0x01FF, 0x80), (0x8000, 0x2B)] with sp := 0x01FD, p := 0x34, mode := .native }
      (fun t => (t.sp, t.p, t.dpr, t.pc)) = some (0x01FF, 0xB4, 0x8000, 0x8001) := by decide

theorem test_phk_V186 : after { m65816 [(0x38000, 0x4B)] with
    p := 0x34, pbr := 0x03, pc := 0x8000, mode := .native }
    (fun t => (t.sp, t.p, t.pc, t.mem.read 0x01FF)) = some (0x01FE, 0x34, 0x8001, 0x03) := by decide

theorem test_pea_V187 :
    after { m65816 [(0x8000, 0xF4), (0x8001, 0x34), (0x8002, 0x12)] with p := 0x34, mode := .native }
      (fun t => (t.sp, t.p, t.pc, t.mem.read 0x01FF, t.mem.read 0x01FE)) = some (0x01FD, 0x34, 0x8003, 0x12,
          0x34) := by decide
theorem test_pea_V188 : after { m65816 [(0x8000, 0xF4), (0x8001, 0x34), (0x8002, 0x12)] with
    sp := 0x0100, p := 0x34 }
    (fun t => (t.sp, t.p, t.pc, t.mem.read 0x0100, t.mem.read 0x01FF)) = some (0x01FE, 0x34, 0x8003, 0x12,
        0x34) := by decide

theorem test_pei_V189 :
    after { m65816 [(0x0000, 0x12), (0x8000, 0xD4), (0x8001, 0xFF), (0xFFFF, 0x34)] with
        p := 0x34, dpr := 0xFF00, mode := .native }
      (fun t => (t.sp, t.p, t.pc, t.mem.read 0x01FF, t.mem.read 0x01FE)) = some (0x01FD, 0x34, 0x8002, 0x12,
          0x34) := by decide

theorem test_per_V190 : after { m65816 [(0x8000, 0x62), (0x8001, 0x10)] with p := 0x34, mode := .native }
    (fun t => (t.sp, t.p, t.pc, t.mem.read 0x01FF, t.mem.read 0x01FE)) = some (0x01FD, 0x34, 0x8003, 0x80,
        0x13) := by decide

/-! Status and mode. -/

theorem test_clc_V191 : after { m6502 [(0x0600, 0x18)] with p := 0xFF }
    (fun t => (t.p, t.pc)) = some (0xFE, 0x0601) := by decide

theorem test_sec_V192 : after { m6502 [(0x0600, 0x38)] with p := 0x34 }
    (fun t => (t.p, t.pc)) = some (0x35, 0x0601) := by decide

theorem test_cli_V193 : after { m6502 [(0x0600, 0x58)] with p := 0x34 }
    (fun t => (t.p, t.pc)) = some (0x30, 0x0601) := by decide

theorem test_sei_V194 : after { m6502 [(0x0600, 0x78)] with p := 0x30 }
    (fun t => (t.p, t.pc)) = some (0x34, 0x0601) := by decide

theorem test_cld_V195 : after { m6502 [(0x0600, 0xD8)] with p := 0x3C }
    (fun t => (t.p, t.pc)) = some (0x34, 0x0601) := by decide

theorem test_sed_V196 : after { m6502 [(0x0600, 0xF8)] with p := 0x34 }
    (fun t => (t.p, t.pc)) = some (0x3C, 0x0601) := by decide

theorem test_clv_V197 : after { m6502 [(0x0600, 0xB8)] with p := 0x74 }
    (fun t => (t.p, t.pc)) = some (0x34, 0x0601) := by decide

theorem test_rep_V198 :
    after { m65816 [(0x8000, 0xC2), (0x8001, 0x30)] with
        a := 0x0034, b := 0x12, x := 0x00FF, p := 0x34, mode := .native }
      (fun t => (t.a, t.b, t.p, t.pc)) = some (0x1234, 0x00, 0x04, 0x8002) := by decide
theorem test_rep_V204 : after { m65816 [(0x8000, 0xC2), (0x8001, 0x30)] with p := 0x34 }
    (fun t => (t.p, t.pc)) = some (0x34, 0x8002) := by decide

theorem test_sep_V199 : after { m65816 [(0x8000, 0xE2), (0x8001, 0x20)] with
    a := 0x1234, p := 0x04, mode := .native }
    (fun t => (t.a, t.b, t.p, t.pc)) = some (0x0034, 0x12, 0x24, 0x8002) := by decide
theorem test_sep_V201 :
    after { m65816 [(0x8000, 0xE2), (0x8001, 0x10)] with x := 0x1234, y := 0xFF00, p := 0x04, mode := .native }
      (fun t => (t.x, t.y, t.p, t.pc)) = some (0x0034, 0x0000, 0x14, 0x8002) := by decide

/-- V207's second step: into native mode (R369). -/
theorem test_xce_to_native : after { m65816 [(0x8000, 0xFB)] with p := 0x34 }
    (fun t => (t.mode, t.p, t.sp, t.pc)) = some (.native, 0x35, 0x01FF, 0x8001) := by decide
/-- Into emulation: wide registers narrow, `b` keeps the accumulator's high byte,
    the stack goes to page 1 (R369). -/
theorem test_xce_to_emulation :
    after { m65816 [(0x8000, 0xFB)] with p := 0x05, mode := .native, a := 0x1234, x := 0x5678, sp := 0x3456 }
      (fun t => (t.mode, t.p, t.a, t.b, t.x, t.sp)) = some (.emulation, 0x34, 0x0034, 0x12, 0x0078, 0x0156) := by
  decide

/-! Block move. -/

theorem test_mvn_V214 :
    after { m65816 [(0x0010, 0x77), (0x8000, 0x54), (0x8001, 0x01)] with
        a := 0x0000, b := 0x00, x := 0x0010, y := 0x0020, p := 0x34, mode := .native }
      (fun t => (t.a, t.b, t.x, t.y, t.p, t.dbr, t.pc, t.mem.read 0x10020)) = some (0x00FF, 0xFF, 0x0011, 0x0021,
          0x34, 0x01, 0x8003, 0x77) := by decide
theorem test_mvn_V215 :
    after { m65816 [(0x0010, 0x77), (0x8000, 0x54)] with
        a := 0x0000, b := 0x01, x := 0x0010, y := 0x0020, p := 0x34 }
      (fun t => (t.a, t.b, t.x, t.y, t.p, t.pc, t.mem.read 0x0020)) = some (0x00FF, 0x00, 0x0011, 0x0021, 0x34,
          0x8000, 0x77) := by decide

/-- MVP descends and repeats until the counter has passed zero (R381, R382). -/
theorem test_mvp_descends :
    after { m65816 [(0x8000, 0x44), (0x8001, 0x02), (0x8002, 0x01), (0x11002, 0xAA)] with
        p := 0x04, mode := .native, a := 0x0001, x := 0x1002, y := 0x2002 }
      (fun t => (t.a, t.x, t.y, t.dbr, t.pc, t.mem.read 0x22002)) =
      some (0x0000, 0x1001, 0x2001, 0x02, 0x8000, 0xAA) := by decide

/-! Software interrupts, returns, waits. -/

theorem test_brk_V219 :
    after { m65C02 [(0xFFFF, 0x90)] with
        p := 0x38, pc := 0x0605, cfg := { Config.default .v65C02 with c02BrkClearsD := true } }
      (fun t => (t.sp, t.p, t.pc, t.mem.read 0x01FF, t.mem.read 0x01FE, t.mem.read 0x01FD)) = some (0x00FC, 0x34,
          0x9000, 0x06, 0x07, 0x38) := by decide
theorem test_brk_V221 : after { m65816 [(0xFFE7, 0x90)] with p := 0x09, pbr := 0x01, pc := 0x8000, mode := .native }
    (fun t => (t.sp, t.p, t.pbr, t.pc, t.mem.read 0x01FF, t.mem.read 0x01FE, t.mem.read 0x01FD,
        t.mem.read 0x01FC)) = some (0x01FB, 0x05, 0x00, 0x9000, 0x01, 0x80, 0x02, 0x09) := by decide

theorem test_cop_V222 : after { m65816 [(0x8000, 0x02), (0xFFF5, 0xA0)] with p := 0x38 }
    (fun t => (t.sp, t.p, t.pc, t.mem.read 0x01FF, t.mem.read 0x01FE, t.mem.read 0x01FD)) = some (0x01FC, 0x34,
        0xA000, 0x80, 0x02, 0x28) := by decide
theorem test_cop_V223 :
    after { m65816 [(0xFFE5, 0xA0), (0x18000, 0x02)] with p := 0x09, pbr := 0x01, pc := 0x8000, mode := .native }
      (fun t => (t.sp, t.p, t.pbr, t.pc, t.mem.read 0x01FF, t.mem.read 0x01FE, t.mem.read 0x01FD,
          t.mem.read 0x01FC)) = some (0x01FB, 0x05, 0x00, 0xA000, 0x01, 0x80, 0x02, 0x09) := by decide

theorem test_rti_V225 :
    after { m65816 [(0x01FD, 0x03), (0x01FE, 0x80), (0x01FF, 0x01), (0x9000, 0x40)] with
        a := 0x0034, b := 0x12, sp := 0x01FB, p := 0x34, pbr := 0x00, pc := 0x9000, mode := .native }
      (fun t => (t.a, t.b, t.sp, t.p, t.pbr, t.pc)) = some (0x1234, 0x00, 0x01FF, 0x00, 0x01, 0x8003) := by decide
theorem test_rti_V226 :
    after { m65816 [(0x01FE, 0x03), (0x01FF, 0x80), (0x0200, 0x01), (0x9000, 0x40)] with
        sp := 0x01FC, p := 0x34, pbr := 0x00, pc := 0x9000 }
      (fun t => (t.sp, t.p, t.pc)) = some (0x01FF, 0x30, 0x8003) := by decide

theorem test_wai_V227 : after { m65C02 [(0x0600, 0xCB)] with p := 0x34 }
    (fun t => (t.p, t.waiting, t.pc)) = some (0x34, true, 0x0601) := by decide

theorem test_stp_V229 : after { m65C02 [(0x0600, 0xDB)] with p := 0x34 }
    (fun t => (t.p, t.waiting, t.pc)) = some (0x34, true, 0x0601) := by decide

theorem test_nop_V230 : after { m6502 [(0x0600, 0xEA)] with p := 0x34 }
    (fun t => (t.p, t.pc)) = some (0x34, 0x0601) := by decide

theorem test_wdm_V231 : after { m65816 [(0x8000, 0x42), (0x8001, 0xFF)] with p := 0x34, mode := .native }
    (fun t => (t.p, t.pc)) = some (0x34, 0x8002) := by decide

/-- R397, V232. -/
theorem test_illegal_V232 : (match step { m6502 [(0x0600, 0x02)] with p := 0x34 } with
    | .fault (.illegalOpcode op addr t) => (op, addr, t.pc, t.sp) == (0x02, 0x0600, 0x0600, 0x00FF)
    | _ => false) = true := by decide

/-- R416, V233 (NMOS LAX is not implemented). -/
theorem test_illegal_V233 : (match step { m6502 [(0x0600, 0xA7), (0x0601, 0x10)] with p := 0x34 } with
    | .fault (.illegalOpcode op addr t) => (op, addr, t.pc) == (0xA7, 0x0600, 0x0600)
    | _ => false) = true := by decide

/-! Cycles (R471, R472), and the engine. -/

/-- The cycles of one step from each state. -/
def cyclesOf (states : List State) : List (Option Nat) := states.map fun s => after s (·.processorCycles)

/-- Width and direct-page adjustments: LDA dp, INC dp, LDA and LDX immediate, PHA, STX abs at 16 bits. -/
theorem test_cycles_wide :
    cyclesOf ([[0xA5, 0x10], [0xE6, 0x10], [0xA9, 0x00], [0xA2, 0x00], [0x48], [0x8E, 0x00, 0x20]].map fun code =>
      ({ m65816 [] with p := 0x04, mode := .native, dpr := 0x0001 } : State).storeAtPc code) =
      [some 5, some 8, some 3, some 3, some 4, some 5] := by decide

/-- LDA abs,X: nothing crossed, a page crossed, a bank crossed, and a 16-bit X. -/
theorem test_cycles_indexed_reads :
    cyclesOf ([(0x14, 0x0001), (0x14, 0x00FF), (0x04, 0x0001), (0x04, 0x1000)].map fun (p, x) =>
      ({ m65816 [] with p := p, mode := .native, x := x } : State).storeAtPc [0xBD, 0x01, 0xF0]) =
      [some 5, some 6, some 6, some 6] := by decide

/-- BRK and RTI by mode. -/
theorem test_cycles_by_mode :
    cyclesOf ([CpuMode.native, .emulation].flatMap fun mode =>
      [[0x00], [0x40]].map fun code => ({ m65816 [] with mode := mode } : State).storeAtPc code) =
      [some 8, some 7, some 7, some 6] := by decide

/-- Decimal ADC costs a cycle on the 65C02 and none on the 6502. -/
theorem test_cycles_decimal :
    cyclesOf [({ m65C02 [] with p := 0x3C } : State).storeAtPc [0x69, 0x01],
      ({ m6502 [] with p := 0x3C } : State).storeAtPc [0x69, 0x01]] = [some 3, some 2] := by decide

/-- BBR0 taken, taken across a page, and BBS0 not taken. -/
theorem test_cycles_bit_branches :
    cyclesOf [(m65C02 []).storeAtPc [0x0F, 0x10, 0x02], (m65C02 []).storeAtPc [0x0F, 0x10, 0x80],
      (m65C02 []).storeAtPc [0x8F, 0x10, 0x02]] = [some 6, some 7, some 5] := by decide

/-- A poll that raises the line ends a wait inside `stepTo` (R426, R427). -/
theorem test_poll_ends_a_wait :
    let e := Engine.create (Config.default .v65C02) [(0x0000, 0xCB), (0x0001, 0xEA)] []
    (Engine.stepTo 4 0x0002 (e [⟨none, []⟩, ⟨some true, [(0x0010, 0x55)]⟩])).2 = .returned 0x0002 ∧
      (Engine.stepTo 4 0x0002 (e [])).2 = .stillRunning := by
  constructor <;> decide

/-- The hooks of a step that leaves memory (R426, R437; log 13). -/
theorem test_engine_out_of_bounds :
    let e := (Engine.create (Config.default .v65816) [(0x0000, 0xAF), (0x0003, 0xFF)] [] []).step
    e.2 = true ∧ e.1.defined = false ∧
      e.1.hooks = [.stopOnException (.addressOutOfBounds 0xFF0000), .callStackEntry none, .callStackExit 0] := by
  refine ⟨?_, ?_, ?_⟩ <;> decide

/-! Witnesses: for each statement with hypotheses, a state and operands that meet them all together. -/

/-- A 6502 whose memory is empty. -/
def w6502 : State := machine .v6502 0x0600 []

/-- A 65816 with all 2^24 bytes, in native mode with 16-bit registers. -/
def w65816 : State :=
  { State.construct { Config.default .v65816 with memExtra := 8 } [(0x8000, 0xEA)] with
    pc := 0x8000, p := 0x04, mode := .native, a := 0xFFFF, x := 0xFFFF, y := 0x0001, sp := 0x0000, dbr := 0xFF }

/-- The same in emulation mode, with the stack at the bottom of page 1. -/
def wEmulation : State :=
  { w65816 with mode := .emulation, p := 0x34, a := 0x00FF, b := 0x12, x := 0x00FF, sp := 0x0100 }

/-- The machine of `State.reset`, with `MEM_SIZE` 2^18, in native mode with 16-bit registers. -/
def wDefault : State :=
  { State.reset with p := 0x04, mode := .native, a := 0x1234, x := 0x0001, y := 0x0002, dbr := 0x03, pbr := 0x03 }

theorem witness_DecodeOfEncodeIsTheInstruction :
    Instr.wf c16 (.adc (.mem (.alx 0xFFFFFF))) = true ∧ Instr.wf c8 (.cpx (.imm (.byte 0xFF))) = true ∧
      Instr.wf c65C02 (.bbr7 0xFF 0x80) = true ∧ Instr.wf c6502 (.illegal 0xFF) = true := by decide

theorem witness_EncodeOfDecodeIsTheBytes :
    (match decode c16 [0xA9, 0xFF, 0xFF] with
      | .ok (i, rest) => i == .lda (.imm (.word 0xFFFF)) && rest == []
      | .error _ => false) = true := by decide

theorem witness_FallbackExactlyOnUnassignedOpcodes :
    (match decode c6502 [0xFF, 0x00] with
      | .ok (i, rest) => i == .illegal 0xFF && rest == [0x00]
      | .error _ => false) = true ∧ assigned c6502 0xFF = false ∧
      (match decode c8 [0xFF, 0x01, 0x02, 0x03] with
        | .ok (i, rest) => i == .sbc (.mem (.alx 0x030201)) && rest == []
        | .error _ => false) = true ∧ c8.variant = .v65816 := by decide

theorem witness_StepRunsTheDecodedInstruction :
    w65816.waiting = false ∧ (w65816.irq && !w65816.flag .I) = false ∧ w65816.programInMemory = true ∧
      (w65816.cfg.ioRead = [] ∧ w65816.cfg.ioWrite = []) ∧
      (match decode w65816.ctx (w65816.codeBytes 4) with
        | .ok (i, rest) => i == .nop && rest.length == 3
        | .error _ => false) = true ∧
      wDefault.programInMemory = true ∧ ({ wDefault with pc := 0xFFFF }).programInMemory = true ∧
      ({ wDefault with pbr := 0x04 }).programInMemory = false := by decide

/-- With the line asserted and I clear. -/
def wIrq : State := { wEmulation with irq := true, p := 0x30 }

theorem witness_StepTakesTheIrqFirst :
    wIrq.waiting = false ∧ wIrq.irq = true ∧ wIrq.flag .I = false ∧
      ({ wIrq with mode := .native }).native = true ∧ wIrq.native = false := by decide

/-- The conditions on memory of the statements about operands, loads, stores, arithmetic, logic, shifts, jumps,
    calls and
block moves, on the machine of `State.reset`: met up to the last byte of memory, and not past it. -/
theorem witness_inMemory :
    wDefault.cfg = (Config.default .v65816) ∧ wDefault.cfg.memSize = 0x040000 ∧
      wDefault.inMemory .w8 (.abl 0x03FFFF) = true ∧ wDefault.inMemory .w16 (.abl 0x03FFFE) = true ∧
      wDefault.inMemory .w16 (.abl 0x03FFFF) = false ∧ wDefault.inMemory .w16 (.abs 0xFFFE) = true ∧
      wDefault.inMemory .w16 (.sr 0x00) = true ∧ wDefault.operandInMemory .w16 (.imm (.word 0x1234)) = true ∧
      wDefault.operandInMemory .w8 (.mem (.abl 0x040000)) = false ∧
      wDefault.moveInMemory 0x03 0x00 = true ∧ wDefault.moveInMemory 0x04 0x00 = false ∧
      wDefault.moveInMemory 0x03 0x04 = false := by decide

theorem witness_NmiEntersItsHandlerWhateverIIs :
    w65816.flag .I = true ∧ w65816.native = true ∧ wIrq.flag .I = false ∧ wIrq.native = false := by decide

theorem witness_StepOutcomesAreTheStatedOnes :
    w65816.cfg.covers = true ∧ w6502.is816 = false ∧
      (match step { wDefault with pbr := 0x04 } with
        | .fault (.addressOutOfBounds a) => a == 0x040000
        | _ => false) = true := by decide

/-- Both outcomes, at the last address of memory and past it. -/
theorem witness_EveryInstructionCompletes :
    wDefault.dataInMemory (.sta (.abl 0x03FFFE)) = true ∧ wDefault.dataInMemory (.sta (.abl 0x03FFFF)) = false ∧
      wDefault.dataInMemory (.jmp (.iax 0xFFFF)) = true ∧
          ({ wDefault with pbr := 0x04 }).dataInMemory (.jmp (.iax 0)) = false ∧
      ∀ op, Instr.sta (.abl 0x03FFFF) ≠ .illegal op := by
  refine ⟨by decide, by decide, by decide, by decide, fun op => by simp⟩

/-- R77: a 16-bit store whose low byte has an observer, which receives it; the high byte goes to memory. -/
def wObserved : State := { wDefault with cfg := { wDefault.cfg with ioWrite := [0x032000] } }

theorem witness_StoresWriteTheDatumAndNothingElse :
    wObserved.inMemory wObserved.wA (.abs 0x2000) = true ∧ wObserved.inMemory wObserved.wX (.abs 0x2000) = true ∧
      (match exec (.sta (.abs 0x2000)) wObserved with
        | .next t => (t.ioTrace.map fun r => r.event) == [.write 0x032000 0x34]
        | _ => false) = true ∧
      (match exec (.sta (.abs 0x2001)) wObserved with
        | .next t => t.ioTrace == [] && t.mem == [(0x032001, 0x34), (0x032002, 0x12)]
        | _ => false) = true := by decide

def wIllegal : State :=
  m6502 [(0x0600, 0x02)]

theorem witness_IllegalOpcodeIsPreciseAndRecoverable :
    wIllegal.waiting = false ∧ (wIllegal.irq && !wIllegal.flag .I) = false ∧ wIllegal.programInMemory = true ∧
      (wIllegal.cfg.ioRead = [] ∧ wIllegal.cfg.ioWrite = []) ∧
          assigned wIllegal.ctx (wIllegal.mem.read wIllegal.pcAddr.toNat) = false := by decide

theorem witness_CycleCountersDecideNothing :
    w6502.forgetCycles = { w6502 with excycles := 3, addcycles := true, processorCycles := 7 }.forgetCycles ∧
      w6502 ≠ { w6502 with excycles := 3, addcycles := true, processorCycles := 7 } := by decide

theorem witness_invariant : w6502.Inv ∧ w65816.Inv ∧ wEmulation.Inv := by
  unfold State.Inv; decide

theorem witness_StepKeepsTheInvariant :
    w65816.Inv ∧ (after w65816 fun t => t.pc) = some 0x8001 ∧ (m6502 [(0x0600, 0x02)]).Inv ∧
      (match step (m6502 [(0x0600, 0x02)]) with
        | .fault (.illegalOpcode op _ _) => op == 0x02
        | _ => false) = true := by
  unfold State.Inv; decide

theorem witness_ResetHasTheInvariant : w65816.memoryOk = true := by decide

theorem witness_EveryReachableStateHasTheInvariant :
    (match hostRun [.deviceStore 0x0000 0x02, .step, .deviceStore 0x0000 0xEA, .step, .setIrq true, .nmi, .reset]
        (createProcessor (Config.default .v6502) []) with
      | .next t => t.pc == 0x0000 && t.irq
      | _ => false) = true := by decide

theorem witness_ParametersAreFixedAndOnlyXceChangesTheMode :
    (after w65816 fun t => t.pc) = some 0x8001 ∧
      (match exec .xce { w65816 with p := 0x05 } with
        | .next t => t.mode == .emulation
        | _ => false) = true ∧ c8.variant = .v65816 := by decide

theorem witness_SpecialRegistersHaveTheListedWriters :
    (match exec .plb w65816 with | .next t => t.dbr == 0x00 | _ => false) = true ∧
      (match exec (.mvn 0x02 0x01) w65816 with | .next t => t.dbr == 0x02 | _ => false) = true ∧
      (match exec .tcd w65816 with | .next t => t.dpr == 0xFFFF | _ => false) = true ∧
      (match exec (.jml (.abl 0x123456)) w65816 with | .next t => t.pbr == 0x12 | _ => false) = true ∧
      (match exec .pha w65816 with | .next t => t.sp == 0xFFFE | _ => false) = true ∧
      (match exec .wai w65816 with | .next t => t.waiting | _ => false) = true := by decide

/-- Both classes, at the last byte of a bank and at the last address of all. -/
theorem witness_WideAccessesAreLittleEndianInTheirWrapClass :
    (w65816.cfg.ioRead = [] ∧ w65816.cfg.ioWrite = []) ∧ w65816.mem.wf = true ∧
      w65816.is816 = true ∧
      ((Ea.next ⟨0xFFFFFF, .lin⟩ w65816).toNat, (Ea.next ⟨0xFFFFFF, .bank⟩ w65816).toNat,
        (Ea.next ⟨0x01FFFF, .lin⟩ w65816).toNat, (Ea.next ⟨0x01FFFF, .bank⟩ w65816).toNat) =
        (0x000000, 0xFF0000, 0x020000, 0x010000) ∧
      0xFFFFFF < w65816.cfg.memSize ∧ (Ea.next ⟨0x03FFFF, .bank⟩ wDefault).toNat < wDefault.cfg.memSize := by decide

/-- The address of a format, its class, and the extra cycles (99 where it faults, which no witness does). -/
def eaOf (m : Mem) (s : State) : Nat × WrapClass × Nat :=
  match effAddr m s with
  | .ok (ea, t) => (ea.addr.toNat, ea.cls, t.excycles)
  | .error _ => (0, .lin, 99)

def wZeroPage : State :=
  { m65C02 [(0x0000, 0x20), (0x00FF, 0xF0)] with x := 0x0001, y := 0x00FF, addcycles := true }

/-- Each clause at the end of its range: V1, V5, V10, V13, V14, V15, and a page crossing that is charged. -/
theorem witness_EffectiveAddressesOfThe8BitVariants :
    wZeroPage.Inv ∧ wZeroPage.is816 = false ∧ (wZeroPage.cfg.ioRead = [] ∧ wZeroPage.cfg.ioWrite = []) ∧
      ([.dp 0xFF, .dpx 0xFF, .dpy 0xFF, .izx 0xFE, .izp 0xFF, .izy 0xFF, .abs 0xFFFF, .abx 0xFFFF,
          .aby 0xFF00].map fun m => eaOf m wZeroPage) =
        [(0xFF, .bank, 0), (0x0000, .bank, 0), (0x00FE, .bank, 0), (0x20F0, .lin, 0), (0x20F0, .lin, 0), (0x21EF,
            .lin, 1), (0xFFFF, .lin, 0), (0x0000, .lin, 1), (0xFFFF, .lin, 0)] := by
  unfold State.Inv; decide

def wPageWrap : State :=
  { wEmulation with mem := [(0x0100, 0x30), (0x01FF, 0xF0)], dpr := 0x0100, addcycles := true }

def wBankWrap : State :=
  { w65816 with mem := [(0x0000, 0xFF), (0xFFFF, 0xF0)], dpr := 0xFF00, addcycles := true }

/-- Page wrap and bank wrap, and the bank crossing that is charged (V2 to V4, V16 to V18, V11). -/
theorem witness_LegacyEffectiveAddressesOfThe65816 :
    wPageWrap.is816 = true ∧ (wPageWrap.cfg.ioRead = [] ∧ wPageWrap.cfg.ioWrite = []) ∧
      ([.dpx 0xFF, .dpy 0xFF, .izp 0xFF, .izx 0x00].map fun m => eaOf m wPageWrap) =
        [(0x01FE, .bank, 0), (0x0100, .bank, 0), (0xFF30F0, .lin, 0), (0xFF30F0, .lin, 0)] ∧
      ([.dp 0xFF, .dpy 0xFF, .izy 0xFF, .abs 0xFFFF, .abx 0xFFFF, .aby 0xFFFF].map fun m => eaOf m wBankWrap) =
        [(0xFFFF, .bank, 0), (0x0000, .bank, 0), (0xFFFFF1, .lin, 0), (0xFFFFFF, .lin, 0), (0xFFFE, .lin, 1),
            (0x000000, .lin, 1)] := by
  decide

def wLong : State :=
  { w65816 with mem := [(0x0000, 0x34), (0x0001, 0x02), (0xFFFF, 0x56)], dpr := 0xFF00, x := 0x0001 }

/-- V19, V22 and the top of the 24-bit space. -/
theorem witness_LongEffectiveAddresses :
    wLong.is816 = true ∧ (wLong.cfg.ioRead = [] ∧ wLong.cfg.ioWrite = []) ∧ c8.variant = .v65816 ∧
        (Mem.alx 0xFFFFFF).inGroupOne c8 = true ∧
      ([.idl 0xFF, .alx 0xFFFFFF, .alx 0x01FFFF].map fun m => eaOf m wLong) =
        [(0x023456, .lin, 0), (0x000000, .lin, 0), (0x020000, .lin, 0)] := by decide

def wStackRelative : State :=
  { w65816 with
    mem := [(0x0000, 0xFF), (0x0010, 0xFF), (0x0011, 0xFF), (0x0012, 0x01), (0xFFFF, 0xF0)]
    y := 0xFFFF
    sp := 0xFFF0 }

/-- V20, V23, V24 and the top of the 24-bit space. -/
theorem witness_IndexedLongAndStackRelativeAddresses :
    wStackRelative.is816 = true ∧ c8.variant = .v65816 ∧ (wStackRelative.cfg.ioRead = [] ∧
        wStackRelative.cfg.ioWrite = []) ∧
      ([.idly 0x10, .sr 0x10, .sry 0x0F, .abl 0xFFFFFF].map fun m => eaOf m wStackRelative) =
        [(0x02FFFE, .lin, 0), (0x0000, .bank, 0), (0xFFEF, .lin, 0), (0xFFFFFF, .lin, 0)] := by
  decide

/-- The largest value of each width, and the rule's examples. -/
theorem witness_SetNZWritesNAndZAlone :
    (0x00FF : Word).toNat < 2 ^ Width.w8.bits ∧ (0xFFFF : Word).toNat < 2 ^ Width.w16.bits ∧
      (w6502.setNZ 0x0080 .w8).flag .N = true ∧ (w6502.setNZ 0x0080 .w16).flag .N = false ∧
      (w6502.setNZ 0x0000 .w16).flag .Z = true := by decide

/-- Binary mode at both widths, with the carry into the sign and past the width. -/
theorem witness_BinaryAddIsExact :
    wDefault.operandInMemory wDefault.wA (.mem (.abs 0xFFFE)) = true ∧ wDefault.flag .D = false ∧
      wEmulation.flag .D = false ∧
      (match exec (.adc (.imm (.word 0x0001))) w65816 with
        | .next t => t.a == 0 && t.flag .C && t.flag .Z && !t.flag .V
        | _ => false) = true := by decide

theorem witness_BinarySubtractIsExact :
    wDefault.operandInMemory wDefault.wA (.mem (.abs 0xFFFE)) = true ∧ wDefault.flag .D = false ∧
      (match exec (.sbc (.imm (.word 0xFFFF))) { w65816 with p := 0x05, a := 0x0000 } with
        | .next t => t.a == 1 && !t.flag .C && !t.flag .V
        | _ => false) = true := by decide

def wDecimalAdd : State :=
  { w65816 with p := 0x08, a := 0x9999 }

theorem witness_DecimalAddIsExactOnDecimals :
    wDecimalAdd.operandInMemory .w16 (.imm (.word 0x0001)) = true ∧ wDecimalAdd.flag .D = true ∧
        wDecimalAdd.wA.isDecimal wDecimalAdd.acc ∧ Width.isDecimal .w16 0x0001 ∧
      (match exec (.adc (.imm (.word 0x0001))) wDecimalAdd with
        | .next t => t.a == 0 && t.flag .C
        | _ => false) = true := by
  refine ⟨by decide, by decide, ?_, ?_, by decide⟩
  · show Decimal8 _ ∧ Decimal8 _; unfold Decimal8; decide
  · show Decimal8 _ ∧ Decimal8 _; unfold Decimal8; decide

def wDecimalSubtract : State :=
  { w65816 with p := 0x09, a := 0x0000 }

theorem witness_DecimalSubtractIsExactOnDecimals :
    wDecimalSubtract.operandInMemory .w16 (.imm (.word 0x0001)) = true ∧ wDecimalSubtract.flag .D = true ∧
        wDecimalSubtract.wA.isDecimal wDecimalSubtract.acc ∧ Width.isDecimal .w16 0x0001 ∧
      (match exec (.sbc (.imm (.word 0x0001))) wDecimalSubtract with
        | .next t => t.a == 0x9999 && !t.flag .C
        | _ => false) = true := by
  refine ⟨by decide, by decide, ?_, ?_, by decide⟩
  · show Decimal8 _ ∧ Decimal8 _; unfold Decimal8; decide
  · show Decimal8 _ ∧ Decimal8 _; unfold Decimal8; decide

/-- A call at the bottom of page 1, and a state of a subroutine that has used the stack below the return address. -/
theorem witness_ReturnUndoesTheCall :
    wEmulation.Inv ∧ (wEmulation.cfg.ioRead = [] ∧ wEmulation.cfg.ioWrite = []) ∧
      (match exec (.jsr (.abj 0x1234)) wEmulation with
        | .next t =>
          let u := { t with a := 0, pc := 0xABCD, mem := t.mem.write 0x01FE 0x77 }
          u.cfg == wEmulation.cfg && u.mode == wEmulation.mode && u.sp == t.sp && t.sp == 0x01FE &&
            ((wEmulation.pushBytes 2).all fun a => u.mem.read a == t.mem.read a)
        | _ => false) = true ∧
      (match exec (.jsl 0x123456) w65816 with
        | .next t => t.sp == 0xFFFD && t.pbr == 0x12 && w65816.pushBytes 3 == [0x0000, 0xFFFF, 0xFFFE]
        | _ => false) = true := by
  unfold State.Inv; decide

theorem witness_RepSepMoveTheWidthsWithoutLoss :
    w65816.Inv ∧ w65816.native = true ∧ wEmulation.Inv ∧ wEmulation.native = false := by
  unfold State.Inv; decide

/-- The four cases of XCE. -/
theorem witness_XceExchangesCarryAndMode :
    w65816.Inv ∧ wEmulation.Inv ∧ ({ w65816 with p := 0x05 }).Inv ∧ ({ wEmulation with p := 0x35 }).Inv ∧
      w65816.is816 = true ∧ w65816.flag .C = (w65816.mode == .emulation) ∧
      (wEmulation.flag .C ≠ (wEmulation.mode == .emulation)) := by
  unfold State.Inv; decide

def wMove : State :=
  { w65816 with a := 0x0000 }

/-- The last byte of a move: the counter is 0 and the pointers are at their ends. -/
theorem witness_BlockMoveMovesOneByte :
    wMove.moveInMemory 0x01 0x00 = true ∧ (wMove.cfg.ioRead = [] ∧ wMove.cfg.ioWrite = []) ∧ wMove.mem.wf = true ∧
      (match exec (.mvn 0x01 0x00) wMove with
        | .next t => t.x == 0x0000 && t.c16 == 0xFFFF && t.pc == wMove.pc
        | _ => false) = true := by decide

/-- The frame of a BRK in page 1, kept by a handler that has used the stack below it. -/
theorem witness_RtiUndoesTheEntry :
    wEmulation.Inv ∧ (wEmulation.cfg.ioRead = [] ∧ wEmulation.cfg.ioWrite = []) ∧
      (match takeException .brk 0x1234 wEmulation with
        | .ok t =>
          let u := { t with a := 0, p := 0x30, mem := t.mem.write 0x01FD 0x77 }
          u.cfg == wEmulation.cfg && u.mode == wEmulation.mode && u.sp == t.sp && t.sp == 0x01FD &&
            wEmulation.native == false && ((wEmulation.pushBytes 3).all fun a => u.mem.read a == t.mem.read a)
        | .error _ => false) = true := by
  unfold State.Inv; decide

theorem witness_WaiWaitsForTheLine :
    ({ w6502 with waiting := true }).waiting = true ∧
      (match ({ w6502 with waiting := true }).nmi with | .next t => !t.waiting | _ => false) = true ∧
      wIrq.waiting = false ∧ wIrq.irq = true ∧ wIrq.flag .I = false ∧
      (match takeIrq wIrq with | .ok t => t.flag .I && t.sp == 0x01FD | .error _ => false) = true ∧
      w65816.flag .I = true ∧ w65816.waiting = false ∧ w65816.programInMemory = true ∧
      (w65816.cfg.ioRead = [] ∧ w65816.cfg.ioWrite = []) ∧
      (match decode w65816.ctx (w65816.codeBytes 4) with
        | .ok (i, _) => i == .nop
        | .error _ => false) = true := by decide

def wEngine : Engine :=
  Engine.create (Config.default .v6502) [] [0x0000] []

/-- Each of the three reasons to halt. -/
theorem witness_TickHaltsWithoutExecuting :
    wEngine.checkBP = true ∧ wEngine.pause.breakFlag = true ∧
        (fun s : State => s.pc == 0x0000) wEngine.proc = true := by decide

theorem witness_BatchSizeDoesNotMatter :
    (Engine.tick (fun _ => false) 1 (Engine.create (Config.default .v6502) [(0x0000,
        0xEA)] [] [])).2 ≠ .halted := by
  decide

def wEngineWith (breakpoints : List Nat) : Engine :=
  Engine.create (Config.default .v6502) [(0x0000, 0xEA), (0x0001, 0xEA), (0x0002, 0x02)] breakpoints []

/-- The three ways `stepTo` returns: the target, a breakpoint, a fault (program P7 of 95_test_vectors.md). -/
theorem witness_StepToEndsAtTargetBreakpointOrFault :
    (Engine.stepTo 3 0x0001 (wEngineWith [])).2 = .returned 0x0001 ∧
        (Engine.stepTo 3 0x0002 (wEngineWith [0x0001])).2 = .returned 0x0001 ∧
      (Engine.stepTo 3 0x0005 (wEngineWith [])).2 = .returned 0x0002 := by decide

/-- Both outcomes of the bit test at a displacement that crosses a page (R291, R471). -/
theorem witness_BitBranchesTestAZeroPageBit :
    (m65C02 []).cfg.cycles = .informative ∧
      (match exec (.bbr7 0xFF 0x80) { m65C02 [] with pc := 0x0600 } with
        | .next t => t.pc == 0x0580 && t.excycles == 2
        | _ => false) = true ∧
      (match exec (.bbs0 0xFF 0x80) { m65C02 [] with pc := 0x0600 } with
        | .next t => t.pc == 0x0600 && t.excycles == 0
        | _ => false) = true := by decide

end Sys2Proof.Tests
end

section
namespace Sys2Proof.Machine

/-- The top bit of a value within the width says whether the value reaches half the range (10_state.md R33). -/
theorem getLsbD_top_of_lt {v : Word} {w : Width} (hv : v.toNat < 2 ^ w.bits) :
    v.getLsbD (w.bits - 1) = decide (2 ^ (w.bits - 1) ≤ v.toNat) := by
  have hbits : w.bits - 1 + 1 = w.bits := by cases w <;> rfl
  rw [← BitVec.testBit_toNat]
  by_cases hle : 2 ^ (w.bits - 1) ≤ v.toNat
  · rw [decide_eq_true hle]
    exact Nat.testBit_of_two_pow_le_and_two_pow_add_one_gt hle (hbits.symm ▸ hv)
  · rw [decide_eq_false hle]
    exact Nat.testBit_lt_two_pow (Nat.lt_of_not_le hle)

/-- Settles O25: the flags are those of `SetNZ`'s frame, and its two flag writes touch `p` alone. -/
theorem setNZWritesNAndZAlone : Obligations.SetNZWritesNAndZAlone := by
  intro s v w hv
  obtain ⟨hN, hZ, hrest⟩ := nzFrame_setNZ (s := s) (u := s) v w rfl
  have hzero : v = 0 ↔ v.toNat = 0 := BitVec.toNat_eq
  exact ⟨hZ.trans (decide_eq_decide.mpr hzero), hN.trans (getLsbD_top_of_lt hv), hrest, rfl⟩

end Sys2Proof.Machine
end

section
namespace Sys2Proof.Machine

/-! The long effective addresses of the 65816 (40_addressing.md R143, R146). -/

theorem is816_iff_variant {c : DecodeCtx} : c.is816 = true ↔ c.variant = .v65816 := beq_iff_eq

/-- `ADDR_MASK` of the 65816 keeps all 24 bits (00_scope.md R3). -/
theorem and_addrMask_of_is816 {s : State} (h : s.is816 = true) (a : Long) : a &&& s.addrMask = a := by
  rw [State.addrMask, if_pos h]
  exact BitVec.and_allOnes

theorem memRead1_bank0_plain {s : State} (hu : s.Unobserved) (q : Word) :
    memRead1 (mkLong 0 q) s = .ok (s.mem.read q.toNat, s) := by
  rw [memRead1_plain (bank0_inMemory _ q) hu, toNat_mkLong]
  simp

/-- `Ptr24B0` with no observer bound (40_addressing.md R156). -/
theorem ptr24B0_plain {s : State} (hu : s.Unobserved) (q : Word) :
    ptr24B0 q s = .ok (mkLong (s.mem.read (q + 2).toNat)
      (mkWord (s.mem.read (q + 1).toNat) (s.mem.read q.toNat)), s) := by
  rw [ptr24B0, read16Bank0_plain hu, ok_bind]
  dsimp only
  rw [memRead1_bank0_plain hu, ok_bind]
  rfl

theorem toNat_dpAddr (s : State) (o : Byte) : (s.dpAddr o).toNat = (s.dpr.toNat + o.toNat) % 65536 := by
  rw [State.dpAddr, BitVec.toNat_add, toNat_zext]

/-- The format `idl`: the pointer at the direct-page address is the effective address (40_addressing.md R143). -/
theorem effAddr_idl_plain {s : State} (h816 : s.is816 = true) (hu : s.Unobserved) (o : Byte) :
    effAddr (.idl o) s = .ok (⟨mkLong (s.mem.read (s.dpAddr o + 2).toNat)
      (mkWord (s.mem.read (s.dpAddr o + 1).toNat) (s.mem.read (s.dpAddr o).toNat)), .lin⟩, s) := by
  rw [effAddr, ptr24B0_plain hu, ok_bind]
  dsimp only
  rw [and_addrMask_of_is816 h816]
  rfl

/-- R143 in numbers: the three bytes follow each other in bank 0, and the address of each wraps at its end. -/
theorem eaIs_idl {s : State} (h816 : s.is816 = true) (hu : s.Unobserved) (o : Byte) :
    let q := (s.dpr.toNat + o.toNat) % 65536
    EaIs (.idl o) s ((s.mem.read q).toNat + 256 * (s.mem.read ((q + 1) % 65536)).toNat +
      65536 * (s.mem.read ((q + 2) % 65536)).toNat) .lin s := by
  refine ⟨_, effAddr_idl_plain h816 hu o, ?_, rfl⟩
  have hnext : (s.dpAddr o + 1).toNat = ((s.dpr.toNat + o.toNat) % 65536 + 1) % 65536 := by
    rw [BitVec.toNat_add, toNat_dpAddr]; rfl
  have hbank : (s.dpAddr o + 2).toNat = ((s.dpr.toNat + o.toNat) % 65536 + 2) % 65536 := by
    rw [BitVec.toNat_add, toNat_dpAddr]; rfl
  rw [toNat_mkLong, toNat_mkWord, hnext, hbank, toNat_dpAddr]
  omega

/-- R146 in numbers: the sum is taken in 24 bits, so it crosses banks freely. -/
theorem eaIs_alx {s : State} (h816 : s.is816 = true) (a : Long) :
    EaIs (.alx a) s ((a.toNat + s.x.toNat) % 2 ^ 24) .lin s := by
  refine ⟨_, rfl, ?_, rfl⟩
  have hx : (s.x.setWidth 24).toNat = s.x.toNat := BitVec.toNat_setWidth_of_le (by decide)
  rw [and_addrMask_of_is816 h816, BitVec.toNat_add, hx]

/-- Settles O22: the two addresses in numbers, and the formats' operand bytes and variant as they are defined. -/
theorem longEffectiveAddresses : Obligations.LongEffectiveAddresses :=
  ⟨fun _ h816 hu => ⟨eaIs_idl h816 hu, eaIs_alx h816⟩,
    fun _ _ _ => ⟨is816_iff_variant, rfl, is816_iff_variant, rfl⟩⟩

end Sys2Proof.Machine
end

section
namespace Sys2Proof.Machine

/-! The pushes of registers (45_stack.md R320, R322, R324, R328, R330, R332). -/

theorem cmos_iff_variant {c : DecodeCtx} : c.cmos = true ↔ c.variant ≠ .v6502 := bne_iff_ne

/-- A push at the width a predicate selects pushes the low byte alone where the predicate holds. -/
theorem completesPushingW {i : Instr} {eight : Bool} {v : Word} {s : State}
    (hexec : exec i s = finish (pushW (.of eight) v s)) :
    CompletesPushing i (if eight then [loByte v] else [hiByte v, loByte v]) s := by
  cases eight with
  | true => exact completesPushing8 hexec
  | false => exact completesPushing16 hexec

/-- Settles O46: each push is the shared operation at the register's width; the variants are those of the opcode maps,
and the encodings are as the encoder lists them. -/
theorem registerPushesStoreTheRegisterAtItsWidth : Obligations.RegisterPushesStoreTheRegisterAtItsWidth :=
  ⟨fun _ => ⟨completesPushingW rfl, completesPushingW rfl, completesPushingW rfl,
      completesPushing8 rfl, completesPushing8 rfl, completesPushing16 rfl⟩,
    fun _ => ⟨rfl, cmos_iff_variant, cmos_iff_variant, is816_iff_variant, is816_iff_variant, is816_iff_variant⟩,
    rfl, rfl, rfl, rfl, rfl, rfl⟩

end Sys2Proof.Machine
end

section
namespace Sys2Proof

/-! Encoding and decoding (30_encoding.md R100 to R108). -/

open Sys2Proof.Machine (mkWord_hi_lo mkLong_bank_off)

/-! The entry of an opcode, from the map that lists it. -/

/-- The entry a map gives an opcode byte. -/
def mapEntry (map : Nat → List (Nat × Entry)) (op : Byte) : Option Entry :=
  findColumn (op.toNat % 16) (map (op.toNat / 16))

theorem findColumn_append (col : Nat) (l m : List (Nat × Entry)) :
    findColumn col (l ++ m) = (findColumn col l).or (findColumn col m) := by
  induction l with
  | nil => rfl
  | cons p l ih =>
    obtain ⟨k, e⟩ := p
    by_cases h : k = col <;> simp [findColumn, h, ih]

theorem mem_of_findColumn {col : Nat} {l : List (Nat × Entry)} {e : Entry} (h : findColumn col l = some e) :
    (col, e) ∈ l := by
  induction l with
  | nil => cases h
  | cons p l ih =>
    obtain ⟨k, e'⟩ := p
    by_cases hk : k = col
    · simp [findColumn, hk] at h; simp [hk, h]
    · simp [findColumn, hk] at h; simp [ih h]

/-- What the variant's table has for an opcode byte. -/
theorem entryOf_eq (c : DecodeCtx) (op : Byte) :
    entryOf c op = (mapEntry (tableRow c) op).getD (.none (.illegal op)) := by
  unfold entryOf mapEntry
  cases findColumn (op.toNat % 16) (tableRow c (op.toNat / 16)) <;> rfl

/-- What an entry makes is well formed where `avail` says so, and encodes to the opcode and the operand bytes that
the entry takes. -/
def Entry.Encodes (c : DecodeCtx) (avail : Bool) (op : Byte) : Entry → Prop
  | .none i => i.wf c = avail ∧ encode i = [op]
  | .one k => ∀ b, (k b).wf c = avail ∧ encode (k b) = [op, b]
  | .two k => ∀ v, (k v).wf c = avail ∧ encode (k v) = op :: wordBytes v
  | .three k => ∀ v, (k v).wf c = avail ∧ encode (k v) = op :: longBytes v
  | .pair k => ∀ b b', (k b b').wf c = avail ∧ encode (k b b') = [op, b, b']
  | .immM k => ∀ v, (k v).wf c = (avail && v.fits c.m8) ∧ encode (k v) = op :: v.bytes
  | .immX k => ∀ v, (k v).wf c = (avail && v.fits c.x8) ∧ encode (k v) = op :: v.bytes

/-- Every entry of a map agrees with the encoder. -/
def MapEncodes (c : DecodeCtx) (avail : Bool) (map : Nat → List (Nat × Entry)) : Prop :=
  ∀ row < 16, ∀ p ∈ map row, p.2.Encodes c avail (BitVec.ofNat 8 (16 * row + p.1))

theorem map6502_encodes (c : DecodeCtx) : MapEncodes c true map6502 := by
  intro row hrow
  interval_cases row <;>
    simp only [map6502, Entry.Encodes, List.forall_mem_cons, List.not_mem_nil, false_implies, implies_true, and_true] <;>
    and_intros
  all_goals intros; and_intros <;> rfl

theorem mapAdded_encodes (c : DecodeCtx) : MapEncodes c c.cmos mapAdded := by
  obtain ⟨v, b, m, x⟩ := c
  intro row hrow
  interval_cases row <;>
    simp only [mapAdded, Entry.Encodes, List.forall_mem_cons, List.not_mem_nil, false_implies, implies_true, and_true] <;>
    and_intros
  all_goals intros; and_intros
  all_goals cases v <;> rfl

theorem mapBitops_encodes (c : DecodeCtx) : MapEncodes c c.hasBitops mapBitops := by
  intro row hrow
  interval_cases row <;>
    simp only [mapBitops, Entry.Encodes, List.forall_mem_cons, List.not_mem_nil, false_implies, implies_true, and_true] <;>
    and_intros
  all_goals intros; and_intros <;> rfl

theorem map65816_encodes (c : DecodeCtx) : MapEncodes c c.is816 map65816 := by
  intro row hrow
  interval_cases row <;>
    simp only [map65816, Entry.Encodes, List.forall_mem_cons, List.not_mem_nil, false_implies, implies_true, and_true] <;>
    and_intros
  all_goals intros; and_intros <;> rfl

theorem MapEncodes.of_mapEntry {c : DecodeCtx} {avail : Bool} {map : Nat → List (Nat × Entry)} {op : Byte} {e : Entry}
    (h : MapEncodes c avail map) (ha : avail = true) (he : mapEntry map op = some e) : e.Encodes c true op := by
  subst ha
  have hop : BitVec.ofNat 8 (16 * (op.toNat / 16) + op.toNat % 16) = op := by
    rw [Nat.div_add_mod, BitVec.ofNat_toNat, BitVec.setWidth_eq]
  have := h (op.toNat / 16) (by have := op.isLt; omega) _ (mem_of_findColumn he)
  rwa [hop] at this

/-- What the variant's table has agrees with the encoder. -/
theorem tableEntry_encodes {c : DecodeCtx} {op : Byte} {e : Entry} (h : mapEntry (tableRow c) op = some e) :
    e.Encodes c true op := by
  unfold mapEntry tableRow at h
  cases hv : c.variant with
  | v6502 =>
    simp only [hv] at h
    exact (map6502_encodes c).of_mapEntry rfl h
  | v65C02 =>
    have hcmos : c.cmos = true := by simp [DecodeCtx.cmos, hv]
    simp only [hv, findColumn_append, Option.or_eq_some_iff] at h
    rcases h with h | ⟨-, h | ⟨-, h⟩⟩
    · cases hb : c.bitops <;> simp only [hb, if_true, if_false, Bool.false_eq_true] at h
      · cases h
      · exact (mapBitops_encodes c).of_mapEntry (by simp [DecodeCtx.hasBitops, hv, hb]) h
    · exact (mapAdded_encodes c).of_mapEntry hcmos h
    · exact (map6502_encodes c).of_mapEntry rfl h
  | v65816 =>
    have hcmos : c.cmos = true := by simp [DecodeCtx.cmos, hv]
    simp only [hv, findColumn_append, Option.or_eq_some_iff] at h
    rcases h with h | ⟨-, h | ⟨-, h⟩⟩
    · exact (map65816_encodes c).of_mapEntry (by simp [DecodeCtx.is816, hv]) h
    · exact (mapAdded_encodes c).of_mapEntry hcmos h
    · exact (map6502_encodes c).of_mapEntry rfl h

/-- The grid of assigned cells is that of the maps (30_encoding.md R105 to R107). -/
theorem assigned_eq_isSome (c : DecodeCtx) (op : Byte) : assigned c op = (mapEntry (tableRow c) op).isSome := by
  obtain ⟨v, b, m, x⟩ := c
  have h : ∀ op : Byte, assigned ⟨v, b, true, true⟩ op = (mapEntry (tableRow ⟨v, b, true, true⟩) op).isSome := by
    cases v <;> cases b <;> decide
  exact h op

theorem entryOf_of_unassigned {c : DecodeCtx} {op : Byte} (h : assigned c op = false) :
    entryOf c op = .none (.illegal op) := by
  rw [assigned_eq_isSome, Option.isSome_eq_false_iff, Option.isNone_iff_eq_none] at h
  rw [entryOf_eq, h]
  rfl

/-- The dispatch table agrees with the encoder at every opcode byte. -/
theorem entryOf_encodes (c : DecodeCtx) (op : Byte) : (entryOf c op).Encodes c true op := by
  cases h : assigned c op with
  | false =>
    rw [entryOf_of_unassigned h]
    exact ⟨by simp [Instr.wf, h], rfl⟩
  | true =>
    rw [assigned_eq_isSome, Option.isSome_iff_exists] at h
    obtain ⟨e, he⟩ := h
    rw [entryOf_eq, he]
    exact tableEntry_encodes he

/-! From bytes to an instruction and back. -/

theorem wordBytes_mkWord (h l : Byte) : wordBytes (Machine.mkWord h l) = [l, h] := by
  simp [wordBytes]

theorem longBytes_mkLong (bank h l : Byte) : longBytes (Machine.mkLong bank (Machine.mkWord h l)) = [l, h, bank] := by
  simp [longBytes]

/-- An immediate read at the width in force fits it and consumes its own bytes. -/
theorem buildImm_some {eight : Bool} {k : Imm → Instr} {bs rest : List Byte} {i : Instr}
    (h : buildImm eight k bs = some (i, rest)) : ∃ v : Imm, i = k v ∧ v.fits eight = true ∧ v.bytes ++ rest = bs := by
  cases bs with
  | nil => cases h
  | cons b bs =>
    cases eight with
    | true => cases h; exact ⟨.byte b, rfl, rfl, rfl⟩
    | false =>
      cases bs with
      | nil => cases h
      | cons b' bs => cases h; exact ⟨.word (Machine.mkWord b' b), rfl, rfl, by simp [Imm.bytes]⟩

/-- What an entry that agrees with the encoder builds is well formed and has the encoding it was read from. -/
theorem Entry.build_sound {c : DecodeCtx} {op : Byte} {e : Entry} {bs rest : List Byte} {i : Instr}
    (he : e.Encodes c true op) (h : e.build c bs = some (i, rest)) : i.wf c = true ∧ encode i ++ rest = op :: bs := by
  cases e with
  | none j => cases h; exact ⟨he.1, by rw [he.2]; rfl⟩
  | one k =>
    rcases bs with _ | ⟨b, bs⟩ <;> cases h
    exact ⟨(he b).1, by rw [(he b).2]; rfl⟩
  | two k =>
    rcases bs with _ | ⟨l, _ | ⟨h', bs⟩⟩ <;> cases h
    exact ⟨(he _).1, by rw [(he _).2, wordBytes_mkWord]; rfl⟩
  | three k =>
    rcases bs with _ | ⟨l, _ | ⟨h', _ | ⟨bank, bs⟩⟩⟩ <;> cases h
    exact ⟨(he _).1, by rw [(he _).2, longBytes_mkLong]; rfl⟩
  | pair k =>
    rcases bs with _ | ⟨b, _ | ⟨b', bs⟩⟩ <;> cases h
    exact ⟨(he b b').1, by rw [(he b b').2]; rfl⟩
  | immM k =>
    obtain ⟨v, rfl, hv, rfl⟩ := buildImm_some h
    exact ⟨by rw [(he v).1, hv]; rfl, by rw [(he v).2]; rfl⟩
  | immX k =>
    obtain ⟨v, rfl, hv, rfl⟩ := buildImm_some h
    exact ⟨by rw [(he v).1, hv]; rfl, by rw [(he v).2]; rfl⟩

theorem decode_cons_eq_ok {c : DecodeCtx} {op : Byte} {bs : List Byte} {r : Instr × List Byte} :
    decode c (op :: bs) = .ok r ↔ (entryOf c op).build c bs = some r := by
  unfold decode
  cases h : (entryOf c op).build c bs <;> simp [h]

/-- Settles O2: the dispatch table agrees with the encoder, and an entry builds nothing but what it encodes. -/
theorem encodeOfDecodeIsTheBytes : Obligations.EncodeOfDecodeIsTheBytes := by
  intro c bytes rest i h
  cases bytes with
  | nil => cases h
  | cons op bs => exact Entry.build_sound (entryOf_encodes c op) (decode_cons_eq_ok.1 h)

/-- Settles O5: an assigned byte's instruction is well formed, so it is not the fallback of that byte; an unassigned
byte has the fallback as its entry. -/
theorem fallbackExactlyOnUnassignedOpcodes : Obligations.FallbackExactlyOnUnassignedOpcodes := by
  intro c op bs rest i h
  have hfall : assigned c op = false → i = .illegal op ∧ rest = bs := by
    intro ha
    rw [decode_cons_eq_ok, entryOf_of_unassigned ha] at h
    cases h
    exact ⟨rfl, rfl⟩
  refine ⟨⟨?_, fun ha => ⟨op, (hfall ha).1⟩⟩, hfall, fun hv => ?_⟩
  · rintro ⟨op', rfl⟩
    obtain ⟨hwf, henc⟩ := encodeOfDecodeIsTheBytes c (op :: bs) rest _ h
    obtain ⟨rfl, -⟩ := List.cons.inj henc
    simpa [Instr.wf] using hwf
  · exact Laws.EncodedLength.assigned_of_816 c op (by simp [DecodeCtx.is816, hv])

/-- Settles O3: each word is run through the decoder. -/
theorem writtenOutWordsDecode : Obligations.WrittenOutWordsDecode := by
  unfold Obligations.WrittenOutWordsDecode
  and_intros <;> rfl

/-- Settles O4: the grids of assigned cells are counted; the widths and `C02_BITOPS` do not enter the count of the
other variants. -/
theorem mapsAssignTheStatedNumberOfOpcodes : Obligations.MapsAssignTheStatedNumberOfOpcodes := by
  intro bitops m8 x8
  have h : ∀ b, (List.range 256).countP (fun n => assigned ⟨.v6502, b, true, true⟩ (BitVec.ofNat 8 n)) = 151 ∧
    (List.range 256).countP (fun n => assigned ⟨.v65C02, false, true, true⟩ (BitVec.ofNat 8 n)) = 180 ∧
    (List.range 256).countP (fun n => assigned ⟨.v65C02, true, true, true⟩ (BitVec.ofNat 8 n)) = 212 ∧
    (List.range 256).countP (fun n => assigned ⟨.v65816, b, true, true⟩ (BitVec.ofNat 8 n)) = 256 := by decide +kernel
  exact h bitops

/-! From an instruction to bytes and back. -/

theorem entryOf_of_tableEntry {c : DecodeCtx} {op : Byte} {e : Entry} (h : mapEntry (tableRow c) op = some e) :
    entryOf c op = e := by
  rw [entryOf_eq, h]
  rfl

/-- The 65C02's additions lie beside the 6502's opcodes (30_encoding.md R106). -/
theorem mapAdded_eq_none {op : Byte} {e : Entry} (h : mapEntry map6502 op = some e) : mapEntry mapAdded op = none := by
  have hall : ∀ op : Byte, (mapEntry map6502 op).isSome = true → (mapEntry mapAdded op).isNone = true := by decide
  simpa using hall op (by rw [h]; rfl)

/-- The maps of one variant alone lie beside the others (30_encoding.md R106, R107). -/
theorem variantMaps_eq_none {op : Byte} {e : Entry} (h : mapEntry map6502 op = some e ∨ mapEntry mapAdded op = some e) :
    mapEntry mapBitops op = none ∧ mapEntry map65816 op = none := by
  have hall : ∀ op : Byte, (mapEntry map6502 op).isSome = true ∨ (mapEntry mapAdded op).isSome = true →
      (mapEntry mapBitops op).isNone = true ∧ (mapEntry map65816 op).isNone = true := by decide
  simpa using hall op (h.imp (by rw [·]; rfl) (by rw [·]; rfl))

theorem entryOf_of_6502 {c : DecodeCtx} {op : Byte} {e : Entry} (h : mapEntry map6502 op = some e) :
    entryOf c op = e := by
  have ha := mapAdded_eq_none h
  obtain ⟨hb, h8⟩ := variantMaps_eq_none (.inl h)
  apply entryOf_of_tableEntry
  unfold mapEntry tableRow at *
  cases c.variant <;> cases c.bitops <;> simp [findColumn_append, h, ha, hb, h8]

theorem entryOf_of_added {c : DecodeCtx} (hc : c.cmos = true) {op : Byte} {e : Entry}
    (h : mapEntry mapAdded op = some e) : entryOf c op = e := by
  obtain ⟨hb, h8⟩ := variantMaps_eq_none (.inr h)
  apply entryOf_of_tableEntry
  unfold mapEntry tableRow DecodeCtx.cmos at *
  cases hv : c.variant <;> cases c.bitops <;> simp_all [findColumn_append]

theorem entryOf_of_bitops {c : DecodeCtx} (hc : c.hasBitops = true) {op : Byte} {e : Entry}
    (h : mapEntry mapBitops op = some e) : entryOf c op = e := by
  simp only [DecodeCtx.hasBitops, Bool.and_eq_true, beq_iff_eq] at hc
  apply entryOf_of_tableEntry
  unfold mapEntry tableRow at *
  simp [hc, findColumn_append, h]

theorem entryOf_of_65816 {c : DecodeCtx} (hc : c.is816 = true) {op : Byte} {e : Entry}
    (h : mapEntry map65816 op = some e) : entryOf c op = e := by
  simp only [DecodeCtx.is816, beq_iff_eq] at hc
  apply entryOf_of_tableEntry
  unfold mapEntry tableRow at *
  simp [hc, findColumn_append, h]

section
variable {c : DecodeCtx} {op : Byte}

theorem decode_none {i : Instr} (h : entryOf c op = .none i) (rest : List Byte) :
    decode c ([op] ++ rest) = .ok (i, rest) := decode_cons_eq_ok.2 (by rw [h]; rfl)

theorem decode_one {k : Byte → Instr} (h : entryOf c op = .one k) (b : Byte) (rest : List Byte) :
    decode c ([op, b] ++ rest) = .ok (k b, rest) := decode_cons_eq_ok.2 (by rw [h]; rfl)

theorem decode_pair {k : Byte → Byte → Instr} (h : entryOf c op = .pair k) (b b' : Byte) (rest : List Byte) :
    decode c ([op, b, b'] ++ rest) = .ok (k b b', rest) := decode_cons_eq_ok.2 (by rw [h]; rfl)

theorem decode_two {k : Word → Instr} (h : entryOf c op = .two k) (v : Word) (rest : List Byte) :
    decode c (op :: wordBytes v ++ rest) = .ok (k v, rest) :=
  decode_cons_eq_ok.2 (by
    rw [h]
    show some (k (Machine.mkWord (Machine.hiByte v) (Machine.loByte v)), rest) = _
    rw [mkWord_hi_lo])

theorem decode_three {k : Long → Instr} (h : entryOf c op = .three k) (v : Long) (rest : List Byte) :
    decode c (op :: longBytes v ++ rest) = .ok (k v, rest) :=
  decode_cons_eq_ok.2 (by
    rw [h]
    show some (k (Machine.mkLong (Machine.bankOf v) (Machine.mkWord (Machine.hiByte (Machine.offOf v))
      (Machine.loByte (Machine.offOf v)))), rest) = _
    rw [mkWord_hi_lo, mkLong_bank_off])

theorem buildImm_bytes {eight : Bool} {k : Imm → Instr} {v : Imm} (hv : v.fits eight = true) (rest : List Byte) :
    buildImm eight k (v.bytes ++ rest) = some (k v, rest) := by
  cases v <;> cases eight <;> simp_all [Imm.fits, Imm.bytes, buildImm]

theorem decode_immM {k : Imm → Instr} (h : entryOf c op = .immM k) {v : Imm} (hv : v.fits c.m8 = true)
    (rest : List Byte) : decode c (op :: v.bytes ++ rest) = .ok (k v, rest) :=
  decode_cons_eq_ok.2 (by rw [h]; exact buildImm_bytes hv rest)

theorem decode_immX {k : Imm → Instr} (h : entryOf c op = .immX k) {v : Imm} (hv : v.fits c.x8 = true)
    (rest : List Byte) : decode c (op :: v.bytes ++ rest) = .ok (k v, rest) :=
  decode_cons_eq_ok.2 (by rw [h]; exact buildImm_bytes hv rest)

end

/-- The reading instructions with every group-one format, each with the opcode its `izx` form has, less 1
(41_load_store_transfer.md R180; 42_arithmetic.md R220, R221, R224; 43_logic_shift.md R250 to R252). -/
def groupOneReads : List (Byte × (Operand → Instr)) :=
  [(0x00, .ora), (0x20, .and), (0x40, .eor), (0x60, .adc), (0xA0, .lda), (0xC0, .cmp), (0xE0, .sbc)]

/-- The instructions with the group-one memory formats: those and STA (41_load_store_transfer.md R183). -/
def groupOneInstrs : List (Byte × (Mem → Instr)) :=
  (0x80, .sta) :: groupOneReads.map fun p => (p.1, (p.2 <| .mem ·))

theorem decode_groupOne {c : DecodeCtx} {p : Byte × (Mem → Instr)} (hp : p ∈ groupOneInstrs) {m : Mem}
    (h : m.inGroupOne c = true) (rest : List Byte) :
    decode c (withOpcode (m.groupOne p.1) m.bytes ++ rest) = .ok (p.2 m, rest) := by
  simp only [groupOneInstrs, groupOneReads, List.map_cons, List.map_nil, List.mem_cons, List.not_mem_nil,
    or_false] at hp
  rcases hp with rfl | rfl | rfl | rfl | rfl | rfl | rfl | rfl
  all_goals cases m with
    | dp o | dpx o | izx o | izy o => apply decode_one; exact entryOf_of_6502 rfl
    | abs a | abx a | aby a => apply decode_two; exact entryOf_of_6502 rfl
    | izp o => apply decode_one; exact entryOf_of_added h rfl
    | idl o | idly o | sr o | sry o => apply decode_one; exact entryOf_of_65816 h rfl
    | abl a | alx a => apply decode_three; exact entryOf_of_65816 h rfl
    | dpy o => cases h

theorem decode_groupOneRead {c : DecodeCtx} {p : Byte × (Operand → Instr)} (hp : p ∈ groupOneReads) {o : Operand}
    (h : o.okGroupOne c = true) (rest : List Byte) : decode c (o.encodeGroupOne p.1 ++ rest) = .ok (p.2 o, rest) := by
  cases o with
  | mem m => exact decode_groupOne (List.mem_cons_of_mem _ (List.mem_map_of_mem hp)) h rest
  | imm v =>
    simp only [groupOneReads, List.mem_cons, List.not_mem_nil, or_false] at hp
    rcases hp with rfl | rfl | rfl | rfl | rfl | rfl | rfl
    all_goals apply decode_immM (hv := h); exact entryOf_of_6502 rfl

theorem decode_encode {c : DecodeCtx} {i : Instr} (h : i.wf c = true) (rest : List Byte) :
    decode c (encode i ++ rest) = .ok (i, rest) := by
  cases i
  case brk | rti | rts | nop | pha | pla | php | plp | clc | sec | cli | sei | cld | sed | clv | tax | tay | txa | tya
      | tsx | txs | inx | iny | dex | dey =>
    exact decode_none (entryOf_of_6502 rfl) rest
  case phx | plx | phy | ply | wai | stp => exact decode_none (entryOf_of_added h rfl) rest
  case txy | tyx | tcd | tdc | tcs | tsc | xba | rtl | phb | plb | phd | pld | phk | xce | cop =>
    exact decode_none (entryOf_of_65816 h rfl) rest
  case bpl d | bmi d | bvc d | bvs d | bcc d | bcs d | bne d | beq d =>
    exact decode_one (entryOf_of_6502 rfl) d rest
  case bra d => exact decode_one (entryOf_of_added h rfl) d rest
  case rmb0 o | rmb1 o | rmb2 o | rmb3 o | rmb4 o | rmb5 o | rmb6 o | rmb7 o | smb0 o | smb1 o | smb2 o | smb3 o
      | smb4 o | smb5 o | smb6 o | smb7 o =>
    exact decode_one (entryOf_of_bitops h rfl) o rest
  case bbr0 o d | bbr1 o d | bbr2 o d | bbr3 o d | bbr4 o d | bbr5 o d | bbr6 o d | bbr7 o d | bbs0 o d | bbs1 o d
      | bbs2 o d | bbs3 o d | bbs4 o d | bbs5 o d | bbs6 o d | bbs7 o d =>
    exact decode_pair (entryOf_of_bitops h rfl) o d rest
  case rep v | sep v | wdm v | pei v => exact decode_one (entryOf_of_65816 h rfl) v rest
  case mvn d s | mvp d s => exact decode_pair (entryOf_of_65816 h rfl) d s rest
  case pea v | per v | brl v => exact decode_two (entryOf_of_65816 h rfl) v rest
  case jsl a => exact decode_three (entryOf_of_65816 h rfl) a rest
  case jmp f =>
    cases f with
    | abj a | ind a => apply decode_two; exact entryOf_of_6502 rfl
    | iax a => apply decode_two; exact entryOf_of_added h rfl
  case jml f =>
    cases f with
    | abl a => apply decode_three; exact entryOf_of_65816 h rfl
    | ial a => apply decode_two; exact entryOf_of_65816 h rfl
  case jsr f =>
    cases f with
    | abj a => apply decode_two; exact entryOf_of_6502 rfl
    | iax a => apply decode_two; exact entryOf_of_65816 h rfl
  case asl t | lsr t | rol t | ror t =>
    cases t with
    | acc => apply decode_none; exact entryOf_of_6502 rfl
    | mem m =>
      cases m <;> simp only [Instr.wf, Target.ok, Mem.isIndexedByX, Bool.false_eq_true] at h
      case dp o | dpx o => apply decode_one; exact entryOf_of_6502 rfl
      case abs a | abx a => apply decode_two; exact entryOf_of_6502 rfl
  case inc t | dec t =>
    cases t with
    | acc => apply decode_none; exact entryOf_of_added h rfl
    | mem m =>
      cases m <;> simp only [Instr.wf, Target.ok, Mem.isIndexedByX, Bool.false_eq_true] at h
      case dp o | dpx o => apply decode_one; exact entryOf_of_6502 rfl
      case abs a | abx a => apply decode_two; exact entryOf_of_6502 rfl
  case illegal op =>
    exact decode_none (entryOf_of_unassigned (by simpa [Instr.wf] using h)) rest
  case tsb m | trb m =>
    obtain ⟨hc, hm⟩ := Bool.and_eq_true_iff.1 h
    cases m <;> simp only [Mem.isDpAbs, Bool.false_eq_true] at hm
    case dp o => apply decode_one; exact entryOf_of_added hc rfl
    case abs a => apply decode_two; exact entryOf_of_added hc rfl
  case stz m =>
    obtain ⟨hc, hm⟩ := Bool.and_eq_true_iff.1 h
    cases m <;> simp only [Mem.isIndexedByX, Bool.false_eq_true] at hm
    case dp o | dpx o => apply decode_one; exact entryOf_of_added hc rfl
    case abs a | abx a => apply decode_two; exact entryOf_of_added hc rfl
  case stx m | sty m =>
    cases m <;> simp only [Instr.wf, Bool.false_eq_true] at h
    case abs a => apply decode_two; exact entryOf_of_6502 rfl
    all_goals apply decode_one; exact entryOf_of_6502 rfl
  case bit o =>
    cases o with
    | imm v =>
      obtain ⟨hc, hv⟩ := Bool.and_eq_true_iff.1 h
      apply decode_immM (hv := hv); exact entryOf_of_added hc rfl
    | mem m =>
      cases m <;> simp only [Instr.wf, Operand.okBit, Bool.false_eq_true] at h
      case dp o => apply decode_one; exact entryOf_of_6502 rfl
      case abs a => apply decode_two; exact entryOf_of_6502 rfl
      case dpx o => apply decode_one; exact entryOf_of_added h rfl
      case abx a => apply decode_two; exact entryOf_of_added h rfl
  case ldx o =>
    cases o with
    | imm v => apply decode_immX (hv := h); exact entryOf_of_6502 rfl
    | mem m =>
      cases m <;> simp only [Instr.wf, Operand.okIndex, Mem.isIndexedByY, Bool.false_eq_true] at h
      case dp o | dpy o => apply decode_one; exact entryOf_of_6502 rfl
      case abs a | aby a => apply decode_two; exact entryOf_of_6502 rfl
  case ldy o =>
    cases o with
    | imm v => apply decode_immX (hv := h); exact entryOf_of_6502 rfl
    | mem m =>
      cases m <;> simp only [Instr.wf, Operand.okIndex, Mem.isIndexedByX, Bool.false_eq_true] at h
      case dp o | dpx o => apply decode_one; exact entryOf_of_6502 rfl
      case abs a | abx a => apply decode_two; exact entryOf_of_6502 rfl
  case cpx o | cpy o =>
    cases o with
    | imm v => apply decode_immX (hv := h); exact entryOf_of_6502 rfl
    | mem m =>
      cases m <;> simp only [Instr.wf, Operand.okIndex, Mem.isDpAbs, Bool.false_eq_true] at h
      case dp o => apply decode_one; exact entryOf_of_6502 rfl
      case abs a => apply decode_two; exact entryOf_of_6502 rfl
  case sta m => exact decode_groupOne (p := (0x80, .sta)) (by simp [groupOneInstrs]) h rest
  case ora o => exact decode_groupOneRead (p := (0x00, .ora)) (by simp [groupOneReads]) h rest
  case and o => exact decode_groupOneRead (p := (0x20, .and)) (by simp [groupOneReads]) h rest
  case eor o => exact decode_groupOneRead (p := (0x40, .eor)) (by simp [groupOneReads]) h rest
  case adc o => exact decode_groupOneRead (p := (0x60, .adc)) (by simp [groupOneReads]) h rest
  case lda o => exact decode_groupOneRead (p := (0xA0, .lda)) (by simp [groupOneReads]) h rest
  case cmp o => exact decode_groupOneRead (p := (0xC0, .cmp)) (by simp [groupOneReads]) h rest
  case sbc o => exact decode_groupOneRead (p := (0xE0, .sbc)) (by simp [groupOneReads]) h rest

/-- Settles O1: each format's opcode has the entry that reads the format back. -/
theorem decodeOfEncodeIsTheInstruction : Obligations.DecodeOfEncodeIsTheInstruction :=
  fun _ _ rest h => decode_encode h rest

end Sys2Proof
end

section
namespace Sys2Proof.Machine

/-! The invariant, part by part (10_state.md R39). -/

/-- The invariant, with what holds in the 8-bit variants beside what the widths ask of the registers. -/
structure State.Canonical (s : State) : Prop where
  eight : s.is816 = false →
    hiByte s.sp = 0 ∧ s.b = 0 ∧ s.dbr = 0 ∧ s.pbr = 0 ∧ s.dpr = 0 ∧ s.mode = .emulation
  narrowAcc : s.m8 = true → hiByte s.a = 0
  wideAcc : s.m8 = false → s.b = 0
  narrowIndex : s.x8 = true → hiByte s.x = 0 ∧ hiByte s.y = 0
  stack : s.is816 = true → s.mode = .emulation → hiByte s.sp = 1
  status : s.native = false → s.flag .M = true ∧ s.flag .X = true
  memory : s.memoryOk = true

theorem native_of_not_is816 {s : State} (h : s.is816 = false) : s.native = false := by simp [State.native, h]

theorem m8_of_not_native {s : State} (h : s.native = false) : s.m8 = true := by simp [State.m8, h]

theorem x8_of_not_native {s : State} (h : s.native = false) : s.x8 = true := by simp [State.x8, h]

theorem native_eq_false_iff {s : State} : s.native = false ↔ s.is816 = false ∨ s.mode = .emulation := by
  cases hm : s.mode <;> simp [State.native, hm]

theorem native_eq_true_iff {s : State} : s.native = true ↔ s.is816 = true ∧ s.mode = .native := by
  simp [State.native]

theorem inv_iff_canonical {s : State} : s.Inv ↔ s.Canonical := by
  constructor
  · rintro ⟨hn, hw, hs, hf, hmem⟩
    simp only [State.narrow, State.widthsCanonical, State.stackInPage1, State.statusForced, Bool.or_eq_true,
      Bool.and_eq_true, beq_iff_eq, Bool.not_eq_true'] at hn hw hs hf
    refine ⟨fun h => ?_, fun h => ?_, fun h => ?_, fun h => ?_, fun h hm => ?_, fun h => ?_, hmem⟩
    · obtain ⟨⟨⟨⟨⟨⟨-, hsp⟩, hb⟩, hdbr⟩, hpbr⟩, hdpr⟩, hmode⟩ := hn.resolve_left (by simp [h])
      exact ⟨hsp, hb, hdbr, hpbr, hdpr, hmode⟩
    · simpa [h] using hw.1
    · simpa [h] using hw.1
    · exact hw.2.resolve_left (by simp [h])
    · exact hs.resolve_left (by simp [h, hm])
    · exact hf.resolve_left (by simp [h])
  · intro h
    refine ⟨?_, ?_, ?_, ?_, h.memory⟩
    · cases h8 : s.is816
      · obtain ⟨hsp, hb, hdbr, hpbr, hdpr, hmode⟩ := h.eight h8
        have hnat := native_of_not_is816 h8
        obtain ⟨hx, hy⟩ := h.narrowIndex (x8_of_not_native hnat)
        simp [State.narrow, h.narrowAcc (m8_of_not_native hnat), hx, hy, hsp, hb, hdbr, hpbr, hdpr, hmode]
      · simp [State.narrow, h8]
    · have hacc : (if s.m8 then hiByte s.a == 0 else s.b == 0) = true := by
        cases hm : s.m8
        · simpa using h.wideAcc hm
        · simpa using h.narrowAcc hm
      have hindex : (!s.x8 || (hiByte s.x == 0 && hiByte s.y == 0)) = true := by
        cases hx : s.x8
        · rfl
        · simpa using h.narrowIndex hx
      exact Bool.and_eq_true_iff.2 ⟨hacc, hindex⟩
    · cases h8 : s.is816
      · simp [State.stackInPage1, h8]
      · cases hm : s.mode
        · simp [State.stackInPage1, hm]
        · simp [State.stackInPage1, h.stack h8 hm]
    · cases hn : s.native
      · simp [State.statusForced, h.status hn]
      · simp [State.statusForced, hn]

theorem hiByte_and_mask8 (v : Word) : hiByte (v &&& Width.w8.mask) = 0 := by rw [and_mask8, hiByte_zext]

namespace State.Canonical

variable {s t : State}

/-! What each update of the state keeps. The updates of `pc`, the counters and the wait state are in none of the
parts, so they keep the invariant as it stands. -/

theorem of_sameRegs {l : List Nat} (h : s.Canonical) (r : SameRegs s t) (k : Traffic l s t) : t.Canonical where
  eight := by rw [r.is816, r.sp, r.b, r.dbr, r.pbr, r.dpr, r.mode]; exact h.eight
  narrowAcc := by rw [r.m8, r.a]; exact h.narrowAcc
  wideAcc := by rw [r.m8, r.b]; exact h.wideAcc
  narrowIndex := by rw [r.x8, r.x, r.y]; exact h.narrowIndex
  stack := by rw [r.is816, r.mode, r.sp]; exact h.stack
  status := by rw [r.native, r.flag, r.flag]; exact h.status
  memory := k.memoryOk h.memory

/-- A change of the status register that leaves the width bits. -/
theorem of_p (h : s.Canonical) (ht : t = { s with p := t.p }) (hM : t.flag .M = s.flag .M)
    (hX : t.flag .X = s.flag .X) : t.Canonical := by
  have hc : t.cfg = s.cfg := by rw [ht]
  have hm : t.mode = s.mode := by rw [ht]
  have hm8 := m8_congr hc hm hM
  have hx8 := x8_congr hc hm hX
  have hnat := native_congr hc hm
  rw [ht] at hm8 hx8 hnat hM hX ⊢
  exact
    { h with
      narrowAcc := fun k => h.narrowAcc (hm8.symm.trans k)
      wideAcc := fun k => h.wideAcc (hm8.symm.trans k)
      narrowIndex := fun k => h.narrowIndex (hx8.symm.trans k)
      status := fun k => ⟨hM.trans (h.status (hnat.symm.trans k)).1, hX.trans (h.status (hnat.symm.trans k)).2⟩ }

theorem setFlag (h : s.Canonical) {f : Flag} (v : Bool) (hM : f ≠ .M) (hX : f ≠ .X) : (s.setFlag f v).Canonical :=
  h.of_p rfl ((flag_setFlag ..).trans (if_neg hM.symm)) ((flag_setFlag ..).trans (if_neg hX.symm))

theorem setNZ (h : s.Canonical) (v : Word) (w : Width) : (s.setNZ v w).Canonical :=
  (h.setFlag _ (by decide) (by decide)).setFlag _ (by decide) (by decide)

theorem compare (h : s.Canonical) (w : Width) (r m : Word) : (s.compare w r m).Canonical :=
  ((h.setFlag _ (by decide) (by decide)).setFlag _ (by decide) (by decide)).setFlag _ (by decide) (by decide)

theorem setA (h : s.Canonical) (v : Word) : (s.setA v).Canonical :=
  { h with
    narrowAcc := fun hm => by
      rw [setA_a, State.wA, show s.m8 = true from hm]; exact hiByte_and_mask8 v }

theorem setX (h : s.Canonical) (v : Word) : (s.setX v).Canonical :=
  { h with
    narrowIndex := fun hx => ⟨by rw [setX_x, State.wX, show s.x8 = true from hx]; exact hiByte_and_mask8 v,
      (h.narrowIndex hx).2⟩ }

theorem setY (h : s.Canonical) (v : Word) : (s.setY v).Canonical :=
  { h with
    narrowIndex := fun hx => ⟨(h.narrowIndex hx).1,
      by rw [setY_y, State.wX, show s.x8 = true from hx]; exact hiByte_and_mask8 v⟩ }

theorem setSum (h : s.Canonical) (r : Sum) (v : Bool) : (s.setSum r v).Canonical :=
  (((h.setFlag v (by decide) (by decide)).setFlag r.carry (by decide) (by decide)).setA r.value).setNZ r.value s.wA

/-- The 16-bit accumulator exists on the 65816 alone. -/
theorem setC16 (h : s.Canonical) (h8 : s.is816 = true) (v : Word) : (s.setC16 v).Canonical := by
  unfold State.setC16
  cases hm : s.m8 with
  | true =>
    exact { h with
      eight := fun h0 => absurd (h8.symm.trans h0) (by decide)
      narrowAcc := fun _ => hiByte_zext _
      wideAcc := fun hw => absurd (hm.symm.trans hw) (by decide) }
  | false => exact { h with narrowAcc := fun hn => absurd (hm.symm.trans hn) (by decide) }

/-- A stack pointer in the form of the variant and the mode. -/
theorem withSp (h : s.Canonical) (v : Word) : ({ s with sp := s.wrapSp v } : State).Canonical :=
  { h with
    eight := fun h0 => by
      have hsp : s.wrapSp v = zext (loByte v) := if_neg (by simp [show s.is816 = false from h0])
      exact ⟨by rw [hsp]; exact hiByte_zext _, (h.eight h0).2⟩
    stack := fun h8 hm => by
      have hsp : s.wrapSp v = mkWord 1 (loByte v) :=
        (if_pos (show s.is816 = true from h8)).trans (if_pos (show s.mode = .emulation from hm))
      rw [hsp]; exact hiByte_mkWord 1 _ }

theorem setSp (h : s.Canonical) (v : Word) : (s.setSp v).Canonical := h.withSp v

theorem afterPush (h : s.Canonical) (n : Nat) : ({ s with sp := s.spAfterPush n } : State).Canonical := by
  induction n generalizing s with
  | zero => exact h
  | succ n ih => exact ih (h.withSp (s.sp - 1))

theorem afterPull (h : s.Canonical) (n : Nat) : ({ s with sp := s.spAfterPull n } : State).Canonical := by
  induction n generalizing s with
  | zero => exact h
  | succ n ih => exact ih (h.withSp (s.sp + 1))

/-- Bank registers and the direct page exist on the 65816 alone. -/
theorem withBanks (h : s.Canonical) (h8 : s.is816 = true) (dbr pbr : Byte) (dpr : Word) :
    ({ s with dbr := dbr, pbr := pbr, dpr := dpr } : State).Canonical :=
  { h with eight := fun h0 => absurd (h8.symm.trans h0) (by decide) }

end State.Canonical

end Sys2Proof.Machine
end

section
namespace Sys2Proof.Machine

/-! `SetP` and the mode switch, in full (10_state.md R32; 46_status_mode.md R369). -/

theorem setP_of_not_native {s : State} (hn : s.native = false) (v : Byte) : s.setP v = { s with p := v ||| 0x30 } := by
  simp [State.setP, hn]

/-- In native mode a change of the width bit of the accumulator moves its high byte, and an 8-bit index width truncates
the index registers. -/
theorem setP_of_native {s : State} (hn : s.native = true) (v : Byte) :
    s.setP v = { s with
      p := v
      a := if s.flag .M = v.getLsbD 5 then s.a
        else if v.getLsbD 5 then zext (loByte s.a) else mkWord s.b (loByte s.a)
      b := if s.flag .M = v.getLsbD 5 then s.b else if v.getLsbD 5 then hiByte s.a else 0
      x := if v.getLsbD 4 then zext (loByte s.x) else s.x
      y := if v.getLsbD 4 then zext (loByte s.y) else s.y } := by
  have hM : ({ s with p := v } : State).flag .M = v.getLsbD 5 := rfl
  have hX : ({ s with p := v } : State).flag .X = v.getLsbD 4 := rfl
  unfold State.setP
  rw [if_pos hn]
  dsimp only
  rw [hM, hX]
  unfold State.migrateA State.truncateIndex
  cases s.flag .M <;> cases v.getLsbD 5 <;> cases v.getLsbD 4 <;> rfl

theorem flags_or_0x30 (p : Byte) (k : Nat) (hk : k < 8) :
    (p ||| 0x30).getLsbD k = (p.getLsbD k || (k == 4 || k == 5)) := by
  have h : ∀ k < 8, (0x30 : Byte).getLsbD k = (k == 4 || k == 5) := by decide
  rw [BitVec.getLsbD_or, h k hk]

/-- Bits 5 and 4 of `p` set, and the registers of `s` narrow: what is asked of 8-bit widths holds. -/
theorem flag_M_of_forced {s : State} {p : Byte} (h : s.p = p ||| 0x30) : s.flag .M = true := by
  rw [State.flag, h, Flag.bit, flags_or_0x30 p 5 (by decide)]
  simp

theorem flag_X_of_forced {s : State} {p : Byte} (h : s.p = p ||| 0x30) : s.flag .X = true := by
  rw [State.flag, h, Flag.bit, flags_or_0x30 p 4 (by decide)]
  simp

/-- A flag other than the width bits is not forced. -/
theorem flag_of_forced {s t : State} (h : t.p = s.p ||| 0x30) {f : Flag} (hM : f ≠ .M) (hX : f ≠ .X) :
    t.flag f = s.flag f := by
  rw [State.flag, h, flags_or_0x30 _ _ (by cases f <;> decide)]
  cases f <;> simp_all [State.flag, Flag.bit]

theorem m8_of_native {s : State} (hn : s.native = true) : s.m8 = s.flag .M := by simp [State.m8, hn]

theorem x8_of_native {s : State} (hn : s.native = true) : s.x8 = s.flag .X := by simp [State.x8, hn]

theorem is816_of_native {s : State} (hn : s.native = true) : s.is816 = true := (native_eq_true_iff.1 hn).1

namespace State.Canonical

variable {s t : State}

theorem setP (h : s.Canonical) (v : Byte) : (s.setP v).Canonical := by
  cases hn : s.native with
  | false =>
    rw [setP_of_not_native hn]
    have hM := flag_M_of_forced (s := { s with p := v ||| 0x30 }) (p := v) rfl
    have hX := flag_X_of_forced (s := { s with p := v ||| 0x30 }) (p := v) rfl
    exact h.of_p rfl (hM.trans (h.status hn).1.symm) (hX.trans (h.status hn).2.symm)
  | true =>
    have h8 := is816_of_native hn
    have hsM := m8_of_native hn
    generalize ht : s.setP v = t
    have htn : t.native = true := (native_congr (by rw [← ht]; simp) (by rw [← ht]; simp)).trans hn
    have htM := m8_of_native htn
    have htX := x8_of_native htn
    rw [setP_of_native hn] at ht
    have hM : t.flag .M = v.getLsbD 5 := by rw [← ht]; rfl
    have hX : t.flag .X = v.getLsbD 4 := by rw [← ht]; rfl
    rw [hM] at htM
    rw [hX] at htX
    generalize v.getLsbD 5 = nM at *
    generalize v.getLsbD 4 = nX at *
    refine ⟨fun h0 => ?_, fun hm => ?_, fun hm => ?_, fun hx => ?_, fun _ hm => ?_, fun h0 => ?_, ?_⟩
    · rw [is816_of_native htn] at h0; cases h0
    · rw [htM] at hm
      rw [← ht]
      cases hold : s.flag .M
      · simp [hm]
      · simpa [hm] using h.narrowAcc (hsM.trans hold)
    · rw [htM] at hm
      rw [← ht]
      cases hold : s.flag .M
      · simpa [hm] using h.wideAcc (hsM.trans hold)
      · simp [hm]
    · rw [htX] at hx
      rw [← ht]
      simp [hx]
    · exact absurd hm (by rw [(native_eq_true_iff.1 htn).2]; decide)
    · rw [htn] at h0; cases h0
    · rw [← ht]; exact h.memory

end State.Canonical

/-- The mode switch to emulation, in full (46_status_mode.md R369). -/
theorem toEmulation_eq (s : State) :
    s.toEmulation = ({ s with
      a := if s.flag .M then s.a else zext (loByte s.a)
      b := if s.flag .M then s.b else hiByte s.a
      x := zext (loByte s.x)
      y := zext (loByte s.y)
      p := s.p ||| 0x30
      sp := mkWord 0x01 (loByte s.sp)
      mode := .emulation } : State).setFlag .C false := by
  unfold State.toEmulation
  cases s.flag .M <;> rfl

theorem flag_setFlag_ne {s : State} {f g : Flag} (v : Bool) (h : g ≠ f) : (s.setFlag f v).flag g = s.flag g :=
  (flag_setFlag s f g v).trans (if_neg h)

namespace State.Canonical

variable {s : State}

/-- The mode switch to emulation narrows every register. -/
theorem toEmulation (h : s.Canonical) (hnat : s.native = true) : s.toEmulation.Canonical := by
  have hM : s.toEmulation.flag .M = true := by
    rw [toEmulation_eq, flag_setFlag_ne _ (by decide)]; exact flag_M_of_forced (p := s.p) rfl
  have hX : s.toEmulation.flag .X = true := by
    rw [toEmulation_eq, flag_setFlag_ne _ (by decide)]; exact flag_X_of_forced (p := s.p) rfl
  have hmode : s.toEmulation.mode = .emulation := by rw [toEmulation_eq]; rfl
  have h8 : s.toEmulation.is816 = true := by rw [toEmulation_eq]; exact is816_of_native (s := s) hnat
  have hm8 := m8_of_not_native (native_eq_false_iff.2 (.inr hmode))
  refine ⟨fun h0 => ?_, fun _ => ?_, fun h0 => ?_, fun _ => ?_, fun _ _ => ?_, fun _ => ⟨hM, hX⟩, ?_⟩
  · rw [h8] at h0; cases h0
  · rw [toEmulation_eq]
    cases hold : s.flag .M
    · simp
    · simpa using h.narrowAcc ((m8_of_native hnat).trans hold)
  · rw [hm8] at h0; cases h0
  · rw [toEmulation_eq]; simp
  · rw [toEmulation_eq]; simp
  · rw [toEmulation_eq]; exact h.memory

/-- The mode switch to native keeps the 8-bit widths. -/
theorem toNative (h : s.Canonical) (h8 : s.is816 = true) (hm : s.mode = .emulation) : s.toNative.Canonical := by
  have hnat : s.native = false := native_eq_false_iff.2 (.inr hm)
  have hn' : s.toNative.native = true := native_eq_true_iff.2 ⟨h8, rfl⟩
  have hM : s.toNative.flag .M = true := (flag_setFlag_ne _ (by decide)).trans (flag_M_of_forced (p := s.p) rfl)
  refine ⟨fun h0 => ?_, fun _ => h.narrowAcc (m8_of_not_native hnat), fun h0 => ?_,
    fun _ => h.narrowIndex (x8_of_not_native hnat), fun _ h0 => ?_, fun h0 => ?_, h.memory⟩
  · exact absurd (h8.symm.trans h0) (by decide)
  · rw [m8_of_native hn', hM] at h0; cases h0
  · cases h0
  · rw [hn'] at h0; cases h0

end State.Canonical

end Sys2Proof.Machine
end

section
namespace Sys2Proof.Machine

/-! Every operation, every instruction and every step keeps the invariant (10_state.md R39). -/

namespace State.Canonical

variable {s t : State}

/-- The fields that no part of the invariant speaks of. -/
theorem scratch (h : s.Canonical) (pc : Word) (excycles : Nat) (addcycles : Bool) (cycles : Nat) (waiting irq : Bool) :
    ({ s with pc := pc, excycles := excycles, addcycles := addcycles, processorCycles := cycles,
              waiting := waiting, irq := irq } : State).Canonical := { h with }

/-- Registers written as the invariant allows, then traffic from the state before. -/
theorem of_write {s' : State} {l : List Nat} (h : s'.Canonical) (r : SameRegs s' t) (k : Traffic l s t)
    (hs : s'.cfg = s.cfg ∧ s'.ioTrace = s.ioTrace ∧ s'.irq = s.irq ∧ s'.mem = s.mem := by exact ⟨rfl, rfl, rfl, rfl⟩) :
    t.Canonical := h.of_sameRegs r (k.of_eq hs ⟨rfl, rfl, rfl, rfl⟩)

theorem memRead1 {addr : Long} {v : Byte} (h : s.Canonical) (e : memRead1 addr s = .ok (v, t)) : t.Canonical :=
  h.of_sameRegs (memRead1_spec e).1 (memRead1_spec e).2

theorem memWrite1 {addr : Long} {v : Byte} (h : s.Canonical) (e : memWrite1 addr v s = .ok t) : t.Canonical :=
  h.of_sameRegs (memWrite1_spec e).1 (memWrite1_spec e).2

theorem fetch8 {v : Byte} (h : s.Canonical) (e : fetch8 s = .ok (v, t)) : t.Canonical :=
  (h.scratch (s.pc + 1) _ _ _ _ _).of_write (fetch8_spec e).1 (fetch8_spec e).2

theorem push8 {v : Byte} (h : s.Canonical) (e : push8 v s = .ok t) : t.Canonical :=
  (h.afterPush 1).of_write (push8_spec e).1 (push8_spec e).2

theorem push16 {v : Word} (h : s.Canonical) (e : push16 v s = .ok t) : t.Canonical :=
  (h.afterPush 2).of_write (push16_spec e).1 (push16_spec e).2

theorem pushW {w : Width} {v : Word} (h : s.Canonical) (e : pushW w v s = .ok t) : t.Canonical :=
  (h.afterPush w.count).of_write (pushW_spec e).1 (pushW_spec e).2

theorem pull8 {v : Byte} (h : s.Canonical) (e : pull8 s = .ok (v, t)) : t.Canonical :=
  (h.afterPull 1).of_write (pull8_spec e).1 (pull8_spec e).2

theorem pull16 {v : Word} (h : s.Canonical) (e : pull16 s = .ok (v, t)) : t.Canonical :=
  (h.afterPull 2).of_write (pull16_spec e).1 (pull16_spec e).2

theorem pullW {w : Width} {v : Word} (h : s.Canonical) (e : pullW w s = .ok (v, t)) : t.Canonical :=
  (h.afterPull w.count).of_write (pullW_spec e).1 (pullW_spec e).2.1

theorem rd {ea : Ea} {w : Width} {v : Word} (h : s.Canonical) (e : rd ea w s = .ok (v, t)) : t.Canonical :=
  h.of_sameRegs (rd_spec e).1 (rd_spec e).2

theorem effAddr {m : Mem} {ea : Ea} (h : s.Canonical) (e : effAddr m s = .ok (ea, t)) : t.Canonical :=
  (h.scratch _ t.excycles _ _ _ _).of_write (effAddr_spec e).1 (effAddr_spec e).2.1

theorem readOperand {w : Width} {o : Operand} {v : Word} (h : s.Canonical) (e : readOperand w o s = .ok (v, t)) :
    t.Canonical :=
  (h.scratch _ t.excycles _ _ _ _).of_write (readOperand_spec e).1 (readOperand_spec e).2.1

theorem storeThrough {w : Width} {m : Mem} {v : Word} (h : s.Canonical) (e : storeThrough w m v s = .ok t) :
    t.Canonical := by
  obtain ⟨r, _, _, -, k⟩ := storeThrough_spec e
  exact (h.scratch _ t.excycles _ _ _ _).of_write r k

theorem indTarget {q v : Word} (h : s.Canonical) (e : indTarget q s = .ok (v, t)) : t.Canonical :=
  h.of_sameRegs (indTarget_spec e).1 (indTarget_spec e).2

theorem iaxTarget {q v : Word} (h : s.Canonical) (e : iaxTarget q s = .ok (v, t)) : t.Canonical :=
  h.of_sameRegs (iaxTarget_spec e).1 (iaxTarget_spec e).2

theorem ptr24B0 {q : Word} {v : Long} (h : s.Canonical) (e : ptr24B0 q s = .ok (v, t)) : t.Canonical :=
  h.of_sameRegs (ptr24B0_spec e).1 (ptr24B0_spec e).2

/-- A read-modify-write whose function writes flags other than the width bits. -/
theorem modify {g : Target} {f : Word → State → Word × State} (hf : FlagsOnly f) (h : s.Canonical)
    (e : modify g f s = .ok t) : t.Canonical := by
  have keeps : ∀ v (u : State), u.Canonical → (f v u).2.Canonical := fun v u hu => by
    obtain ⟨hp, hM, hX⟩ := hf v u
    exact hu.of_p hp hM hX
  cases g with
  | acc => cases e; exact (keeps _ _ h).setA _
  | mem m =>
    simp only [Machine.modify, bind_ok, Prod.exists] at e
    obtain ⟨ea, s1, h1, old, s2, h2, h3⟩ := e
    obtain ⟨r, k⟩ := wr_spec h3
    exact (keeps old s2 ((h.effAddr h1).rd h2)).of_sameRegs r k

/-- The status register and the program bank after the entry of an event. -/
theorem mask (h : s.Canonical) (e : Exc) : (e.mask s).Canonical := by
  have hI := h.setFlag (f := .I) true (by decide) (by decide)
  have hD := hI.setFlag (f := .D) false (by decide) (by decide)
  have hu : (if e.clearsD (s.setFlag .I true) then (s.setFlag .I true).setFlag .D false
      else s.setFlag .I true : State).Canonical := by
    split
    · exact hD
    · exact hI
  unfold Exc.mask
  dsimp only
  generalize (if e.clearsD (s.setFlag .I true) then (s.setFlag .I true).setFlag .D false
    else s.setFlag .I true : State) = u at hu ⊢
  split
  · exact hu.withBanks ‹_› u.dbr 0 u.dpr
  · exact hu

theorem read16Bank0 {lo hi v : Word} (h : s.Canonical) (e : read16Bank0 lo hi s = .ok (v, t)) : t.Canonical :=
  h.of_sameRegs (read16Bank0_spec e).1 (read16Bank0_spec e).2

theorem pushBank (h : s.Canonical) (e : pushBank s = .ok t) : t.Canonical :=
  (h.afterPush _).of_write (pushBank_spec e).1 (pushBank_spec e).2

theorem takeException {e : Exc} {ret : Word} (h : s.Canonical) (k : takeException e ret s = .ok t) : t.Canonical := by
  simp only [Machine.takeException, bind_ok, Prod.exists] at k
  obtain ⟨s1, h1, s2, h2, s3, h3, v, s4, h4, k⟩ := k
  cases pure_ok.1 k
  exact (((((h.pushBank h1).push16 h2).push8 h3).mask e).read16Bank0 h4).scratch v _ _ _ _ _

theorem pullBank (h : s.Canonical) (k : pullBank s = .ok t) : t.Canonical := by
  unfold Machine.pullBank at k
  cases hn : s.native <;> simp only [hn, if_true, if_false, Bool.false_eq_true] at k
  · cases k; exact h
  · simp only [bind_ok, Prod.exists] at k
    obtain ⟨b, s1, h1, k⟩ := k
    cases pure_ok.1 k
    have h8 : s1.is816 = true := (pull8_spec h1).1.is816.trans (is816_of_native hn)
    exact (h.pull8 h1).withBanks h8 s1.dbr b s1.dpr

theorem returnFromException (h : s.Canonical) (k : returnFromException s = .ok t) : t.Canonical := by
  simp only [Machine.returnFromException, bind_ok, Prod.exists] at k
  obtain ⟨image, s1, h1, ret, s2, h2, k⟩ := k
  exact ((((h.pull8 h1).setP image).pull16 h2).scratch ret _ _ _ _ _).pullBank k

theorem repeatUnlessDone (h : s.Canonical) (c : Word) : (s.repeatUnlessDone c).Canonical := by
  unfold State.repeatUnlessDone
  split
  · exact h
  · exact h.scratch _ _ _ _ _ _

theorem blockMove {dir : Word} {dst src : Byte} (h : s.Canonical) (h8 : s.is816 = true)
    (k : blockMove dir dst src s = .ok t) : t.Canonical := by
  simp only [Machine.blockMove, bind_ok, Prod.exists] at k
  obtain ⟨v, s1, h1, s2, h2, k⟩ := k
  cases pure_ok.1 k
  have h816 : s2.is816 = true := (memWrite1_spec h2).1.is816.trans ((memRead1_spec h1).1.is816.trans h8)
  have hxy := (((h.memRead1 h1).memWrite1 h2).setX (s2.x + dir)).setY ((s2.setX (s2.x + dir)).y + dir)
  exact ((hxy.setC16 h816 _).withBanks ((is816_congr (by simp)).trans h816) dst _ _).repeatUnlessDone _

/-- What XCE leaves in either direction. -/
theorem exchange (h : s.Canonical) (h8 : s.is816 = true) :
    (if s.flag .C = (s.mode == .emulation) then s
      else if s.flag .C then s.toEmulation else s.toNative : State).Canonical := by
  cases hm : s.mode <;> cases s.flag .C
  · exact h
  · exact h.toEmulation (native_eq_true_iff.2 ⟨h8, hm⟩)
  · exact h.toNative h8 hm
  · exact h

end State.Canonical

theorem flagsOnly_stepValue (d : Word) : FlagsOnly (stepValue d) := fun v s => ⟨rfl, by simp [stepValue], by simp [stepValue]⟩

theorem flagsOnly_testAndModify (f : Word → Word → Word) :
    FlagsOnly fun v s => (f s.acc v, s.setFlag .Z (s.acc &&& v == 0)) := fun v s => ⟨rfl, by simp, by simp⟩

theorem flagsOnly_shift (f : Width → Word → Bool → Sum) (carryIn : State → Bool) :
    FlagsOnly fun v s => ((f s.wA v (carryIn s)).value,
      (s.setFlag .C (f s.wA v (carryIn s)).carry).setNZ (f s.wA v (carryIn s)).value s.wA) :=
  fun v s => ⟨rfl, by simp, by simp⟩

section
variable {s t : State} (h : s.Canonical)
include h

theorem load_canonical {w : Width} {set : State → Word → State} {o : Operand}
    (hset : ∀ (u : State) v, u.Canonical → (set u v).Canonical) (e : load w set o s = .next t) : t.Canonical := by
  simp only [load, finish_next, bind_ok, Prod.exists, pure_ok] at e
  obtain ⟨v, u, hr, rfl⟩ := e
  exact (hset u v (h.readOperand hr)).setNZ v w

theorem pullInto_canonical {w : Width} {set : State → Word → State}
    (hset : ∀ (u : State) v, u.Canonical → (set u v).Canonical) (e : pullInto w set s = .next t) : t.Canonical := by
  simp only [pullInto, finish_next, bind_ok, Prod.exists, pure_ok] at e
  obtain ⟨v, u, hr, rfl⟩ := e
  exact (hset u v (h.pullW hr)).setNZ v w

theorem logic_canonical {op : Word → Word → Word} {o : Operand} (e : logic op o s = .next t) : t.Canonical := by
  simp only [logic, finish_next, bind_ok, Prod.exists, pure_ok] at e
  obtain ⟨v, u, hr, rfl⟩ := e
  exact ((h.readOperand hr).setA _).setNZ _ _

theorem branch_canonical {taken : Bool} {d : Byte} (e : branch taken d s = .next t) : t.Canonical := by
  cases e
  split
  · exact h.scratch _ _ _ _ _ _
  · exact h

theorem branchOnBit_canonical {n : Nat} {want : Bool} {off d : Byte} (e : branchOnBit n want off d s = .next t) :
    t.Canonical := by
  simp only [branchOnBit, finish_next, bind_ok, Prod.exists, pure_ok] at e
  obtain ⟨v, u, hr, rfl⟩ := e
  have hu := h.memRead1 hr
  split
  · exact hu.scratch _ _ _ _ _ _
  · exact hu

theorem setMemBit_canonical {n : Nat} {v : Bool} {off : Byte} (e : setMemBit n v off s = .next t) : t.Canonical := by
  simp only [setMemBit, finish_next, bind_ok, Prod.exists] at e
  obtain ⟨m, u, hr, hw⟩ := e
  exact (h.memRead1 hr).memWrite1 hw

end

/-- Every instruction that the variant has keeps the invariant. -/
theorem exec_canonical {i : Instr} {s t : State} (h : s.Canonical) (hwf : i.wf s.ctx = true)
    (e : exec i s = .next t) : t.Canonical := by
  cases i
  case lda => exact load_canonical h (fun _ v hu => hu.setA v) e
  case ldx => exact load_canonical h (fun _ v hu => hu.setX v) e
  case ldy => exact load_canonical h (fun _ v hu => hu.setY v) e
  case pla => exact pullInto_canonical h (fun _ v hu => hu.setA v) e
  case plx => exact pullInto_canonical h (fun _ v hu => hu.setX v) e
  case ply => exact pullInto_canonical h (fun _ v hu => hu.setY v) e
  case and | ora | eor => exact logic_canonical h e
  case sta | stx | sty | stz => exact h.storeThrough (finish_next.1 e)
  case inc | dec => exact h.modify (flagsOnly_stepValue _) (finish_next.1 e)
  case tsb => exact h.modify (flagsOnly_testAndModify fun a v => v ||| a) (finish_next.1 e)
  case trb => exact h.modify (flagsOnly_testAndModify fun a v => v &&& ~~~a) (finish_next.1 e)
  case asl | lsr | rol | ror => exact h.modify (flagsOnly_shift _ _) (finish_next.1 e)
  case adc | sbc =>
    simp only [exec, execAdc, execSbc, finish_next, bind_ok, Prod.exists, pure_ok] at e
    obtain ⟨v, u, hr, rfl⟩ := e
    exact (h.readOperand hr).setSum _ _
  case cmp | cpx | cpy =>
    simp only [exec, execCmp, execCpx, execCpy, finish_next, bind_ok, Prod.exists, pure_ok] at e
    obtain ⟨v, u, hr, rfl⟩ := e
    exact (h.readOperand hr).compare _ _ _
  case bit o =>
    simp only [exec, execBit, finish_next, bind_ok, Prod.exists] at e
    obtain ⟨v, u, hr, e⟩ := e
    have hz := (h.readOperand hr).setFlag (f := .Z) (u.acc &&& v == 0) (by decide) (by decide)
    cases o with
    | imm v => cases pure_ok.1 e; exact hz
    | mem m =>
      cases pure_ok.1 e
      exact (hz.setFlag _ (by decide) (by decide)).setFlag _ (by decide) (by decide)
  case tax | tsx | tyx | inx | dex => cases e; exact (h.setX _).setNZ _ _
  case txa | tya => cases e; exact (h.setA _).setNZ _ _
  case tay | txy | iny | dey => cases e; exact (h.setY _).setNZ _ _
  case txs | tcs => cases e; exact h.setSp _
  case tcd => cases e; exact (h.withBanks hwf _ _ _).setNZ _ _
  case tdc | tsc | xba => cases e; exact (h.setC16 hwf _).setNZ _ _
  case rmb0 | rmb1 | rmb2 | rmb3 | rmb4 | rmb5 | rmb6 | rmb7 | smb0 | smb1 | smb2 | smb3 | smb4 | smb5 | smb6 | smb7 =>
    exact setMemBit_canonical h e
  case bpl | bmi | bvc | bvs | bcc | bcs | bne | beq | bra => exact branch_canonical h e
  case bbr0 | bbr1 | bbr2 | bbr3 | bbr4 | bbr5 | bbr6 | bbr7 | bbs0 | bbs1 | bbs2 | bbs3 | bbs4 | bbs5 | bbs6 | bbs7 =>
    exact branchOnBit_canonical h e
  case brl => cases e; exact h.scratch _ _ _ _ _ _
  case jmp f =>
    cases f with
    | abj a => cases e; exact h.scratch _ _ _ _ _ _
    | ind q =>
      simp only [exec, execJmp, finish_next, bind_ok, Prod.exists, pure_ok] at e
      obtain ⟨v, u, hr, rfl⟩ := e
      exact (h.indTarget hr).scratch _ _ _ _ _ _
    | iax q =>
      simp only [exec, execJmp, finish_next, bind_ok, Prod.exists, pure_ok] at e
      obtain ⟨v, u, hr, rfl⟩ := e
      exact (h.iaxTarget hr).scratch _ _ _ _ _ _
  case jml f =>
    cases f with
    | abl a => cases e; exact (h.scratch (offOf a) _ _ _ _ _).withBanks hwf _ (bankOf a) _
    | ial q =>
      simp only [exec, execJml, finish_next, bind_ok, Prod.exists, pure_ok] at e
      obtain ⟨v, u, hr, rfl⟩ := e
      exact ((h.ptr24B0 hr).scratch (offOf v) _ _ _ _ _).withBanks ((ptr24B0_spec hr).1.is816.trans hwf) _ (bankOf v) _
  case jsr f =>
    simp only [exec, execJsr, finish_next, bind_ok] at e
    obtain ⟨u, hp, e⟩ := e
    cases f with
    | abj a => cases pure_ok.1 e; exact (h.push16 hp).scratch _ _ _ _ _ _
    | iax q =>
      simp only [bind_ok, Prod.exists, pure_ok] at e
      obtain ⟨v, u', hr, rfl⟩ := e
      exact ((h.push16 hp).iaxTarget hr).scratch _ _ _ _ _ _
  case jsl l =>
    simp only [exec, execJsl, finish_next, bind_ok, pure_ok] at e
    obtain ⟨u, hp, u', hp', rfl⟩ := e
    have h8 : u'.is816 = true := (push16_spec hp').1.is816.trans ((push8_spec hp).1.is816.trans hwf)
    exact (((h.push8 hp).push16 hp').scratch (offOf l) _ _ _ _ _).withBanks h8 _ (bankOf l) _
  case rts =>
    simp only [exec, execRts, finish_next, bind_ok, Prod.exists, pure_ok] at e
    obtain ⟨v, u, hr, rfl⟩ := e
    exact (h.pull16 hr).scratch _ _ _ _ _ _
  case rtl =>
    simp only [exec, execRtl, finish_next, bind_ok, Prod.exists, pure_ok] at e
    obtain ⟨v, u, hr, b, u', hb, rfl⟩ := e
    have h8 : u'.is816 = true := (pull8_spec hb).1.is816.trans ((pull16_spec hr).1.is816.trans hwf)
    exact (((h.pull16 hr).pull8 hb).scratch (v + 1) _ _ _ _ _).withBanks h8 _ b _
  case pha | phx | phy => exact h.pushW (finish_next.1 e)
  case php | phb | phk => exact h.push8 (finish_next.1 e)
  case phd | pea | per => exact h.push16 (finish_next.1 e)
  case pei off =>
    simp only [exec, execPei, finish_next, bind_ok, Prod.exists] at e
    obtain ⟨ea, u, ha, v, u', hr, hp⟩ := e
    exact ((h.effAddr ha).rd hr).push16 hp
  case plp =>
    simp only [exec, execPlp, finish_next, bind_ok, Prod.exists, pure_ok] at e
    obtain ⟨v, u, hr, rfl⟩ := e
    exact (h.pull8 hr).setP v
  case plb =>
    simp only [exec, execPlb, finish_next, bind_ok, Prod.exists, pure_ok] at e
    obtain ⟨v, u, hr, rfl⟩ := e
    exact ((h.pull8 hr).withBanks ((pull8_spec hr).1.is816.trans hwf) v _ _).setNZ _ _
  case pld =>
    simp only [exec, execPld, finish_next, bind_ok, Prod.exists, pure_ok] at e
    obtain ⟨v, u, hr, rfl⟩ := e
    exact ((h.pull16 hr).withBanks ((pull16_spec hr).1.is816.trans hwf) _ _ v).setNZ _ _
  case clc | sec | cli | sei | cld | sed | clv => cases e; exact h.setFlag _ (by decide) (by decide)
  case rep | sep => cases e; exact h.setP _
  case xce => cases e; exact h.exchange hwf
  case mvn | mvp => exact h.blockMove hwf (finish_next.1 e)
  case brk | cop => exact h.takeException (finish_next.1 e)
  case rti => exact h.returnFromException (finish_next.1 e)
  case wai | stp => cases e; exact h.scratch _ _ _ _ _ _
  case nop | wdm => cases e; exact h
  case illegal => cases e

/-! The fetch (30_encoding.md R103). -/

theorem fetchBytes_spec {n : Nat} {s t : State} {bs : List Byte} (h : fetchBytes n s = .ok (bs, t)) :
    SameRegs { s with pc := t.pc } t ∧ Traffic [] s t := by
  induction n generalizing s bs with
  | zero => cases h; exact ⟨.refl _, .refl _⟩
  | succ n ih =>
    simp only [fetchBytes, bind_ok, Prod.exists] at h
    obtain ⟨b, u, h1, bs', u', h2, h⟩ := h
    cases pure_ok.1 h
    obtain ⟨r1, k1⟩ := fetch8_spec h1
    obtain ⟨r2, k2⟩ := ih h2
    refine ⟨?_, k1.trans k2⟩
    unfold SameRegs at *
    rw [r2, r1]
    rfl

theorem fetchOperands_spec {e : Entry} {op : Byte} {s t : State} {bs : List Byte}
    (h : fetchOperands e op s = .ok (bs, t)) : SameRegs { s with pc := t.pc } t ∧ Traffic [] s t := by
  unfold fetchOperands at h
  split at h
  · cases h; exact ⟨.refl _, (Traffic.refl s).of_eq ⟨rfl, rfl, rfl, rfl⟩ ⟨rfl, rfl, rfl, rfl⟩⟩
  · exact fetchBytes_spec h

/-- The decoder's context is in none of the fields that a fetch changes. -/
theorem ctx_startCount (s : State) (op : Byte) : (s.startCount op).ctx = s.ctx := rfl

/-- A fetch moves `pc` and starts the scratch counters; the instruction it answers is one the variant has, or the
fallback (30_encoding.md R103, R104). -/
theorem fetchInstr_spec {s t : State} {f : Fetched} (h : fetchInstr s = .ok (f, t)) :
    SameRegs { s with pc := t.pc, excycles := 0, addcycles := extraFlag s.cfg f.op } t ∧ Traffic [] s t ∧
      (f.instr.wf t.ctx = true ∨ f.instr = .illegal f.op) := by
  unfold fetchInstr at h
  simp only [bind_ok, Prod.exists] at h
  obtain ⟨op, u, h1, bs, u', h2, h⟩ := h
  obtain ⟨r1, k1⟩ := fetch8_spec h1
  obtain ⟨r2, k2⟩ := fetchOperands_spec h2
  have hctx : u'.ctx = (u.startCount op).ctx := r2.ctx
  have hregs : SameRegs { s with pc := u'.pc, excycles := 0, addcycles := extraFlag s.cfg op } u' := by
    have hc : u.cfg = s.cfg := r1.cfg
    unfold SameRegs State.startCount at *
    rw [r2, hc, r1]
    rfl
  have htraffic : Traffic [] s u' := k1.trans (k2.of_eq ⟨rfl, rfl, rfl, rfl⟩ ⟨rfl, rfl, rfl, rfl⟩)
  split at h
  · rename_i i rest hb
    cases pure_ok.1 h
    rw [hctx] at hb
    exact ⟨hregs, htraffic, .inl (hctx ▸ (Entry.build_sound (entryOf_encodes _ op) hb).1)⟩
  · cases pure_ok.1 h
    exact ⟨hregs, htraffic, .inr rfl⟩

namespace State.Canonical

variable {s t : State}

theorem fetchInstr {f : Fetched} (h : s.Canonical) (e : fetchInstr s = .ok (f, t)) : t.Canonical :=
  (h.scratch t.pc 0 (extraFlag s.cfg f.op) _ _ _).of_write (fetchInstr_spec e).1 (fetchInstr_spec e).2.1

theorem takeIrq (h : s.Canonical) (e : takeIrq s = .ok t) : t.Canonical := by
  unfold Machine.takeIrq at e
  split at e
  · exact h.takeException e
  · cases e; exact h

end State.Canonical

end Sys2Proof.Machine
end

section
namespace Sys2Proof.Machine

/-! Which outcome an instruction has (00_scope.md R7; 20_memory.md R87; 60_exceptions.md R421). -/

/-- The outcome is a next state where `inside`, and else the report of an address that is not in memory. -/
def EndsBy (s : State) (inside : Bool) (r : Result) : Prop :=
  (inside = true → ∃ t, r = .next t) ∧
  (inside = false → ∃ a, s.cfg.memSize ≤ a ∧ r = .fault (.addressOutOfBounds a))

theorem endsBy_next (s t : State) : EndsBy s true (.next t) := ⟨fun _ => ⟨t, rfl⟩, fun h => by cases h⟩

theorem endsBy_finish {s : State} {e : Except Fault State} (h : ∃ t, e = .ok t) : EndsBy s true (finish e) := by
  obtain ⟨t, rfl⟩ := h
  exact endsBy_next s t

/-- Operations after one that completes. -/
theorem completes_bind {α β : Type} {e : Except Fault (α × State)} {g : α × State → Except Fault β}
    (h : ∃ v t, e = .ok (v, t)) (hg : ∀ x, ∃ t, g x = .ok t) : ∃ t, (e >>= g) = .ok t := by
  obtain ⟨v, t, rfl⟩ := h
  exact hg (v, t)

theorem fault_bind {α β : Type} {s : State} {e : Except Fault α} {g : α → Except Fault β}
    (h : ∃ a, s.cfg.memSize ≤ a ∧ e = .error (.addressOutOfBounds a)) :
    ∃ a, s.cfg.memSize ≤ a ∧ (e >>= g) = .error (.addressOutOfBounds a) := by
  obtain ⟨a, ha, rfl⟩ := h
  exact ⟨a, ha, rfl⟩

theorem finish_fault {s : State} {e : Except Fault State}
    (h : ∃ a, s.cfg.memSize ≤ a ∧ e = .error (.addressOutOfBounds a)) :
    ∃ a, s.cfg.memSize ≤ a ∧ finish e = .fault (.addressOutOfBounds a) := by
  obtain ⟨a, ha, rfl⟩ := h
  exact ⟨a, ha, rfl⟩

/-- An instruction that starts by reading its operand. -/
theorem endsBy_read {w : Width} {o : Operand} {s : State} {g : Word × State → Except Fault State}
    (hg : ∀ x, ∃ t, g x = .ok t) : EndsBy s (s.operandInMemory w o) (finish (readOperand w o s >>= g)) := by
  refine ⟨fun h => ?_, fun h => ?_⟩
  · obtain ⟨t, ht⟩ := completes_bind (readOperand_completes h) hg
    exact ⟨t, by rw [ht]; rfl⟩
  · cases o with
    | imm v => cases h
    | mem m => exact finish_fault (fault_bind (readOperand_outside h))

theorem endsBy_store (w : Width) (m : Mem) (v : Word) (s : State) :
    EndsBy s (s.inMemory w m) (finish (storeThrough w m v s)) := by
  refine ⟨fun h => ?_, fun h => finish_fault (storeThrough_outside h)⟩
  obtain ⟨t, ht⟩ := storeThrough_completes (v := v) h
  exact ⟨t, by rw [ht]; rfl⟩

theorem endsBy_modify {f : Word → State → Word × State} (hf : FlagsOnly f) (g : Target) (s : State) :
    EndsBy s (s.targetInMemory g) (finish (modify g f s)) := by
  refine ⟨fun h => ?_, fun h => ?_⟩
  · obtain ⟨t, ht⟩ := modify_completes hf h
    exact ⟨t, by rw [ht]; rfl⟩
  · cases g with
    | acc => cases h
    | mem m => exact finish_fault (modify_outside h)

theorem endsBy_iax {q : Word} {s : State} {g : Word × State → Except Fault State} (hg : ∀ x, ∃ t, g x = .ok t) :
    EndsBy s s.programInMemory (finish (iaxTarget q s >>= g)) := by
  refine ⟨fun h => ?_, fun h => finish_fault (fault_bind (iaxTarget_outside h))⟩
  obtain ⟨t, ht⟩ := completes_bind (iaxTarget_completes h) hg
  exact ⟨t, by rw [ht]; rfl⟩

theorem programInMemory_eq {s t : State} (hc : t.cfg = s.cfg) (hb : t.pbr = s.pbr) :
    t.programInMemory = s.programInMemory :=
  Bool.eq_iff_iff.2 ⟨programInMemory_congr hc.symm hb.symm, programInMemory_congr hc hb⟩

theorem endsBy_jsr (f : JsrForm) (s : State) :
    EndsBy s (s.dataInMemory (.jsr f)) (exec (.jsr f) s) := by
  obtain ⟨u, hu⟩ := push16_completes (s.pc - 1) s
  obtain ⟨r, k⟩ := push16_spec hu
  cases f with
  | abj a => exact endsBy_finish ⟨_, by rw [hu]; rfl⟩
  | iax q =>
    have h := endsBy_iax (q := q) (s := u) (g := fun x => pure { x.2 with pc := x.1 }) fun _ => ⟨_, rfl⟩
    rw [programInMemory_eq r.cfg r.pbr] at h
    have he : exec (.jsr (.iax q)) s = finish (iaxTarget q u >>= fun x => pure { x.2 with pc := x.1 }) := by
      simp only [exec, execJsr, hu]
      rfl
    rw [he]
    exact ⟨h.1, by rw [EndsBy, k.cfg] at h; exact h.2⟩

theorem endsBy_blockMove (dir : Word) (dst src : Byte) (s : State) :
    EndsBy s (s.moveInMemory dst src) (finish (blockMove dir dst src s)) := by
  refine ⟨fun h => ?_, fun h => ?_⟩
  · obtain ⟨hs, hd⟩ := of_decide_eq_true h
    obtain ⟨v, s1, h1⟩ := memRead1_completes hs
    obtain ⟨r1, k1⟩ := memRead1_spec h1
    rw [← r1.y, ← r1.addrMask, ← k1.cfg] at hd
    obtain ⟨s2, h2⟩ := memWrite1_completes (v := v) hd
    exact ⟨_, by rw [blockMove, h1, ok_bind]; dsimp only; rw [h2]; rfl⟩
  · apply finish_fault
    by_cases hs : (mkLong src s.x &&& s.addrMask).toNat < s.cfg.memSize
    · have hd : s.cfg.memSize ≤ (mkLong dst s.y &&& s.addrMask).toNat :=
        not_lt.1 fun hd => of_decide_eq_false h ⟨hs, hd⟩
      obtain ⟨v, s1, h1⟩ := memRead1_completes hs
      obtain ⟨r1, k1⟩ := memRead1_spec h1
      refine ⟨_, hd, ?_⟩
      rw [← r1.y, ← r1.addrMask, ← k1.cfg] at hd
      rw [blockMove, h1, ok_bind, ← r1.y, ← r1.addrMask]
      dsimp only
      rw [memWrite1_outside hd]
      rfl
    · exact ⟨_, not_lt.1 hs, by rw [blockMove, memRead1_outside (not_lt.1 hs)]; rfl⟩

/-- A 16-bit datum at a direct-page address lies in bank 0. -/
theorem rd_bank0_completes (w : Width) (q : Word) (s : State) : ∃ v t, rd ⟨mkLong 0 q, .bank⟩ w s = .ok (v, t) := by
  apply rd_completes
  intro a ha
  cases w <;> simp only [Ea.bytes, Ea.next, bankOf_mkLong, List.mem_cons, List.not_mem_nil, or_false] at ha
  · rw [ha]; exact bank0_inMemory _ _
  · rcases ha with rfl | rfl <;> exact bank0_inMemory _ _

theorem exec_endsBy (i : Instr) (s : State) (hi : ∀ op, i ≠ .illegal op) :
    EndsBy s (s.dataInMemory i) (exec i s) := by
  cases i
  case illegal op => exact absurd rfl (hi op)
  case lda | ldx | ldy | adc | sbc | cmp | cpx | cpy | and | ora | eor => exact endsBy_read fun _ => ⟨_, rfl⟩
  case bit o => exact endsBy_read fun _ => by cases o <;> exact ⟨_, rfl⟩
  case sta | stx | sty | stz => exact endsBy_store _ _ _ s
  case inc t | dec t => exact endsBy_modify (flagsOnly_stepValue _) t s
  case asl t | lsr t | rol t | ror t => exact endsBy_modify (flagsOnly_shift _ _) t s
  case tsb m => exact endsBy_modify (flagsOnly_testAndModify fun a v => v ||| a) (.mem m) s
  case trb m => exact endsBy_modify (flagsOnly_testAndModify fun a v => v &&& ~~~a) (.mem m) s
  case tax | tay | txa | tya | tsx | txs | txy | tyx | tcd | tdc | tcs | tsc | xba | inx | iny | dex | dey
      | bpl | bmi | bvc | bvs | bcc | bcs | bne | beq | bra | brl | clc | sec | cli | sei | cld | sed | clv | rep | sep
      | xce | wai | stp | nop | wdm => exact endsBy_next s _
  case rmb0 | rmb1 | rmb2 | rmb3 | rmb4 | rmb5 | rmb6 | rmb7 | smb0 | smb1 | smb2 | smb3 | smb4 | smb5 | smb6 | smb7 =>
    exact endsBy_finish (completes_bind (memRead1_completes (bank0_inMemory _ _)) fun _ =>
      memWrite1_completes (bank0_inMemory _ _))
  case bbr0 | bbr1 | bbr2 | bbr3 | bbr4 | bbr5 | bbr6 | bbr7 | bbs0 | bbs1 | bbs2 | bbs3 | bbs4 | bbs5 | bbs6 | bbs7 =>
    exact endsBy_finish (completes_bind (memRead1_completes (bank0_inMemory _ _)) fun _ => ⟨_, rfl⟩)
  case jmp f =>
    cases f with
    | abj a => exact endsBy_next s _
    | ind q => exact endsBy_finish (completes_bind (indTarget_completes q s) fun _ => ⟨_, rfl⟩)
    | iax q => exact endsBy_iax fun _ => ⟨_, rfl⟩
  case jml f =>
    cases f with
    | abl a => exact endsBy_next s _
    | ial q => exact endsBy_finish (completes_bind (ptr24B0_completes q s) fun _ => ⟨_, rfl⟩)
  case jsr f => exact endsBy_jsr f s
  case jsl l =>
    obtain ⟨u, hu⟩ := push8_completes s.pbr s
    obtain ⟨v, hv⟩ := push16_completes (s.pc - 1) u
    exact endsBy_finish ⟨_, by rw [hu, ok_bind, hv]; rfl⟩
  case rts => exact endsBy_finish (completes_bind (pull16_completes s) fun _ => ⟨_, rfl⟩)
  case rtl =>
    exact endsBy_finish (completes_bind (pull16_completes s) fun x =>
      completes_bind (pull8_completes x.2) fun _ => ⟨_, rfl⟩)
  case pha | phx | phy => exact endsBy_finish (pushW_completes _ _ s)
  case php | phb | phk => exact endsBy_finish (push8_completes _ s)
  case phd | pea | per => exact endsBy_finish (push16_completes _ s)
  case pei off =>
    have h : ∃ t, (rd ⟨mkLong 0 (s.dpAddr off), .bank⟩ .w16 s >>= fun x => push16 x.1 x.2) = .ok t :=
      completes_bind (rd_bank0_completes .w16 _ s) fun x => push16_completes x.1 x.2
    exact endsBy_finish h
  case pla | plx | ply => exact endsBy_finish (completes_bind (pullW_completes _ s) fun _ => ⟨_, rfl⟩)
  case plp | plb => exact endsBy_finish (completes_bind (pull8_completes s) fun _ => ⟨_, rfl⟩)
  case pld => exact endsBy_finish (completes_bind (pull16_completes s) fun _ => ⟨_, rfl⟩)
  case mvn dst src | mvp dst src => exact endsBy_blockMove _ dst src s
  case brk | cop => exact endsBy_finish (takeException_completes _ _ s)
  case rti => exact endsBy_finish (returnFromException_completes s)

/-- Settles O10: each instruction is a sequence of shared operations, of which one at most accesses memory outside
bank 0. -/
theorem everyInstructionCompletes : Obligations.EveryInstructionCompletes := fun i s hi => exec_endsBy i s hi

end Sys2Proof.Machine
end

section
namespace Sys2Proof.Machine

/-! A step, taken apart (30_encoding.md R103). -/

/-- The fallback stops with its report, an access outside memory with another, and there is no other stop. -/
theorem exec_outcome (i : Instr) (s : State) :
    (∃ t, exec i s = .next t) ∨
    (∃ op, i = .illegal op ∧
      exec i s = .fault (.illegalOpcode op ({ s with pc := s.pc - 1 } : State).pcAddr { s with pc := s.pc - 1 })) ∨
    ∃ a, s.cfg.memSize ≤ a ∧ exec i s = .fault (.addressOutOfBounds a) := by
  by_cases hi : ∃ op, i = .illegal op
  · obtain ⟨op, rfl⟩ := hi
    exact .inr (.inl ⟨op, rfl, rfl⟩)
  · obtain ⟨hin, hout⟩ := exec_endsBy i s fun op h => hi ⟨op, h⟩
    cases h : s.dataInMemory i
    · exact .inr (.inr (hout h))
    · exact .inl (hin h)

theorem takeIrq_completes (s : State) : ∃ t, takeIrq s = .ok t := by
  unfold takeIrq
  split
  · exact takeException_completes _ _ s
  · exact ⟨s, rfl⟩

theorem takeIrq_cfg {s t : State} (h : takeIrq s = .ok t) : t.cfg = s.cfg := by
  unfold takeIrq at h
  split at h
  · exact (takeException_spec h).2.cfg
  · cases h; rfl

theorem fetchBytes_completes {s : State} (h : s.programInMemory = true) (n : Nat) :
    ∃ bs t, fetchBytes n s = .ok (bs, t) := by
  induction n generalizing s with
  | zero => exact ⟨_, _, rfl⟩
  | succ n ih =>
    obtain ⟨b, u, h1⟩ := fetch8_completes h
    obtain ⟨r, k⟩ := fetch8_spec h1
    obtain ⟨bs, t, h2⟩ := ih (programInMemory_congr k.cfg r.pbr h)
    exact ⟨b :: bs, t, by rw [fetchBytes, h1, ok_bind]; dsimp only; rw [h2]; rfl⟩

theorem fetchInstr_completes {s : State} (h : s.programInMemory = true) : ∃ f t, fetchInstr s = .ok (f, t) := by
  obtain ⟨op, u, h1⟩ := fetch8_completes h
  obtain ⟨r, k⟩ := fetch8_spec h1
  have hu : (u.startCount op).programInMemory = true := programInMemory_congr k.cfg r.pbr h
  have hops : ∃ bs t, fetchOperands (entryOf (u.startCount op).ctx op) op (u.startCount op) = .ok (bs, t) := by
    unfold fetchOperands
    split
    · exact ⟨_, _, rfl⟩
    · exact fetchBytes_completes hu _
  obtain ⟨bs, t, h2⟩ := hops
  rw [fetchInstr, h1, ok_bind]
  dsimp only
  rw [h2, ok_bind]
  dsimp only
  split <;> exact ⟨_, _, rfl⟩

theorem fetchInstr_outside {s : State} (h : s.programInMemory = false) :
    fetchInstr s = .error (.addressOutOfBounds s.pcAddr.toNat) := by
  rw [fetchInstr, fetch8, memRead1_outside (not_lt.1 (of_decide_eq_false h))]
  rfl

theorem step_of_waiting {s : State} (h : s.waiting = true) : step s = .next s.waitTick := if_pos h

theorem step_of_fetch {s u v : State} {f : Fetched} (hw : s.waiting = false) (hq : takeIrq s = .ok u)
    (hf : fetchInstr u = .ok (f, v)) : step s = countCycles (baseCycles f.op f.instr v) (exec f.instr v) := by
  rw [step, if_neg (by simp [hw]), hq]
  dsimp only
  rw [hf]

theorem step_of_fetch_outside {s u : State} (hw : s.waiting = false) (hq : takeIrq s = .ok u)
    (hp : u.programInMemory = false) : step s = .fault (.addressOutOfBounds u.pcAddr.toNat) := by
  rw [step, if_neg (by simp [hw]), hq]
  dsimp only
  rw [fetchInstr_outside hp]

/-- What a step can do: a waiting tick; or, after the interrupt that may be due, the report of a fetch outside memory, or
the fetched instruction with its cycles counted. -/
theorem step_cases (s : State) :
    (s.waiting = true ∧ step s = .next s.waitTick) ∨
    ∃ u, s.waiting = false ∧ takeIrq s = .ok u ∧
      ((u.programInMemory = false ∧ step s = .fault (.addressOutOfBounds u.pcAddr.toNat)) ∨
        ∃ f v, fetchInstr u = .ok (f, v) ∧ step s = countCycles (baseCycles f.op f.instr v) (exec f.instr v)) := by
  cases hw : s.waiting
  · obtain ⟨u, hq⟩ := takeIrq_completes s
    refine .inr ⟨u, rfl, hq, ?_⟩
    cases hp : u.programInMemory
    · exact .inl ⟨rfl, step_of_fetch_outside hw hq hp⟩
    · obtain ⟨f, v, hf⟩ := fetchInstr_completes hp
      exact .inr ⟨f, v, hf, step_of_fetch hw hq hf⟩
  · exact .inl ⟨rfl, step_of_waiting hw⟩

/-- The instruction a step runs, from the outcome of the step. -/
theorem step_next_cases {s t : State} (h : step s = .next t) :
    (s.waiting = true ∧ t = s.waitTick) ∨
    ∃ u f v w, takeIrq s = .ok u ∧ fetchInstr u = .ok (f, v) ∧ exec f.instr v = .next w ∧
      t = { w with processorCycles := w.processorCycles + baseCycles f.op f.instr v + w.excycles } := by
  rcases step_cases s with ⟨hw, hs⟩ | ⟨u, -, hq, ⟨-, hs⟩ | ⟨f, v, hf, hs⟩⟩ <;> rw [hs] at h
  · cases h; exact .inl ⟨hw, rfl⟩
  · cases h
  · rcases exec_outcome f.instr v with ⟨w, he⟩ | ⟨op, -, he⟩ | ⟨a, -, he⟩ <;> rw [he] at h <;> cases h
    exact .inr ⟨u, f, v, w, hq, hf, he, rfl⟩

/-- The report a step ends in, from the outcome of the step. -/
theorem step_fault_cases {s : State} {r : Fault} (h : step s = .fault r) :
    (∃ u f v op, takeIrq s = .ok u ∧ fetchInstr u = .ok (f, v) ∧ f.instr = .illegal op ∧
      r = .illegalOpcode op ({ v with pc := v.pc - 1 } : State).pcAddr { v with pc := v.pc - 1 }) ∨
    ∃ a, s.cfg.memSize ≤ a ∧ r = .addressOutOfBounds a := by
  rcases step_cases s with ⟨-, hs⟩ | ⟨u, -, hq, ⟨hp, hs⟩ | ⟨f, v, hf, hs⟩⟩ <;> rw [hs] at h
  · cases h
  · cases h
    refine .inr ⟨_, ?_, rfl⟩
    rw [← takeIrq_cfg hq]
    exact not_lt.1 (of_decide_eq_false hp)
  · have hc : v.cfg = s.cfg := (fetchInstr_spec hf).2.1.cfg.trans (takeIrq_cfg hq)
    rcases exec_outcome f.instr v with ⟨w, he⟩ | ⟨op, hi, he⟩ | ⟨a, ha, he⟩ <;> rw [he] at h <;> cases h
    · exact .inl ⟨u, f, v, op, hq, hf, hi, rfl⟩
    · exact .inr ⟨a, hc ▸ ha, rfl⟩

theorem step_ne_refused (s : State) (r : Refusal) : step s ≠ .refused r := by
  intro h
  rcases step_cases s with ⟨-, hs⟩ | ⟨u, -, hq, ⟨hp, hs⟩ | ⟨f, v, hf, hs⟩⟩ <;> rw [hs] at h
  · cases h
  · cases h
  · rcases exec_outcome f.instr v with ⟨w, he⟩ | ⟨op, hi, he⟩ | ⟨a, ha, he⟩ <;> rw [he] at h <;> cases h

theorem covers_of_not_is816 {s : State} (h : s.is816 = false) : s.cfg.covers = true := by
  have hv : s.cfg.variant ≠ .v65816 := by simpa [State.is816] using h
  simp [Config.covers, hv]

/-- Where memory covers the address space, the fetch and the instruction's accesses lie in it. -/
theorem step_safe_of_covers {s : State} (hc : s.cfg.covers = true) : SafeOutcome (step s) := by
  rcases step_cases s with ⟨-, hs⟩ | ⟨u, -, hq, h⟩
  · rw [hs]; trivial
  · have hu : u.cfg.covers = true := by rw [takeIrq_cfg hq]; exact hc
    rcases h with ⟨hp, -⟩ | ⟨f, v, hf, hs⟩
    · rw [programInMemory_of_covers hu] at hp; cases hp
    · have hv : v.cfg.covers = true := by rw [(fetchInstr_spec hf).2.1.cfg]; exact hu
      rw [hs]
      by_cases hi : ∃ op, f.instr = .illegal op
      · obtain ⟨op, hi⟩ := hi
        rw [hi]
        trivial
      · obtain ⟨t, ht⟩ := (exec_endsBy f.instr v fun op h => hi ⟨op, h⟩).1 (dataInMemory_of_covers hv _)
        rw [ht]
        trivial

/-- Settles O9: a step ends as its fetch or its instruction does. -/
theorem stepOutcomesAreTheStatedOnes : Obligations.StepOutcomesAreTheStatedOnes := by
  refine ⟨step_ne_refused, fun s a h => ?_, fun s => step_safe_of_covers,
    fun s h => step_safe_of_covers (covers_of_not_is816 h)⟩
  rcases step_fault_cases h with ⟨_, _, _, _, -, -, -, hr⟩ | ⟨a', ha, hr⟩ <;> cases hr
  exact ha

/-! The invariant of a run (10_state.md R39). -/

theorem step_canonical {s t : State} (hs : s.Canonical) (h : step s = .next t) : t.Canonical := by
  rcases step_next_cases h with ⟨-, rfl⟩ | ⟨u, f, v, w, hq, hf, he, rfl⟩
  · exact hs.scratch _ _ _ _ _ _
  · have hv := (hs.takeIrq hq).fetchInstr hf
    rcases (fetchInstr_spec hf).2.2 with hwf | hill
    · exact (exec_canonical hv hwf he).scratch _ _ _ _ _ _
    · rw [hill] at he; cases he

theorem step_fault_canonical {s t : State} {op : Byte} {addr : Long} (hs : s.Canonical)
    (h : step s = .fault (.illegalOpcode op addr t)) : t.Canonical := by
  rcases step_fault_cases h with ⟨u, f, v, op', hq, hf, -, hr⟩ | ⟨a, -, hr⟩ <;> cases hr
  exact ((hs.takeIrq hq).fetchInstr hf).scratch _ _ _ _ _ _

/-- Settles O13: the interrupt's entry, the fetch and each instruction keep every part of the invariant. -/
theorem stepKeepsTheInvariant : Obligations.StepKeepsTheInvariant := fun _ hs =>
  ⟨fun _ h => inv_iff_canonical.2 (step_canonical (inv_iff_canonical.1 hs) h),
    fun _ _ _ h => inv_iff_canonical.2 (step_fault_canonical (inv_iff_canonical.1 hs) h)⟩

/-- The flags after reset: I and the width bits, and D where the parameter says so (10_state.md R41). -/
theorem construct_flag (cfg : Config) (image : Memory) (f : Flag) :
    (State.construct cfg image).flag f = (f == .I || f == .M || f == .X || (f == .D && cfg.resetD)) := by
  show (if cfg.resetD then 0x3C else 0x34 : Byte).getLsbD f.bit = _
  cases cfg.resetD <;> cases f <;> rfl

/-- The reset values satisfy the invariant with any memory in canonical form. -/
theorem construct_canonical {cfg : Config} {image : Memory}
    (h : image.wf = true ∧ image.below cfg.memSize = true) : (State.construct cfg image).Canonical := by
  have hn : (State.construct cfg image).native = false := native_eq_false_iff.2 (.inr rfl)
  have h0 : hiByte (0 : Word) = 0 := by decide
  refine ⟨fun h8 => ?_, fun _ => h0, fun hm => ?_, fun _ => ⟨h0, h0⟩, fun h8 _ => ?_,
    fun _ => ⟨construct_flag .., construct_flag ..⟩, Bool.and_eq_true_iff.2 h⟩
  · have hv : cfg.variant ≠ .v65816 := by simpa [State.is816, State.construct] using h8
    simp only [State.construct, if_neg hv]
    decide
  · rw [m8_of_not_native hn] at hm; cases hm
  · have hv : cfg.variant = .v65816 := by simpa [State.is816, State.construct] using h8
    simp only [State.construct, if_pos hv]
    decide

theorem createProcessor_canonical (cfg : Config) (image : List Host.Cell) : (createProcessor cfg image).Canonical :=
  construct_canonical ⟨Memory.image_wf _ image, Memory.storeCells_below image rfl⟩

theorem hostReset_canonical {s : State} (h : s.memoryOk = true) : s.hostReset.Canonical :=
  let hc := construct_canonical (cfg := s.cfg) (image := s.mem) (Bool.and_eq_true_iff.1 h)
  { hc with }

/-- Settles O14: the reset values satisfy each part of the invariant. -/
theorem resetHasTheInvariant : Obligations.ResetHasTheInvariant :=
  ⟨inv_iff_canonical.2 (construct_canonical ⟨rfl, rfl⟩),
    fun cfg image => inv_iff_canonical.2 (createProcessor_canonical cfg image),
    fun _ h => inv_iff_canonical.2 (hostReset_canonical h)⟩

theorem deviceStore_canonical {s : State} (h : s.Canonical) (addr : Nat) (v : Byte) :
    (s.deviceStore addr v).Canonical := by
  obtain ⟨hw, hb⟩ := Bool.and_eq_true_iff.1 h.memory
  exact { h with memory := Bool.and_eq_true_iff.2 ⟨Memory.storeCells_wf _ hw, Memory.storeCells_below _ hb⟩ }

theorem nmi_completes (s : State) : ∃ t, takeException .nmi s.pc { s with waiting := false } = .ok t ∧ s.nmi = .next t := by
  obtain ⟨t, h⟩ := takeException_completes .nmi s.pc { s with waiting := false }
  exact ⟨t, h, by rw [State.nmi, h]; rfl⟩

theorem hostAct_canonical {e : HostEvent} {s t : State} (hs : s.Canonical) (h : hostAct e s = .next t) :
    t.Canonical := by
  cases e with
  | step => exact step_canonical hs h
  | reset => cases h; exact hostReset_canonical hs.memory
  | nmi => exact (hs.scratch _ _ _ _ false _).takeException (finish_next.1 h)
  | setIrq level => cases h; exact hs.scratch _ _ _ _ _ _
  | deviceStore addr v => cases h; exact deviceStore_canonical hs addr v

theorem hostAct_fault_canonical {e : HostEvent} {s t : State} {op : Byte} {addr : Long} (hs : s.Canonical)
    (h : hostAct e s = .fault (.illegalOpcode op addr t)) : t.Canonical := by
  cases e with
  | step => exact step_fault_canonical hs h
  | nmi =>
    obtain ⟨u, -, hu⟩ := nmi_completes s
    cases hu.symm.trans h
  | _ => cases h

theorem hostRun_canonical {es : List HostEvent} {s t : State} (hs : s.Canonical) (h : hostRun es s = .next t) :
    t.Canonical := by
  induction es generalizing s with
  | nil => cases h; exact hs
  | cons e es ih =>
    unfold hostRun at h
    split at h
    · exact ih (hostAct_canonical hs ‹_›) h
    · exact ih (hostAct_fault_canonical hs ‹_›) h
    · cases h
    · cases h

/-- Settles O15, by induction on the host's events: each keeps the invariant that construction has. -/
theorem everyReachableStateHasTheInvariant : Obligations.EveryReachableStateHasTheInvariant :=
  fun cfg image _ _ h => inv_iff_canonical.2 (hostRun_canonical (createProcessor_canonical cfg image) h)

/-- Settles O16: the values are those that construction writes, field by field. -/
theorem resetValues : Obligations.ResetValues := by
  intro s
  have hf : ∀ f, s.hostReset.flag f = (f == .I || f == .M || f == .X || (f == .D && s.cfg.resetD)) :=
    construct_flag s.cfg s.mem
  have hsp : s.hostReset.sp = if s.is816 then 0x01FF else 0x00FF := by
    cases hv : s.cfg.variant <;> simp [State.hostReset, State.construct, State.is816, hv]
  exact ⟨rfl, hf .I, hf .D, rfl, rfl, rfl, rfl, rfl, rfl, rfl, rfl, rfl, rfl, rfl, rfl, hsp, hf .M, hf .X, hf .N, hf .V,
    hf .Z, hf .C, rfl, rfl, rfl⟩

end Sys2Proof.Machine
end

section
namespace Sys2Proof.Machine

/-! Loads, stores and transfers (41_load_store_transfer.md), the single flags and the waits. -/

/-- A state that differs from `s` by traffic, with that traffic as variables. -/
theorem exists_of_eq_withTraffic {s u : State} (h : u = s.withTraffic u) :
    ∃ e q m tr, u = { s with excycles := e, irq := q, mem := m, ioTrace := tr } := ⟨_, _, _, _, h⟩

theorem wA_of_eq_withTraffic {s u : State} (h : u = s.withTraffic u) : u.wA = s.wA := by rw [h]; rfl

theorem wX_of_eq_withTraffic {s u : State} (h : u = s.withTraffic u) : u.wX = s.wX := by rw [h]; rfl

theorem and_mask_of (v : Word) (eight : Bool) :
    v &&& (Width.of eight).mask = if eight then zext (loByte v) else v := by
  cases eight with
  | true => exact and_mask8 v
  | false => exact and_mask16 v

theorem and_mask_and_mask (v : Word) (w : Width) : v &&& w.mask &&& w.mask = v &&& w.mask := by
  rw [BitVec.and_assoc, BitVec.and_self]

theorem setA_of_masked {s : State} {v : Word} (h : v &&& s.wA.mask = v) : s.setA v = { s with a := v } := by
  rw [State.setA, h]

theorem setX_of_masked {s : State} {v : Word} (h : v &&& s.wX.mask = v) : s.setX v = { s with x := v } := by
  rw [State.setX, h]

theorem setY_of_masked {s : State} {v : Word} (h : v &&& s.wX.mask = v) : s.setY v = { s with y := v } := by
  rw [State.setY, h]

/-- Settles O26: a load is a reading instruction whose operand already has the register's width. -/
theorem loadsSetTheRegisterAndNZ : Obligations.LoadsSetTheRegisterAndNZ := by
  intro s o
  refine ⟨fun hmem => ?_, fun hmem => ?_, fun hmem => ?_⟩
  · refine completesReading (f := fun v u => (u.setA v).setNZ v s.wA) hmem rfl (fun _ _ => ⟨rfl, rfl, rfl, rfl⟩)
      (fun _ _ => rfl) fun v u _ hu hv => ?_
    rw [setA_of_masked (wA_of_eq_withTraffic hu ▸ hv)]
    obtain ⟨e, q, m, tr, rfl⟩ := exists_of_eq_withTraffic hu
    exact ⟨rfl, nzFrame_setNZ v _ rfl⟩
  · refine completesReading (f := fun v u => (u.setX v).setNZ v s.wX) hmem rfl (fun _ _ => ⟨rfl, rfl, rfl, rfl⟩)
      (fun _ _ => rfl) fun v u _ hu hv => ?_
    rw [setX_of_masked (wX_of_eq_withTraffic hu ▸ hv)]
    obtain ⟨e, q, m, tr, rfl⟩ := exists_of_eq_withTraffic hu
    exact ⟨rfl, nzFrame_setNZ v _ rfl⟩
  · refine completesReading (f := fun v u => (u.setY v).setNZ v s.wX) hmem rfl (fun _ _ => ⟨rfl, rfl, rfl, rfl⟩)
      (fun _ _ => rfl) fun v u _ hu hv => ?_
    rw [setY_of_masked (wX_of_eq_withTraffic hu ▸ hv)]
    obtain ⟨e, q, m, tr, rfl⟩ := exists_of_eq_withTraffic hu
    exact ⟨rfl, nzFrame_setNZ v _ rfl⟩

/-- Settles O27: each store is the shared operation; STA's accumulator counts up to its width. -/
theorem storesWriteTheDatumAndNothingElse : Obligations.StoresWriteTheDatumAndNothingElse := fun s _ =>
  ⟨fun hm => ⟨completesStoring hm rfl (and_mask_and_mask s.a s.wA).symm, completesStoring hm rfl rfl⟩,
    fun hm => ⟨completesStoring hm rfl rfl, completesStoring hm rfl rfl⟩⟩

theorem accForIndex_eq (s : State) : s.accForIndex = if s.x8 then zext (loByte s.a) else s.c16 :=
  congrArg (fun v => if s.x8 then v else s.c16) (and_mask8 s.a)

theorem accForIndex_masked (s : State) : s.accForIndex &&& s.wX.mask = s.accForIndex := by
  rw [accForIndex_eq, State.wX, and_mask_of]
  cases s.x8 with
  | true => simp
  | false => rfl

/-- Settles O28: the value copied is the source masked to the destination's width. -/
theorem transfersAmongAXYUseTheDestinationWidth : Obligations.TransfersAmongAXYUseTheDestinationWidth := by
  intro s
  dsimp only
  rw [← accForIndex_eq, ← and_mask_of s.x, ← and_mask_of s.y, ← and_mask_of s.x, ← and_mask_of s.y]
  refine ⟨⟨_, rfl, ?_, nzFrame_setNZ _ _ rfl⟩, ⟨_, rfl, ?_, nzFrame_setNZ _ _ rfl⟩,
    ⟨_, rfl, rfl, nzFrame_setNZ _ _ rfl⟩, ⟨_, rfl, rfl, nzFrame_setNZ _ _ rfl⟩,
    ⟨_, rfl, rfl, nzFrame_setNZ _ _ rfl⟩, ⟨_, rfl, rfl, nzFrame_setNZ _ _ rfl⟩⟩
  · rw [setX_of_masked (accForIndex_masked s)]; rfl
  · rw [setY_of_masked (accForIndex_masked s)]; rfl

/-- A transfer to the stack pointer keeps it in page 1 in emulation mode and in one byte in the 8-bit variants. -/
theorem setSp_eq (s : State) (v : Word) : s.setSp v = { s with
    sp := if s.native then v else if s.is816 then mkWord 0x01 (loByte v) else zext (loByte v) } := by
  unfold State.setSp State.native
  cases s.is816 <;> cases s.mode <;> rfl

/-- A write of the 16-bit accumulator is read back, and lies in `a` and `b` by the width (10_state.md R30). -/
theorem setC16_split (s : State) (v : Word) :
    (s.setC16 v).c16 = v ∧ s.setC16 v = { s with a := (s.setC16 v).a, b := (s.setC16 v).b } ∧
      (s.m8 = false → (s.setC16 v).b = s.b) ∧
      (s.m8 = true → (s.setC16 v).a = zext (loByte v) ∧ (s.setC16 v).b = hiByte v) := by
  cases h : s.m8
  · have heq : s.setC16 v = { s with a := v } := by simp [State.setC16, h]
    rw [heq]
    exact ⟨if_neg (h ▸ Bool.false_ne_true), rfl, fun _ => rfl, Bool.false_ne_true.elim⟩
  · have heq : s.setC16 v = { s with a := zext (loByte v), b := hiByte v } := by simp [State.setC16, h]
    rw [heq]
    refine ⟨(if_pos h).trans ?_, rfl, Bool.false_ne_true.symm.elim, fun _ => ⟨rfl, rfl⟩⟩
    rw [loByte_zext, mkWord_hi_lo]

/-- A write of the 16-bit accumulator followed by the flags of a value. -/
theorem setC16_setNZ_split (s : State) (v r : Word) (w : Width) :
    let t := (s.setC16 v).setNZ r w
    (t.c16 = v ∧ t = { s with a := t.a, b := t.b, p := t.p } ∧ (s.m8 = false → t.b = s.b) ∧
      (s.m8 = true → t.a = zext (loByte v) ∧ t.b = hiByte v)) ∧ NZFrame r w s t := by
  obtain ⟨hread, hframe, hwide, hnarrow⟩ := setC16_split s v
  have hm8 : ((s.setC16 v).setNZ r w).m8 = (s.setC16 v).m8 := m8_congr rfl rfl (by simp)
  have hc16 : ((s.setC16 v).setNZ r w).c16 = (s.setC16 v).c16 := by rw [State.c16, hm8]; rfl
  refine ⟨⟨hc16.trans hread, ?_, hwide, hnarrow⟩, nzFrame_setNZ r w (by simp)⟩
  rw [hframe]
  rfl

/-- Settles O29: TSX is a transfer at the index width; the stack pointer and the 16-bit accumulator are written through
their setters. -/
theorem stackDirectPageAndByteTransfers : Obligations.StackDirectPageAndByteTransfers := by
  intro s
  dsimp only
  rw [← and_mask_of s.sp]
  exact ⟨⟨_, rfl, rfl, nzFrame_setNZ _ _ rfl⟩, congrArg Host.Outcome.next (setSp_eq s s.x),
    congrArg Host.Outcome.next (setSp_eq s s.c16), ⟨_, rfl, setC16_setNZ_split s _ _ _⟩,
    ⟨_, rfl, rfl, nzFrame_setNZ _ _ rfl⟩, ⟨_, rfl, setC16_setNZ_split s _ _ _⟩, ⟨_, rfl, setC16_setNZ_split s _ _ _⟩⟩

theorem oneFlag_setFlag (s : State) (f : Flag) (v : Bool) : OneFlag f v s (s.setFlag f v) :=
  ⟨by simp, fun g hg => by simp [hg]⟩

/-- Settles O50: each is one write of a flag. -/
theorem singleFlagInstructions : Obligations.SingleFlagInstructions := fun s =>
  ⟨⟨_, rfl, rfl, oneFlag_setFlag s _ _⟩, ⟨_, rfl, rfl, oneFlag_setFlag s _ _⟩, ⟨_, rfl, rfl, oneFlag_setFlag s _ _⟩,
    ⟨_, rfl, rfl, oneFlag_setFlag s _ _⟩, ⟨_, rfl, rfl, oneFlag_setFlag s _ _⟩, ⟨_, rfl, rfl, oneFlag_setFlag s _ _⟩,
    ⟨_, rfl, rfl, oneFlag_setFlag s _ _⟩⟩

/-- Settles O57: the meanings of STP, NOP and WDM are the stated states themselves. -/
theorem stpNopWdm : Obligations.StpNopWdm := fun _ _ => ⟨rfl, rfl, rfl, rfl⟩

end Sys2Proof.Machine
end

section
namespace Sys2Proof.Machine

/-! What a pull finds of what a push left (20_memory.md R79): the stack pointer goes back where it was, and each byte
is read from the address it was stored at. -/

theorem exists_of_sameRegs {s u : State} (h : SameRegs s u) :
    ∃ q m tr, u = { s with irq := q, mem := m, ioTrace := tr } := ⟨_, _, _, h⟩

theorem toNat_add_one (v : Word) : (v + 1).toNat = (v.toNat + 1) % 65536 := by rw [BitVec.toNat_add]; rfl

theorem toNat_sub_one (v : Word) : (v - 1).toNat = (v.toNat + 65535) % 65536 := by
  rw [BitVec.toNat_sub]
  simp
  omega

/-- The stack pointer has the form of the variant and mode (I2, I4). -/
def State.StackForm (s : State) : Prop := s.wrapSp s.sp = s.sp

theorem wrapSp_idem (s : State) (v : Word) : s.wrapSp (s.wrapSp v) = s.wrapSp v := by
  unfold State.wrapSp
  split <;> (try split) <;> simp

theorem State.Canonical.stackForm {s : State} (h : s.Canonical) : s.StackForm := by
  unfold State.StackForm State.wrapSp
  split
  · split
    · next h8 hm => rw [← h.stack h8 hm, mkWord_hi_lo]
    · rfl
  · next h8 => exact zext_loByte_of_hi_zero (h.eight (by simpa using h8)).1

theorem toNat_wrapSp_mod (s : State) (v : Word) : (s.wrapSp v).toNat % 256 = v.toNat % 256 := by
  unfold State.wrapSp
  split
  · split
    · rw [toNat_mkWord, toNat_loByte]; omega
    · rfl
  · rw [toNat_zext, toNat_loByte]; omega

theorem toNat_stackAddr_mod (s : State) : s.stackAddr.toNat % 256 = s.sp.toNat % 256 := by
  unfold State.stackAddr
  rw [toNat_mkLong]
  split
  · simp
  · rw [BitVec.toNat_add]; simp

theorem toNat_wrapSp_sub_one_mod (s : State) : ((s.wrapSp (s.sp - 1)).toNat + 1) % 256 = s.sp.toNat % 256 := by
  have hmod := toNat_wrapSp_mod s (s.sp - 1)
  rw [toNat_sub_one] at hmod
  omega

/-- One pull after one push gives back the stack pointer. -/
theorem wrapSp_sub_add_one {s : State} (h : s.StackForm) : s.wrapSp (s.wrapSp (s.sp - 1) + 1) = s.sp := by
  apply BitVec.eq_of_toNat_eq
  unfold State.StackForm State.wrapSp at *
  have hlt := s.sp.isLt
  have hone : (0x01 : Byte).toNat = 1 := rfl
  split at h
  · split at h
    · next h8 hm =>
      have hsp := congrArg BitVec.toNat h
      simp only [if_pos h8, if_pos hm, toNat_mkWord, toNat_loByte, toNat_add_one, toNat_sub_one, hone] at hsp ⊢
      omega
    · next h8 hm =>
      simp only [if_pos h8, if_neg hm, toNat_add_one, toNat_sub_one]
      omega
  · next h8 =>
    have hsp := congrArg BitVec.toNat h
    simp only [if_neg h8, toNat_zext, toNat_loByte, toNat_add_one, toNat_sub_one] at hsp ⊢
    omega

theorem wrapSp_spAfterPush {s : State} (h : s.StackForm) (n : Nat) :
    s.wrapSp (s.spAfterPush n) = s.spAfterPush n := by
  induction n generalizing s with
  | zero => exact h
  | succ n ih => exact ih (s := { s with sp := s.wrapSp (s.sp - 1) }) (wrapSp_idem _ _)

/-- As many pulls as pushes give back the stack pointer. -/
theorem spAfterPull_spAfterPush {s u : State} (h : s.StackForm) (hc : u.cfg = s.cfg) (hm : u.mode = s.mode) {n : Nat}
    (hs : u.sp = s.spAfterPush n) : u.spAfterPull n = s.sp := by
  induction n generalizing s with
  | zero => exact hs
  | succ n ih =>
    have hprev : u.spAfterPull n = s.wrapSp (s.sp - 1) :=
      ih (s := { s with sp := s.wrapSp (s.sp - 1) }) (wrapSp_idem _ _) hc hm hs
    calc u.spAfterPull (n + 1) = ({ u with sp := u.spAfterPull n } : State).spAfterPull 1 :=
          (spAfterPull_add u n 1).symm
      _ = ({ s with sp := s.wrapSp (s.sp - 1) } : State).spAfterPull 1 := spAfterPull_congr (s := { s with sp := s.wrapSp (s.sp - 1) })
          (t := { u with sp := u.spAfterPull n }) hc hm hprev 1
      _ = s.sp := wrapSp_sub_add_one h

/-- The pushed addresses lie below the first, within a page's reach. -/
theorem exists_offset_of_mem_pushBytes {s : State} {n a : Nat} (h : a ∈ s.pushBytes n) :
    ∃ i < n, (a + i) % 256 = s.sp.toNat % 256 := by
  induction n generalizing s with
  | zero => cases h
  | succ n ih =>
    rcases List.mem_cons.1 h with rfl | h
    · exact ⟨0, by omega, toNat_stackAddr_mod s⟩
    · obtain ⟨i, hi, ha⟩ := ih h
      have := toNat_wrapSp_sub_one_mod s
      dsimp only at ha
      exact ⟨i + 1, by omega, by omega⟩

/-- Up to 255 pushes do not reach the byte pushed before them. -/
theorem stackAddr_not_mem_pushBytes (s : State) {n : Nat} (hn : n ≤ 255) :
    s.stackAddr.toNat ∉ ({ s with sp := s.wrapSp (s.sp - 1) } : State).pushBytes n := by
  intro h
  obtain ⟨i, hi, ha⟩ := exists_offset_of_mem_pushBytes h
  have := toNat_stackAddr_mod s
  have := toNat_wrapSp_sub_one_mod s
  dsimp only at ha
  omega

theorem pushed_wf {s : State} (bytes : List Byte) (h : s.mem.wf = true) : (s.pushed bytes).mem.wf = true := by
  induction bytes generalizing s with
  | nil => exact h
  | cons b bs ih => exact ih (Memory.write_wf _ _ h)

theorem pushed_read_of_not_mem {s : State} {bytes : List Byte} {a : Nat} (hw : s.mem.wf = true)
    (h : a ∉ s.pushBytes bytes.length) : (s.pushed bytes).mem.read a = s.mem.read a := by
  induction bytes generalizing s with
  | nil => rfl
  | cons b bs ih =>
    obtain ⟨hne, hrest⟩ := not_or.1 (mt List.mem_cons.2 h)
    let first : State := { s with mem := s.mem.write s.stackAddr.toNat b, sp := s.wrapSp (s.sp - 1) }
    have hbytes : first.pushBytes bs.length = ({ s with sp := s.wrapSp (s.sp - 1) } : State).pushBytes bs.length :=
      pushBytes_congr (s := { s with sp := s.wrapSp (s.sp - 1) }) (t := first) rfl rfl rfl _
    exact (ih (s := first) (Memory.write_wf _ _ hw) (hbytes ▸ hrest)).trans (Memory.read_write_ne _ hw hne)

/-- A pushed byte is in memory where the stack pointer was. -/
theorem pushed_read_stackAddr {s : State} (b : Byte) {post : List Byte} (hw : s.mem.wf = true)
    (hlen : post.length ≤ 255) : (s.pushed (b :: post)).mem.read s.stackAddr.toNat = b := by
  let first : State := { s with mem := s.mem.write s.stackAddr.toNat b, sp := s.wrapSp (s.sp - 1) }
  have hbytes : first.pushBytes post.length = ({ s with sp := s.wrapSp (s.sp - 1) } : State).pushBytes post.length :=
    pushBytes_congr (s := { s with sp := s.wrapSp (s.sp - 1) }) (t := first) rfl rfl rfl _
  exact (pushed_read_of_not_mem (s := first) (Memory.write_wf _ _ hw)
    (hbytes ▸ stackAddr_not_mem_pushBytes s hlen)).trans (Memory.read_write_same _ _ hw)

theorem stackAddr_congr {s t : State} (hc : t.cfg = s.cfg) (hs : t.sp = s.sp) : t.stackAddr = s.stackAddr := by
  simp [State.stackAddr, State.is816, hc, hs]

/-- A state whose stack pointer and pushed bytes are as pushes left them pulls each byte back: the byte with `post`
pushed after it is pull number `post.length`. -/
theorem stacked_of_pushed {s u : State} {pre post : List Byte} {b : Byte} (hw : s.mem.wf = true)
    (hc : u.cfg = s.cfg) (hm : u.mode = s.mode) (hlen : post.length ≤ 255)
    (hs : u.sp = s.spAfterPush (pre ++ b :: post).length)
    (hmem : ∀ a ∈ s.pushBytes (pre ++ b :: post).length, u.mem.read a = (s.pushed (pre ++ b :: post)).mem.read a)
    (hform : s.StackForm) : u.stacked post.length = b := by
  have hcount : (pre ++ b :: post).length = pre.length + (post.length + 1) := by simp
  let before : State := s.pushed pre
  have hregs : before = { s with sp := s.spAfterPush pre.length, mem := before.mem } := pushed_regs s pre
  have hsp : u.spAfterPull (post.length + 1) = before.sp := by
    refine spAfterPull_spAfterPush (s := before) ?_ ?_ ?_ ?_
    · rw [hregs]; exact wrapSp_spAfterPush hform _
    · rw [hregs]; exact hc
    · rw [hregs]; exact hm
    · rw [hs, hcount, ← spAfterPush_add]
      exact spAfterPush_congr (s := before) (t := { s with sp := s.spAfterPush pre.length })
        (pushed_cfg s pre).symm (by rw [hregs]) (by rw [hregs]) _
  have haddr : ({ u with sp := u.spAfterPull (post.length + 1) } : State).stackAddr = before.stackAddr :=
    stackAddr_congr (hc.trans (pushed_cfg s pre).symm) hsp
  have hin : before.stackAddr.toNat ∈ s.pushBytes (pre ++ b :: post).length := by
    rw [hcount, ← pushBytes_add]
    refine List.mem_append_right _ (List.mem_cons.2 (.inl ?_))
    exact congrArg BitVec.toNat (stackAddr_congr (pushed_cfg s pre) (by rw [hregs]))
  calc u.stacked post.length = u.mem.read before.stackAddr.toNat := by rw [State.stacked, haddr]
    _ = (s.pushed (pre ++ b :: post)).mem.read before.stackAddr.toNat := hmem _ hin
    _ = b := by rw [pushed_append]; exact pushed_read_stackAddr b (pushed_wf pre hw) hlen

end Sys2Proof.Machine
end

section
namespace Sys2Proof.Machine

/-! Jumps, calls and returns (44_control.md R293 to R298). -/

/-- An address of the program bank, as a number. -/
def State.inProgramBank (s : State) (q : Nat) : Nat := if s.is816 then s.pbr.toNat * 65536 + q else q

theorem toNat_and_addrMask_of_not_is816 {s : State} (h : s.is816 = false) (a : Long) :
    (a &&& s.addrMask).toNat = a.toNat % 65536 := by
  rw [State.addrMask, if_neg (by simp [h]), BitVec.toNat_and]
  exact Nat.and_two_pow_sub_one_eq_mod a.toNat 16

theorem toNat_programAddr (s : State) (q : Word) : (mkLong s.pbr q &&& s.addrMask).toNat = s.inProgramBank q.toNat := by
  unfold State.inProgramBank
  cases h8 : s.is816
  · rw [toNat_and_addrMask_of_not_is816 h8, toNat_mkLong]
    have := q.isLt
    rw [if_neg Bool.false_ne_true]
    omega
  · rw [and_addrMask_of_is816 h8, toNat_mkLong, if_pos rfl]

/-- The target of `($nnnn,X)` with no observer bound: the word at the indexed address in the program bank. -/
theorem iaxTarget_plain {base : Word} {s : State} (hu : s.Unobserved) (hp : s.programInMemory = true) :
    iaxTarget base s = .ok (mkWord (s.mem.read (s.inProgramBank ((base.toNat + s.x.toNat + 1) % 65536)))
      (s.mem.read (s.inProgramBank ((base.toNat + s.x.toNat) % 65536))), s) := by
  have hlo : (base + s.x).toNat = (base.toNat + s.x.toNat) % 65536 := BitVec.toNat_add ..
  have hhi : (base + s.x + 1).toNat = (base.toNat + s.x.toNat + 1) % 65536 := by
    rw [toNat_add_one, hlo]; omega
  rw [iaxTarget, memRead1_plain (programBank_inMemory hp _) hu, ok_bind]
  dsimp only
  rw [memRead1_plain (programBank_inMemory hp _) hu, ok_bind, toNat_programAddr, toNat_programAddr, hlo, hhi]
  rfl

theorem toNat_indNext (s : State) (q : Word) :
    (if s.cfg.variant = .v6502 then mkWord (hiByte q) (loByte (q + 1)) else q + 1 : Word).toNat =
      if s.cfg.variant = .v6502 then q.toNat / 256 * 256 + (q.toNat + 1) % 256 else (q.toNat + 1) % 65536 := by
  split
  · rw [toNat_mkWord, toNat_hiByte, toNat_loByte, toNat_add_one]; omega
  · exact toNat_add_one q

/-- A jump through a pointer: the target is read, `pc` is set, and nothing else changes. -/
theorem jumps_of_target {i : Instr} {s : State} {e : Except Fault (Word × State)} {w : Word}
    (hexec : exec i s = finish (e >>= fun x => pure { x.2 with pc := x.1 })) (hok : ∃ v u, e = .ok (v, u))
    (hspec : ∀ v u, e = .ok (v, u) → SameRegs s u ∧ Traffic [] s u) (hplain : s.Unobserved → e = .ok (w, s)) :
    ∃ t, exec i s = .next t ∧ t = { s.withTraffic t with pc := t.pc, pbr := t.pbr, excycles := s.excycles } ∧
      AccessFrame [] s t ∧ ((∀ f, i ≠ .jml f) → t.pbr = s.pbr) ∧ (s.Unobserved → t.pc = w) := by
  obtain ⟨v, u, h⟩ := hok
  obtain ⟨hr, ht⟩ := hspec v u h
  refine ⟨{ u with pc := v }, by rw [hexec, h]; rfl, ?_, (ht.of_eq ⟨rfl, rfl, rfl, rfl⟩ ⟨rfl, rfl, rfl, rfl⟩).frame,
    fun _ => hr.pbr, fun hu => ?_⟩
  · obtain ⟨q, m, tr, rfl⟩ := exists_of_sameRegs hr
    rfl
  · cases h.symm.trans (hplain hu)
    rfl

/-- JML through a pointer in bank 0. -/
theorem jml_ial (s : State) (a : Word) :
    ∃ t, exec (.jml (.ial a)) s = .next t ∧
      t = { s.withTraffic t with pc := t.pc, pbr := t.pbr, excycles := s.excycles } ∧ AccessFrame [] s t ∧
      (s.Unobserved → t.pc = mkWord (s.mem.read ((a.toNat + 1) % 65536)) (s.mem.read a.toNat) ∧
        t.pbr = s.mem.read ((a.toNat + 2) % 65536)) := by
  obtain ⟨v, u, h⟩ := ptr24B0_completes a s
  obtain ⟨hr, ht⟩ := ptr24B0_spec h
  refine ⟨{ u with pc := offOf v, pbr := bankOf v }, ?_, ?_,
    (ht.of_eq ⟨rfl, rfl, rfl, rfl⟩ ⟨rfl, rfl, rfl, rfl⟩).frame, fun hu => ?_⟩
  · show finish (ptr24B0 a s >>= _) = _
    rw [h]
    rfl
  · obtain ⟨q, m, tr, rfl⟩ := exists_of_sameRegs hr
    rfl
  · cases h.symm.trans (ptr24B0_plain hu a)
    have htwo : (a + 2).toNat = (a.toNat + 2) % 65536 := BitVec.toNat_add ..
    rw [← toNat_add_one, ← htwo]
    exact ⟨offOf_mkLong .., bankOf_mkLong ..⟩

/-- Settles O42: each target is read from its pointer, and the jump writes `pc` and for JML the program bank. -/
theorem jumpsLoadTheirTarget : Obligations.JumpsLoadTheirTarget := by
  intro s a l
  refine ⟨rfl, rfl, ?_, fun hp => ?_, ?_⟩
  · refine jumps_of_target rfl (indTarget_completes a s) (fun _ _ => indTarget_spec) fun hu => ?_
    rw [indTarget, read16Bank0_plain hu, toNat_indNext]
  · exact jumps_of_target rfl (iaxTarget_completes hp) (fun _ _ => iaxTarget_spec) fun hu => iaxTarget_plain hu hp
  · obtain ⟨t, hexec, heq, hframe, hsets⟩ := jml_ial s a
    exact ⟨t, hexec, heq, hframe, fun h => absurd rfl (h _), hsets⟩

/-- What a call does: its bytes are pushed, and besides the stack pointer it writes `pc` and the program bank. -/
def Calls (s : State) (i : Instr) (bytes : List Byte) (sets : State → Prop) : Prop :=
  ∃ t, exec i s = .next t ∧ t = { s.withTraffic t with
      sp := s.spAfterPush bytes.length, pc := t.pc, pbr := t.pbr, excycles := s.excycles } ∧
    AccessFrame (s.pushBytes bytes.length) s t ∧ (s.Unobserved → t.mem = (s.pushed bytes).mem) ∧ sets t

theorem jsr_abj (s : State) (a : Word) :
    Calls s (.jsr (.abj a)) [hiByte (s.pc - 1), loByte (s.pc - 1)] (fun t => t.pc = a ∧ t.pbr = s.pbr) := by
  obtain ⟨u, h⟩ := push16_completes (s.pc - 1) s
  obtain ⟨hr, ht⟩ := push16_spec h
  refine ⟨{ u with pc := a }, ?_, ?_, (ht.of_eq ⟨rfl, rfl, rfl, rfl⟩ ⟨rfl, rfl, rfl, rfl⟩).frame, fun hu => ?_,
    rfl, hr.pbr⟩
  · show finish (push16 (s.pc - 1) s >>= _) = _
    rw [h]
    rfl
  · obtain ⟨q, m, tr, rfl⟩ := exists_of_sameRegs hr
    rfl
  · cases h.symm.trans (push16_plain hu)
    rfl

theorem jsr_iax {s : State} (a : Word) (hp : s.programInMemory = true) :
    Calls s (.jsr (.iax a)) [hiByte (s.pc - 1), loByte (s.pc - 1)] fun t => t.pbr = s.pbr ∧ (s.Unobserved →
      t.pc = mkWord (t.mem.read (s.inProgramBank ((a.toNat + s.x.toNat + 1) % 65536)))
        (t.mem.read (s.inProgramBank ((a.toNat + s.x.toNat) % 65536)))) := by
  obtain ⟨u, h⟩ := push16_completes (s.pc - 1) s
  obtain ⟨hr, ht⟩ := push16_spec h
  have hpu : u.programInMemory = true := programInMemory_congr ht.cfg hr.pbr hp
  obtain ⟨v, w, hv⟩ := iaxTarget_completes (q := a) hpu
  obtain ⟨hr', ht'⟩ := iaxTarget_spec hv
  refine ⟨{ w with pc := v }, ?_, ?_, ((ht.snoc_nil ht').of_eq ⟨rfl, rfl, rfl, rfl⟩ ⟨rfl, rfl, rfl, rfl⟩).frame,
    fun hu => ?_, hr'.pbr.trans hr.pbr, fun hu => ?_⟩
  · show finish (push16 (s.pc - 1) s >>= fun s1 => iaxTarget a s1 >>= _) = _
    rw [h, ok_bind, hv]
    rfl
  · obtain ⟨q, m, tr, rfl⟩ := exists_of_sameRegs (hr.trans hr')
    rfl
  · cases hv.symm.trans (iaxTarget_plain (ht.unobserved hu) hpu)
    cases h.symm.trans (push16_plain hu)
    rfl
  · cases hv.symm.trans (iaxTarget_plain (ht.unobserved hu) hpu)
    have hbank : u.inProgramBank = s.inProgramBank := by
      funext q; rw [State.inProgramBank, hr.is816, hr.pbr]; rfl
    show mkWord _ _ = mkWord _ _
    rw [hbank, hr.x]

theorem jsl_calls (s : State) (l : Long) :
    Calls s (.jsl l) [s.pbr, hiByte (s.pc - 1), loByte (s.pc - 1)] (fun t => t.pc = offOf l ∧ t.pbr = bankOf l) := by
  obtain ⟨u, h⟩ := push8_completes s.pbr s
  obtain ⟨hr, ht⟩ := push8_spec h
  obtain ⟨w, h'⟩ := push16_completes (s.pc - 1) u
  obtain ⟨hr', ht'⟩ := push16_spec h'
  have hmode : u.mode = s.mode := hr.mode
  have hsp : u.spAfterPush 2 = s.spAfterPush 3 :=
    (spAfterPush_congr (s := { s with sp := s.spAfterPush 1 }) ht.cfg hmode hr.sp 2).trans (spAfterPush_add s 1 2)
  have hbytes : s.pushBytes 1 ++ u.pushBytes 2 = s.pushBytes 3 := by
    rw [pushBytes_congr (s := { s with sp := s.spAfterPush 1 }) ht.cfg hmode hr.sp 2, pushBytes_add]
  refine ⟨{ w with pc := offOf l, pbr := bankOf l }, ?_, ?_, ?_, fun hu => ?_, rfl, rfl⟩
  · show finish (push8 s.pbr s >>= fun s1 => push16 (s.pc - 1) s1 >>= _) = _
    rw [h, ok_bind, h']
    rfl
  · rw [hsp] at hr'
    obtain ⟨q, m, tr, rfl⟩ := exists_of_sameRegs hr
    obtain ⟨q', m', tr', rfl⟩ := exists_of_sameRegs hr'
    rfl
  · have := ht.trans ht'
    rw [hbytes] at this
    exact (this.of_eq ⟨rfl, rfl, rfl, rfl⟩ ⟨rfl, rfl, rfl, rfl⟩).frame
  · cases h.symm.trans (push8_plain hu)
    cases h'.symm.trans (push16_plain (ht.unobserved hu))
    rfl

/-- Settles O43: the bytes are pushed before the target is read. -/
theorem callsPushTheLastByteAndJump : Obligations.CallsPushTheLastByteAndJump := fun s a l =>
  ⟨jsr_abj s a, jsr_iax a, jsl_calls s l⟩

/-- Settles O44: the return address is pulled and one is added; RTL pulls the bank after it. -/
theorem returnsPullTheAddressAndAddOne : Obligations.ReturnsPullTheAddressAndAddOne := by
  intro s
  obtain ⟨r, u, h⟩ := pull16_completes s
  obtain ⟨hr, ht⟩ := pull16_spec h
  constructor
  · refine ⟨{ u with pc := r + 1 }, ?_, ?_, (ht.of_eq ⟨rfl, rfl, rfl, rfl⟩ ⟨rfl, rfl, rfl, rfl⟩).frame, fun hu => ?_⟩
    · show finish (pull16 s >>= _) = _
      rw [h]
      rfl
    · obtain ⟨q, m, tr, rfl⟩ := exists_of_sameRegs hr
      rfl
    · cases h.symm.trans (pull16_plain hu)
      rfl
  · obtain ⟨b, w, h'⟩ := pull8_completes u
    obtain ⟨hr', ht'⟩ := pull8_spec h'
    have hsp : u.spAfterPull 1 = s.spAfterPull 3 :=
      (spAfterPull_congr (s := { s with sp := s.spAfterPull 2 }) ht.cfg hr.mode hr.sp 1).trans (spAfterPull_add s 2 1)
    refine ⟨{ w with pc := r + 1, pbr := b }, ?_, ?_,
      ((ht.trans ht').of_eq ⟨rfl, rfl, rfl, rfl⟩ ⟨rfl, rfl, rfl, rfl⟩).frame, fun hu => ?_⟩
    · show finish (pull16 s >>= fun x => pull8 x.2 >>= _) = _
      rw [h, ok_bind, h']
      rfl
    · rw [hsp] at hr'
      obtain ⟨q, m, tr, rfl⟩ := exists_of_sameRegs hr
      obtain ⟨q', m', tr', rfl⟩ := exists_of_sameRegs hr'
      rfl
    · cases h'.symm.trans (pull8_plain (ht.unobserved hu))
      cases h.symm.trans (pull16_plain hu)
      exact ⟨rfl, stacked_eq (s := s) (j := 2) (k := 0) rfl rfl rfl rfl⟩

/-- After a call RTS finds the return address: the pulls undo the pushes. -/
theorem rts_undoes {s t u : State} {i : Instr} {sets : State → Prop} (hs : s.Inv) (hu : s.Unobserved)
    (hcall : Calls s i [hiByte (s.pc - 1), loByte (s.pc - 1)] sets) (hexec : exec i s = .next t)
    (hc : u.cfg = s.cfg) (hm : u.mode = s.mode) (hsp : u.sp = t.sp)
    (hmem : ∀ a ∈ s.pushBytes 2, u.mem.read a = t.mem.read a) :
    ∃ v, exec .rts u = .next v ∧ v.pc = s.pc ∧ v.sp = s.sp := by
  have hcan := inv_iff_canonical.1 hs
  have hw : s.mem.wf = true := (Bool.and_eq_true_iff.1 hcan.memory).1
  obtain ⟨t', hexec', heq, -, hpushed, -⟩ := hcall
  cases hexec.symm.trans hexec'
  have hsp' : u.sp = s.spAfterPush 2 := hsp.trans (by rw [heq]; rfl)
  have hmem' : ∀ a ∈ s.pushBytes 2, u.mem.read a = (s.pushed [hiByte (s.pc - 1), loByte (s.pc - 1)]).mem.read a :=
    fun a ha => (hmem a ha).trans (by rw [hpushed hu])
  obtain ⟨⟨v, hv, hveq, -, hpc⟩, -⟩ := returnsPullTheAddressAndAddOne u
  refine ⟨v, hv, ?_, ?_⟩
  · have hlo : u.stacked 0 = loByte (s.pc - 1) :=
      stacked_of_pushed (pre := [hiByte (s.pc - 1)]) (post := []) hw hc hm (by decide) hsp' hmem' hcan.stackForm
    have hhi : u.stacked 1 = hiByte (s.pc - 1) :=
      stacked_of_pushed (pre := []) (post := [loByte (s.pc - 1)]) hw hc hm (by simp) hsp' hmem' hcan.stackForm
    rw [hpc (by rwa [State.Unobserved, hc]), hlo, hhi, mkWord_hi_lo, BitVec.sub_add_cancel]
  · rw [hveq]
    exact spAfterPull_spAfterPush hcan.stackForm hc hm hsp'

/-- After JSL RTL finds the return address and the program bank. -/
theorem rtl_undoes {s t u : State} {l : Long} (hs : s.Inv) (hu : s.Unobserved) (hexec : exec (.jsl l) s = .next t)
    (hc : u.cfg = s.cfg) (hm : u.mode = s.mode) (hsp : u.sp = t.sp)
    (hmem : ∀ a ∈ s.pushBytes 3, u.mem.read a = t.mem.read a) :
    ∃ v, exec .rtl u = .next v ∧ v.pc = s.pc ∧ v.sp = s.sp ∧ v.pbr = s.pbr := by
  have hcan := inv_iff_canonical.1 hs
  have hw : s.mem.wf = true := (Bool.and_eq_true_iff.1 hcan.memory).1
  obtain ⟨t', hexec', heq, -, hpushed, -⟩ := jsl_calls s l
  cases hexec.symm.trans hexec'
  have hsp' : u.sp = s.spAfterPush 3 := hsp.trans (by rw [heq]; rfl)
  have hmem' : ∀ a ∈ s.pushBytes 3,
      u.mem.read a = (s.pushed [s.pbr, hiByte (s.pc - 1), loByte (s.pc - 1)]).mem.read a :=
    fun a ha => (hmem a ha).trans (by rw [hpushed hu])
  obtain ⟨-, v, hv, hveq, -, hret⟩ := returnsPullTheAddressAndAddOne u
  obtain ⟨hpc, hpbr⟩ := hret (by rwa [State.Unobserved, hc])
  refine ⟨v, hv, ?_, ?_, ?_⟩
  · have hlo : u.stacked 0 = loByte (s.pc - 1) :=
      stacked_of_pushed (pre := [s.pbr, hiByte (s.pc - 1)]) (post := []) hw hc hm (by decide) hsp' hmem' hcan.stackForm
    have hhi : u.stacked 1 = hiByte (s.pc - 1) :=
      stacked_of_pushed (pre := [s.pbr]) (post := [loByte (s.pc - 1)]) hw hc hm (by simp) hsp' hmem' hcan.stackForm
    rw [hpc, hlo, hhi, mkWord_hi_lo, BitVec.sub_add_cancel]
  · rw [hveq]
    exact spAfterPull_spAfterPush hcan.stackForm hc hm hsp'
  · exact hpbr.trans (stacked_of_pushed (pre := []) (post := [hiByte (s.pc - 1), loByte (s.pc - 1)]) hw hc hm
      (by simp) hsp' hmem' hcan.stackForm)

/-- Settles O45: JSR through a pointer completes only where the program bank is memory, and then both calls push as
stated. -/
theorem returnUndoesTheCall : Obligations.ReturnUndoesTheCall := by
  intro s t u f l hs hu hc hm hsp
  refine ⟨fun hexec hmem => ?_, fun hexec hmem => rtl_undoes hs hu hexec hc hm hsp hmem⟩
  cases f with
  | abj a => exact rts_undoes hs hu (jsr_abj s a) hexec hc hm hsp hmem
  | iax a =>
    cases hp : s.programInMemory
    · obtain ⟨b, -, hfault⟩ := (everyInstructionCompletes (.jsr (.iax a)) s (fun _ h => nomatch h)).2 hp
      cases hexec.symm.trans hfault
    · exact rts_undoes hs hu (jsr_iax a hp) hexec hc hm hsp hmem

end Sys2Proof.Machine
end

section
namespace Sys2Proof.Machine

/-! The stack (45_stack.md), and the entry to and the return from a handler (60_exceptions.md; 48_system.md). -/

/-- A read with no observer bound: the bytes of memory at the address and, at 16 bits, at the next one. -/
theorem rd_plain {ea : Ea} {w : Width} {s : State} (hu : s.Unobserved) (h : ∀ a ∈ ea.bytes w s, a < s.cfg.memSize) :
    rd ea w s = .ok (match w with
      | .w8 => zext (s.mem.read ea.addr.toNat)
      | .w16 => mkWord (s.mem.read (ea.next s).toNat) (s.mem.read ea.addr.toNat), s) := by
  rw [rd, memRead1_plain (h _ (ea.addr_mem_bytes w s)) hu, ok_bind]
  cases w with
  | w8 => rfl
  | w16 =>
    dsimp only
    rw [memRead1_plain (h _ (by simp [Ea.bytes])) hu]
    rfl

/-- The 16-bit datum at a direct-page address, with no observer bound. -/
theorem rd_bank0_plain {q : Word} {s : State} (hu : s.Unobserved) :
    rd ⟨mkLong 0 q, .bank⟩ .w16 s =
      .ok (mkWord (s.mem.read ((q.toNat + 1) % 65536)) (s.mem.read q.toNat), s) := by
  have hnext : Ea.next ⟨mkLong 0 q, .bank⟩ s = mkLong 0 (q + 1) := by simp [Ea.next]
  rw [rd, memRead1_bank0_plain hu, ok_bind]
  dsimp only
  rw [hnext, memRead1_bank0_plain hu, toNat_add_one]
  rfl

/-- PEI pushes the datum at its direct-page address. -/
theorem pei_pushes (s : State) (off : Byte) :
    ∃ t, exec (.pei off) s = .next t ∧ t = { s.withTraffic t with sp := s.spAfterPush 2, excycles := s.excycles } ∧
      AccessFrame (s.pushBytes 2) s t ∧
      (s.Unobserved → t = s.pushed [s.mem.read (((s.dpAddr off).toNat + 1) % 65536),
        s.mem.read (s.dpAddr off).toNat]) := by
  obtain ⟨v, u, h⟩ := rd_bank0_completes .w16 (s.dpAddr off) s
  obtain ⟨hr, ht⟩ := rd_spec h
  obtain ⟨t, h'⟩ := push16_completes v u
  obtain ⟨hr', ht'⟩ := push16_spec h'
  have hsp : u.spAfterPush 2 = s.spAfterPush 2 := spAfterPush_congr ht.cfg hr.mode hr.sp 2
  have hbytes : u.pushBytes 2 = s.pushBytes 2 := pushBytes_congr ht.cfg hr.mode hr.sp 2
  refine ⟨t, ?_, ?_, (ht.cons_nil (hbytes ▸ ht')).frame, fun hu => ?_⟩
  · show finish (rd ⟨mkLong 0 (s.dpAddr off), .bank⟩ .w16 s >>= _) = _
    rw [h, ok_bind]
    exact finish_next.2 h'
  · rw [hsp] at hr'
    obtain ⟨q, m, tr, rfl⟩ := exists_of_sameRegs hr
    obtain ⟨q', m', tr', rfl⟩ := exists_of_sameRegs hr'
    rfl
  · cases h.symm.trans (rd_bank0_plain hu)
    rw [push16_plain hu, hiByte_mkWord, loByte_mkWord] at h'
    exact (Except.ok.inj h').symm

/-- Settles O47: each push is the shared one; PEI reads its datum first. -/
theorem statusAndEffectiveAddressPushes : Obligations.StatusAndEffectiveAddressPushes := by
  intro s v off
  dsimp only
  rw [← toNat_dpAddr]
  exact ⟨completesPushing8 rfl, completesPushing16 rfl, completesPushing16 rfl, pei_pushes s off⟩

theorem exec_plb_eq (s : State) :
    exec .plb s = finish (pullW .w8 s >>= fun x => pure ({ x.2 with dbr := loByte x.1 }.setNZ x.1 .w8)) := by
  show finish (pull8 s >>= _) = finish ((pull8 s >>= _) >>= _)
  cases pull8 s with
  | error f => rfl
  | ok x => exact congrArg Host.Outcome.next (by simp)

theorem exec_plp_eq (s : State) :
    exec .plp s = finish (pullW .w8 s >>= fun x => pure (x.2.setP (loByte x.1))) := by
  show finish (pull8 s >>= _) = finish ((pull8 s >>= _) >>= _)
  cases pull8 s with
  | error f => rfl
  | ok x => exact congrArg Host.Outcome.next (by simp)

/-- Settles O48: each pull is the shared one at its width; the value pulled already has it. -/
theorem pullsLoadTheirRegister : Obligations.PullsLoadTheirRegister := by
  intro s
  refine ⟨?_, ?_, ?_, ?_, ?_, ?_⟩
  · refine completesPulling (f := fun v u => (u.setA v).setNZ v s.wA) rfl (fun _ _ => ⟨rfl, rfl, rfl, rfl⟩)
      fun v u hr hv => ?_
    rw [setA_of_masked (hr.wA ▸ hv)]
    obtain ⟨q, m, tr, rfl⟩ := exists_of_sameRegs hr
    exact ⟨rfl, nzFrame_setNZ v _ rfl⟩
  · refine completesPulling (f := fun v u => (u.setX v).setNZ v s.wX) rfl (fun _ _ => ⟨rfl, rfl, rfl, rfl⟩)
      fun v u hr hv => ?_
    rw [setX_of_masked (hr.wX ▸ hv)]
    obtain ⟨q, m, tr, rfl⟩ := exists_of_sameRegs hr
    exact ⟨rfl, nzFrame_setNZ v _ rfl⟩
  · refine completesPulling (f := fun v u => (u.setY v).setNZ v s.wX) rfl (fun _ _ => ⟨rfl, rfl, rfl, rfl⟩)
      fun v u hr hv => ?_
    rw [setY_of_masked (hr.wX ▸ hv)]
    obtain ⟨q, m, tr, rfl⟩ := exists_of_sameRegs hr
    exact ⟨rfl, nzFrame_setNZ v _ rfl⟩
  · refine completesPulling (f := fun v u => { u with dbr := loByte v }.setNZ v .w8) (exec_plb_eq s)
      (fun _ _ => ⟨rfl, rfl, rfl, rfl⟩) fun v u hr _ => ?_
    obtain ⟨q, m, tr, rfl⟩ := exists_of_sameRegs hr
    exact ⟨rfl, nzFrame_setNZ v _ rfl⟩
  · refine completesPulling (f := fun v u => { u with dpr := v }.setNZ v .w16) rfl (fun _ _ => ⟨rfl, rfl, rfl, rfl⟩)
      fun v u hr _ => ?_
    obtain ⟨q, m, tr, rfl⟩ := exists_of_sameRegs hr
    exact ⟨rfl, nzFrame_setNZ v _ rfl⟩
  · exact completesPulling (f := fun v u => u.setP (loByte v)) (exec_plp_eq s) (fun _ _ => by simp) fun v u hr _ => setP_sameRegs (loByte v) hr

theorem vector_brk (n : Bool) : Exc.brk.vector n = if n then 0xFFE6 else 0xFFFE := by cases n <;> rfl

theorem vector_cop (n : Bool) : Exc.cop.vector n = if n then 0xFFE4 else 0xFFF4 := by cases n <;> rfl

theorem vector_irq (n : Bool) : Exc.irq.vector n = if n then 0xFFEE else 0xFFFE := by cases n <;> rfl

theorem vector_nmi (n : Bool) : Exc.nmi.vector n = if n then 0xFFEA else 0xFFFA := by cases n <;> rfl

/-- Settles O53: both are the shared entry, with the return address past the signature byte. -/
theorem brkAndCopEnterTheirHandlers : Obligations.BrkAndCopEnterTheirHandlers := by
  intro s
  obtain ⟨t, ht, hbrk⟩ := entersHandler .brk (s.pc + 1) s
  obtain ⟨u, hu, hcop⟩ := entersHandler .cop (s.pc + 1) s
  rw [vector_brk] at hbrk
  rw [vector_cop] at hcop
  exact ⟨⟨t, finish_next.2 ht, hbrk⟩, u, finish_next.2 hu, hcop⟩

/-- Settles O8: NMI is the shared entry from the state with the wait ended. -/
theorem nmiEntersItsHandlerWhateverIIs : Obligations.NmiEntersItsHandlerWhateverIIs := by
  intro s
  obtain ⟨t, ht, hnmi⟩ := entersHandler .nmi s.pc { s with waiting := false }
  rw [vector_nmi] at hnmi
  exact ⟨t, finish_next.2 ht, (takeException_spec ht).1.waiting, hnmi⟩

/-- Settles O7: the entry is the shared one, and in the handler I is set, so a step from there takes no IRQ. -/
theorem stepTakesTheIrqFirst : Obligations.StepTakesTheIrqFirst := by
  intro s hw hq hI
  obtain ⟨t, ht, hirq⟩ := entersHandler .irq s.pc s
  rw [vector_irq] at hirq
  have htake : takeIrq s = .ok t := (if_pos (by simp [hq, hI])).trans ht
  have htI : t.flag .I = true := hirq.2.1
  have htake' : takeIrq t = .ok t := if_neg (by simp [htI])
  have hwt : t.waiting = false := (takeException_spec ht).1.waiting.trans hw
  refine ⟨t, htake, ?_, hirq⟩
  simp only [step, hw, hwt, htake, htake', Bool.false_eq_true, if_false]

/-- Settles O54: the return in full where no observer is bound, and in outline where one is. -/
theorem rtiRestoresStatusAndPc : Obligations.RtiRestoresStatusAndPc := by
  intro s
  obtain ⟨t, ht⟩ := returnFromException_completes s
  obtain ⟨image, hr, htraffic⟩ := returnFromException_spec ht
  by_cases hu : s.Unobserved
  · rw [returnFromException_plain hu] at ht
    cases ht
    refine ⟨s.stacked 0, _, finish_next.2 (returnFromException_plain hu), ?_, htraffic.frame, fun _ => ⟨rfl, rfl, ?_⟩⟩
    · cases hn : s.native <;> simp [State.excCount, hn]
    · exact fun hn => if_pos hn
  · exact ⟨image, t, finish_next.2 ht, hr, htraffic.frame, fun h => absurd h hu⟩

theorem p_setP (s : State) (v : Byte) : (s.setP v).p = if s.native then v else v ||| 0x30 := by
  cases hn : s.native
  · rw [setP_of_not_native hn]; rfl
  · rw [setP_of_native hn]; rfl

/-- What the status setter makes of an image pushed outside native mode: bits 5 and 4 are forced, and were set. -/
theorem image_or_0x30 : ∀ p : Byte, p.getLsbD 5 = true → p.getLsbD 4 = true →
    (p ||| 0x30) ||| 0x30 = p ∧ ((p &&& 0xEF) ||| 0x20) ||| 0x30 = p := by decide

/-- The status image of any event gives the status register back. -/
theorem setP_image {s u : State} (h : s.Canonical) (hn : u.native = s.native) (e : Exc) :
    (u.setP (e.image s)).p = s.p := by
  rw [p_setP, hn]
  cases hnat : s.native
  · obtain ⟨hM, hX⟩ := h.status hnat
    obtain ⟨hbrk, hother⟩ := image_or_0x30 s.p hM hX
    have himage : e.image s = if e = .brk then s.p ||| 0x30 else (s.p &&& 0xEF) ||| 0x20 := by
      cases e <;> simp [Exc.image, hnat]
    rw [himage, if_neg Bool.false_ne_true]
    split
    · exact hbrk
    · exact hother
  · simp [Exc.image, hnat]

/-- Settles O55: the frame's bytes are pulled in the order opposite to that of the entry. -/
theorem rtiUndoesTheEntry : Obligations.RtiUndoesTheEntry := by
  intro e ret s t u hs hu ht hc hm hsp hmem
  have hcan := inv_iff_canonical.1 hs
  have hw : s.mem.wf = true := (Bool.and_eq_true_iff.1 hcan.memory).1
  have hn : u.native = s.native := native_congr hc hm
  have hmask := e.mask_regs (s.pushed (e.frame ret s))
  have hlen : (e.frame ret s).length = if s.native then 4 else 3 := e.frame_length ret s
  have hsp' : u.sp = s.spAfterPush (e.frame ret s).length := by
    rw [hsp, (takeException_spec ht).1.sp, e.frame_length]
  have hmem' : ∀ a ∈ s.pushBytes (e.frame ret s).length,
      u.mem.read a = (s.pushed (e.frame ret s)).mem.read a := by
    rw [hlen]
    intro a ha
    rw [takeException_plain hu] at ht
    cases ht
    exact (hmem a ha).trans (by rw [hmask])
  obtain ⟨image, v, hv, heq, -, hret⟩ := rtiRestoresStatusAndPc u
  obtain ⟨himage, hpc, hpbr⟩ := hret (by rwa [State.Unobserved, hc])
  let bank : List Byte := if s.native then [s.pbr] else []
  have h0 : u.stacked 0 = e.image s :=
    stacked_of_pushed (pre := bank ++ [hiByte ret, loByte ret]) (post := []) hw hc hm (by decide)
      (by simpa [Exc.frame, bank] using hsp') (by simpa [Exc.frame, bank] using hmem') hcan.stackForm
  have h1 : u.stacked 1 = loByte ret :=
    stacked_of_pushed (pre := bank ++ [hiByte ret]) (post := [e.image s]) hw hc hm (by simp)
      (by simpa [Exc.frame, bank] using hsp') (by simpa [Exc.frame, bank] using hmem') hcan.stackForm
  have h2 : u.stacked 2 = hiByte ret :=
    stacked_of_pushed (pre := bank) (post := [loByte ret, e.image s]) hw hc hm (by simp) hsp' hmem' hcan.stackForm
  refine ⟨v, hv, ?_, ?_, ?_, ?_⟩
  · rw [hpc, h1, h2, mkWord_hi_lo]
  · rw [heq, himage, h0]
    exact setP_image hcan hn e
  · rw [heq, hn, ← hlen]
    exact spAfterPull_spAfterPush hcan.stackForm hc hm hsp'
  · cases hnat : s.native
    · rw [heq, hn, hnat]; rfl
    · rw [hpbr (hn.trans hnat)]
      exact stacked_of_pushed (pre := []) (post := [hiByte ret, loByte ret, e.image s]) hw hc hm (by simp)
        (by simpa [Exc.frame, hnat] using hsp') (by simpa [Exc.frame, hnat] using hmem') hcan.stackForm

end Sys2Proof.Machine
end

section
namespace Sys2Proof.Machine

/-! Wide accesses (20_memory.md R72, R75) and effective addresses (40_addressing.md). -/

/-- A one-byte store with no observer bound. -/
theorem wr8_plain {ea : Ea} {v : Word} {s : State} (hu : s.Unobserved) (h : ea.addr.toNat < s.cfg.memSize) :
    wr ea .w8 v s = .ok { s with mem := s.mem.write ea.addr.toNat (loByte v) } := by
  rw [wr, memWrite1_plain h hu]
  rfl

/-- A two-byte store with no observer bound: the low byte first. -/
theorem wr16_plain {ea : Ea} {v : Word} {s : State} (hu : s.Unobserved) (h : ea.addr.toNat < s.cfg.memSize)
    (h' : (ea.next s).toNat < s.cfg.memSize) : wr ea .w16 v s = .ok { s with
      mem := (s.mem.write ea.addr.toNat (loByte v)).write (ea.next s).toNat (hiByte v) } := by
  rw [wr, memWrite1_plain h hu]
  exact memWrite1_plain (s := { s with mem := s.mem.write ea.addr.toNat (loByte v) }) h' hu

theorem bytes_lt {ea : Ea} {s : State} (h : ea.addr.toNat < s.cfg.memSize) (h' : (ea.next s).toNat < s.cfg.memSize)
    (w : Width) : ∀ a ∈ ea.bytes w s, a < s.cfg.memSize := by
  cases w with
  | w8 => simpa [Ea.bytes] using h
  | w16 => simpa [Ea.bytes] using ⟨h, h'⟩

/-- A datum stored is read back, and its low byte is the byte at the address. -/
theorem rd_wr {s : State} {ea : Ea} (w : Width) (v : Word) (hu : s.Unobserved) (hw : s.mem.wf = true)
    (h : ea.addr.toNat < s.cfg.memSize) (h' : (ea.next s).toNat < s.cfg.memSize) :
    ∃ t, wr ea w v s = .ok t ∧ rd ea w t = .ok (v &&& w.mask, t) ∧ rd ea .w8 t = .ok (zext (loByte v), t) ∧
      t = { s with mem := t.mem } ∧ ∀ a, a ∉ ea.bytes w s → t.mem.read a = s.mem.read a := by
  cases w with
  | w8 =>
    let t : State := { s with mem := s.mem.write ea.addr.toNat (loByte v) }
    have hread : rd ea .w8 t = .ok (zext (loByte v), t) := by
      rw [rd_plain (s := t) hu (bytes_lt h h' .w8)]
      dsimp only
      rw [Memory.read_write_same _ _ hw]
    refine ⟨t, wr8_plain hu h, ?_, hread, rfl, fun a ha => Memory.read_write_ne _ hw (by simpa [Ea.bytes] using ha)⟩
    rw [hread, and_mask8]
  | w16 =>
    have hlow := Memory.write_wf ea.addr.toNat (loByte v) hw
    have hne := ea.next_ne s
    let t : State := { s with mem := (s.mem.write ea.addr.toNat (loByte v)).write (ea.next s).toNat (hiByte v) }
    have hread : t.mem.read ea.addr.toNat = loByte v :=
      (Memory.read_write_ne _ hlow hne.symm).trans (Memory.read_write_same _ _ hw)
    have hread' : t.mem.read (ea.next t).toNat = hiByte v := Memory.read_write_same _ _ hlow
    refine ⟨t, wr16_plain hu h h', ?_, ?_, rfl, fun a ha => ?_⟩
    · rw [rd_plain (s := t) hu (bytes_lt h h' .w16), and_mask16]
      dsimp only
      rw [hread, hread', mkWord_hi_lo]
    · rw [rd_plain (s := t) hu (bytes_lt h h' .w8)]
      dsimp only
      rw [hread]
    · obtain ⟨ha1, ha2⟩ : a ≠ ea.addr.toNat ∧ a ≠ (ea.next s).toNat := by simpa [Ea.bytes] using ha
      exact (Memory.read_write_ne _ hlow ha2).trans (Memory.read_write_ne _ hw ha1)

theorem toNat_long_add_one (a : Long) : (a + 1).toNat = (a.toNat + 1) % 2 ^ 24 := by rw [BitVec.toNat_add]; rfl

theorem toNat_offOf (a : Long) : (offOf a).toNat = a.toNat % 65536 := BitVec.toNat_setWidth ..

theorem toNat_bankOf (a : Long) : (bankOf a).toNat = a.toNat / 65536 := by
  rw [bankOf, BitVec.toNat_setWidth, BitVec.toNat_ushiftRight, Nat.shiftRight_eq_div_pow]
  have := a.isLt
  omega

/-- The next byte of a datum on the 65816: one up in the whole space, or inside the bank. -/
theorem toNat_next {s : State} (h8 : s.is816 = true) (ea : Ea) : (ea.next s).toNat = match ea.cls with
    | .lin => (ea.addr.toNat + 1) % 2 ^ 24
    | .bank => ea.addr.toNat / 65536 * 65536 + (ea.addr.toNat + 1) % 65536 := by
  unfold Ea.next
  cases ea.cls with
  | lin => rw [and_addrMask_of_is816 h8, toNat_long_add_one]
  | bank =>
    dsimp only
    rw [toNat_mkLong, toNat_bankOf, toNat_add_one, toNat_offOf]
    omega

theorem mkWord_eq_ofNat (h l : Byte) : mkWord h l = BitVec.ofNat 16 (h.toNat * 256 + l.toNat) := by
  rw [← toNat_mkWord, BitVec.ofNat_toNat, BitVec.setWidth_eq]

/-- Settles O19: a read after a write finds the bytes written, and the next byte is at the class's next address. -/
theorem wideAccessesAreLittleEndianInTheirWrapClass : Obligations.WideAccessesAreLittleEndianInTheirWrapClass := by
  refine ⟨fun s ea w v hu hw h h' => rd_wr w v hu hw h h', fun s ea h h' hu h8 => ?_⟩
  have hnext := toNat_next h8 ea
  refine ⟨hnext, ?_⟩
  rw [rd_plain hu (bytes_lt h h' .w16)]
  dsimp only
  rw [mkWord_eq_ofNat, hnext] <;> rfl

/-! The parts of an address, as numbers. -/

theorem pageWrap_iff {s : State} : s.pageWrap = true ↔ s.mode = .emulation ∧ s.dpr.toNat % 256 = 0 := by
  have hlo : loByte s.dpr = 0 ↔ s.dpr.toNat % 256 = 0 := by rw [← toNat_loByte]; exact BitVec.toNat_eq
  rw [State.pageWrap, Bool.and_eq_true, beq_iff_eq, beq_iff_eq, hlo]

theorem toNat_zext_add (o : Byte) (r : Word) : (zext o + r).toNat = (o.toNat + r.toNat) % 65536 := by
  rw [BitVec.toNat_add, toNat_zext]

theorem toNat_dpIndexed (s : State) (o : Byte) (r : Word) : (s.dpIndexed o r).toNat =
    if s.mode = .emulation ∧ s.dpr.toNat % 256 = 0 then s.dpr.toNat + (o.toNat + r.toNat) % 256
    else (s.dpr.toNat + o.toNat + r.toNat) % 65536 := by
  unfold State.dpIndexed
  by_cases h : s.pageWrap = true
  · have hd := pageWrap_iff.1 h
    rw [if_pos h, if_pos hd, toNat_mkWord, toNat_hiByte, toNat_loByte, toNat_zext_add]
    omega
  · rw [if_neg h, if_neg (mt pageWrap_iff.2 h), BitVec.toNat_add, BitVec.toNat_add, toNat_zext]
    omega

theorem toNat_ptrNext (s : State) (q : Word) : (s.ptrNext q).toNat =
    if s.mode = .emulation ∧ s.dpr.toNat % 256 = 0 then q.toNat / 256 * 256 + (q.toNat + 1) % 256
    else (q.toNat + 1) % 65536 := by
  unfold State.ptrNext
  by_cases h : s.pageWrap = true
  · rw [if_pos h, if_pos (pageWrap_iff.1 h), toNat_mkWord, toNat_hiByte, toNat_loByte, toNat_add_one]
    omega
  · rw [if_neg h, if_neg (mt pageWrap_iff.2 h), toNat_add_one]

/-- The number of an address in the data bank. -/
def State.dataAddr (s : State) (off r : Nat) : Nat :=
  if s.is816 then (s.dbr.toNat * 65536 + off + r) % 2 ^ 24 else (off + r) % 65536

theorem toNat_dataEa (s : State) (off r : Word) : (s.dataEa off r).addr.toNat = s.dataAddr off.toNat r.toNat := by
  have hr : (r.setWidth 24).toNat = r.toNat := BitVec.toNat_setWidth_of_le (by decide)
  unfold State.dataEa State.dataAddr
  cases h8 : s.is816
  · rw [toNat_and_addrMask_of_not_is816 h8, BitVec.toNat_add, toNat_mkLong, hr, if_neg Bool.false_ne_true]
    omega
  · rw [and_addrMask_of_is816 h8, BitVec.toNat_add, toNat_mkLong, hr, if_pos rfl]

/-- Indexing crosses a page in the 8-bit variants, a bank on the 65816, in numbers. -/
def State.Crosses (s : State) (base r : Nat) : Prop :=
  if s.is816 then 65535 < base + r else base / 256 ≠ (base + r) % 65536 / 256

theorem crossed_iff (s : State) (base r : Word) : s.crossed base r = true ↔ s.Crosses base.toNat r.toNat := by
  unfold State.crossed State.Crosses
  cases s.is816
  · have hne : hiByte base = hiByte (base + r) ↔ base.toNat / 256 = (base.toNat + r.toNat) % 65536 / 256 := by
      rw [BitVec.toNat_eq, toNat_hiByte, toNat_hiByte, BitVec.toNat_add]
    simpa using not_congr hne
  · simp

theorem chargeCrossing_eq (s : State) (base r : Word) {P : Prop} [Decidable P]
    (hP : P ↔ s.Crosses base.toNat r.toNat) : s.chargeCrossing base r =
      if s.addcycles ∧ P then { s with excycles := s.excycles + 1 } else s := by
  have hcond : (s.addcycles && s.crossed base r) = true ↔ s.addcycles = true ∧ P := by
    rw [Bool.and_eq_true, crossed_iff, hP]
  unfold State.chargeCrossing
  exact if_congr hcond rfl rfl

/-- The number of a legacy pointer (40_addressing.md R156 `Ptr16`). -/
def State.pointer (s : State) (q : Word) : Nat :=
  (s.mem.read q.toNat).toNat + 256 * (s.mem.read (s.ptrNext q).toNat).toNat

theorem ptr16_plain {s : State} (hu : s.Unobserved) (q : Word) :
    ∃ ptr : Word, ptr16 q s = .ok (ptr, s) ∧ ptr.toNat = s.pointer q :=
  ⟨_, read16Bank0_plain hu, by rw [toNat_mkWord, State.pointer]; omega⟩

theorem ptr16B0_plain {s : State} (hu : s.Unobserved) (q : Word) :
    ∃ ptr : Word, ptr16B0 q s = .ok (ptr, s) ∧
      ptr.toNat = (s.mem.read q.toNat).toNat + 256 * (s.mem.read ((q.toNat + 1) % 65536)).toNat :=
  ⟨_, read16Bank0_plain hu, by rw [toNat_mkWord, toNat_add_one]; omega⟩

theorem pointer_lt (s : State) (q : Word) : s.pointer q < 65536 := by
  unfold State.pointer
  have := (s.mem.read q.toNat).isLt
  have := (s.mem.read (s.ptrNext q).toNat).isLt
  omega

theorem toNat_mkLong_zero (q : Word) : (mkLong 0 q).toNat = q.toNat := by
  rw [toNat_mkLong]
  simp

section
variable {s : State}

theorem eaIs_dp (o : Byte) : EaIs (.dp o) s (s.dpAddr o).toNat .bank s := ⟨_, rfl, toNat_mkLong_zero _, rfl⟩

theorem eaIs_dpx (o : Byte) : EaIs (.dpx o) s (s.dpIndexed o s.x).toNat .bank s := ⟨_, rfl, toNat_mkLong_zero _, rfl⟩

theorem eaIs_dpy (o : Byte) : EaIs (.dpy o) s (s.dpIndexed o s.y).toNat .bank s := ⟨_, rfl, toNat_mkLong_zero _, rfl⟩

theorem eaIs_abs (a : Word) : EaIs (.abs a) s (s.dataAddr a.toNat 0) .lin s := ⟨_, rfl, toNat_dataEa s a 0, rfl⟩

theorem eaIs_abx (a : Word) :
    EaIs (.abx a) s (s.dataAddr a.toNat s.x.toNat) .lin (s.chargeCrossing a s.x) := ⟨_, rfl, toNat_dataEa s a s.x, rfl⟩

theorem eaIs_aby (a : Word) :
    EaIs (.aby a) s (s.dataAddr a.toNat s.y.toNat) .lin (s.chargeCrossing a s.y) := ⟨_, rfl, toNat_dataEa s a s.y, rfl⟩

theorem eaIs_izx (hu : s.Unobserved) (o : Byte) :
    EaIs (.izx o) s (s.dataAddr (s.pointer (s.dpIndexed o s.x)) 0) .lin s := by
  obtain ⟨ptr, hptr, hnum⟩ := ptr16_plain hu (s.dpIndexed o s.x)
  exact ⟨s.dataEa ptr 0, by rw [effAddr, hptr]; rfl, hnum ▸ toNat_dataEa s ptr 0, rfl⟩

theorem eaIs_izp (hu : s.Unobserved) (o : Byte) :
    EaIs (.izp o) s (s.dataAddr (s.pointer (s.dpAddr o)) 0) .lin s := by
  obtain ⟨ptr, hptr, hnum⟩ := ptr16_plain hu (s.dpAddr o)
  exact ⟨s.dataEa ptr 0, by rw [effAddr, hptr]; rfl, hnum ▸ toNat_dataEa s ptr 0, rfl⟩

theorem eaIs_izy (hu : s.Unobserved) (o : Byte) {P : Prop} [Decidable P]
    (hP : P ↔ s.Crosses (s.pointer (s.dpAddr o)) s.y.toNat) :
    EaIs (.izy o) s (s.dataAddr (s.pointer (s.dpAddr o)) s.y.toNat) .lin
      (if s.addcycles ∧ P then { s with excycles := s.excycles + 1 } else s) := by
  obtain ⟨ptr, hptr, hnum⟩ := ptr16_plain hu (s.dpAddr o)
  rw [← hnum] at hP ⊢
  rw [← chargeCrossing_eq s ptr s.y hP]
  exact ⟨s.dataEa ptr s.y, by rw [effAddr, hptr]; rfl, toNat_dataEa s ptr s.y, rfl⟩

end

/-- Settles O20: in the 8-bit variants the direct page is the zero page and wraps in itself, and addresses have 16
bits. -/
theorem effectiveAddressesOfThe8BitVariants : Obligations.EffectiveAddressesOfThe8BitVariants := by
  intro s hs h8 hu
  obtain ⟨-, -, -, -, hdpr, hmode⟩ := (inv_iff_canonical.1 hs).eight h8
  have hd : s.dpr.toNat = 0 := by rw [hdpr]; rfl
  have hwrap : s.mode = .emulation ∧ s.dpr.toNat % 256 = 0 := ⟨hmode, by rw [hd]⟩
  have hdata (off r : Nat) : s.dataAddr off r = (off + r) % 65536 := by rw [State.dataAddr, h8]; rfl
  have hplain {off : Nat} (h : off < 65536) : s.dataAddr off 0 = off := by rw [hdata]; omega
  have hcross (base r : Nat) : base / 256 ≠ (base + r) % 65536 / 256 ↔ s.Crosses base r := by
    rw [State.Crosses, h8]; rfl
  have hdp (o : Byte) : (s.dpAddr o).toNat = o.toNat := by
    have := o.isLt
    rw [toNat_dpAddr, hd]; omega
  have hindexed (o : Byte) (r : Word) : (s.dpIndexed o r).toNat = (o.toNat + r.toNat) % 256 := by
    rw [toNat_dpIndexed, if_pos hwrap, hd, Nat.zero_add]
  have hpointer {q : Word} {n : Nat} (hn : q.toNat = n) (hlt : n < 256) :
      s.pointer q = (s.mem.read n).toNat + 256 * (s.mem.read ((n + 1) % 256)).toNat := by
    rw [State.pointer, toNat_ptrNext, if_pos hwrap, hn, Nat.div_eq_of_lt hlt, Nat.zero_mul, Nat.zero_add]
  refine ⟨fun o => ?_, fun a => ?_⟩ <;> dsimp only
  · have hx := hpointer (hindexed o s.x) (Nat.mod_lt _ (by decide))
    have hp := hpointer (hdp o) o.isLt
    rw [← hx, ← hp, ← hindexed, ← hindexed]
    refine ⟨hdp o ▸ eaIs_dp o, eaIs_dpx o, eaIs_dpy o, ?_, ?_, ?_⟩
    · rw [← hplain (pointer_lt ..)]; exact eaIs_izx hu o
    · rw [← hplain (pointer_lt ..)]; exact eaIs_izp hu o
    · have hizy := eaIs_izy hu o (hcross _ _)
      rwa [hdata] at hizy
  · refine ⟨?_, ?_, ?_⟩
    · rw [← hplain a.isLt]; exact eaIs_abs a
    · have habx := eaIs_abx (s := s) a
      rwa [hdata, chargeCrossing_eq s a s.x (hcross _ _)] at habx
    · have haby := eaIs_aby (s := s) a
      rwa [hdata, chargeCrossing_eq s a s.y (hcross _ _)] at haby

/-- Settles O21: direct-page addresses wrap in their page where the mode and the low byte of the direct page say so,
and data-bank addresses have 24 bits. -/
theorem legacyEffectiveAddressesOfThe65816 : Obligations.LegacyEffectiveAddressesOfThe65816 := by
  intro s h8 hu
  have hdata (off r : Nat) : s.dataAddr off r = (s.dbr.toNat * 65536 + off + r) % 2 ^ 24 := by
    rw [State.dataAddr, h8]; rfl
  have hplain {off : Nat} (h : off < 65536) : s.dataAddr off 0 = s.dbr.toNat * 65536 + off := by
    have := s.dbr.isLt
    rw [hdata]; omega
  have hcross (base r : Nat) : 65535 < base + r ↔ s.Crosses base r := by rw [State.Crosses, h8]; rfl
  have hpointer {q : Word} {n : Nat} (hn : q.toNat = n) : s.pointer q = (s.mem.read n).toNat + 256 * (s.mem.read
      (if s.mode = .emulation ∧ s.dpr.toNat % 256 = 0 then n / 256 * 256 + (n + 1) % 256
        else (n + 1) % 65536)).toNat := by
    rw [State.pointer, toNat_ptrNext, hn]
  refine ⟨fun o => ?_, fun a => ?_⟩ <;> dsimp only
  · have hx := hpointer (toNat_dpIndexed s o s.x)
    have hp := hpointer (toNat_dpAddr s o)
    rw [← hx, ← hp, ← toNat_dpIndexed, ← toNat_dpIndexed, ← toNat_dpAddr]
    refine ⟨eaIs_dp o, eaIs_dpx o, eaIs_dpy o, ?_, ?_, ?_⟩
    · rw [← hplain (pointer_lt ..)]; exact eaIs_izx hu o
    · rw [← hplain (pointer_lt ..)]; exact eaIs_izp hu o
    · have hizy := eaIs_izy hu o (hcross _ _)
      rwa [hdata] at hizy
  · refine ⟨?_, ?_, ?_⟩
    · rw [← hplain a.isLt]; exact eaIs_abs a
    · have habx := eaIs_abx (s := s) a
      rwa [hdata, chargeCrossing_eq s a s.x (hcross _ _)] at habx
    · have haby := eaIs_aby (s := s) a
      rwa [hdata, chargeCrossing_eq s a s.y (hcross _ _)] at haby

end Sys2Proof.Machine
end

section
namespace Sys2Proof.Machine

/-! The other formats the 65816 adds, and what an operand reads (40_addressing.md). -/

section
variable {s : State}

theorem eaIs_idly (h8 : s.is816 = true) (hu : s.Unobserved) (o : Byte) :
    let q := (s.dpr.toNat + o.toNat) % 65536
    EaIs (.idly o) s (((s.mem.read q).toNat + 256 * (s.mem.read ((q + 1) % 65536)).toNat +
      65536 * (s.mem.read ((q + 2) % 65536)).toNat + s.y.toNat) % 2 ^ 24) .lin s := by
  have htwo : (s.dpAddr o + 2).toNat = ((s.dpAddr o).toNat + 2) % 65536 := BitVec.toNat_add ..
  have hy : (s.y.setWidth 24).toNat = s.y.toNat := BitVec.toNat_setWidth_of_le (by decide)
  refine ⟨_, by rw [effAddr, ptr24B0_plain hu]; rfl, ?_, rfl⟩
  dsimp only
  rw [and_addrMask_of_is816 h8, BitVec.toNat_add, hy, toNat_mkLong, toNat_mkWord, htwo, toNat_add_one, toNat_dpAddr]
  congr 1
  omega

theorem toNat_stackRelative (o : Byte) : (s.sp + zext o).toNat = (s.sp.toNat + o.toNat) % 65536 := by
  rw [BitVec.toNat_add, toNat_zext]

theorem eaIs_sr (o : Byte) : EaIs (.sr o) s ((s.sp.toNat + o.toNat) % 65536) .bank s :=
  ⟨_, rfl, (toNat_mkLong_zero _).trans (toNat_stackRelative o), rfl⟩

theorem eaIs_sry (h8 : s.is816 = true) (hu : s.Unobserved) (o : Byte) :
    let q := (s.sp.toNat + o.toNat) % 65536
    EaIs (.sry o) s ((s.dbr.toNat * 65536 + ((s.mem.read q).toNat + 256 * (s.mem.read ((q + 1) % 65536)).toNat) +
      s.y.toNat) % 2 ^ 24) .lin s := by
  obtain ⟨ptr, hptr, hnum⟩ := ptr16B0_plain hu (s.sp + zext o)
  rw [toNat_stackRelative] at hnum
  refine ⟨s.dataEa ptr s.y, by rw [effAddr, hptr]; rfl, ?_, rfl⟩
  rw [toNat_dataEa, hnum, State.dataAddr, if_pos h8]

theorem eaIs_abl (h8 : s.is816 = true) (a : Long) : EaIs (.abl a) s a.toNat .lin s :=
  ⟨_, rfl, congrArg BitVec.toNat (and_addrMask_of_is816 h8 a), rfl⟩

end

/-- The six formats that the 65816 alone has. -/
theorem inGroupOne_of_long {c : DecodeCtx} {o : Byte} {a : Long} {m : Mem}
    (hm : m ∈ [Mem.idl o, .idly o, .sr o, .sry o, .abl a, .alx a]) : m.inGroupOne c = c.is816 := by
  simp only [List.mem_cons, List.not_mem_nil, or_false] at hm
  rcases hm with rfl | rfl | rfl | rfl | rfl | rfl <;> rfl

/-- The instructions of group one take exactly the formats of their group. -/
theorem wf_groupOne (c : DecodeCtx) (m : Mem) :
    ∀ i ∈ ([.ora, .and, .eor, .adc, .lda, .cmp, .sbc] : List (Operand → Instr)),
      Instr.wf c (i (.mem m)) = m.inGroupOne c := by
  simp only [List.forall_mem_cons]
  exact ⟨rfl, rfl, rfl, rfl, rfl, rfl, rfl, List.forall_mem_nil _⟩

theorem longBytes_mkLong (bank hi lo : Byte) : longBytes (mkLong bank (mkWord hi lo)) = [lo, hi, bank] := by
  simp [longBytes]

/-- Settles O23: the addresses in numbers; the opcodes by encoding what they decode to; the formats by their group. -/
theorem indexedLongAndStackRelativeAddresses : Obligations.IndexedLongAndStackRelativeAddresses := by
  refine ⟨fun s h8 hu => ⟨fun o => ⟨eaIs_idly h8 hu o, eaIs_sr o, eaIs_sry h8 hu o⟩, eaIs_abl h8⟩,
    fun c o lo hi bank rest hc => ?_, fun c o a m hm => ?_⟩
  · have h8 : c.is816 = true := is816_iff_variant.2 hc
    have decodes (i : Instr) (hi : i.wf c = true) := decodeOfEncodeIsTheInstruction c i rest hi
    have habl := decodes (.lda (.mem (.abl (mkLong bank (mkWord hi lo))))) h8
    have halx := decodes (.lda (.mem (.alx (mkLong bank (mkWord hi lo))))) h8
    refine ⟨decodes (.lda (.mem (.sr o))) h8, decodes (.lda (.mem (.idl o))) h8, decodes (.lda (.mem (.sry o))) h8,
      decodes (.lda (.mem (.idly o))) h8, ?_, ?_⟩
    · rw [← habl]
      show decode c _ = decode c (0xAF :: longBytes _ ++ rest)
      rw [longBytes_mkLong]
      rfl
    · rw [← halx]
      show decode c _ = decode c (0xBF :: longBytes _ ++ rest)
      rw [longBytes_mkLong]
      rfl
  · have hgroup := inGroupOne_of_long (c := c) hm
    refine ⟨fun i hi => ?_, ?_⟩
    · rw [wf_groupOne c m i hi, hgroup]; exact is816_iff_variant
    · show m.inGroupOne c = true ↔ _
      rw [hgroup]; exact is816_iff_variant

/-- With no observer bound an effective address leaves memory as it is. -/
theorem effAddr_mem {m : Mem} {s u : State} {ea : Ea} (hu : s.Unobserved) (h : effAddr m s = .ok (ea, u)) :
    u.mem = s.mem := by
  cases m with
  | dp o | dpx o | dpy o | abs a | abl a | alx a | sr o => cases h; rfl
  | abx a | aby a => cases h; exact chargeCrossing_mem ..
  | izx o | izp o =>
    rw [effAddr, ptr16, read16Bank0_plain hu] at h
    cases h; rfl
  | izy o =>
    rw [effAddr, ptr16, read16Bank0_plain hu] at h
    cases h; exact chargeCrossing_mem ..
  | sry o =>
    rw [effAddr, ptr16B0, read16Bank0_plain hu] at h
    cases h; rfl
  | idl o | idly o =>
    rw [effAddr, ptr24B0_plain hu] at h
    cases h; rfl

/-- A memory operand with no observer bound is the datum at its effective address. -/
theorem readOperand_mem_plain {w : Width} {m : Mem} {s : State} (hu : s.Unobserved) (hm : s.inMemory w m = true) :
    ∃ ea u, effAddr m s = .ok (ea, u) ∧ readOperand w (.mem m) s = .ok (match w with
      | .w8 => zext (s.mem.read ea.addr.toNat)
      | .w16 => mkWord (s.mem.read (ea.next s).toNat) (s.mem.read ea.addr.toNat), u) := by
  obtain ⟨ea, u, hea, hin⟩ := inMemory_cases hm
  obtain ⟨hr, ht, -⟩ := effAddr_spec hea
  have hbytes : ∀ a ∈ ea.bytes w u, a < u.cfg.memSize := by rw [bytes_congr ht.cfg, ht.cfg]; exact hin
  refine ⟨ea, u, hea, ?_⟩
  rw [readOperand, hea, ok_bind]
  dsimp only
  rw [rd_plain (ht.unobserved hu) hbytes, effAddr_mem hu hea, hr.eaNext]
  cases w <;> rfl

theorem toNat_lt_of_masked {v : Word} {w : Width} (h : v &&& w.mask = v) : v.toNat < 2 ^ w.bits := by
  rw [← h, toNat_and_mask]
  exact Nat.mod_lt _ (Nat.two_pow_pos _)

/-- Settles O24: an immediate is its value; a memory operand is read where it lies in memory and reported elsewhere. -/
theorem operandsReadWhatTheirFormatNames : Obligations.OperandsReadWhatTheirFormatNames := by
  intro s w
  refine ⟨fun v => ?_, fun v => ?_, fun m hm => readOperand_outside hm, fun m hm => ?_⟩
  · show Except.ok (zext v &&& w.mask, s) = _
    cases w with
    | w8 => rw [and_mask8, loByte_zext]
    | w16 => rw [and_mask16]
  · show Except.ok (v &&& Width.w16.mask, s) = _
    rw [and_mask16]
  · obtain ⟨v, u, h⟩ := readOperand_completes (o := .mem m) hm
    obtain ⟨hr, ht, hv⟩ := readOperand_spec h
    refine ⟨v, u, h, hr, ht.frame, toNat_lt_of_masked hv, fun hu => ?_⟩
    obtain ⟨ea, u', hea, hread⟩ := readOperand_mem_plain hu hm
    cases h.symm.trans hread
    exact ⟨ea, hea, by cases w <;> rfl⟩

end Sys2Proof.Machine
end

section
namespace Sys2Proof.Machine

/-! Logic, tests, steps by one, compares and shifts at the width of their register (42_arithmetic.md,
43_logic_shift.md). -/

theorem p_of_eq_withTraffic {s u : State} (h : u = s.withTraffic u) : u.p = s.p := by rw [h]; rfl

theorem acc_of_eq_withTraffic {s u : State} (h : u = s.withTraffic u) : u.acc = s.acc := by rw [h]; rfl

theorem acc_masked (s : State) : s.acc &&& s.wA.mask = s.acc := and_mask_and_mask s.a s.wA

theorem getLsbD_and_mask (v : Word) (w : Width) (k : Nat) :
    (v &&& w.mask).getLsbD k = (decide (k < w.bits) && v.getLsbD k) := by
  cases w with
  | w8 =>
    rw [and_mask8, zext, loByte, BitVec.getLsbD_setWidth, BitVec.getLsbD_setWidth, Width.bits]
    by_cases hk : k < 8
    · simp [hk, show k < 16 by omega]
    · simp [hk]
  | w16 =>
    rw [and_mask16, Width.bits]
    by_cases hk : k < 16
    · simp [hk]
    · simp [hk, BitVec.getLsbD_of_ge v k (by omega)]

/-- The flags of a value seen through a state whose status register `SetNZ` wrote. -/
theorem nzFrame_of_p {s t u : State} {v : Word} {w : Width} (hp : u.p = s.p) (ht : t.p = (u.setNZ v w).p) :
    NZFrame v w s t := by
  obtain ⟨hN, hZ, hrest⟩ := nzFrame_setNZ v w hp
  exact ⟨(flag_congr ht _).trans hN, (flag_congr ht _).trans hZ,
    fun f h1 h2 => (flag_congr ht f).trans (hrest f h1 h2)⟩

/-- A read-modify-write of the accumulator. -/
theorem completesInA {i : Instr} {s : State} {new : Word} {flags : State → Prop} {f : Word → State → Word × State}
    (hf : FlagsOnly f) (hexec : exec i s = finish (modify .acc f s)) (hnew : (f s.acc s).1 &&& s.wA.mask = new)
    (hflags : ∀ t, t.p = (f s.acc s).2.p → flags t) : CompletesInA i s new flags := by
  obtain ⟨heq, hM, -⟩ := hf s.acc s
  have hw : (f s.acc s).2.wA = s.wA := wA_congr (by rw [heq]) (by rw [heq]) hM
  refine ⟨(f s.acc s).2.setA (f s.acc s).1, hexec, ?_, hflags _ rfl⟩
  rw [State.setA, hw, hnew, heq]

/-! Compares. -/

theorem compare_flags {s u : State} (hu : u = s.withTraffic u) (w : Width) (r m : Word) :
    let t := u.compare w r m
    t.flag .C = decide (m.toNat ≤ r.toNat) ∧ t.flag .Z = decide (r = m) ∧ t.flag .N = (r - m).getLsbD (w.bits - 1) ∧
      (∀ f ∈ [Flag.V, .M, .X, .D, .I], t.flag f = s.flag f) ∧ t = { s.withTraffic t with p := t.p } := by
  have hp := p_of_eq_withTraffic hu
  refine ⟨by simp, by simp [beq_eq_decide], by simp [signBit_eq], fun f hf => ?_, ?_⟩
  · rw [flag_compare, ← flag_congr hp f]
    fin_cases hf <;> rfl
  · obtain ⟨e, q, mem, tr, rfl⟩ := exists_of_eq_withTraffic hu
    rfl

/-- Settles O34: a compare reads its operand and writes flags alone. -/
theorem comparesSetCZNAlone : Obligations.ComparesSetCZNAlone := by
  intro s o
  refine ⟨fun hmem => ?_, fun hmem => ⟨?_, ?_⟩⟩
  · refine completesReading (f := fun m u => u.compare u.wA u.acc m) hmem rfl (fun _ _ => ⟨rfl, rfl, rfl, rfl⟩)
      (fun _ _ => rfl) fun m u _ hu _ => ?_
    rw [wA_of_eq_withTraffic hu, acc_of_eq_withTraffic hu]
    exact compare_flags hu _ _ _
  · refine completesReading (f := fun m u => u.compare u.wX u.x m) hmem rfl (fun _ _ => ⟨rfl, rfl, rfl, rfl⟩)
      (fun _ _ => rfl) fun m u _ hu _ => ?_
    rw [wX_of_eq_withTraffic hu, show u.x = s.x by rw [hu]; rfl]
    exact compare_flags hu _ _ _
  · refine completesReading (f := fun m u => u.compare u.wX u.y m) hmem rfl (fun _ _ => ⟨rfl, rfl, rfl, rfl⟩)
      (fun _ _ => rfl) fun m u _ hu _ => ?_
    rw [wX_of_eq_withTraffic hu, show u.y = s.y by rw [hu]; rfl]
    exact compare_flags hu _ _ _

/-! Steps by one. -/

theorem add_one_and_mask (v : Word) (w : Width) :
    (v + 1) &&& w.mask = BitVec.ofNat 16 ((v.toNat + 1) % 2 ^ w.bits) := by
  apply BitVec.eq_of_toNat_eq
  rw [toNat_and_mask, toNat_add_one, BitVec.toNat_ofNat]
  cases w with
  | w8 => simp [Width.bits]; omega
  | w16 => simp [Width.bits]

theorem sub_one_and_mask (v : Word) (w : Width) :
    (v - 1) &&& w.mask = BitVec.ofNat 16 ((v.toNat + 65535) % 2 ^ w.bits) := by
  apply BitVec.eq_of_toNat_eq
  rw [toNat_and_mask, toNat_sub_one, BitVec.toNat_ofNat]
  cases w with
  | w8 => simp [Width.bits]; omega
  | w16 => simp [Width.bits]

/-- INC and DEC of memory and of the accumulator, for either step. -/
theorem steps_by {s : State} {m : Mem} {i : Target → Instr} {d : Word} {g : Word → Word}
    (hexec : ∀ t, exec (i t) s = finish (modify t (stepValue d) s)) (hg : ∀ v, (v + d) &&& s.wA.mask = g v) :
    (s.inMemory s.wA m = true →
      CompletesModifying (i (.mem m)) m s g fun old t => NZFrame (g old) s.wA s t) ∧
    CompletesInA (i .acc) s (g s.acc) (NZFrame (g s.acc) s.wA s) := by
  constructor
  · refine fun hm => completesModifying (flagsOnly_stepValue d) hm (hexec _) (fun old u _ hu => ?_)
      fun old u t _ hu ht => ?_
    · rw [← hg, stepValue, wA_of_eq_withTraffic hu]
    · rw [stepValue, wA_of_eq_withTraffic hu, hg] at ht
      exact nzFrame_of_p (p_of_eq_withTraffic hu) ht
  · refine completesInA (flagsOnly_stepValue d) (hexec _) ?_ fun t ht => ?_
    · rw [stepValue, and_mask_and_mask, hg]
    · rw [stepValue, hg] at ht
      exact nzFrame_of_p rfl ht

/-- Settles O35: each step is an addition masked to the width. -/
theorem stepsByOneWrapAtTheWidth : Obligations.StepsByOneWrapAtTheWidth := by
  intro s m
  simp only [← add_one_and_mask, ← sub_one_and_mask]
  exact ⟨steps_by (fun _ => rfl) fun _ => rfl, steps_by (d := -1) (fun _ => rfl) fun _ => by rw [BitVec.sub_eq_add_neg],
    ⟨_, rfl, rfl, nzFrame_setNZ _ _ rfl⟩, ⟨_, rfl, rfl, nzFrame_setNZ _ _ rfl⟩,
    ⟨_, rfl, rfl, nzFrame_setNZ _ _ rfl⟩, ⟨_, rfl, rfl, nzFrame_setNZ _ _ rfl⟩⟩

/-! Logic. -/

/-- A bitwise operation of the accumulator and an operand, bit by bit at the width. -/
theorem completesReading_logic {i : Instr} {s : State} {o : Operand} {op : Word → Word → Word} {bit : Bool → Bool → Bool}
    (hmem : s.operandInMemory s.wA o = true) (hexec : exec i s = logic op o s)
    (hbit : ∀ v m k, (op v m).getLsbD k = bit (v.getLsbD k) (m.getLsbD k)) (hfalse : bit false false = false) :
    CompletesReading i s.wA o s fun m t =>
      (∀ k, t.a.getLsbD k = (decide (k < s.wA.bits) && bit (s.a.getLsbD k) (m.getLsbD k))) ∧
      t = { s.withTraffic t with a := t.a, p := t.p } ∧ NZFrame t.a s.wA s t := by
  refine completesReading (f := fun m u => (u.setA (op u.acc m)).setNZ (op u.acc m) u.wA) hmem hexec
    (fun _ _ => ⟨rfl, rfl, rfl, rfl⟩) (fun _ _ => rfl) fun m u _ hu hm => ?_
  have hbits (k : Nat) : (op s.acc m).getLsbD k =
      (decide (k < s.wA.bits) && bit (s.a.getLsbD k) (m.getLsbD k)) := by
    rw [hbit, State.acc, ← hm, getLsbD_and_mask, getLsbD_and_mask]
    cases decide (k < s.wA.bits) <;> simp [hfalse]
  have hmasked : op s.acc m &&& s.wA.mask = op s.acc m := by
    apply BitVec.eq_of_getLsbD_eq
    intro k _
    rw [getLsbD_and_mask, hbits]
    cases decide (k < s.wA.bits) <;> rfl
  rw [acc_of_eq_withTraffic hu, setA_of_masked (wA_of_eq_withTraffic hu ▸ hmasked), wA_of_eq_withTraffic hu]
  obtain ⟨e, q, mem, tr, rfl⟩ := exists_of_eq_withTraffic hu
  exact ⟨hbits, rfl, nzFrame_setNZ _ _ rfl⟩

/-- Settles O36: the three operations act on each bit alone. -/
theorem logicCombinesBitByBit : Obligations.LogicCombinesBitByBit := fun _ _ hmem =>
  ⟨completesReading_logic (op := (· &&& ·)) hmem rfl (fun _ _ _ => BitVec.getLsbD_and ..) rfl,
    completesReading_logic (op := (· ||| ·)) hmem rfl (fun _ _ _ => BitVec.getLsbD_or ..) rfl,
    completesReading_logic (op := (· ^^^ ·)) hmem rfl (fun _ _ _ => BitVec.getLsbD_xor ..) rfl⟩

end Sys2Proof.Machine
end

section
namespace Sys2Proof.Machine

/-! Bit tests, shifts and single bits (43_logic_shift.md R253 to R261). -/

/-- The second bit of a value is bit `w-2` (43_logic_shift.md R253). -/
theorem secondBit_eq (v : Word) (w : Width) : secondBit v w = v.getLsbD (w.bits - 2) := by
  cases w with
  | w8 => exact and_twoPow_ne_zero v 6 (by decide)
  | w16 => exact and_twoPow_ne_zero v 14 (by decide)

theorem oneFlag_of_p {s t u : State} {f : Flag} {v : Bool} (hp : u.p = s.p) (ht : t.p = (u.setFlag f v).p) :
    OneFlag f v s t := by
  obtain ⟨hf, hrest⟩ := oneFlag_setFlag u f v
  exact ⟨(flag_congr ht f).trans hf, fun g hg => (flag_congr ht g).trans ((hrest g hg).trans (flag_congr hp g))⟩

/-- BIT immediate: Z alone. -/
theorem completesReading_bitImm (s : State) (v : Imm) :
    CompletesReading (.bit (.imm v)) s.wA (.imm v) s fun m t =>
      OneFlag .Z (decide (s.acc &&& m = 0)) s t ∧ t = { s with p := t.p } := by
  refine completesReading (f := fun m u => u.setFlag .Z (u.acc &&& m == 0)) rfl rfl
    (fun _ _ => ⟨rfl, rfl, rfl, rfl⟩) (fun _ _ => rfl) fun m u hread _ _ => ?_
  cases hread
  rw [beq_eq_decide]
  exact ⟨oneFlag_setFlag s _ _, rfl⟩

/-- The flags of BIT in its memory forms. -/
def State.bitFlags (u : State) (m : Word) : State :=
  ((u.setFlag .Z (u.acc &&& m == 0)).setFlag .N (signBit m (u.setFlag .Z (u.acc &&& m == 0)).wA)).setFlag .V
    (secondBit m (u.setFlag .Z (u.acc &&& m == 0)).wA)

/-- BIT of memory: Z of the AND, N and V the operand's top two bits. -/
theorem completesReading_bitMem {s : State} {m : Mem} (hm : s.inMemory s.wA m = true) :
    CompletesReading (.bit (.mem m)) s.wA (.mem m) s fun v t =>
      t.flag .Z = decide (s.acc &&& v = 0) ∧ t.flag .N = v.getLsbD (s.wA.bits - 1) ∧
      t.flag .V = v.getLsbD (s.wA.bits - 2) ∧ (∀ f ∈ [Flag.M, .X, .D, .I, .C], t.flag f = s.flag f) ∧
      t = { s.withTraffic t with p := t.p } := by
  refine completesReading (f := fun v u => u.bitFlags v) hm rfl
    (fun _ _ => ⟨rfl, rfl, rfl, rfl⟩) (fun _ _ => rfl) fun v u _ hu _ => ?_
  have hw : (u.setFlag .Z (u.acc &&& v == 0)).wA = s.wA :=
    (wA_congr (s := u) (t := u.setFlag .Z _) rfl rfl (by simp)).trans (wA_of_eq_withTraffic hu)
  rw [State.bitFlags, hw, signBit_eq, secondBit_eq, acc_of_eq_withTraffic hu]
  refine ⟨by simp [beq_eq_decide], by simp, by simp, fun f hf => ?_, ?_⟩
  · rw [flag_setFlag, flag_setFlag, flag_setFlag, ← flag_congr (p_of_eq_withTraffic hu) f]
    fin_cases hf <;> rfl
  · obtain ⟨e, q, mem, tr, rfl⟩ := exists_of_eq_withTraffic hu
    rfl

/-- TSB and TRB, for either combination of accumulator and memory. -/
theorem completesModifying_test {s : State} {m : Mem} {i : Instr} {f : Word → Word → Word}
    (hm : s.inMemory s.wA m = true) (hexec : exec i s = testAndModify f m s) :
    CompletesModifying i m s (fun v => f s.acc v) (fun old t => OneFlag .Z (decide (s.acc &&& old = 0)) s t) := by
  refine completesModifying (flagsOnly_testAndModify f) hm hexec (fun old u _ hu => ?_) fun old u t _ hu ht => ?_
  · rw [acc_of_eq_withTraffic hu]
  · rw [acc_of_eq_withTraffic hu, beq_eq_decide] at ht
    exact oneFlag_of_p (p_of_eq_withTraffic hu) ht

/-- Settles O37: the tests set Z from the AND; TSB and TRB store what they combine. -/
theorem bitTestsAndTestAndModify : Obligations.BitTestsAndTestAndModify :=
  ⟨completesReading_bitImm, fun _ _ hm => ⟨completesReading_bitMem hm,
    completesModifying_test (f := fun a v => v ||| a) hm rfl,
    completesModifying_test (f := fun a v => v &&& ~~~a) hm rfl⟩⟩

/-! Shifts and rotates. -/

/-- The value shifted left has room for the carry at the bottom. -/
theorem toNat_shiftLeft_or (v : Word) (c : Bool) :
    ((v <<< 1) ||| BitVec.ofNat 16 (bitOf c)).toNat = (2 * v.toNat + bitOf c) % 65536 := by
  have hdisjoint : (v <<< 1) &&& BitVec.ofNat 16 (bitOf c) = 0 := by
    apply BitVec.eq_of_getLsbD_eq
    intro k _
    rw [BitVec.getLsbD_and, BitVec.getLsbD_shiftLeft, BitVec.getLsbD_ofNat]
    cases k with
    | zero => simp
    | succ k => cases c <;> simp [bitOf, Nat.testBit_succ]
  rw [← BitVec.add_eq_or_of_and_eq_zero _ _ hdisjoint, BitVec.toNat_add, BitVec.toNat_shiftLeft, BitVec.toNat_ofNat,
    Nat.shiftLeft_eq]
  omega

theorem shiftLeft_value (w : Width) (v : Word) (c : Bool) :
    (shiftLeft w v c).value = BitVec.ofNat 16 ((2 * v.toNat + bitOf c) % 2 ^ w.bits) := by
  apply BitVec.eq_of_toNat_eq
  rw [shiftLeft, toNat_and_mask, toNat_shiftLeft_or, BitVec.toNat_ofNat]
  cases w with
  | w8 => simp [Width.bits]; omega
  | w16 => simp [Width.bits]

theorem sign_eq_twoPow (w : Width) : w.sign = BitVec.twoPow 16 (w.bits - 1) := by cases w <;> rfl

/-- The top bit of a width is clear after a shift to the right. -/
theorem getLsbD_shiftRight_top {w : Width} {v : Word} (hv : v &&& w.mask = v) :
    (v >>> 1).getLsbD (w.bits - 1) = false := by
  have hbits : 1 + (w.bits - 1) = w.bits := by cases w <;> rfl
  rw [BitVec.getLsbD_ushiftRight, hbits, ← hv, getLsbD_and_mask]
  simp

/-- The value shifted right has room for the carry at the top of its width. -/
theorem shiftRight_value {w : Width} {v : Word} (hv : v &&& w.mask = v) (c : Bool) :
    (shiftRight w v c).value = BitVec.ofNat 16 (v.toNat / 2 + bitOf c * 2 ^ (w.bits - 1)) := by
  have hlt := toNat_lt_of_masked hv
  have hdisjoint : (v >>> 1) &&& (if c then w.sign else 0) = 0 := by
    cases c with
    | false => exact BitVec.and_zero
    | true => rw [if_pos rfl, sign_eq_twoPow, BitVec.and_twoPow, getLsbD_shiftRight_top hv]; rfl
  apply BitVec.eq_of_toNat_eq
  rw [shiftRight]
  dsimp only
  rw [← BitVec.add_eq_or_of_and_eq_zero _ _ hdisjoint, BitVec.toNat_add, BitVec.toNat_ushiftRight, BitVec.toNat_ofNat,
    Nat.shiftRight_eq_div_pow]
  cases c <;> cases w <;> simp [bitOf, Width.sign, Width.bits]

theorem nzcFrame_of_p {s t u : State} {v : Word} {w : Width} {c : Bool} (hp : u.p = s.p)
    (ht : t.p = ((u.setFlag .C c).setNZ v w).p) : NZCFrame v w c s t := by
  obtain ⟨hN, hZ, hrest⟩ := nzFrame_of_p (s := u.setFlag .C c) rfl ht
  exact ⟨hN, hZ, (hrest .C (by decide) (by decide)).trans (by simp), fun f h1 h2 h3 =>
    (hrest f h1 h2).trans ((flag_setFlag_ne c h3).trans (flag_congr hp f))⟩

/-- A shift of memory and of the accumulator. -/
theorem completes_shift {s : State} {m : Mem} {i : Target → Instr} {op : Width → Word → Bool → Sum}
    {carryIn : State → Bool} {g : Word → Word} {out : Word → Bool}
    (hexec : ∀ t, exec (i t) s = shift op carryIn t s) (hcarry : ∀ u, u.p = s.p → carryIn u = carryIn s)
    (hvalue : ∀ v, v &&& s.wA.mask = v → (op s.wA v (carryIn s)).value = g v)
    (hmasked : ∀ v, v &&& s.wA.mask = v → g v &&& s.wA.mask = g v)
    (hout : ∀ v, (op s.wA v (carryIn s)).carry = out v) :
    (s.inMemory s.wA m = true →
      CompletesModifying (i (.mem m)) m s g fun old t => NZCFrame (g old) s.wA (out old) s t) ∧
    CompletesInA (i .acc) s (g s.acc) (NZCFrame (g s.acc) s.wA (out s.acc) s) := by
  constructor
  · refine fun hm => completesModifying (flagsOnly_shift op carryIn) hm (hexec _) (fun old u hold hu => ?_)
      fun old u t hold hu ht => ?_
    · have hp := p_of_eq_withTraffic hu
      dsimp only
      rw [wA_of_eq_withTraffic hu, hcarry u hp, hvalue old hold]
    · have hp := p_of_eq_withTraffic hu
      dsimp only at ht
      rw [wA_of_eq_withTraffic hu, hcarry u hp, hvalue old hold, hout] at ht
      exact nzcFrame_of_p hp ht
  · refine completesInA (flagsOnly_shift op carryIn) (hexec _) ?_ fun t ht => ?_
    · dsimp only
      rw [hvalue _ (acc_masked s), hmasked _ (acc_masked s)]
    · dsimp only at ht
      rw [hvalue _ (acc_masked s), hout] at ht
      exact nzcFrame_of_p rfl ht

theorem ofNat_and_mask {w : Width} {n : Nat} (h : n < 2 ^ w.bits) : BitVec.ofNat 16 n &&& w.mask = BitVec.ofNat 16 n := by
  apply BitVec.eq_of_toNat_eq
  rw [toNat_and_mask, BitVec.toNat_ofNat]
  cases w <;> simp only [Width.bits] at h ⊢
  all_goals omega

theorem left_masked (w : Width) (n : Nat) :
    BitVec.ofNat 16 (n % 2 ^ w.bits) &&& w.mask = BitVec.ofNat 16 (n % 2 ^ w.bits) :=
  ofNat_and_mask (Nat.mod_lt _ (Nat.two_pow_pos _))

theorem bitOf_le_one (c : Bool) : bitOf c ≤ 1 := by cases c <;> decide

theorem right_masked {w : Width} {v : Word} (hv : v &&& w.mask = v) (c : Bool) :
    BitVec.ofNat 16 (v.toNat / 2 + bitOf c * 2 ^ (w.bits - 1)) &&& w.mask =
      BitVec.ofNat 16 (v.toNat / 2 + bitOf c * 2 ^ (w.bits - 1)) := by
  have hlt := toNat_lt_of_masked hv
  apply ofNat_and_mask
  have hpow : 2 ^ w.bits = 2 * 2 ^ (w.bits - 1) := by cases w <;> rfl
  have hcarry : bitOf c * 2 ^ (w.bits - 1) ≤ 1 * 2 ^ (w.bits - 1) := Nat.mul_le_mul_right _ (bitOf_le_one c)
  omega

/-- Settles O38: each shift is the shared operation with its direction and its carry in. -/
theorem shiftsMoveOneBitThroughC : Obligations.ShiftsMoveOneBitThroughC := by
  intro s m
  have hflag (u : State) (hp : u.p = s.p) : u.flag .C = s.flag .C := flag_congr hp .C
  refine ⟨completes_shift (fun _ => rfl) (fun _ _ => rfl) (fun v _ => shiftLeft_value _ v false)
      (fun v _ => left_masked ..) (fun v => signBit_eq v _),
    completes_shift (fun _ => rfl) hflag (fun v _ => shiftLeft_value _ v _)
      (fun v _ => left_masked ..) (fun v => signBit_eq v _),
    completes_shift (fun _ => rfl) (fun _ _ => rfl) (fun v hv => shiftRight_value hv false)
      (fun v hv => right_masked hv false) (fun _ => rfl),
    completes_shift (fun _ => rfl) hflag (fun v hv => shiftRight_value hv _) (fun v hv => right_masked hv _)
      (fun _ => rfl)⟩

/-! Single bits. -/

/-- RMBn and SMBn: one byte of the direct page is read and stored with one bit replaced. -/
theorem exec_setMemBit {i : Instr} {n : Nat} {v : Bool} {off : Byte} {s : State} (hexec : exec i s = setMemBit n v off s) :
    ∃ t, exec i s = .next t ∧ t = { s.withTraffic t with excycles := s.excycles } ∧
      AccessFrame [(s.dpr.toNat + off.toNat) % 65536] s t ∧
      (s.Unobserved → s.mem.wf = true → ∀ k < 8, (t.mem.read ((s.dpr.toNat + off.toNat) % 65536)).getLsbD k =
        if k = n then v else (s.mem.read ((s.dpr.toNat + off.toNat) % 65536)).getLsbD k) := by
  rw [← toNat_dpAddr, ← toNat_mkLong_zero]
  obtain ⟨b, u, h⟩ := memRead1_completes (bank0_inMemory s.cfg (s.dpAddr off))
  obtain ⟨hr, ht⟩ := memRead1_spec h
  obtain ⟨t, h'⟩ := memWrite1_completes (v := putBit b n v) (bank0_inMemory u.cfg (s.dpAddr off))
  obtain ⟨hr', ht'⟩ := memWrite1_spec h'
  refine ⟨t, ?_, ?_, (ht.cons_nil ht').frame, fun hu hw k hk => ?_⟩
  · rw [hexec]
    show finish (memRead1 _ s >>= _) = _
    rw [h, ok_bind]
    exact finish_next.2 h'
  · obtain ⟨q, m, tr, rfl⟩ := exists_of_sameRegs (hr.trans hr')
    rfl
  · cases h.symm.trans (memRead1_plain (bank0_inMemory s.cfg (s.dpAddr off)) hu)
    cases h'.symm.trans (memWrite1_plain (bank0_inMemory s.cfg (s.dpAddr off)) hu)
    dsimp only
    rw [Memory.read_write_same _ _ hw, getLsbD_putBit _ _ _ _ hk]

/-- Settles O39: the sixteen instructions are one operation. -/
theorem singleBitOperationsChangeOneBit : Obligations.SingleBitOperationsChangeOneBit := fun _ _ =>
  ⟨exec_setMemBit rfl, exec_setMemBit rfl, exec_setMemBit rfl, exec_setMemBit rfl, exec_setMemBit rfl,
    exec_setMemBit rfl, exec_setMemBit rfl, exec_setMemBit rfl, exec_setMemBit rfl, exec_setMemBit rfl,
    exec_setMemBit rfl, exec_setMemBit rfl, exec_setMemBit rfl, exec_setMemBit rfl, exec_setMemBit rfl,
    exec_setMemBit rfl⟩

end Sys2Proof.Machine
end

section
namespace Sys2Proof.Machine

/-! ADC and SBC (42_arithmetic.md R220 to R223). -/

/-- What ADC and SBC leave: the result in the accumulator, with the carry, the overflow and the result's flags. -/
def SumPost (s : State) (r : Sum) (v : Bool) (t : State) : Prop :=
  t.a = r.value ∧ t.flag .V = v ∧ t.flag .C = r.carry ∧ t.flag .N = r.value.getLsbD (s.wA.bits - 1) ∧
    t.flag .Z = decide (r.value = 0) ∧ (∀ f ∈ [Flag.M, .X, .D, .I], t.flag f = s.flag f) ∧
    t = { s.withTraffic t with a := t.a, p := t.p }

theorem sumPost_setSum {s u : State} (hu : u = s.withTraffic u) {r : Sum} (v : Bool)
    (hr : r.value &&& s.wA.mask = r.value) : SumPost s r v (u.setSum r v) := by
  have hw := wA_of_eq_withTraffic hu
  let w : State := (u.setFlag .V v).setFlag .C r.carry
  have hset : w.setA r.value = { w with a := r.value } :=
    setA_of_masked ((wA_congr (s := u) (t := w) rfl rfl (by simp [w])).trans hw ▸ hr)
  have heq : u.setSum r v = { w with a := r.value }.setNZ r.value s.wA := by rw [State.setSum, hset, hw]
  have hflag (f : Flag) : ({ w with a := r.value } : State).flag f = w.flag f := rfl
  rw [heq]
  refine ⟨rfl, ?_, ?_, by simp [signBit_eq], by simp [beq_eq_decide], fun f hf => ?_, ?_⟩
  · rw [flag_setNZ, hflag, flag_setFlag, flag_setFlag]; rfl
  · rw [flag_setNZ, hflag, flag_setFlag]; rfl
  · rw [flag_setNZ, hflag, flag_setFlag, flag_setFlag, ← flag_congr (p_of_eq_withTraffic hu) f]
    fin_cases hf <;> rfl
  · obtain ⟨e, q, m, tr, rfl⟩ := exists_of_eq_withTraffic hu
    rfl

theorem decimal_masked (op : Byte → Byte → Bool → Byte × Bool) (w : Width) (a m : Word) (c : Bool) :
    (decimal op w a m c).value &&& w.mask = (decimal op w a m c).value := by
  cases w with
  | w8 =>
    show zext _ &&& Width.w8.mask = zext _
    rw [and_mask8, loByte_zext]
  | w16 => exact and_mask16 _

theorem addSum_masked (d : Bool) (w : Width) (a m : Word) (c : Bool) :
    (addSum d w a m c).value &&& w.mask = (addSum d w a m c).value := by
  cases d with
  | true => exact decimal_masked ..
  | false => exact and_mask_and_mask ..

theorem subSum_masked (d : Bool) (w : Width) (a m : Word) (c : Bool) :
    (subSum d w a m c).value &&& w.mask = (subSum d w a m c).value := by
  cases d with
  | true => exact decimal_masked ..
  | false => exact and_mask_and_mask ..

theorem completesReading_adc {s : State} {o : Operand} {post : Word → State → Prop}
    (hmem : s.operandInMemory s.wA o = true)
    (hpost : ∀ m t, m &&& s.wA.mask = m → SumPost s (addSum (s.flag .D) s.wA s.acc m (s.flag .C))
      (addOverflow s.wA s.acc m (addSum (s.flag .D) s.wA s.acc m (s.flag .C)).value) t → post m t) :
    CompletesReading (.adc o) s.wA o s post := by
  refine completesReading (f := fun m u => u.setSum (addSum (u.flag .D) u.wA u.acc m (u.flag .C))
      (addOverflow u.wA u.acc m (addSum (u.flag .D) u.wA u.acc m (u.flag .C)).value)) hmem rfl
    (fun _ _ => ⟨rfl, rfl, rfl, rfl⟩) (fun _ _ => rfl) fun m u _ hu hm => ?_
  have hp := p_of_eq_withTraffic hu
  rw [flag_congr hp, flag_congr hp, wA_of_eq_withTraffic hu, acc_of_eq_withTraffic hu]
  exact hpost m _ hm (sumPost_setSum hu _ (addSum_masked ..))

theorem completesReading_sbc {s : State} {o : Operand} {post : Word → State → Prop}
    (hmem : s.operandInMemory s.wA o = true)
    (hpost : ∀ m t, m &&& s.wA.mask = m → SumPost s (subSum (s.flag .D) s.wA s.acc m (s.flag .C))
      (subOverflow s.wA s.acc m (subSum (s.flag .D) s.wA s.acc m (s.flag .C)).value) t → post m t) :
    CompletesReading (.sbc o) s.wA o s post := by
  refine completesReading (f := fun m u => u.setSum (subSum (u.flag .D) u.wA u.acc m (u.flag .C))
      (subOverflow u.wA u.acc m (subSum (u.flag .D) u.wA u.acc m (u.flag .C)).value)) hmem rfl
    (fun _ _ => ⟨rfl, rfl, rfl, rfl⟩) (fun _ _ => rfl) fun m u _ hu hm => ?_
  have hp := p_of_eq_withTraffic hu
  rw [flag_congr hp, flag_congr hp, wA_of_eq_withTraffic hu, acc_of_eq_withTraffic hu]
  exact hpost m _ hm (sumPost_setSum hu _ (subSum_masked ..))

/-! The overflow tests, on the sign bits and in numbers. -/

theorem bits_pred_lt (w : Width) : w.bits - 1 < 16 := by cases w <;> decide

theorem addOverflow_iff (w : Width) (a m r : Word) : addOverflow w a m r = true ↔
    a.getLsbD (w.bits - 1) = m.getLsbD (w.bits - 1) ∧ r.getLsbD (w.bits - 1) ≠ m.getLsbD (w.bits - 1) := by
  rw [addOverflow, signBit_eq, BitVec.getLsbD_and, BitVec.getLsbD_not, BitVec.getLsbD_xor, BitVec.getLsbD_xor]
  cases a.getLsbD (w.bits - 1) <;> cases m.getLsbD (w.bits - 1) <;> cases r.getLsbD (w.bits - 1) <;>
    simp [bits_pred_lt]

theorem subOverflow_iff (w : Width) (a m r : Word) : subOverflow w a m r = true ↔
    a.getLsbD (w.bits - 1) ≠ m.getLsbD (w.bits - 1) ∧ r.getLsbD (w.bits - 1) ≠ a.getLsbD (w.bits - 1) := by
  rw [subOverflow, signBit_eq, BitVec.getLsbD_and, BitVec.getLsbD_xor, BitVec.getLsbD_xor]
  cases a.getLsbD (w.bits - 1) <;> cases m.getLsbD (w.bits - 1) <;> cases r.getLsbD (w.bits - 1) <;> simp

theorem signed_cases {w : Width} {v : Word} (hv : v.toNat < 2 ^ w.bits) :
    2 ^ (w.bits - 1) ≤ v.toNat ∧ w.signed v = (v.toNat : Int) - 2 ^ w.bits ∨
      v.toNat < 2 ^ (w.bits - 1) ∧ w.signed v = v.toNat := by
  rw [Width.signed, getLsbD_top_of_lt hv]
  by_cases h : 2 ^ (w.bits - 1) ≤ v.toNat
  · exact .inl ⟨h, if_pos (decide_eq_true h)⟩
  · exact .inr ⟨Nat.lt_of_not_le h, if_neg (by simpa using h)⟩

/-- The overflow test of an exact sum says that the signed sum does not fit. -/
theorem addOverflow_exact {w : Width} {a m r : Word} {c : Bool} (ha : a.toNat < 2 ^ w.bits)
    (hm : m.toNat < 2 ^ w.bits) (hr : r.toNat = (a.toNat + m.toNat + bitOf c) % 2 ^ w.bits) :
    addOverflow w a m r = true ↔ w.signed a + w.signed m + (bitOf c : Int) < -(2 ^ (w.bits - 1) : Int) ∨
      (2 ^ (w.bits - 1) : Int) ≤ w.signed a + w.signed m + (bitOf c : Int) := by
  have hlt : r.toNat < 2 ^ w.bits := hr ▸ Nat.mod_lt _ (Nat.two_pow_pos _)
  rw [addOverflow_iff, getLsbD_top_of_lt ha, getLsbD_top_of_lt hm, getLsbD_top_of_lt hlt,
    Ne, decide_eq_decide, decide_eq_decide]
  have hc := bitOf_le_one c
  have hsa := signed_cases ha
  have hsm := signed_cases hm
  generalize bitOf c = k at *
  generalize w.signed a = sa at *
  generalize w.signed m = sm at *
  cases w <;> simp only [Width.bits] at * <;> omega

/-- The overflow test of an exact difference says that the signed difference does not fit. -/
theorem subOverflow_exact {w : Width} {a m r : Word} {c : Bool} (ha : a.toNat < 2 ^ w.bits)
    (hm : m.toNat < 2 ^ w.bits)
    (hr : r.toNat = (a.toNat + 2 ^ w.bits - m.toNat - (1 - bitOf c)) % 2 ^ w.bits) :
    subOverflow w a m r = true ↔
      w.signed a - w.signed m - ((1 - bitOf c : Nat) : Int) < -(2 ^ (w.bits - 1) : Int) ∨
      (2 ^ (w.bits - 1) : Int) ≤ w.signed a - w.signed m - ((1 - bitOf c : Nat) : Int) := by
  have hlt : r.toNat < 2 ^ w.bits := hr ▸ Nat.mod_lt _ (Nat.two_pow_pos _)
  rw [subOverflow_iff, getLsbD_top_of_lt ha, getLsbD_top_of_lt hm, getLsbD_top_of_lt hlt,
    Ne, Ne, decide_eq_decide, decide_eq_decide]
  have hc := bitOf_le_one c
  have hsa := signed_cases ha
  have hsm := signed_cases hm
  generalize bitOf c = k at *
  generalize w.signed a = sa at *
  generalize w.signed m = sm at *
  cases w <;> simp only [Width.bits] at * <;> omega

/-! Binary mode. -/

theorem toNat_mask (w : Width) : w.mask.toNat = 2 ^ w.bits - 1 := by cases w <;> rfl

theorem toNat_binAdd (w : Width) (a m : Word) (c : Bool) :
    (binAdd w a m c).value.toNat = (a.toNat + m.toNat + bitOf c) % 2 ^ w.bits := by
  rw [binAdd, toNat_and_mask, BitVec.toNat_ofNat]
  cases w <;> simp only [Width.bits] <;> omega

theorem carry_binAdd (w : Width) (a m : Word) (c : Bool) :
    (binAdd w a m c).carry = decide (2 ^ w.bits ≤ a.toNat + m.toNat + bitOf c) := by
  rw [binAdd, toNat_mask, decide_eq_decide]
  have := Nat.two_pow_pos w.bits
  omega

/-- The operand SBC adds in binary mode: the complement at the width. -/
theorem toNat_complement {w : Width} {m : Word} (hm : m.toNat < 2 ^ w.bits) :
    (~~~m &&& w.mask).toNat = 2 ^ w.bits - 1 - m.toNat := by
  rw [toNat_and_mask, BitVec.toNat_not]
  cases w <;> simp only [Width.bits] at * <;> omega

/-- Settles O30: the binary sum is exact at the width, and the overflow test is that of the signed sum. -/
theorem binaryAddIsExact : Obligations.BinaryAddIsExact := by
  intro s o hmem hD
  refine completesReading_adc hmem fun m t hm ht => ?_
  rw [hD] at ht
  obtain ⟨ha, hV, hC, hN, hZ, hrest, heq⟩ := ht
  have hvalue := toNat_binAdd s.wA s.acc m (s.flag .C)
  refine ⟨?_, ?_, ?_, ?_, ?_, hrest, heq⟩
  · rw [ha]; exact hvalue
  · rw [hV]; exact addOverflow_exact (toNat_lt_of_masked (acc_masked s)) (toNat_lt_of_masked hm) hvalue
  · rw [hN, ha]
  · rw [hZ, ha]
  · rw [hC]; exact carry_binAdd ..

/-- Settles O31: adding the complement subtracts, and the carry is the borrow's complement. -/
theorem binarySubtractIsExact : Obligations.BinarySubtractIsExact := by
  intro s o hmem hD
  refine completesReading_sbc hmem fun m t hm ht => ?_
  rw [hD] at ht
  obtain ⟨ha, hV, hC, hN, hZ, hrest, heq⟩ := ht
  have hmlt := toNat_lt_of_masked hm
  have halt := toNat_lt_of_masked (acc_masked s)
  have hcomplement := toNat_complement hmlt
  have hc := bitOf_le_one (s.flag .C)
  have hvalue : (subSum false s.wA s.acc m (s.flag .C)).value.toNat =
      (s.acc.toNat + 2 ^ s.wA.bits - m.toNat - (1 - bitOf (s.flag .C))) % 2 ^ s.wA.bits := by
    show (binAdd ..).value.toNat = _
    rw [toNat_binAdd, hcomplement]
    congr 1
    omega
  refine ⟨?_, ?_, ?_, ?_, ?_, hrest, heq⟩
  · rw [ha]; exact hvalue
  · rw [hV]; exact subOverflow_exact halt hmlt hvalue
  · rw [hN, ha]
  · rw [hZ, ha]
  · rw [hC]
    show (binAdd ..).carry = _
    rw [carry_binAdd, hcomplement, decide_eq_decide]
    omega

/-! Decimal mode. -/

theorem bitOf_decide (P : Prop) [Decidable P] : bitOf (decide P) = if P then 1 else 0 := by
  by_cases h : P <;> simp [bitOf, h]

/-- A byte-wise decimal sum of decimal operands, with its carry. -/
theorem bcdAdd8_exact {a m : Byte} (ha : Decimal8 a) (hm : Decimal8 m) (c : Bool) :
    Decimal8 (bcdAdd8 a m c).1 ∧
      decimal8 (bcdAdd8 a m c).1 + 100 * bitOf (bcdAdd8 a m c).2 = decimal8 a + decimal8 m + bitOf c := by
  obtain ⟨hah, hal⟩ := ha
  obtain ⟨hmh, hml⟩ := hm
  have hc := bitOf_le_one c
  simp only [Decimal8, decimal8, bcdAdd8, BitVec.toNat_ofNat, bitOf_decide]
  generalize a.toNat / 16 = ah at *
  generalize a.toNat % 16 = al at *
  generalize m.toNat / 16 = mh at *
  generalize m.toNat % 16 = ml at *
  generalize bitOf c = k at *
  by_cases hlo : 9 < al + ml + k
  · simp only [if_pos hlo, if_pos (show 15 < al + ml + k + 6 by omega)]
    by_cases hhi : 9 < ah + mh + 1
    · simp only [if_pos hhi, if_pos (show 15 < ah + mh + 1 + 6 by omega)]
      omega
    · simp only [if_neg hhi, if_neg (show ¬ 15 < ah + mh + 1 by omega)]
      omega
  · simp only [if_neg hlo, if_neg (show ¬ 15 < al + ml + k by omega)]
    by_cases hhi : 9 < ah + mh + 0
    · simp only [if_pos hhi, if_pos (show 15 < ah + mh + 0 + 6 by omega)]
      omega
    · simp only [if_neg hhi, if_neg (show ¬ 15 < ah + mh + 0 by omega)]
      omega

/-- A byte-wise decimal difference of decimal operands, with its borrow. -/
theorem bcdSub8_exact {a m : Byte} (ha : Decimal8 a) (hm : Decimal8 m) (c : Bool) :
    Decimal8 (bcdSub8 a m c).1 ∧
      decimal8 (bcdSub8 a m c).1 + decimal8 m + (1 - bitOf c) =
        decimal8 a + 100 * (1 - bitOf (bcdSub8 a m c).2) := by
  obtain ⟨hah, hal⟩ := ha
  obtain ⟨hmh, hml⟩ := hm
  have hc := bitOf_le_one c
  have hmod (v : Byte) : (v.toNat : Int) % 16 = ((v.toNat % 16 : Nat) : Int) := by omega
  have hdiv (v : Byte) : (v.toNat : Int) / 16 = ((v.toNat / 16 : Nat) : Int) := by omega
  simp only [Decimal8, decimal8, bcdSub8, BitVec.toNat_ofNat, bitOf_decide, ← decide_not, Int.not_lt, hmod, hdiv]
  generalize a.toNat / 16 = ah at *
  generalize a.toNat % 16 = al at *
  generalize m.toNat / 16 = mh at *
  generalize m.toNat % 16 = ml at *
  generalize bitOf c = k at *
  by_cases hlo : (al : Int) - ml - (1 - k) < 0
  · simp only [if_pos hlo]
    by_cases hhi : (ah : Int) - mh - 1 < 0
    · simp only [Nat.cast_one, if_pos hhi, if_neg (show ¬ 0 ≤ (ah : Int) - mh - 1 by omega)]
      omega
    · simp only [Nat.cast_one, if_neg hhi, if_pos (show 0 ≤ (ah : Int) - mh - 1 by omega)]
      omega
  · simp only [if_neg hlo]
    by_cases hhi : (ah : Int) - mh - 0 < 0
    · simp only [Nat.cast_zero, if_pos hhi, if_neg (show ¬ 0 ≤ (ah : Int) - mh - 0 by omega)]
      omega
    · simp only [Nat.cast_zero, if_neg hhi, if_pos (show 0 ≤ (ah : Int) - mh - 0 by omega)]
      omega
theorem decimal_lt {w : Width} {v : Word} (h : w.isDecimal v) : w.decimal v < w.decimals := by
  cases w with
  | w8 =>
    obtain ⟨hh, hl⟩ := h
    simp only [Width.decimal, Width.decimals, decimal8]
    omega
  | w16 =>
    obtain ⟨⟨hhh, hhl⟩, hlh, hll⟩ := h
    simp only [Width.decimal, Width.decimals, decimal8]
    omega

/-- The decimal sum at a width: at 16 bits the low byte's carry goes into the high byte. -/
theorem decimal_bcdAdd8 {w : Width} {a m : Word} (ha : w.isDecimal a) (hm : w.isDecimal m) (c : Bool) :
    w.isDecimal (decimal bcdAdd8 w a m c).value ∧
      w.decimal (decimal bcdAdd8 w a m c).value + w.decimals * bitOf (decimal bcdAdd8 w a m c).carry =
        w.decimal a + w.decimal m + bitOf c := by
  cases w with
  | w8 =>
    simp only [decimal, Width.isDecimal, Width.decimal, Width.decimals, loByte_zext] at *
    exact bcdAdd8_exact ha hm c
  | w16 =>
    obtain ⟨hah, hal⟩ := ha
    obtain ⟨hmh, hml⟩ := hm
    obtain ⟨hlo, hlosum⟩ := bcdAdd8_exact hal hml c
    obtain ⟨hhi, hhisum⟩ := bcdAdd8_exact hah hmh (bcdAdd8 (loByte a) (loByte m) c).2
    simp only [decimal, Width.isDecimal, Width.decimal, Width.decimals, loByte_mkWord, hiByte_mkWord]
    exact ⟨⟨hhi, hlo⟩, by omega⟩

/-- The decimal difference at a width: at 16 bits the low byte's borrow is taken from the high byte. -/
theorem decimal_bcdSub8 {w : Width} {a m : Word} (ha : w.isDecimal a) (hm : w.isDecimal m) (c : Bool) :
    w.isDecimal (decimal bcdSub8 w a m c).value ∧
      w.decimal (decimal bcdSub8 w a m c).value + (w.decimal m + (1 - bitOf c)) =
        w.decimal a + w.decimals * (1 - bitOf (decimal bcdSub8 w a m c).carry) := by
  cases w with
  | w8 =>
    simp only [decimal, Width.isDecimal, Width.decimal, Width.decimals, loByte_zext] at *
    obtain ⟨hdec, hdiff⟩ := bcdSub8_exact ha hm c
    exact ⟨hdec, by omega⟩
  | w16 =>
    obtain ⟨hah, hal⟩ := ha
    obtain ⟨hmh, hml⟩ := hm
    obtain ⟨hlo, hlodiff⟩ := bcdSub8_exact hal hml c
    obtain ⟨hhi, hhidiff⟩ := bcdSub8_exact hah hmh (bcdSub8 (loByte a) (loByte m) c).2
    simp only [decimal, Width.isDecimal, Width.decimal, Width.decimals, loByte_mkWord, hiByte_mkWord]
    exact ⟨⟨hhi, hlo⟩, by omega⟩

/-- A result below `n` and its carry are the remainder and the overflow of the sum. -/
theorem eq_mod_and_carry {n r sum : Nat} {c : Bool} (h : r + n * bitOf c = sum) (hlt : r < n) :
    r = sum % n ∧ c = decide (n ≤ sum) := by
  cases c with
  | false =>
    have hr : r = sum := by simpa [bitOf] using h
    exact ⟨by rw [← hr, Nat.mod_eq_of_lt hlt], (decide_eq_false (by omega)).symm⟩
  | true =>
    have hr : r + n = sum := by simpa [bitOf] using h
    exact ⟨by rw [← hr, Nat.add_mod_right, Nat.mod_eq_of_lt hlt], (decide_eq_true (by omega)).symm⟩

/-- A result below `n` and its carry are the remainder of the difference and that nothing is borrowed. -/
theorem eq_mod_and_borrow {n r taken a : Nat} {c : Bool} (h : r + taken = a + n * (1 - bitOf c)) (hlt : r < n)
    (ha : a < n) : r = (a + n - taken) % n ∧ c = decide (taken ≤ a) := by
  cases c with
  | false =>
    have hr : r + taken = a + n := by simpa [bitOf] using h
    exact ⟨by rw [show a + n - taken = r by omega, Nat.mod_eq_of_lt hlt], (decide_eq_false (by omega)).symm⟩
  | true =>
    have hr : r + taken = a := by simpa [bitOf] using h
    exact ⟨by rw [show a + n - taken = r + n by omega, Nat.add_mod_right, Nat.mod_eq_of_lt hlt],
      (decide_eq_true (by omega)).symm⟩

/-- Settles O32: the decimal sum and its carry are the digits and the overflow of the exact sum. -/
theorem decimalAddIsExactOnDecimals : Obligations.DecimalAddIsExactOnDecimals := by
  intro s o hmem hD
  refine completesReading_adc hmem fun m t _ ht => ?_
  rw [hD] at ht
  obtain ⟨ha, hV, hC, hN, hZ, hrest, heq⟩ := ht
  have hmasked := addSum_masked true s.wA s.acc m (s.flag .C)
  dsimp only
  rw [hV, hC, hN, hZ, ha]
  refine ⟨fun hacc hm => ?_, addOverflow_iff .., rfl, rfl, toNat_lt_of_masked hmasked, hrest, ha ▸ heq⟩
  obtain ⟨hdec, hsum⟩ := decimal_bcdAdd8 hacc hm (s.flag .C)
  exact ⟨hdec, eq_mod_and_carry hsum (decimal_lt hdec)⟩

/-- Settles O33: the decimal difference and its carry are the digits and the borrow's complement of the exact one. -/
theorem decimalSubtractIsExactOnDecimals : Obligations.DecimalSubtractIsExactOnDecimals := by
  intro s o hmem hD
  refine completesReading_sbc hmem fun m t _ ht => ?_
  rw [hD] at ht
  obtain ⟨ha, hV, hC, hN, hZ, hrest, heq⟩ := ht
  have hmasked := subSum_masked true s.wA s.acc m (s.flag .C)
  dsimp only
  rw [hV, hC, hN, hZ, ha]
  refine ⟨fun hacc hm => ?_, subOverflow_iff .., rfl, rfl, toNat_lt_of_masked hmasked, hrest, ha ▸ heq⟩
  obtain ⟨hdec, hdiff⟩ := decimal_bcdSub8 hacc hm (s.flag .C)
  exact ⟨hdec, eq_mod_and_borrow hdiff (decimal_lt hdec) (decimal_lt hacc)⟩

end Sys2Proof.Machine
end

section
namespace Sys2Proof.Machine

/-! Branches (44_control.md R280 to R292). -/

/-- A 16-bit address plus a displacement, as a signed sum in the bank. -/
theorem toNat_add_toInt (pc d : Word) : ((pc + d).toNat : Int) = ((pc.toNat : Int) + d.toInt) % 65536 := by
  rw [BitVec.toNat_add, BitVec.toInt_eq_toNat_cond]
  split <;> omega

theorem toNat_relTarget (s : State) (d : Byte) :
    ((s.relTarget d).toNat : Int) = ((s.pc.toNat : Int) + d.toInt) % 65536 := by
  rw [State.relTarget, toNat_add_toInt, sext, BitVec.toInt_signExtend_of_le (by decide)]

theorem not_native_eq (s : State) : (!s.is816 || s.mode == .emulation) = !s.native := by
  rw [State.native]
  cases s.is816 <;> cases s.mode <;> rfl

/-- A taken branch costs one cycle, and another across a page outside native mode. -/
theorem branchCycles_eq (s : State) (target : Word) : s.branchCycles target =
    if s.native = false ∧ target.toNat / 256 ≠ s.pc.toNat / 256 then 2 else 1 := by
  have hpage : hiByte target ≠ hiByte s.pc ↔ target.toNat / 256 ≠ s.pc.toNat / 256 := by
    rw [Ne, BitVec.toNat_eq, toNat_hiByte, toNat_hiByte]
  rw [State.branchCycles, not_native_eq]
  by_cases h : s.native = false ∧ target.toNat / 256 ≠ s.pc.toNat / 256
  · rw [if_pos h, h.1, bne_iff_ne.2 (hpage.2 h.2)]
    rfl
  · rw [if_neg h]
    cases hn : s.native
    · have heq : hiByte target = hiByte s.pc := not_not.1 fun hne => h ⟨hn, hpage.1 hne⟩
      rw [heq, bne_self_eq_false]
      rfl
    · rfl

/-- A conditional branch with its condition. -/
theorem exec_branch {i : Instr} {taken : Bool} {d : Byte} {s : State} (hexec : exec i s = branch taken d s) :
    ∃ t, exec i s = .next t ∧
      if taken then
        (t.pc.toNat : Int) = ((s.pc.toNat : Int) + d.toInt) % 65536 ∧
        t = { s with
          pc := t.pc
          excycles := s.excycles + (if s.native = false ∧ t.pc.toNat / 256 ≠ s.pc.toNat / 256 then 2 else 1) }
      else t = s := by
  rw [hexec]
  cases taken with
  | false => exact ⟨s, rfl, rfl⟩
  | true =>
    refine ⟨{ s with pc := s.relTarget d, excycles := s.excycles + s.branchCycles (s.relTarget d) }, rfl,
      toNat_relTarget s d, ?_⟩
    rw [branchCycles_eq]

/-- Settles O40: the conditional branches are one operation with eight conditions. -/
theorem branchesAddTheSignedDisplacement : Obligations.BranchesAddTheSignedDisplacement := fun s _ d16 =>
  ⟨exec_branch rfl, exec_branch rfl, exec_branch rfl, exec_branch rfl, exec_branch rfl, exec_branch rfl,
    exec_branch rfl, exec_branch rfl, exec_branch rfl, _, rfl, toNat_add_toInt s.pc d16, rfl⟩

theorem bitBranchCycles_eq (s : State) (target : Word) : s.bitBranchCycles target =
    if s.cfg.cycles ≠ .informative then 0
    else if s.native = false ∧ target.toNat / 256 ≠ s.pc.toNat / 256 then 2 else 1 := by
  rw [State.bitBranchCycles, branchCycles_eq]
  cases s.cfg.cycles <;> simp

/-- BBRn and BBSn with their bit and the value they branch on. -/
theorem exec_branchOnBit {i : Instr} {n : Nat} {want : Bool} {off d : Byte} {s : State}
    (hexec : exec i s = branchOnBit n want off d s) :
    ∃ (taken : Bool) (t : State), exec i s = .next t ∧
      t = { s.withTraffic t with pc := t.pc, excycles := t.excycles } ∧ AccessFrame [] s t ∧
      (if taken then
        (t.pc.toNat : Int) = ((s.pc.toNat : Int) + d.toInt) % 65536 ∧
        t.excycles = s.excycles + (if s.cfg.cycles ≠ .informative then 0
          else if s.native = false ∧ t.pc.toNat / 256 ≠ s.pc.toNat / 256 then 2 else 1)
      else t.pc = s.pc ∧ t.excycles = s.excycles) ∧
      (s.Unobserved → taken = ((s.mem.read off.toNat).getLsbD n == want)) := by
  obtain ⟨m, u, h⟩ := memRead1_completes (bank0_inMemory s.cfg (zext off))
  obtain ⟨hr, ht⟩ := memRead1_spec h
  have hplain (hu : s.Unobserved) : m = s.mem.read off.toNat := by
    have := h.symm.trans (memRead1_bank0_plain hu (zext off))
    rw [toNat_zext] at this
    exact congrArg Prod.fst (Except.ok.inj this)
  have hrun : exec i s = .next (if m.getLsbD n = want then
      { u with pc := u.relTarget d, excycles := u.excycles + u.bitBranchCycles (u.relTarget d) } else u) := by
    rw [hexec]
    show finish (memRead1 _ s >>= _) = _
    rw [h]
    rfl
  rw [hrun]
  by_cases htaken : m.getLsbD n = want
  · rw [if_pos htaken]
    refine ⟨true, _, rfl, ?_, (ht.of_eq ⟨rfl, rfl, rfl, rfl⟩ ⟨rfl, rfl, rfl, rfl⟩).frame, ⟨?_, ?_⟩, fun hu => ?_⟩
    · obtain ⟨q, mem, tr, rfl⟩ := exists_of_sameRegs hr
      rfl
    · rw [← hr.pc]; exact toNat_relTarget u d
    · rw [← hr.pc, ← hr.excycles, ← hr.native, ← hr.cfg, ← bitBranchCycles_eq]
    · rw [← hplain hu, htaken, beq_self_eq_true]
  · rw [if_neg htaken]
    refine ⟨false, u, rfl, ?_, ht.frame, ⟨hr.pc, hr.excycles⟩, fun hu => ?_⟩
    · obtain ⟨q, mem, tr, rfl⟩ := exists_of_sameRegs hr
      rfl
    · rw [← hplain hu]; exact (beq_false_of_ne htaken).symm

/-- Settles O41: the sixteen instructions are one operation. -/
theorem bitBranchesTestAZeroPageBit : Obligations.BitBranchesTestAZeroPageBit := fun _ _ _ =>
  ⟨exec_branchOnBit rfl, exec_branchOnBit rfl, exec_branchOnBit rfl, exec_branchOnBit rfl, exec_branchOnBit rfl,
    exec_branchOnBit rfl, exec_branchOnBit rfl, exec_branchOnBit rfl, exec_branchOnBit rfl, exec_branchOnBit rfl,
    exec_branchOnBit rfl, exec_branchOnBit rfl, exec_branchOnBit rfl, exec_branchOnBit rfl, exec_branchOnBit rfl,
    exec_branchOnBit rfl⟩

/-! The width registers and the mode (46_status_mode.md R367 to R369). -/

/-- Bits 5 and 4 of the status register are forced outside native mode. -/
theorem getLsbD_p_setP (s : State) (v : Byte) {k : Nat} (hk : k < 8) :
    (s.setP v).p.getLsbD k = (v.getLsbD k || (!s.native && (k == 4 || k == 5))) := by
  rw [p_setP]
  cases s.native
  · exact flags_or_0x30 v k hk
  · simp

/-- The status setter keeps the 16-bit accumulator: its high byte moves between `a` and `b`. -/
theorem c16_setP (s : State) (v : Byte) : (s.setP v).c16 = s.c16 := by
  cases hn : s.native
  · have hm : ({ s with p := v ||| 0x30 } : State).m8 = s.m8 :=
      (m8_of_not_native (s := { s with p := v ||| 0x30 }) hn).trans (m8_of_not_native hn).symm
    rw [setP_of_not_native hn, State.c16, State.c16, hm]
  · have hm : (s.setP v).m8 = v.getLsbD 5 := by
      rw [m8_of_native ((native_congr (by simp) (by simp)).trans hn), State.flag, p_setP, if_pos hn]
      rfl
    have hold : s.m8 = s.flag .M := m8_of_native hn
    rw [State.c16, State.c16, hm, hold]
    rw [setP_of_native hn]
    cases s.flag .M <;> cases v.getLsbD 5 <;> simp

/-- What REP and SEP do, for either value they give the status setter. -/
theorem exec_setP {s : State} (h : s.Canonical) {i : Instr} {v : Byte} (hexec : exec i s = .next (s.setP v)) :
    ∃ t, exec i s = .next t ∧ t = { s with p := t.p, a := t.a, b := t.b, x := t.x, y := t.y } ∧
      (∀ k < 8, t.p.getLsbD k = (v.getLsbD k || (!s.native && (k == 4 || k == 5)))) ∧ t.c16 = s.c16 ∧
      (s.native = false → t = { s with p := t.p }) ∧
      (s.native = true → (t.flag .M = true → hiByte t.a = 0) ∧ (t.flag .M = false → t.b = 0) ∧
        t.x = (if t.flag .X then zext (loByte s.x) else s.x) ∧
        t.y = (if t.flag .X then zext (loByte s.y) else s.y)) := by
  refine ⟨_, hexec, ?_, fun k hk => getLsbD_p_setP s v hk, c16_setP s v, fun hn => ?_, fun hn => ?_⟩
  · cases hn : s.native
    · rw [setP_of_not_native hn]
    · rw [setP_of_native hn]
  · rw [setP_of_not_native hn]
  · have hcan := h.setP v
    have hm : (s.setP v).m8 = (s.setP v).flag .M := m8_of_native ((native_congr (by simp) (by simp)).trans hn)
    have hX : (s.setP v).flag .X = v.getLsbD 4 := by rw [State.flag, p_setP, if_pos hn]; rfl
    refine ⟨fun hM => hcan.narrowAcc (hm.trans hM), fun hM => hcan.wideAcc (hm.trans hM), ?_, ?_⟩
    · rw [hX, setP_of_native hn]
    · rw [hX, setP_of_native hn]

/-- Settles O49: both are the status setter, with the operand's bits taken out of or into the status register. -/
theorem repSepMoveTheWidthsWithoutLoss : Obligations.RepSepMoveTheWidthsWithoutLoss := by
  intro s m hs
  have hcan := inv_iff_canonical.1 hs
  constructor
  · obtain ⟨t, hexec, heq, hbits, hrest⟩ := exec_setP hcan (i := .rep m) rfl
    refine ⟨t, hexec, heq, fun k hk => (hbits k hk).trans ?_, hrest⟩
    rw [BitVec.getLsbD_and, BitVec.getLsbD_not, decide_eq_true hk, Bool.true_and]
  · obtain ⟨t, hexec, heq, hbits, hrest⟩ := exec_setP hcan (i := .sep m) rfl
    refine ⟨t, hexec, heq, fun k hk => (hbits k hk).trans ?_, hrest⟩
    rw [BitVec.getLsbD_or]

/-- What XCE leaves where the carry differs from the mode in force. -/
def Exchanged (s t : State) : Prop :=
  t.mode ≠ s.mode ∧ t.flag .C = (s.mode == .emulation) ∧ t.flag .M = true ∧ t.flag .X = true ∧
    (∀ f ∈ [Flag.N, .V, .D, .I, .Z], t.flag f = s.flag f) ∧ t.c16 = s.c16 ∧ hiByte t.a = 0 ∧
    t.x = zext (loByte s.x) ∧ t.y = zext (loByte s.y) ∧
    t.sp = (if s.flag .C then mkWord 0x01 (loByte s.sp) else s.sp) ∧
    t = { s with mode := t.mode, p := t.p, a := t.a, b := t.b, x := t.x, y := t.y, sp := t.sp }

/-- The flags an exchange keeps. -/
theorem flag_exchange {s t u : State} {v : Bool} (hu : u.p = s.p ||| 0x30) (ht : t = u.setFlag .C v) :
    t.flag .C = v ∧ t.flag .M = true ∧ t.flag .X = true ∧ ∀ f ∈ [Flag.N, .V, .D, .I, .Z], t.flag f = s.flag f := by
  subst ht
  refine ⟨by simp, (flag_setFlag_ne v (by decide)).trans (flag_M_of_forced hu),
    (flag_setFlag_ne v (by decide)).trans (flag_X_of_forced hu), fun f hf => ?_⟩
  obtain ⟨hC, hM, hX⟩ : f ≠ .C ∧ f ≠ .M ∧ f ≠ .X := by fin_cases hf <;> decide
  exact (flag_setFlag_ne v hC).trans (flag_of_forced hu hM hX)

/-- Into native mode the registers stay narrow. -/
theorem exchanged_toNative {s : State} (h : s.Canonical) (h8 : s.is816 = true) (hm : s.mode = .emulation)
    (hC : s.flag .C = false) : Exchanged s s.toNative := by
  have hn : s.native = false := native_eq_false_iff.2 (.inr hm)
  have hm8 : s.m8 = true := m8_of_not_native hn
  obtain ⟨hx, hy⟩ := h.narrowIndex (x8_of_not_native hn)
  obtain ⟨hfC, hfM, hfX, hrest⟩ := flag_exchange (s := s) (t := s.toNative) (v := true) rfl rfl
  have hm8' : s.toNative.m8 = true :=
    (m8_of_native (s := s.toNative) (native_eq_true_iff.2 ⟨h8, rfl⟩)).trans hfM
  refine ⟨?_, ?_, hfM, hfX, hrest, ?_, h.narrowAcc hm8, ?_, ?_, ?_, rfl⟩
  · rw [hm]; exact fun h => nomatch h
  · rw [hfC, hm]; rfl
  · rw [State.c16, State.c16, hm8, hm8']; rfl
  · exact (zext_loByte_of_hi_zero hx).symm
  · exact (zext_loByte_of_hi_zero hy).symm
  · rw [hC]; rfl

/-- Into emulation mode the registers narrow, and the accumulator's high byte goes to `b`. -/
theorem exchanged_toEmulation {s : State} (h : s.Canonical) (h8 : s.is816 = true) (hm : s.mode = .native)
    (hC : s.flag .C = true) : Exchanged s s.toEmulation := by
  have hn : s.native = true := native_eq_true_iff.2 ⟨h8, hm⟩
  have hcan := h.toEmulation hn
  have heq := toEmulation_eq s
  obtain ⟨hfC, hfM, hfX, hrest⟩ := flag_exchange (s := s) (t := s.toEmulation) (v := false) rfl heq
  have hm8 : s.toEmulation.m8 = true := m8_of_not_native (native_eq_false_iff.2 (.inr (by rw [heq]; rfl)))
  refine ⟨?_, ?_, hfM, hfX, hrest, ?_, hcan.narrowAcc hm8, ?_, ?_, ?_, ?_⟩
  · rw [hm, heq]; exact fun h => nomatch h
  · rw [hfC, hm]; rfl
  · rw [State.c16, State.c16, hm8, m8_of_native hn, heq]
    cases s.flag .M <;> simp
  · rw [heq]; rfl
  · rw [heq]; rfl
  · rw [heq, hC]; rfl
  · rw [heq]; rfl

/-- Settles O51: the carry and the mode agree, or they are exchanged in one of the two directions. -/
theorem xceExchangesCarryAndMode : Obligations.XceExchangesCarryAndMode := by
  intro s hs h8
  have hcan := inv_iff_canonical.1 hs
  refine ⟨fun heq => congrArg Host.Outcome.next (if_pos heq), fun hne => ?_⟩
  have hexec : exec .xce s = .next (if s.flag .C then s.toEmulation else s.toNative) :=
    congrArg Host.Outcome.next (if_neg hne)
  obtain hm | hm : s.mode = .native ∨ s.mode = .emulation := by cases s.mode <;> simp
  · have hC : s.flag .C = true := by rw [hm] at hne; exact Bool.eq_true_of_not_eq_false hne
    exact ⟨s.toEmulation, hexec.trans (by rw [hC]; rfl), exchanged_toEmulation hcan h8 hm hC⟩
  · have hC : s.flag .C = false := by rw [hm] at hne; exact Bool.eq_false_of_not_eq_true hne
    exact ⟨s.toNative, hexec.trans (by rw [hC]; rfl), exchanged_toNative hcan h8 hm hC⟩

end Sys2Proof.Machine
end

section
namespace Sys2Proof.Machine

/-! Block moves (47_block_move.md). -/

theorem repeatUnlessDone_eq (s : State) (c : Word) :
    s.repeatUnlessDone c = { s with pc := if c = 0xFFFF then s.pc else s.pc - 3 } := by
  unfold State.repeatUnlessDone
  split <;> rfl

theorem sub_one_eq_iff (v : Word) : v - 1 = 0xFFFF ↔ v = 0 := by
  rw [BitVec.toNat_eq, BitVec.toNat_eq, toNat_sub_one]
  have := v.isLt
  show (v.toNat + 65535) % 65536 = 65535 ↔ v.toNat = 0
  omega

theorem c16_congr {s t : State} (ha : t.a = s.a) (hb : t.b = s.b) (hm : t.m8 = s.m8) : t.c16 = s.c16 := by
  rw [State.c16, State.c16, ha, hb, hm]

/-- The registers after a byte has been moved (47_block_move.md R382). -/
def State.afterMove (w : State) (dir : Word) (dst : Byte) : State :=
  let m := (w.setX (w.x + dir)).setY (w.y + dir)
  { m.setC16 (m.c16 - 1) with dbr := dst }.repeatUnlessDone (m.c16 - 1)

theorem blockMove_eq (dir : Word) (dst src : Byte) (s : State) : blockMove dir dst src s =
    (memRead1 (mkLong src s.x &&& s.addrMask) s >>= fun x =>
      memWrite1 (mkLong dst x.2.y &&& x.2.addrMask) x.1 x.2 >>= fun w => pure (w.afterMove dir dst)) := rfl

/-- The counter and the pointers after a move, and what else it leaves. -/
theorem afterMove_registers (w : State) (dir : Word) (dst : Byte) :
    let t := w.afterMove dir dst
    t.x = (w.x + dir) &&& w.wX.mask ∧ t.y = (w.y + dir) &&& w.wX.mask ∧ t.c16 = w.c16 - 1 ∧
      (w.m8 = true → hiByte t.a = 0) ∧ (w.m8 = false → t.b = w.b) ∧
      t.pc = (if w.c16 = 0 then w.pc else w.pc - 3) ∧
      t = { w with x := t.x, y := t.y, a := t.a, b := t.b, dbr := dst, pc := t.pc } := by
  let m : State := (w.setX (w.x + dir)).setY (w.y + dir)
  let c : Word := m.c16 - 1
  have hc : c = w.c16 - 1 := rfl
  obtain ⟨hread, hframe, hwide, hnarrow⟩ := setC16_split m c
  have heq : w.afterMove dir dst = { m with
      a := (m.setC16 c).a, b := (m.setC16 c).b, dbr := dst, pc := if c = 0xFFFF then w.pc else w.pc - 3 } := by
    show ({ m.setC16 c with dbr := dst } : State).repeatUnlessDone c = _
    rw [repeatUnlessDone_eq, hframe]
    rfl
  have hc16 : (w.afterMove dir dst).c16 = (m.setC16 c).c16 := by
    rw [heq]
    exact c16_congr rfl rfl (m8_congr (by simp) (by simp) (flag_congr (by simp) _)).symm
  refine ⟨by rw [heq]; rfl, by rw [heq]; rfl, hc16.trans hread, fun hm => ?_, fun hm => ?_, ?_, by rw [heq]; rfl⟩
  · rw [heq]
    exact (congrArg hiByte (hnarrow hm).1).trans (hiByte_zext _)
  · rw [heq]
    exact hwide hm
  · rw [heq, hc]
    exact if_congr (sub_one_eq_iff _) rfl rfl

/-- One step of a block move in either direction. -/
theorem exec_blockMove {i : Instr} {dir : Word} {dst src : Byte} {s : State} {step : Word → Word}
    (hexec : exec i s = finish (blockMove dir dst src s)) (hm : s.moveInMemory dst src = true)
    (hstep : ∀ v, (v + dir) &&& s.wX.mask = step v) :
    ∃ t, exec i s = .next t ∧ t.x = step s.x ∧ t.y = step s.y ∧ t.c16 = s.c16 - 1 ∧
      (s.m8 = true → hiByte t.a = 0) ∧ (s.m8 = false → t.b = s.b) ∧
      t.pc = (if s.c16 = 0 then s.pc else s.pc - 3) ∧
      t = { s.withTraffic t with
        x := t.x, y := t.y, a := t.a, b := t.b, dbr := dst, pc := t.pc, excycles := s.excycles } ∧
      AccessFrame [(mkLong dst s.y &&& s.addrMask).toNat] s t ∧ (s.Unobserved → s.mem.wf = true →
        t.mem.read (mkLong dst s.y &&& s.addrMask).toNat = s.mem.read (mkLong src s.x &&& s.addrMask).toNat) := by
  obtain ⟨hsrc, hdst⟩ := of_decide_eq_true hm
  obtain ⟨v, u, h⟩ := memRead1_completes hsrc
  obtain ⟨hr, ht⟩ := memRead1_spec h
  obtain ⟨w, h'⟩ := memWrite1_completes (v := v) (s := u) (addr := mkLong dst s.y &&& s.addrMask) (ht.cfg ▸ hdst)
  obtain ⟨hr', ht'⟩ := memWrite1_spec h'
  have hwr : SameRegs s w := hr.trans hr'
  have hwt : Traffic [(mkLong dst s.y &&& s.addrMask).toNat] s w := ht.cons_nil ht'
  have hrun : exec i s = .next (w.afterMove dir dst) := by
    rw [hexec, blockMove_eq, h, ok_bind, hr.y, hr.addrMask, h']
    rfl
  obtain ⟨hx, hy, hc, hnarrow, hwide, hpc, heq⟩ := afterMove_registers w dir dst
  rw [hwr.x, hwr.wX, hstep] at hx
  rw [hwr.y, hwr.wX, hstep] at hy
  rw [hwr.c16] at hc hpc
  rw [hwr.m8] at hnarrow hwide
  rw [hwr.b] at hwide
  rw [hwr.pc] at hpc
  have hmem : (w.afterMove dir dst).mem = w.mem := by rw [heq]
  refine ⟨_, hrun, hx, hy, hc, hnarrow, hwide, hpc, ?_,
    (hwt.of_eq ⟨rfl, rfl, rfl, rfl⟩ ⟨by rw [heq], by rw [heq], by rw [heq], hmem⟩).frame, fun hu hw => ?_⟩
  · generalize w.afterMove dir dst = t at heq
    rw [heq, hwr]
    rfl
  · rw [hmem]
    cases h.symm.trans (memRead1_plain hsrc hu)
    cases h'.symm.trans (memWrite1_plain hdst hu)
    exact Memory.read_write_same _ _ hw

/-- Settles O52: MVN and MVP are one operation with the two directions. -/
theorem blockMoveMovesOneByte : Obligations.BlockMoveMovesOneByte := fun s _ _ hm =>
  ⟨exec_blockMove rfl hm fun v => add_one_and_mask v s.wX,
    exec_blockMove rfl hm fun v => (congrArg (· &&& s.wX.mask) (BitVec.sub_eq_add_neg v 1).symm).trans
      (sub_one_and_mask v s.wX)⟩

/-! The execution engine (60_exceptions.md). -/

/-- Settles O58: each of the three tests comes before the step. -/
theorem tickHaltsWithoutExecuting : Obligations.TickHaltsWithoutExecuting := by
  intro stop budget e h
  rw [Engine.tick]
  by_cases hb : e.breakFlag = true
  · rw [if_pos hb]
    exact ⟨_, rfl, rfl, rfl, rfl, fun _ => rfl⟩
  · rw [if_neg hb]
    by_cases hbp : e.checkBP = true
    · rw [if_pos hbp]
      exact ⟨_, rfl, rfl, rfl, rfl, fun h => absurd h hb⟩
    · have hstop : stop e.proc = true := (h.resolve_left hb).resolve_left hbp
      rw [if_neg hbp, if_pos hstop]
      exact ⟨_, rfl, rfl, rfl, rfl, fun h => absurd h hb⟩

/-- The engine after the processor's part of a step. -/
def Engine.ran (e : Engine) : Engine × Option Fault := (e.call (.callStackExit e.proc.pcAddr)).runProcessor

/-- The engine after the entry hook and the poll. -/
def Engine.polled (e : Engine) : Engine := (e.ran.1.call (.callStackEntry e.ran.1.entryAddr)).poll

/-- The engine's step by how the processor's part of it ended. -/
theorem engineStep_eq (e : Engine) : e.step = match e.ran.2 with
    | none => (e.polled, false)
    | some f => (e.polled.stopOn f, true) := rfl

theorem runProcessor_phase (e : Engine) (p : EnginePhase) :
    Engine.runProcessor { e with phase := p } = ({ e.runProcessor.1 with phase := p }, e.runProcessor.2) := by
  unfold Engine.runProcessor
  dsimp only
  cases Machine.step e.proc with
  | next s => rfl
  | fault f => cases f <;> rfl
  | refused r => rfl

theorem poll_phase (e : Engine) (p : EnginePhase) : Engine.poll { e with phase := p } = { e.poll with phase := p } := by
  obtain ⟨proc, phase, breakFlag, breakpoints, polls, hooks, isDefined⟩ := e
  cases polls <;> rfl

theorem ran_phase (e : Engine) (p : EnginePhase) :
    Engine.ran { e with phase := p } = ({ e.ran.1 with phase := p }, e.ran.2) :=
  runProcessor_phase (e.call (.callStackExit e.proc.pcAddr)) p

theorem polled_phase (e : Engine) (p : EnginePhase) :
    Engine.polled { e with phase := p } = { e.polled with phase := p } := by
  rw [Engine.polled, ran_phase]
  exact poll_phase (e.ran.1.call (.callStackEntry e.ran.1.entryAddr)) p

/-- A step does not depend on the phase. -/
theorem engineStep_phase (e : Engine) (p : EnginePhase) :
    ∃ q, Engine.step { e with phase := p } = ({ e.step.1 with phase := q }, e.step.2) := by
  rw [engineStep_eq, engineStep_eq, ran_phase, polled_phase]
  dsimp only
  cases e.ran.2 with
  | none => exact ⟨p, rfl⟩
  | some f => exact ⟨.idle, rfl⟩

/-- An iteration of the run loop that is not stopped before its step. -/
theorem tick_succ {stop : State → Bool} {n : Nat} {e : Engine} (hb : e.breakFlag = false) (hbp : e.checkBP = false)
    (hstop : stop e.proc = false) :
    Engine.tick stop (n + 1) e = if e.step.2 then (e.step.1, .halted) else Engine.tick stop n e.step.1 := by
  rw [Engine.tick, hb, hbp, hstop]
  rfl

/-- An iteration that is stopped before its step, from any phase. -/
theorem tick_halted {stop : State → Bool} {n : Nat} {e : Engine}
    (h : e.breakFlag = true ∨ e.checkBP = true ∨ stop e.proc = true) :
    (Engine.tick stop (n + 1) e).1.proc = e.proc ∧ (Engine.tick stop (n + 1) e).2 = .halted := by
  obtain ⟨e', htick, hproc, -⟩ := tickHaltsWithoutExecuting stop n e h
  rw [htick]
  exact ⟨hproc, rfl⟩

theorem halts_or_steps (stop : State → Bool) (e : Engine) :
    (e.breakFlag = true ∨ e.checkBP = true ∨ stop e.proc = true) ∨
      (e.breakFlag = false ∧ e.checkBP = false ∧ stop e.proc = false) := by
  cases e.breakFlag <;> cases e.checkBP <;> cases stop e.proc <;> simp

/-- The phase an engine starts a batch in decides neither the processor state nor how the batch ends. -/
theorem tick_phase (stop : State → Bool) (n : Nat) (e : Engine) (p : EnginePhase) :
    (Engine.tick stop n { e with phase := p }).1.proc = (Engine.tick stop n e).1.proc ∧
      (Engine.tick stop n { e with phase := p }).2 = (Engine.tick stop n e).2 := by
  induction n generalizing e p with
  | zero =>
    rw [Engine.tick, Engine.tick, Engine.endBatch, Engine.endBatch]
    cases e.proc.waiting <;> exact ⟨rfl, rfl⟩
  | succ n ih =>
    rcases halts_or_steps stop e with h | ⟨hb, hbp, hstop⟩
    · obtain ⟨hproc, hend⟩ := tick_halted (n := n) h
      obtain ⟨hproc', hend'⟩ := tick_halted (n := n) (e := { e with phase := p }) h
      exact ⟨hproc'.trans hproc.symm, hend'.trans hend.symm⟩
    · obtain ⟨q, hq⟩ := engineStep_phase e p
      rw [tick_succ (e := { e with phase := p }) hb hbp hstop, tick_succ hb hbp hstop, hq]
      dsimp only
      cases e.step.2
      · exact ih e.step.1 q
      · exact ⟨rfl, rfl⟩

/-- Settles O59: a batch that was not halted has run its iterations, and its end changes the phase alone. -/
theorem batchSizeDoesNotMatter : Obligations.BatchSizeDoesNotMatter := by
  intro stop m
  induction m with
  | zero =>
    intro n e e' r h _
    have hphase : ∃ p, e' = { e with phase := p } := by
      rw [Engine.tick, Engine.endBatch] at h
      cases hw : e.proc.waiting <;> rw [hw] at h <;> cases h
      · exact ⟨.running, rfl⟩
      · exact ⟨.waiting, rfl⟩
    obtain ⟨p, rfl⟩ := hphase
    obtain ⟨hproc, hend⟩ := tick_phase stop n e p
    rw [Nat.zero_add]
    exact ⟨hproc.symm, hend.symm⟩
  | succ m ih =>
    intro n e e' r h hr
    rcases halts_or_steps stop e with hhalt | ⟨hb, hbp, hstop⟩
    · have hend := (tick_halted (n := m) hhalt).2
      rw [h] at hend
      exact absurd hend hr
    · rw [tick_succ hb hbp hstop] at h
      rw [Nat.add_right_comm, tick_succ hb hbp hstop]
      cases hfault : e.step.2
      · rw [hfault] at h
        exact ih n e.step.1 e' r h hr
      · rw [hfault] at h
        cases h
        exact absurd rfl hr

/-- A step that ends in a fault calls the exception hook last and leaves the engine idle. -/
theorem engineStep_of_fault {e : Engine} (h : e.step.2 = true) :
    e.step.1.phase = .idle ∧ ∃ f hs, e.step.1.hooks = .stopOnException f :: hs := by
  rw [engineStep_eq] at h ⊢
  cases hf : e.ran.2 with
  | none => rw [hf] at h; cases h
  | some f => exact ⟨rfl, f, _, rfl⟩

/-- Settles O60: each way out of the loop is one of the three. -/
theorem stepToEndsAtTargetBreakpointOrFault : Obligations.StepToEndsAtTargetBreakpointOrFault := by
  intro fuel
  induction fuel with
  | zero => intro addr pc e e' h; cases h
  | succ fuel ih =>
    intro addr pc e e' h
    rw [Engine.stepTo] at h
    dsimp only at h
    cases hfault : e.step.2
    · rw [hfault, if_neg Bool.false_ne_true] at h
      by_cases haddr : e.step.1.proc.pc = addr
      · rw [if_pos haddr] at h
        cases h
        exact ⟨haddr.symm, .inl rfl⟩
      · rw [if_neg haddr] at h
        by_cases hbp : e.step.1.checkBP = true
        · rw [if_pos hbp] at h
          cases h
          exact ⟨rfl, .inr (.inl hbp)⟩
        · rw [if_neg hbp] at h
          exact ih addr pc e.step.1 e' h
    · rw [hfault, if_pos rfl] at h
      cases h
      exact ⟨rfl, .inr (.inr (engineStep_of_fault hfault))⟩

end Sys2Proof.Machine
end

section
namespace Sys2Proof.Machine

/-! The fetch reads the bytes that the decoder is given (20_memory.md R86; 30_encoding.md R103). -/

theorem buildImm_uses {eight : Bool} {k : Imm → Instr} {bs rest : List Byte} {i : Instr}
    (h : buildImm eight k bs = some (i, rest)) :
    ∃ used, bs = used ++ rest ∧ used.length = (if eight then 1 else 2) ∧
      buildImm eight k used = some (i, []) := by
  obtain ⟨v, rfl, hv, rfl⟩ := buildImm_some h
  refine ⟨v.bytes, rfl, ?_, ?_⟩
  · cases v <;> cases eight <;> simp_all [Imm.fits, Imm.bytes]
  · simpa using buildImm_bytes hv []

/-- An entry builds its instruction of the operand bytes it takes, whatever follows them. -/
theorem Entry.build_uses {c : DecodeCtx} {e : Entry} {bs rest : List Byte} {i : Instr}
    (h : e.build c bs = some (i, rest)) :
    ∃ used, bs = used ++ rest ∧ used.length = e.operandBytes c ∧ e.build c used = some (i, []) := by
  cases e with
  | none j => cases h; exact ⟨[], rfl, rfl, rfl⟩
  | one k =>
    rcases bs with _ | ⟨b, bs⟩ <;> cases h
    exact ⟨[b], rfl, rfl, rfl⟩
  | two k =>
    rcases bs with _ | ⟨l, _ | ⟨m, bs⟩⟩ <;> cases h
    exact ⟨[l, m], rfl, rfl, rfl⟩
  | three k =>
    rcases bs with _ | ⟨l, _ | ⟨m, _ | ⟨bank, bs⟩⟩⟩ <;> cases h
    exact ⟨[l, m, bank], rfl, rfl, rfl⟩
  | pair k =>
    rcases bs with _ | ⟨b, _ | ⟨b', bs⟩⟩ <;> cases h
    exact ⟨[b, b'], rfl, rfl, rfl⟩
  | immM k => exact buildImm_uses h
  | immX k => exact buildImm_uses h

theorem length_codeBytes (n : Nat) (s : State) : (s.codeBytes n).length = n := by
  induction n generalizing s with
  | zero => rfl
  | succ n ih => simp [State.codeBytes, ih]

/-- Fewer bytes of the instruction stream are the first ones of more. -/
theorem codeBytes_eq_take (m n : Nat) (s : State) : s.codeBytes m = (s.codeBytes (m + n)).take m := by
  induction m generalizing s with
  | zero => rfl
  | succ m ih => rw [Nat.succ_add, State.codeBytes, State.codeBytes, List.take_succ_cons, ← ih]

theorem eq_codeBytes_of_append {n : Nat} {s : State} {used rest : List Byte} (h : s.codeBytes n = used ++ rest) :
    used = s.codeBytes used.length := by
  have hn : n = used.length + rest.length := by rw [← length_codeBytes n s, h, List.length_append]
  rw [codeBytes_eq_take used.length rest.length s, ← hn, h, List.take_left]

/-- The instruction stream depends on memory, `pbr:pc` and the size of the address space alone. -/
theorem codeBytes_startCount (n : Nat) (s : State) (op : Byte) : (s.startCount op).codeBytes n = s.codeBytes n := by
  induction n generalizing s with
  | zero => rfl
  | succ n ih => exact congrArg (s.mem.read s.pcAddr.toNat :: ·) (ih (s.advancePc 1))

theorem advancePc_advancePc (s : State) (m n : Nat) :
    (s.advancePc (BitVec.ofNat 16 m)).advancePc (BitVec.ofNat 16 n) = s.advancePc (BitVec.ofNat 16 (m + n)) := by
  simp [State.advancePc, BitVec.ofNat_add, BitVec.add_assoc]

section
variable {s : State} (hu : s.Unobserved) (hp : s.programInMemory = true)
include hu hp

theorem fetch8_plain : fetch8 s = .ok (s.mem.read s.pcAddr.toNat, s.advancePc 1) := by
  rw [fetch8, memRead1_plain (of_decide_eq_true hp) hu]
  rfl

/-- Without observers a fetch answers the bytes of the instruction stream and moves `pc` past them. -/
theorem fetchBytes_plain (n : Nat) : fetchBytes n s = .ok (s.codeBytes n, s.advancePc (BitVec.ofNat 16 n)) := by
  induction n generalizing s with
  | zero => simp [fetchBytes, State.codeBytes, State.advancePc]
  | succ n ih =>
    have hrest := ih (s := s.advancePc 1) hu (programInMemory_congr (s := s) rfl rfl hp)
    rw [fetchBytes, fetch8_plain hu hp, ok_bind]
    dsimp only
    rw [hrest, ok_bind, State.codeBytes, show s.advancePc (BitVec.ofNat 16 (n + 1)) =
      (s.advancePc 1).advancePc (BitVec.ofNat 16 n) by rw [Nat.add_comm, ← advancePc_advancePc]; rfl]
    rfl

end

/-- A conditional branch has the displacement format, branches on its flag, and counts the same cycles whatever its
displacement (44_control.md R280 to R288). -/
theorem entry_of_branchTest {op : Byte} {f : Flag} {want : Bool} (h : branchTest op = some (f, want)) (c : DecodeCtx) :
    ∃ k, entryOf c op = .one k ∧ (∀ d s, exec (k d) s = branch (s.flag f == want) d s) ∧
      ∀ d d' s, baseCycles op (k d) s = baseCycles op (k d') s := by
  have hop : ∀ n : Nat, op.toNat = n → op = BitVec.ofNat 8 n := fun n hn => by
    rw [← hn, BitVec.ofNat_toNat, BitVec.setWidth_eq]
  have hbool : ∀ b : Bool, (b == true) = b ∧ (b == false) = !b := by decide
  unfold branchTest at h
  split at h <;> cases h <;> rename_i hn <;> rw [hop _ hn]
  · exact ⟨.bpl, entryOf_of_6502 rfl, fun _ s => by rw [(hbool _).2]; rfl, fun _ _ _ => rfl⟩
  · exact ⟨.bmi, entryOf_of_6502 rfl, fun _ s => by rw [(hbool _).1]; rfl, fun _ _ _ => rfl⟩
  · exact ⟨.bvc, entryOf_of_6502 rfl, fun _ s => by rw [(hbool _).2]; rfl, fun _ _ _ => rfl⟩
  · exact ⟨.bvs, entryOf_of_6502 rfl, fun _ s => by rw [(hbool _).1]; rfl, fun _ _ _ => rfl⟩
  · exact ⟨.bcc, entryOf_of_6502 rfl, fun _ s => by rw [(hbool _).2]; rfl, fun _ _ _ => rfl⟩
  · exact ⟨.bcs, entryOf_of_6502 rfl, fun _ s => by rw [(hbool _).1]; rfl, fun _ _ _ => rfl⟩
  · exact ⟨.bne, entryOf_of_6502 rfl, fun _ s => by rw [(hbool _).2]; rfl, fun _ _ _ => rfl⟩
  · exact ⟨.beq, entryOf_of_6502 rfl, fun _ s => by rw [(hbool _).1]; rfl, fun _ _ _ => rfl⟩

/-- A conditional branch whose displacement is skipped does nothing, whatever the displacement. -/
theorem entry_of_skips {s : State} {op : Byte} (h : s.skipsDisplacement op = true) (c : DecodeCtx) :
    ∃ k, entryOf c op = .one k ∧ ∀ (d d' : Byte) (n : Word),
      exec (k d) (s.advancePc n) = exec (k d') (s.advancePc n) ∧
      baseCycles op (k d) (s.advancePc n) = baseCycles op (k d') (s.advancePc n) := by
  unfold State.skipsDisplacement at h
  split at h
  · next f want hb =>
    obtain ⟨k, hk, hexec, hbase⟩ := entry_of_branchTest hb c
    have htaken : (s.flag f == want) = false := by simpa [bne] using h
    refine ⟨k, hk, fun d d' n => ⟨?_, hbase d d' _⟩⟩
    have huntaken : ∀ d, exec (k d) (s.advancePc n) = .next (s.advancePc n) := fun d => by
      rw [hexec, show (s.advancePc n).flag f = s.flag f from rfl, htaken]
      rfl
    rw [huntaken, huntaken]
  · cases h

/-- The instruction a plain fetch answers runs as the decoded one, from the same state and for the same cycles. -/
theorem fetchInstr_plain {s : State} {i : Instr} {rest : List Byte} (hu : s.Unobserved) (hp : s.programInMemory = true)
    (h : decode s.ctx (s.codeBytes 4) = .ok (i, rest)) :
    let op := s.mem.read s.pcAddr.toNat
    let entry := (s.startCount op).advancePc (BitVec.ofNat 16 (4 - rest.length))
    ∃ j, fetchInstr s = .ok (⟨op, j⟩, entry) ∧ exec j entry = exec i entry ∧
      baseCycles op j entry = baseCycles op i entry := by
  intro op entry
  obtain ⟨used, hbs, hlen, hbuild⟩ := Entry.build_uses (decode_cons_eq_ok.1 h)
  set u := (s.advancePc 1).startCount op with hudef
  have hcode : u.codeBytes 3 = used ++ rest := (codeBytes_startCount 3 (s.advancePc 1) op).trans hbs
  have htotal : 4 - rest.length = 1 + used.length := by
    have := congrArg List.length hcode
    rw [length_codeBytes, List.length_append] at this
    omega
  have hentry : entry = u.advancePc (BitVec.ofNat 16 used.length) := by
    show (s.startCount op).advancePc _ = _
    rw [htotal, ← advancePc_advancePc]
    rfl
  have hpu : u.programInMemory = true := programInMemory_congr (s := s) rfl rfl hp
  by_cases hskip : u.skipsDisplacement op = true
  · obtain ⟨k, hk, hsame⟩ := entry_of_skips hskip s.ctx
    rw [hk] at hlen hbuild
    obtain ⟨d, rfl⟩ := List.length_eq_one_iff.1 hlen
    cases hbuild
    refine ⟨k 0, ?_, ?_⟩
    · have hfetch : fetchOperands (.one k) op u = .ok ([0], u.advancePc 1) := if_pos hskip
      rw [fetchInstr, fetch8_plain hu hp, ok_bind]
      dsimp only
      rw [show entryOf ((s.advancePc 1).startCount op).ctx op = .one k from hk, hfetch, ok_bind, hentry]
      rfl
    · rw [hentry]
      exact hsame 0 d _
  · refine ⟨i, ?_, rfl, rfl⟩
    have hfetch : fetchOperands (entryOf s.ctx op) op u = .ok (used, u.advancePc (BitVec.ofNat 16 used.length)) := by
      rw [fetchOperands, if_neg hskip, fetchBytes_plain (s := u) hu hpu, show u.ctx = s.ctx from rfl, ← hlen,
        ← eq_codeBytes_of_append hcode]
    rw [fetchInstr, fetch8_plain hu hp, ok_bind]
    dsimp only
    rw [show entryOf ((s.advancePc 1).startCount op).ctx op = entryOf s.ctx op from rfl, hfetch, ok_bind, hentry]
    dsimp only
    rw [show (u.advancePc (BitVec.ofNat 16 used.length)).ctx = s.ctx from rfl, hbuild]
    rfl

theorem takeIrq_eq_self {s : State} (h : (s.irq && !s.flag .I) = false) : takeIrq s = .ok s := by
  rw [takeIrq, h]
  rfl

/-- Settles O6: the fetch answers what the decoder reads, but for the displacement of a branch not taken. -/
theorem stepRunsTheDecodedInstruction : Obligations.StepRunsTheDecodedInstruction := by
  intro s i rest hw hq hp hu hd op entry
  obtain ⟨j, hf, hexec, hbase⟩ := fetchInstr_plain hu hp hd
  rw [step_of_fetch hw (takeIrq_eq_self hq) hf, hexec, hbase]

/-- Settles O11: an unassigned opcode decodes to the fallback, which takes `pc` back past the opcode byte. -/
theorem illegalOpcodeIsPreciseAndRecoverable : Obligations.IllegalOpcodeIsPreciseAndRecoverable := by
  refine ⟨fun _ _ => rfl, fun s hw hq hp hu ha => ?_⟩
  have hd : decode s.ctx (s.codeBytes 4) = .ok (.illegal (s.mem.read s.pcAddr.toNat), (s.advancePc 1).codeBytes 3) :=
    decode_cons_eq_ok.2 (by rw [entryOf_of_unassigned ha]; rfl)
  have hback : ({ s with pc := s.pc + 1 - 1 } : State) = s := by rw [BitVec.add_sub_cancel]
  rw [stepRunsTheDecodedInstruction s _ _ hw hq hp hu hd, length_codeBytes]
  show Host.Outcome.fault (Fault.illegalOpcode _ ({ s with pc := s.pc + 1 - 1 } : State).pcAddr
    (({ s with pc := s.pc + 1 - 1 } : State).startCount _)) = _
  rw [hback]

/-- Settles O56: the wait's start and its ticks, and the two ways a step goes on after it. -/
theorem waiWaitsForTheLine : Obligations.WaiWaitsForTheLine := by
  refine ⟨fun _ => rfl, fun s hw => ⟨s.waitTick, step_of_waiting hw, rfl, rfl, rfl⟩, fun s t h => ?_,
    stepTakesTheIrqFirst, fun s i rest hp hu hw hI => ?_, fun c => ⟨fun hwf => ?_, fun hv => ?_⟩, rfl⟩
  · exact (takeException_spec (finish_next.1 h)).1.waiting
  · exact stepRunsTheDecodedInstruction s i rest hw (by rw [hI, Bool.not_true, Bool.and_false]) hp hu
  · have hv := cmos_iff_variant.1 hwf
    cases hvar : c.variant
    · exact absurd hvar hv
    · exact .inl rfl
    · exact .inr rfl
  · apply cmos_iff_variant.2
    rcases hv with hv | hv <;> rw [hv] <;> decide

end Sys2Proof.Machine
end

section
namespace Sys2Proof.Machine

/-! Which instructions write the registers of control (10_state.md R24, R27, R28, R37, R40). -/

/-- The part of the state that few instructions write: parameters, mode, banks, direct page, stack pointer and
waiting. -/
structure Control where
  cfg     : Config
  mode    : CpuMode
  dbr     : Byte
  pbr     : Byte
  dpr     : Word
  sp      : Word
  waiting : Bool

def State.control (s : State) : Control := ⟨s.cfg, s.mode, s.dbr, s.pbr, s.dpr, s.sp, s.waiting⟩

/-- What an instruction makes of the registers of control, those that it may write being taken from the state after. -/
def State.controlAfter (s : State) (i : Instr) (t : State) : Control :=
  match i with
  | .plb => { s.control with dbr := t.dbr, sp := t.sp }
  | .mvn _ _ | .mvp _ _ => { s.control with dbr := t.dbr }
  | .tcd => { s.control with dpr := t.dpr }
  | .pld => { s.control with dpr := t.dpr, sp := t.sp }
  | .jml _ => { s.control with pbr := t.pbr }
  | .jsl _ | .rtl | .rti | .brk | .cop => { s.control with pbr := t.pbr, sp := t.sp }
  | .txs | .tcs | .pha | .pla | .phx | .plx | .phy | .ply | .php | .plp | .phb | .phd | .phk | .rts
  | .pea _ | .pei _ | .per _ | .jsr _ => { s.control with sp := t.sp }
  | .xce => { s.control with mode := t.mode, sp := t.sp }
  | .wai | .stp => { s.control with waiting := true }
  | _ => s.control

/-! The state's operations. -/

section
variable {s t : State}

theorem SameRegs.control (h : SameRegs s t) : t.control = s.control := by rw [h]; rfl

/-- An access of the stack moves the stack pointer alone. -/
theorem SameRegs.control_sp {sp : Word} (h : SameRegs { s with sp := sp } t) :
    t.control = { s.control with sp := t.sp } := by
  rw [h.sp]
  exact h.control

theorem SameRegs.control_excycles {n : Nat} (h : SameRegs { s with excycles := n } t) : t.control = s.control :=
  h.control

@[simp] theorem control_setFlag (s : State) (f : Flag) (v : Bool) : (s.setFlag f v).control = s.control := rfl

@[simp] theorem control_setNZ (s : State) (v : Word) (w : Width) : (s.setNZ v w).control = s.control := rfl

@[simp] theorem control_setA (s : State) (v : Word) : (s.setA v).control = s.control := rfl

@[simp] theorem control_setX (s : State) (v : Word) : (s.setX v).control = s.control := rfl

@[simp] theorem control_setY (s : State) (v : Word) : (s.setY v).control = s.control := rfl

@[simp] theorem control_compare (s : State) (w : Width) (a m : Word) : (s.compare w a m).control = s.control := rfl

@[simp] theorem control_setSum (s : State) (r : Sum) (v : Bool) : (s.setSum r v).control = s.control := rfl

@[simp] theorem control_setC16 (s : State) (v : Word) : (s.setC16 v).control = s.control := by
  simp [State.control]

@[simp] theorem control_setP (s : State) (v : Byte) : (s.setP v).control = s.control := by
  simp [State.control]

@[simp] theorem control_repeatUnlessDone (s : State) (c : Word) : (s.repeatUnlessDone c).control = s.control := by
  simp [State.control]

theorem takeException_control {e : Exc} {ret : Word} (h : takeException e ret s = .ok t) :
    t.control = { s.control with pbr := t.pbr, sp := t.sp } := by
  have r := (takeException_spec h).1
  rw [r.pbr, r.sp]
  exact r.control

theorem returnFromException_control (h : returnFromException s = .ok t) :
    t.control = { s.control with pbr := t.pbr, sp := t.sp } := by
  obtain ⟨image, r, -⟩ := returnFromException_spec h
  rw [r.control]
  simp only [State.control, setP_cfg, setP_mode, setP_dbr, setP_dpr, setP_waiting, Control.mk.injEq, true_and, and_true]
  exact ⟨r.pbr.symm, r.sp.symm⟩

/-- A read-modify-write whose function writes the status register alone. -/
theorem modify_control {g : Target} {f : Word → State → Word × State} (hf : FlagsOnly f)
    (h : modify g f s = .ok t) : t.control = s.control := by
  have keeps : ∀ v (u : State), (f v u).2.control = u.control := fun v u => by
    rw [(hf v u).1]
    rfl
  cases g with
  | acc => cases h; exact keeps _ s
  | mem m =>
    simp only [modify, bind_ok, Prod.exists] at h
    obtain ⟨ea, s1, h1, old, s2, h2, h3⟩ := h
    calc t.control = (f old s2).2.control := (wr_spec h3).1.control
      _ = s2.control := keeps old s2
      _ = s1.control := (rd_spec h2).1.control
      _ = s.control := (effAddr_spec h1).1.control_excycles

theorem load_control {w : Width} {set : State → Word → State} {o : Operand}
    (hset : ∀ (u : State) v, (set u v).control = u.control) (e : load w set o s = .next t) :
    t.control = s.control := by
  simp only [load, finish_next, bind_ok, Prod.exists, pure_ok] at e
  obtain ⟨v, u, hr, rfl⟩ := e
  exact (hset u v).trans (readOperand_spec hr).1.control_excycles

theorem pullInto_control {w : Width} {set : State → Word → State}
    (hset : ∀ (u : State) v, (set u v).control = u.control) (e : pullInto w set s = .next t) :
    t.control = { s.control with sp := t.sp } := by
  simp only [pullInto, finish_next, bind_ok, Prod.exists, pure_ok] at e
  obtain ⟨v, u, hr, rfl⟩ := e
  have hu : ((set u v).setNZ v w).control = u.control := hset u v
  rw [show ((set u v).setNZ v w).sp = u.sp from congrArg Control.sp hu, hu]
  exact (pullW_spec hr).1.control_sp

theorem logic_control {op : Word → Word → Word} {o : Operand} (e : logic op o s = .next t) :
    t.control = s.control := by
  simp only [logic, finish_next, bind_ok, Prod.exists, pure_ok] at e
  obtain ⟨v, u, hr, rfl⟩ := e
  exact (readOperand_spec hr).1.control_excycles

theorem branch_control {taken : Bool} {d : Byte} (e : branch taken d s = .next t) : t.control = s.control := by
  cases e
  split <;> rfl

theorem branchOnBit_control {n : Nat} {want : Bool} {off d : Byte} (e : branchOnBit n want off d s = .next t) :
    t.control = s.control := by
  simp only [branchOnBit, finish_next, bind_ok, Prod.exists, pure_ok] at e
  obtain ⟨v, u, hr, rfl⟩ := e
  have hu := (memRead1_spec hr).1.control
  split <;> exact hu

theorem setMemBit_control {n : Nat} {v : Bool} {off : Byte} (e : setMemBit n v off s = .next t) :
    t.control = s.control := by
  simp only [setMemBit, finish_next, bind_ok, Prod.exists] at e
  obtain ⟨m, u, hr, hw⟩ := e
  exact (memWrite1_spec hw).1.control.trans (memRead1_spec hr).1.control

theorem blockMove_control {dir : Word} {dst src : Byte} (h : blockMove dir dst src s = .ok t) :
    t.control = { s.control with dbr := t.dbr } := by
  simp only [blockMove, bind_ok, Prod.exists] at h
  obtain ⟨v, s1, h1, s2, h2, h⟩ := h
  have hs2 : s2.control = s.control := (memWrite1_spec h2).1.control.trans (memRead1_spec h1).1.control
  cases pure_ok.1 h
  rw [← hs2]
  simp [State.control]

/-- What XCE leaves in either direction. -/
theorem exchange_control (s : State) : ∀ t, t = (if s.flag .C = (s.mode == .emulation) then s
      else if s.flag .C then s.toEmulation else s.toNative) →
    t.control = { s.control with mode := t.mode, sp := t.sp } := by
  rintro t rfl
  split
  · rfl
  · split
    · unfold State.toEmulation
      cases s.flag .M <;> rfl
    · rfl

end

/-- Every instruction leaves the registers of control as listed. -/
theorem exec_control {i : Instr} {s t : State} (e : exec i s = .next t) : t.control = s.controlAfter i t := by
  cases i
  case lda => exact load_control control_setA e
  case ldx => exact load_control control_setX e
  case ldy => exact load_control control_setY e
  case pla => exact pullInto_control control_setA e
  case plx => exact pullInto_control control_setX e
  case ply => exact pullInto_control control_setY e
  case and | ora | eor => exact logic_control e
  case sta | stx | sty | stz => exact (storeThrough_spec (finish_next.1 e)).1.control_excycles
  case inc | dec => exact modify_control (flagsOnly_stepValue _) (finish_next.1 e)
  case tsb => exact modify_control (flagsOnly_testAndModify fun a v => v ||| a) (finish_next.1 e)
  case trb => exact modify_control (flagsOnly_testAndModify fun a v => v &&& ~~~a) (finish_next.1 e)
  case asl | lsr | rol | ror => exact modify_control (flagsOnly_shift _ _) (finish_next.1 e)
  case adc | sbc =>
    simp only [exec, execAdc, execSbc, finish_next, bind_ok, Prod.exists, pure_ok] at e
    obtain ⟨v, u, hr, rfl⟩ := e
    exact (readOperand_spec hr).1.control_excycles
  case cmp | cpx | cpy =>
    simp only [exec, execCmp, execCpx, execCpy, finish_next, bind_ok, Prod.exists, pure_ok] at e
    obtain ⟨v, u, hr, rfl⟩ := e
    exact (readOperand_spec hr).1.control_excycles
  case bit o =>
    simp only [exec, execBit, finish_next, bind_ok, Prod.exists] at e
    obtain ⟨v, u, hr, e⟩ := e
    have hu : u.control = s.control := (readOperand_spec hr).1.control_excycles
    cases o <;> cases pure_ok.1 e <;> exact hu
  case tax | tsx | tyx | inx | dex | txa | tya | tay | txy | iny | dey => cases e; rfl
  case txs | tcs | tcd => cases e; rfl
  case tdc | tsc | xba => cases e; exact control_setC16 s _
  case rmb0 | rmb1 | rmb2 | rmb3 | rmb4 | rmb5 | rmb6 | rmb7 | smb0 | smb1 | smb2 | smb3 | smb4 | smb5 | smb6 | smb7 =>
    exact setMemBit_control e
  case bpl | bmi | bvc | bvs | bcc | bcs | bne | beq | bra => exact branch_control e
  case bbr0 | bbr1 | bbr2 | bbr3 | bbr4 | bbr5 | bbr6 | bbr7 | bbs0 | bbs1 | bbs2 | bbs3 | bbs4 | bbs5 | bbs6 | bbs7 =>
    exact branchOnBit_control e
  case brl => cases e; rfl
  case jmp f =>
    cases f with
    | abj a => cases e; rfl
    | ind q =>
      simp only [exec, execJmp, finish_next, bind_ok, Prod.exists, pure_ok] at e
      obtain ⟨v, u, hr, rfl⟩ := e
      exact (indTarget_spec hr).1.control
    | iax q =>
      simp only [exec, execJmp, finish_next, bind_ok, Prod.exists, pure_ok] at e
      obtain ⟨v, u, hr, rfl⟩ := e
      exact (iaxTarget_spec hr).1.control
  case jml f =>
    cases f with
    | abl a => cases e; rfl
    | ial q =>
      simp only [exec, execJml, finish_next, bind_ok, Prod.exists, pure_ok] at e
      obtain ⟨v, u, hr, rfl⟩ := e
      exact congrArg ({ · with pbr := bankOf v }) (ptr24B0_spec hr).1.control
  case jsr f =>
    simp only [exec, execJsr, finish_next, bind_ok] at e
    obtain ⟨u, hp, e⟩ := e
    have hu := (push16_spec hp).1.control_sp
    cases f with
    | abj a => cases pure_ok.1 e; exact hu
    | iax q =>
      simp only [bind_ok, Prod.exists, pure_ok] at e
      obtain ⟨v, u', hr, rfl⟩ := e
      have hr' := (iaxTarget_spec hr).1
      show u'.control = { s.control with sp := u'.sp }
      rw [hr'.control, hr'.sp, hu]
  case jsl l =>
    simp only [exec, execJsl, finish_next, bind_ok, pure_ok] at e
    obtain ⟨u, hp, u', hp', rfl⟩ := e
    show { u'.control with pbr := bankOf l } = { s.control with pbr := bankOf l, sp := u'.sp }
    rw [(push16_spec hp').1.control_sp, (push8_spec hp).1.control_sp]
  case rts =>
    simp only [exec, execRts, finish_next, bind_ok, Prod.exists, pure_ok] at e
    obtain ⟨v, u, hr, rfl⟩ := e
    exact (pull16_spec hr).1.control_sp
  case rtl =>
    simp only [exec, execRtl, finish_next, bind_ok, Prod.exists, pure_ok] at e
    obtain ⟨v, u, hr, b, u', hb, rfl⟩ := e
    show { u'.control with pbr := b } = { s.control with pbr := b, sp := u'.sp }
    rw [(pull8_spec hb).1.control_sp, (pull16_spec hr).1.control_sp]
  case pha | phx | phy => exact (pushW_spec (finish_next.1 e)).1.control_sp
  case php | phb | phk => exact (push8_spec (finish_next.1 e)).1.control_sp
  case phd | pea | per => exact (push16_spec (finish_next.1 e)).1.control_sp
  case pei off =>
    simp only [exec, execPei, finish_next, bind_ok, Prod.exists] at e
    obtain ⟨ea, u, ha, v, u', hr, hp⟩ := e
    show t.control = { s.control with sp := t.sp }
    rw [(push16_spec hp).1.control_sp, (rd_spec hr).1.control, (effAddr_spec ha).1.control_excycles]
  case plp =>
    simp only [exec, execPlp, finish_next, bind_ok, Prod.exists, pure_ok] at e
    obtain ⟨v, u, hr, rfl⟩ := e
    show (u.setP v).control = { s.control with sp := (u.setP v).sp }
    rw [control_setP, setP_sp, (pull8_spec hr).1.control_sp]
  case plb =>
    simp only [exec, execPlb, finish_next, bind_ok, Prod.exists, pure_ok] at e
    obtain ⟨v, u, hr, rfl⟩ := e
    exact congrArg ({ · with dbr := v }) (pull8_spec hr).1.control_sp
  case pld =>
    simp only [exec, execPld, finish_next, bind_ok, Prod.exists, pure_ok] at e
    obtain ⟨v, u, hr, rfl⟩ := e
    exact congrArg ({ · with dpr := v }) (pull16_spec hr).1.control_sp
  case clc | sec | cli | sei | cld | sed | clv => cases e; rfl
  case rep | sep => cases e; exact control_setP s _
  case xce => exact exchange_control s t (Host.Outcome.next.inj e).symm
  case mvn | mvp => exact blockMove_control (finish_next.1 e)
  case brk | cop => exact takeException_control (finish_next.1 e)
  case rti => exact returnFromException_control (finish_next.1 e)
  case wai | stp => cases e; rfl
  case nop | wdm => cases e; rfl
  case illegal => cases e

theorem exec_cfg {i : Instr} {s t : State} (e : exec i s = .next t) : t.cfg = s.cfg := by
  have hcfg : t.cfg = (s.controlAfter i t).cfg := congrArg Control.cfg (exec_control e)
  cases i <;> exact hcfg

theorem exec_mode {i : Instr} {s t : State} (e : exec i s = .next t) (hi : i ≠ .xce) : t.mode = s.mode := by
  have hmode : t.mode = (s.controlAfter i t).mode := congrArg Control.mode (exec_control e)
  cases i
  case xce => exact absurd rfl hi
  all_goals exact hmode

/-- Settles O17: an entry, a fetch and an instruction leave the parameters alone, and XCE alone writes the mode. -/
theorem parametersAreFixedAndOnlyXceChangesTheMode : Obligations.ParametersAreFixedAndOnlyXceChangesTheMode := by
  refine ⟨fun s t h => ?_, fun i s t e hm => ?_, fun c => is816_iff_variant⟩
  · rcases step_next_cases h with ⟨-, rfl⟩ | ⟨u, f, v, w, hq, hf, he, rfl⟩
    · rfl
    · exact ((exec_cfg he).trans (fetchInstr_spec hf).2.1.cfg).trans (takeIrq_cfg hq)
  · by_contra hi
    exact hm (exec_mode e hi)

/-- Settles O18: each register is read off the list of what the instructions leave. -/
theorem specialRegistersHaveTheListedWriters : Obligations.SpecialRegistersHaveTheListedWriters := by
  intro i s t e
  have hc := exec_control e
  have hdbr : t.dbr = (s.controlAfter i t).dbr := congrArg Control.dbr hc
  have hdpr : t.dpr = (s.controlAfter i t).dpr := congrArg Control.dpr hc
  have hpbr : t.pbr = (s.controlAfter i t).pbr := congrArg Control.pbr hc
  have hsp : t.sp = (s.controlAfter i t).sp := congrArg Control.sp hc
  have hwait : t.waiting = (s.controlAfter i t).waiting := congrArg Control.waiting hc
  refine ⟨fun h => ?_, fun h => ?_, fun h => ?_, fun h => ?_, fun h => ?_⟩
  · cases i
    case plb => exact .inl rfl
    case mvn d b => exact .inr ⟨d, b, .inl rfl⟩
    case mvp d b => exact .inr ⟨d, b, .inr rfl⟩
    all_goals exact absurd hdbr h
  · cases i
    case tcd => exact .inl rfl
    case pld => exact .inr rfl
    all_goals exact absurd hdpr h
  · cases i
    case jml | jsl | rtl | rti | brk | cop => simp
    all_goals exact absurd hpbr h
  · cases i
    case txs | tcs | xce | pha | pla | phx | plx | phy | ply | php | plp | phb | plb | phd | pld | phk | rts | rtl | rti
      | brk | cop => exact .inl (by decide)
    case pea | pei | per | jsr | jsl => simp
    all_goals exact absurd hsp h
  · cases i
    case wai => exact ⟨hwait, .inl rfl⟩
    case stp => exact ⟨hwait, .inr rfl⟩
    all_goals exact absurd hwait h

end Sys2Proof.Machine
end

section
namespace Sys2Proof.Machine

/-! The cycle counters decide nothing (70_reset_and_hazards.md R470). -/

/-- The cycle counters of a state (10_state.md R36). -/
structure Counters where
  excycles        : Nat
  addcycles       : Bool
  processorCycles : Nat

/-- The state with other cycle counters. -/
def State.recount (s : State) (c : Counters) : State :=
  { s with excycles := c.excycles, addcycles := c.addcycles, processorCycles := c.processorCycles }

/-- The states differ in the cycle counters alone. -/
def State.Alike (s t : State) : Prop := ∃ c, t = s.recount c

theorem State.Alike.forgetCycles {s t : State} (h : s.Alike t) : s.forgetCycles = t.forgetCycles := by
  obtain ⟨c, rfl⟩ := h
  rfl

theorem alike_of_forgetCycles {s t : State} (h : s.forgetCycles = t.forgetCycles) : s.Alike t := by
  refine ⟨⟨t.excycles, t.addcycles, t.processorCycles⟩, ?_⟩
  calc t = t.forgetCycles.recount ⟨t.excycles, t.addcycles, t.processorCycles⟩ := rfl
    _ = s.recount ⟨t.excycles, t.addcycles, t.processorCycles⟩ := by rw [← h]; rfl

section
variable (s : State) (c : Counters)

@[simp] theorem recount_m8 : (s.recount c).m8 = s.m8 := rfl
@[simp] theorem recount_native : (s.recount c).native = s.native := rfl
@[simp] theorem recount_is816 : (s.recount c).is816 = s.is816 := rfl
@[simp] theorem recount_flag (f : Flag) : (s.recount c).flag f = s.flag f := rfl
@[simp] theorem recount_ctx : (s.recount c).ctx = s.ctx := rfl

end

/-! Operations on the registers. -/

namespace State.Alike

variable {s t : State}

theorem refl (s : State) : s.Alike s := ⟨⟨s.excycles, s.addcycles, s.processorCycles⟩, rfl⟩

theorem setNZ (h : s.Alike t) (v : Word) (w : Width) : (s.setNZ v w).Alike (t.setNZ v w) := by
  obtain ⟨c, rfl⟩ := h
  exact ⟨c, rfl⟩

theorem setC16 (h : s.Alike t) (v : Word) : (s.setC16 v).Alike (t.setC16 v) := by
  obtain ⟨c, rfl⟩ := h
  refine ⟨c, ?_⟩
  rw [State.setC16, State.setC16, recount_m8]
  split <;> rfl

theorem withDbr (h : s.Alike t) (bank : Byte) : ({ s with dbr := bank } : State).Alike { t with dbr := bank } := by
  obtain ⟨c, rfl⟩ := h
  exact ⟨c, rfl⟩

theorem migrateA (h : s.Alike t) (oldM newM : Bool) : (s.migrateA oldM newM).Alike (t.migrateA oldM newM) := by
  obtain ⟨c, rfl⟩ := h
  exact ⟨c, by cases oldM <;> cases newM <;> rfl⟩

theorem truncateIndex (h : s.Alike t) (eight : Bool) : (s.truncateIndex eight).Alike (t.truncateIndex eight) := by
  obtain ⟨c, rfl⟩ := h
  exact ⟨c, by cases eight <;> rfl⟩

theorem setP (h : s.Alike t) (v : Byte) : (s.setP v).Alike (t.setP v) := by
  obtain ⟨c, rfl⟩ := h
  have hv : ({ s with p := v } : State).Alike { s.recount c with p := v } := ⟨c, rfl⟩
  rw [State.setP, State.setP, recount_native]
  split
  · exact (hv.migrateA (s.flag .M) (v.getLsbD Flag.M.bit)).truncateIndex (v.getLsbD Flag.X.bit)
  · exact ⟨c, rfl⟩

theorem chargeCrossing (h : s.Alike t) (base r : Word) : (s.chargeCrossing base r).Alike (t.chargeCrossing base r) := by
  obtain ⟨c, rfl⟩ := h
  have charged : ∀ u : State, ∃ n, u.chargeCrossing base r = { u with excycles := n } := fun u => by
    unfold State.chargeCrossing
    split <;> exact ⟨_, rfl⟩
  obtain ⟨n, hs⟩ := charged s
  obtain ⟨n', ht⟩ := charged (s.recount c)
  rw [hs, ht]
  exact ⟨{ c with excycles := n' }, rfl⟩

theorem repeatUnlessDone (h : s.Alike t) (n : Word) : (s.repeatUnlessDone n).Alike (t.repeatUnlessDone n) := by
  obtain ⟨c, rfl⟩ := h
  unfold State.repeatUnlessDone
  split <;> exact ⟨c, rfl⟩

theorem mask (h : s.Alike t) (e : Exc) : (e.mask s).Alike (e.mask t) := by
  obtain ⟨c, rfl⟩ := h
  refine ⟨c, ?_⟩
  have hD : e.clearsD ((s.recount c).setFlag .I true) = e.clearsD (s.setFlag .I true) := by cases e <;> rfl
  unfold Exc.mask
  dsimp only
  rw [hD]
  cases e.clearsD (s.setFlag .I true)
  · show (if (s.recount c).is816 then _ else _) = State.recount (if s.is816 then _ else _) c
    rw [recount_is816]
    split <;> rfl
  · show (if (s.recount c).is816 then _ else _) = State.recount (if s.is816 then _ else _) c
    rw [recount_is816]
    split <;> rfl

theorem toEmulation (h : s.Alike t) : s.toEmulation.Alike t.toEmulation := by
  obtain ⟨c, rfl⟩ := h
  refine ⟨c, ?_⟩
  cases hM : s.flag .M <;>
    simp only [State.toEmulation, recount_flag, hM, Bool.false_eq_true, if_true, if_false] <;> rfl

end State.Alike

/-! Operations that may fault. -/

/-- Two operations end in the same fault, or both in what `R` relates. -/
inductive Lifted {α : Type} (R : α → α → Prop) : Except Fault α → Except Fault α → Prop where
  | ok {a b : α} (h : R a b) : Lifted R (.ok a) (.ok b)
  | error (f : Fault) : Lifted R (.error f) (.error f)

/-- The same value, and states that differ in the cycle counters alone. -/
def SameValue {α : Type} (x y : α × State) : Prop := x.1 = y.1 ∧ x.2.Alike y.2

namespace Lifted

variable {α β : Type} {Q : β → β → Prop}

/-- Both operations fault alike, or both complete. -/
theorem outcomes {e e' : Except Fault β} (h : Lifted Q e e') :
    (∃ f, e = .error f ∧ e' = .error f) ∨ ∃ a b, Q a b ∧ e = .ok a ∧ e' = .ok b := by
  cases h with
  | error f => exact .inl ⟨f, rfl, rfl⟩
  | ok h => exact .inr ⟨_, _, h, rfl, rfl⟩

theorem bind {e e' : Except Fault State} {g g' : State → Except Fault β} (h : Lifted State.Alike e e')
    (hg : ∀ u c, Lifted Q (g u) (g' (u.recount c))) : Lifted Q (e >>= g) (e' >>= g') := by
  cases h with
  | error f => exact .error f
  | ok h =>
    obtain ⟨c, rfl⟩ := h
    exact hg _ c

theorem bindValue {e e' : Except Fault (α × State)} {g g' : α × State → Except Fault β}
    (h : Lifted SameValue e e') (hg : ∀ v u c, Lifted Q (g (v, u)) (g' (v, u.recount c))) :
    Lifted Q (e >>= g) (e' >>= g') := by
  cases h with
  | error f => exact .error f
  | @ok a b h =>
    obtain ⟨v, u⟩ := a
    obtain ⟨v', u'⟩ := b
    obtain ⟨rfl, c, rfl⟩ := h
    exact hg v u c

theorem finish {e e' : Except Fault State} (h : Lifted State.Alike e e') :
    forgetCyclesOf (finish e) = forgetCyclesOf (finish e') := by
  cases h with
  | error f => rfl
  | ok h => exact congrArg Host.Outcome.next h.forgetCycles

end Lifted

section
variable (s : State) (c : Counters)

theorem memRead1_recount (addr : Long) : Lifted SameValue (memRead1 addr s) (memRead1 addr (s.recount c)) := by
  show Lifted SameValue
    (if s.cfg.memSize ≤ addr.toNat then _ else if s.cfg.ioRead.contains addr.toNat then _ else _)
    (if s.cfg.memSize ≤ addr.toNat then _ else if s.cfg.ioRead.contains addr.toNat then _ else _)
  split
  · exact .error _
  · split <;> exact .ok ⟨rfl, c, rfl⟩

theorem memWrite1_recount (addr : Long) (v : Byte) :
    Lifted State.Alike (memWrite1 addr v s) (memWrite1 addr v (s.recount c)) := by
  show Lifted State.Alike
    (if s.cfg.memSize ≤ addr.toNat then _ else if s.cfg.ioWrite.contains addr.toNat then _ else _)
    (if s.cfg.memSize ≤ addr.toNat then _ else if s.cfg.ioWrite.contains addr.toNat then _ else _)
  split
  · exact .error _
  · split <;> exact .ok ⟨c, rfl⟩

theorem rd_recount (ea : Ea) (w : Width) : Lifted SameValue (rd ea w s) (rd ea w (s.recount c)) := by
  refine (memRead1_recount s c _).bindValue fun lo u d => ?_
  cases w with
  | w8 => exact .ok ⟨rfl, d, rfl⟩
  | w16 => exact (memRead1_recount u d _).bindValue fun hi u' d' => .ok ⟨rfl, d', rfl⟩

theorem wr_recount (ea : Ea) (w : Width) (v : Word) : Lifted State.Alike (wr ea w v s) (wr ea w v (s.recount c)) := by
  refine (memWrite1_recount s c _ _).bind fun u d => ?_
  cases w with
  | w8 => exact .ok ⟨d, rfl⟩
  | w16 => exact memWrite1_recount u d _ _

theorem read16Bank0_recount (lo hi : Word) :
    Lifted SameValue (read16Bank0 lo hi s) (read16Bank0 lo hi (s.recount c)) :=
  (memRead1_recount s c _).bindValue fun _ u d =>
    (memRead1_recount u d _).bindValue fun _ _ d' => .ok ⟨rfl, d', rfl⟩

theorem ptr24B0_recount (q : Word) : Lifted SameValue (ptr24B0 q s) (ptr24B0 q (s.recount c)) :=
  (read16Bank0_recount s c _ _).bindValue fun _ u d =>
    (memRead1_recount u d _).bindValue fun _ _ d' => .ok ⟨rfl, d', rfl⟩

theorem indTarget_recount (q : Word) : Lifted SameValue (indTarget q s) (indTarget q (s.recount c)) :=
  read16Bank0_recount s c _ _

theorem iaxTarget_recount (q : Word) : Lifted SameValue (iaxTarget q s) (iaxTarget q (s.recount c)) :=
  (memRead1_recount s c _).bindValue fun _ u d =>
    (memRead1_recount u d _).bindValue fun _ _ d' => .ok ⟨rfl, d', rfl⟩

theorem fetch8_recount : Lifted SameValue (fetch8 s) (fetch8 (s.recount c)) :=
  (memRead1_recount s c _).bindValue fun _ _ d => .ok ⟨rfl, d, rfl⟩

theorem push8_recount (v : Byte) : Lifted State.Alike (push8 v s) (push8 v (s.recount c)) :=
  (memWrite1_recount s c _ _).bind fun _ d => .ok ⟨d, rfl⟩

theorem push16_recount (v : Word) : Lifted State.Alike (push16 v s) (push16 v (s.recount c)) :=
  (push8_recount s c _).bind fun u d => push8_recount u d _

theorem pushW_recount (w : Width) (v : Word) : Lifted State.Alike (pushW w v s) (pushW w v (s.recount c)) := by
  cases w
  · exact push8_recount s c _
  · exact push16_recount s c v

theorem pull8_recount : Lifted SameValue (pull8 s) (pull8 (s.recount c)) :=
  memRead1_recount { s with sp := s.wrapSp (s.sp + 1) } c _

theorem pull16_recount : Lifted SameValue (pull16 s) (pull16 (s.recount c)) :=
  (pull8_recount s c).bindValue fun _ u d => (pull8_recount u d).bindValue fun _ _ d' => .ok ⟨rfl, d', rfl⟩

theorem pullW_recount (w : Width) : Lifted SameValue (pullW w s) (pullW w (s.recount c)) := by
  cases w
  · exact (pull8_recount s c).bindValue fun _ _ d => .ok ⟨rfl, d, rfl⟩
  · exact pull16_recount s c

theorem effAddr_recount (m : Mem) : Lifted SameValue (effAddr m s) (effAddr m (s.recount c)) := by
  cases m with
  | dp | dpx | dpy | abs | abl | alx | sr => exact .ok ⟨rfl, c, rfl⟩
  | abx a | aby a => exact .ok ⟨rfl, State.Alike.chargeCrossing ⟨c, rfl⟩ a _⟩
  | izx | izp => exact (read16Bank0_recount s c _ _).bindValue fun _ _ d => .ok ⟨rfl, d, rfl⟩
  | izy =>
    exact (read16Bank0_recount s c _ _).bindValue fun ptr _ d =>
      .ok ⟨rfl, State.Alike.chargeCrossing ⟨d, rfl⟩ ptr _⟩
  | idl | idly => exact (ptr24B0_recount s c _).bindValue fun _ _ d => .ok ⟨rfl, d, rfl⟩
  | sry => exact (read16Bank0_recount s c _ _).bindValue fun _ _ d => .ok ⟨rfl, d, rfl⟩

theorem readOperand_recount (w : Width) (o : Operand) :
    Lifted SameValue (readOperand w o s) (readOperand w o (s.recount c)) := by
  cases o with
  | imm v => exact .ok ⟨rfl, c, rfl⟩
  | mem m => exact (effAddr_recount s c m).bindValue fun ea u d => rd_recount u d ea w

theorem storeThrough_recount (w : Width) (m : Mem) (v : Word) :
    Lifted State.Alike (storeThrough w m v s) (storeThrough w m v (s.recount c)) :=
  (effAddr_recount s c m).bindValue fun ea u d => wr_recount u d ea w v

theorem modify_recount {f : Word → State → Word × State}
    (hf : ∀ v u d, f v (u.recount d) = ((f v u).1, (f v u).2.recount d)) (g : Target) :
    Lifted State.Alike (modify g f s) (modify g f (s.recount c)) := by
  cases g with
  | acc =>
    have h : f (s.recount c).acc (s.recount c) = _ := hf s.acc s c
    rw [modify, modify, h]
    exact .ok ⟨c, rfl⟩
  | mem m =>
    refine (effAddr_recount s c m).bindValue fun ea u d => (rd_recount u d _ _).bindValue fun old u' d' => ?_
    dsimp only
    rw [hf]
    exact wr_recount _ d' _ _ _

theorem pushBank_recount : Lifted State.Alike (pushBank s) (pushBank (s.recount c)) := by
  unfold pushBank
  rw [recount_native]
  split
  · exact push8_recount s c _
  · exact .ok ⟨c, rfl⟩

theorem takeException_recount (e : Exc) (ret : Word) :
    Lifted State.Alike (takeException e ret s) (takeException e ret (s.recount c)) := by
  refine (pushBank_recount s c).bind fun u1 c1 => (push16_recount u1 c1 ret).bind fun u2 c2 => ?_
  refine (push8_recount u2 c2 _).bind fun u3 c3 => ?_
  obtain ⟨c4, hmask⟩ := State.Alike.mask (s := u3) ⟨c3, rfl⟩ e
  rw [hmask]
  exact (read16Bank0_recount _ c4 _ _).bindValue fun _ _ d => .ok ⟨d, rfl⟩

theorem pullBank_recount : Lifted State.Alike (pullBank s) (pullBank (s.recount c)) := by
  unfold pullBank
  rw [recount_native]
  split
  · exact (pull8_recount s c).bindValue fun _ _ d => .ok ⟨d, rfl⟩
  · exact .ok ⟨c, rfl⟩

theorem returnFromException_recount :
    Lifted State.Alike (returnFromException s) (returnFromException (s.recount c)) := by
  refine (pull8_recount s c).bindValue fun image u d => ?_
  obtain ⟨d1, hP⟩ := State.Alike.setP (s := u) ⟨d, rfl⟩ image
  dsimp only
  rw [hP]
  exact (pull16_recount _ d1).bindValue fun ret u' d' => pullBank_recount { u' with pc := ret } d'

theorem blockMove_recount (dir : Word) (dst src : Byte) :
    Lifted State.Alike (blockMove dir dst src s) (blockMove dir dst src (s.recount c)) := by
  refine (memRead1_recount s c _).bindValue fun v u d => (memWrite1_recount u d _ _).bind fun u' d' => ?_
  exact .ok (State.Alike.repeatUnlessDone (State.Alike.withDbr (State.Alike.setC16 ⟨d', rfl⟩ _) dst) _)

end

end Sys2Proof.Machine
end

section
namespace Sys2Proof.Machine

/-! States that differ in the cycle counters alone step alike (70_reset_and_hazards.md R470). -/

section
variable (s : State) (c : Counters)

/-- A register set to a read operand. -/
theorem load_recount (w : Width) {set : State → Word → State} (o : Operand)
    (hset : ∀ (u : State) v d, set (u.recount d) v = (set u v).recount d) :
    forgetCyclesOf (load w set o s) = forgetCyclesOf (load w set o (s.recount c)) := by
  refine Lifted.finish <| (readOperand_recount s c w o).bindValue fun v u d => .ok ?_
  exact State.Alike.setNZ ⟨d, hset u v d⟩ v w

theorem pullInto_recount (w : Width) {set : State → Word → State}
    (hset : ∀ (u : State) v d, set (u.recount d) v = (set u v).recount d) :
    forgetCyclesOf (pullInto w set s) = forgetCyclesOf (pullInto w set (s.recount c)) := by
  refine Lifted.finish <| (pullW_recount s c w).bindValue fun v u d => .ok ?_
  exact State.Alike.setNZ ⟨d, hset u v d⟩ v w

theorem logic_recount (op : Word → Word → Word) (o : Operand) :
    forgetCyclesOf (logic op o s) = forgetCyclesOf (logic op o (s.recount c)) :=
  Lifted.finish <| (readOperand_recount s c _ o).bindValue fun _ _ d => .ok ⟨d, rfl⟩

theorem branch_recount (taken : Bool) (disp : Byte) :
    forgetCyclesOf (branch taken disp s) = forgetCyclesOf (branch taken disp (s.recount c)) := by
  cases taken <;> rfl

theorem branchOnBit_recount (n : Nat) (want : Bool) (off disp : Byte) :
    forgetCyclesOf (branchOnBit n want off disp s) = forgetCyclesOf (branchOnBit n want off disp (s.recount c)) := by
  refine Lifted.finish <| (memRead1_recount s c _).bindValue fun m u d => .ok ?_
  split
  · exact ⟨{ d with excycles := d.excycles + u.bitBranchCycles (u.relTarget disp) }, rfl⟩
  · exact ⟨d, rfl⟩

theorem setMemBit_recount (n : Nat) (v : Bool) (off : Byte) :
    forgetCyclesOf (setMemBit n v off s) = forgetCyclesOf (setMemBit n v off (s.recount c)) :=
  Lifted.finish <| (memRead1_recount s c _).bindValue fun _ u d => memWrite1_recount u d _ _

theorem jsr_recount (f : JsrForm) : forgetCyclesOf (execJsr f s) = forgetCyclesOf (execJsr f (s.recount c)) := by
  refine Lifted.finish <| (push16_recount s c _).bind fun u d => ?_
  cases f with
  | abj a => exact .ok ⟨d, rfl⟩
  | iax q => exact (iaxTarget_recount u d q).bindValue fun _ _ d' => .ok ⟨d', rfl⟩

theorem exchange_recount : forgetCyclesOf (execXce s) = forgetCyclesOf (execXce (s.recount c)) := by
  refine congrArg Host.Outcome.next (State.Alike.forgetCycles ?_)
  show State.Alike (if s.flag .C = (s.mode == .emulation) then _ else if s.flag .C then _ else _)
    (if s.flag .C = (s.mode == .emulation) then _ else if s.flag .C then _ else _)
  split
  · exact ⟨c, rfl⟩
  · split
    · exact State.Alike.toEmulation ⟨c, rfl⟩
    · exact ⟨c, rfl⟩

theorem stepValue_recount (k v : Word) (u : State) (d : Counters) :
    stepValue k v (u.recount d) = ((stepValue k v u).1, (stepValue k v u).2.recount d) := rfl

/-- Every instruction has the same outcome but for the counters. -/
theorem exec_recount (i : Instr) : forgetCyclesOf (exec i s) = forgetCyclesOf (exec i (s.recount c)) := by
  have hnext : ∀ {u t : State}, u.Alike t → forgetCyclesOf (.next u) = forgetCyclesOf (.next t) :=
    fun h => congrArg Host.Outcome.next h.forgetCycles
  have c16 : ∀ v, (s.setC16 v).Alike ((s.recount c).setC16 v) := State.Alike.setC16 ⟨c, rfl⟩
  cases i
  case lda => exact load_recount s c _ _ fun _ _ _ => rfl
  case ldx => exact load_recount s c _ _ fun _ _ _ => rfl
  case ldy => exact load_recount s c _ _ fun _ _ _ => rfl
  case pla | plx | ply => exact pullInto_recount s c _ fun _ _ _ => rfl
  case and | ora | eor => exact logic_recount s c _ _
  case sta | stx | sty | stz => exact Lifted.finish <| storeThrough_recount s c _ _ _
  case inc g | dec g => exact Lifted.finish <| modify_recount s c (stepValue_recount _) g
  case tsb | trb => exact Lifted.finish <| modify_recount s c (fun _ _ _ => rfl) _
  case asl | lsr | rol | ror => exact Lifted.finish <| modify_recount s c (fun _ _ _ => rfl) _
  case adc | sbc | cmp | cpx | cpy =>
    exact Lifted.finish <| (readOperand_recount s c _ _).bindValue fun _ _ d => .ok ⟨d, rfl⟩
  case bit o =>
    exact Lifted.finish <| (readOperand_recount s c _ _).bindValue fun _ _ d => by cases o <;> exact .ok ⟨d, rfl⟩
  case tdc | tsc | xba => exact hnext ((c16 _).setNZ _ _)
  case tax | tay | txa | tya | tsx | txs | txy | tyx | tcd | tcs | inx | iny | dex | dey | brl
      | clc | sec | cli | sei | cld | sed | clv | wai | stp | nop | wdm => rfl
  case rmb0 | rmb1 | rmb2 | rmb3 | rmb4 | rmb5 | rmb6 | rmb7 | smb0 | smb1 | smb2 | smb3 | smb4 | smb5 | smb6 | smb7 =>
    exact setMemBit_recount s c _ _ _
  case bpl | bmi | bvc | bvs | bcc | bcs | bne | beq | bra => exact branch_recount s c _ _
  case bbr0 | bbr1 | bbr2 | bbr3 | bbr4 | bbr5 | bbr6 | bbr7 | bbs0 | bbs1 | bbs2 | bbs3 | bbs4 | bbs5 | bbs6 | bbs7 =>
    exact branchOnBit_recount s c _ _ _ _
  case jmp f =>
    cases f with
    | abj a => rfl
    | ind q => exact Lifted.finish <| (indTarget_recount s c q).bindValue fun _ _ d => .ok ⟨d, rfl⟩
    | iax q => exact Lifted.finish <| (iaxTarget_recount s c q).bindValue fun _ _ d => .ok ⟨d, rfl⟩
  case jml f =>
    cases f with
    | abl a => rfl
    | ial q => exact Lifted.finish <| (ptr24B0_recount s c q).bindValue fun _ _ d => .ok ⟨d, rfl⟩
  case jsr f => exact jsr_recount s c f
  case jsl l =>
    exact Lifted.finish <| (push8_recount s c _).bind fun u d =>
      (push16_recount u d _).bind fun _ d' => .ok ⟨d', rfl⟩
  case rts => exact Lifted.finish <| (pull16_recount s c).bindValue fun _ _ d => .ok ⟨d, rfl⟩
  case rtl =>
    exact Lifted.finish <| (pull16_recount s c).bindValue fun _ u d => (pull8_recount u d).bindValue fun _ _ d' =>
      .ok ⟨d', rfl⟩
  case pha | phx | phy => exact Lifted.finish <| pushW_recount s c _ _
  case php | phb | phk => exact Lifted.finish <| push8_recount s c _
  case phd | pea | per => exact Lifted.finish <| push16_recount s c _
  case pei off =>
    exact Lifted.finish <| (effAddr_recount s c _).bindValue fun ea u d =>
      (rd_recount u d ea _).bindValue fun _ u' d' => push16_recount u' d' _
  case plp => exact Lifted.finish <| (pull8_recount s c).bindValue fun v _ d => .ok (State.Alike.setP ⟨d, rfl⟩ v)
  case plb => exact Lifted.finish <| (pull8_recount s c).bindValue fun _ _ d => .ok ⟨d, rfl⟩
  case pld => exact Lifted.finish <| (pull16_recount s c).bindValue fun _ _ d => .ok ⟨d, rfl⟩
  case rep | sep => exact hnext (State.Alike.setP ⟨c, rfl⟩ _)
  case xce => exact exchange_recount s c
  case mvn | mvp => exact Lifted.finish <| blockMove_recount s c _ _ _
  case brk | cop => exact Lifted.finish <| takeException_recount s c _ _
  case rti => exact Lifted.finish <| returnFromException_recount s c
  case illegal => rfl

/-! The step around the instruction (30_encoding.md R103). -/

theorem takeIrq_recount : Lifted State.Alike (takeIrq s) (takeIrq (s.recount c)) := by
  show Lifted State.Alike (if s.irq && !s.flag .I then _ else _) (if s.irq && !s.flag .I then _ else _)
  split
  · exact takeException_recount s c .irq s.pc
  · exact .ok ⟨c, rfl⟩

theorem fetchBytes_recount (n : Nat) : Lifted SameValue (fetchBytes n s) (fetchBytes n (s.recount c)) := by
  induction n generalizing s c with
  | zero => exact .ok ⟨rfl, c, rfl⟩
  | succ n ih =>
    exact (fetch8_recount s c).bindValue fun _ u d => (ih u d).bindValue fun _ _ d' => .ok ⟨rfl, d', rfl⟩

theorem fetchOperands_recount (e : Entry) (op : Byte) :
    Lifted SameValue (fetchOperands e op s) (fetchOperands e op (s.recount c)) := by
  show Lifted SameValue (if s.skipsDisplacement op then _ else _) (if s.skipsDisplacement op then _ else _)
  split
  · exact .ok ⟨rfl, c, rfl⟩
  · exact fetchBytes_recount s c _

theorem fetchInstr_recount : Lifted SameValue (fetchInstr s) (fetchInstr (s.recount c)) := by
  refine (fetch8_recount s c).bindValue fun op u d => ?_
  refine (fetchOperands_recount (u.startCount op) ⟨0, extraFlag u.cfg op, d.processorCycles⟩ _ op).bindValue
    fun bs u' d' => ?_
  cases hb : (entryOf (u.startCount op).ctx op).build u'.ctx bs
  all_goals
    have hb' : (entryOf ((u.recount d).startCount op).ctx op).build (u'.recount d').ctx bs = _ := hb
    dsimp only
    rw [hb, hb']
    exact .ok ⟨rfl, d', rfl⟩

theorem forgetCyclesOf_countCycles (base : Nat) (r : Result) :
    forgetCyclesOf (countCycles base r) = forgetCyclesOf r := by
  cases r <;> rfl

theorem step_recount : forgetCyclesOf (step s) = forgetCyclesOf (step (s.recount c)) := by
  cases hw : s.waiting
  · have hw' : (s.recount c).waiting = false := hw
    rw [step, step, if_neg (by simp [hw]), if_neg (by simp [hw'])]
    rcases (takeIrq_recount s c).outcomes with ⟨f, hs, ht⟩ | ⟨u, _, ⟨d, rfl⟩, hs, ht⟩ <;> rw [hs, ht]
    dsimp only
    rcases (fetchInstr_recount u d).outcomes with
      ⟨f, hu, hv⟩ | ⟨⟨f, v⟩, ⟨_, _⟩, ⟨rfl, d', rfl⟩, hu, hv⟩ <;> rw [hu, hv]
    dsimp only
    rw [forgetCyclesOf_countCycles, forgetCyclesOf_countCycles]
    exact exec_recount v d' _
  · have hw' : (s.recount c).waiting = true := hw
    rw [step_of_waiting hw, step_of_waiting hw']
    rfl

end

/-- Settles O12: every operation of a step gives alike states from alike states. -/
theorem cycleCountersDecideNothing : Obligations.CycleCountersDecideNothing := by
  intro s t h
  obtain ⟨c, rfl⟩ := alike_of_forgetCycles h
  exact step_recount s c

end Sys2Proof.Machine
end
